-- ==== Sys2Proof/Word.lean ====
section
/-!
DEFINITION. The plainest types of the model: words, bytes, and the fixed sets of names that several files share
(Tables 01.3, 01.8, 03.2, 14.2 and 15.1 of the spec).
-/
namespace Sys2Proof

/-- A 32-bit register or memory word. -/
abbrev Word := BitVec 32

/-- A byte of a memory. -/
abbrev Byte := BitVec 8

/-- A master ID of Table 13.4; bit 7 names the die. -/
abbrev Master := BitVec 8

/-- The two control dies (R314). -/
inductive Die where
  | cope | drag
deriving DecidableEq, Repr

namespace Die

/-- The die's code in CD_STATUS.ACTIVE and CORE_ID[9] (Table 11.12): 0 cope, 1 drag. -/
def code : Die → Nat
  | cope => 0
  | drag => 1

/-- The other die. -/
def other : Die → Die
  | cope => drag
  | drag => cope

end Die

/-- A core of one die: 0-71 loop cores, 72-79 schedule cores, 80-81 management cores (Table 13.4). -/
structure CoreId where
  die : Die
  n : Fin 82
deriving DecidableEq, Repr

/-- The three kinds of core; loop cores run Cloby-L, the others Cloby-S (R236). -/
inductive CoreKind where
  | loop | schedule | management
deriving DecidableEq, Repr

namespace CoreId

/-- The master ID of a core (Table 13.4). -/
def master (c : CoreId) : Nat := c.n.val + 128 * c.die.code

/-- The kind of a core by its number. -/
def kind (c : CoreId) : CoreKind :=
  if c.n.val < 72 then .loop else if c.n.val < 80 then .schedule else .management

/-- The core number inside its kind: LC0-LC71, SC0-SC7, MC0-MC1. -/
def index (c : CoreId) : Nat :=
  if c.n.val < 72 then c.n.val else if c.n.val < 80 then c.n.val - 72 else c.n.val - 80

end CoreId

/-- The states of a switching cell (Table 03.2). -/
inductive CellState where
  | bar | cross | keep | retired
deriving DecidableEq, Repr

namespace CellState

/-- The two-bit code of Table 03.2. -/
def code : CellState → Nat
  | bar => 0
  | cross => 1
  | keep => 2
  | retired => 3

end CellState

end Sys2Proof
end

