-- ==== Sys2Proof/Syntax.lean ====
section
/-!
DEFINITION. The commands of the block: one constructor of `Instr` for each row of spec/opcode_table.json, in the table's
order. A command that is a register write carries the master that issued it (Table 13.4); a command that is a happening
inside the engine carries what the environment alone knows of it (a reading, a measured result, a frame's contents).
The Cloby commands carry the core that executes them and the fields of their encoding form (Table 11.2).
-/
namespace Sys2Proof

/-- Form A of Table 11.2: three registers and a shift. The function is the constructor's. -/
structure FormA where
  rd : BitVec 5
  rs : BitVec 5
  rt : BitVec 5
  sh : BitVec 5
deriving DecidableEq, Repr

/-- Form B of Table 11.2: two registers and a 16-bit immediate. -/
structure FormB where
  rd : BitVec 5
  rs : BitVec 5
  imm : BitVec 16
deriving DecidableEq, Repr

/-- Form C of Table 11.2: a branch condition and a signed offset in words. -/
structure FormC where
  cond : BitVec 5
  off : BitVec 21
deriving DecidableEq, Repr

/-- Form D of Table 11.2: two registers, a short condition and an index. The sub-operation is the constructor's. -/
structure FormD where
  rd : BitVec 5
  rs : BitVec 5
  cond : BitVec 3
  index : BitVec 10
deriving DecidableEq, Repr

/-- One write as it reaches the bus matrix: its offset in its region, its size in bytes, the bytes as one
little-endian number, and whether its byte enables are contiguous and, above 8 bytes, all set at its ends (R283). -/
structure BusWrite where
  off : Nat
  size : Nat
  value : Nat
  shapeOk : Bool
deriving DecidableEq, Repr

/-- The fields common to every job descriptor (Table 12.1): ring, FLAGS, and the bytes a host must write zero. -/
structure Desc where
  pf : Fin 2
  evt : Bool
  recovery : Bool
  tag : BitVec 32
  zeroOk : Bool
deriving DecidableEq, Repr

/-- A DATA frame as it reaches the ladle die after the checks of R194 (Table 08.6); `whole` says that all of it has been
received and checked, otherwise its header and first 256 bytes have and the rest is still coming in (R213, R215). -/
structure DataFrame where
  src : Fin 512
  dst : Fin 1024
  cls : Fin 8
  flow : Fin 2097152
  seq : BitVec 16
  mcast : Bool
  payload : List Byte
  trailer : Word
  whole : Bool
deriving DecidableEq, Repr

/-- LEN of a frame: its payload in bytes (Table 08.6). -/
def DataFrame.len (f : DataFrame) : Nat := f.payload.length

/-- A codeword as a receiver finds it: the number of its symbols in error, and the 5,140 message bits, still scrambled, of the
RS(544,514) codeword that lies nearest (R176, R177). -/
structure RxWord where
  errors : Nat
  bits : BitVec 5140
deriving DecidableEq, Repr

/-- One lane of a burst as received: the start delimiter found on it, and its codewords in order (R175, R176). -/
structure RxLane where
  delimiter : BitVec 128
  words : List RxWord
deriving DecidableEq, Repr

/-- A reading of one monitor over a path from S0 (R121): the monitor, the cells on the path, the DC level that the light of REF_IN
gives, and the monitor's zero by the dark inputs. -/
structure Reading where
  monitor : Nat
  cells : List Nat
  dc : Int
  dark : Int
deriving DecidableEq, Repr

/-- What calibration has measured of one object (Table 06.2). Sums are of 1,024 raw conversions.
TREF: `a` of the tile reference, `b` of VREF_EXT, `c` VREF_EXT in uV by the tile's bandgap (R118). ADC_OFS, ADC_GAIN: `a` of the
channel's zero or tile reference. EO_CODE: `sweeps`. HEFF: `a` the EO code that restores the cross minimum after the heater step
(R122). DITHER: `a` the ESCALE, `b` the dither gain in 0.001 of design, `c` the dither in 0.001 % of the element's half-wave voltage. KXT:
`a` the integrator's shift in Q12.4, `b` the neighbours that changed state. RESP and LOSS: `readings` (R121); RESP of an element tap:
`a` its deviation from design in 0.01 dB. -/
structure Measured where
  /-- quantity code, 0x1-0x9 -/
  quantity : Fin 16
  /-- object index: element, monitor, tile, ADC channel, cell or core port -/
  object : Nat
  a : Int
  b : Int
  c : Int
  /-- tap powers at 64 codes about each expected minimum: cross and bar on the 6 V span, cross and bar on the 12 V span (R122) -/
  sweeps : List (List Nat)
  readings : List Reading
deriving DecidableEq, Repr

/-- The contents of one image slot as the boot ROM finds it (R352). -/
structure ImageSlot where
  present : Bool
  verifies : Bool
  compat : BitVec 16
deriving DecidableEq, Repr

/-- One entry of a mould library in host memory (Table 12.5): target, base, and the ten-bit assignment of each output. -/
structure LibEntry where
  target : BitVec 13
  base : Option (BitVec 13)
  assign : List (BitVec 10)
deriving DecidableEq, Repr

/-- A heat image in host memory (R270): the three base words and the configuration, the slot records, and the compile
entries. -/
structure HeatImage where
  base : BitVec 96
  cfg : Word
  records : List (BitVec 64)
  entries : List LibEntry
deriving DecidableEq, Repr

/-- The causes of a shakeout (Table 01.13, KEEP_CAUSE). -/
inductive ShakeCause where
  | host | fault | thermal | warm
deriving DecidableEq, Repr

/-- How a job's work ended (Table 12.6 gives the causes). -/
inductive JobEnd where
  | done
  | failed (cause : Fin 16)
deriving DecidableEq, Repr

/-- The commands: one constructor per row of the operation table. -/
inductive Instr where
  -- start-up and reset
  | powerOn
  | coldResetAssert (rstN : Bool)
  | powerGood
  | bootComplete (dieA dieB loopA loopB policyA policyB : ImageSlot) (otpOk : Bool)
  | linkReset
  | functionLevelReset (pf : Fin 2)
  | warmReset (m : Master) (key : BitVec 16)
  | coldReset (m : Master) (key : BitVec 16)
  | rcvLoad (m : Master) (key : BitVec 16) (kind : Fin 4) (slotB : Bool) (imageKind : Fin 256) (verifies flashOk : Bool)
  | vkeepLow
  -- state requests
  | requestKeep (m : Master)
  | requestHold (m : Master)
  | requestRun (m : Master)
  | requestTest (m : Master)
  | requestNormal (m : Master)
  | holdEntered
  | powerUpCalPass
  | powerUpCalFail
  | powerUpCalRetry
  | baseHeatStart
  | drainComplete
  | drainTimeout
  | runToHoldPour
  | shakeout (cause : ShakeCause)
  | zeroHold
  | shakeoutComplete
  -- pilot verification
  | pilotContribution (out : Fin 592) (corr : Int) (power : Nat)
  | pilotVerdict (out : Fin 592)
  | pilotCtrlWrite (m : Master) (v : Word)
  -- moulds and pours
  | mldCmpReq (m : Master) (v : Word)
  | compileStart
  | compileComplete
  | stagingStart
  | tileSeal (t : Fin 16)
  | ditherGateOff
  | pour
  | ditherResume
  -- tiles
  | spanChangeStart (m : Master) (t : Fin 16) (n : Fin 21) (v : Word)
  | spanChangeEnd (t : Fin 16) (dac : Fin 644)
  | slewStep (t : Fin 16) (heater : Bool)
  | adcRoundStart (t : Fin 16) (roundD : Bool)
  | adcConversion (t : Fin 16) (ch : Fin 48) (raw : BitVec 14) (range : Int)
  | tileUrgReq (m : Master) (t : Fin 16) (v : Word)
  | urgentResult (t : Fin 16) (ch : Fin 48) (raw : BitVec 14) (range : Int)
  | spareTakeover (m : Master) (t : Fin 16) (sp : Fin 3) (src : Fin 64)
  | spareReturn (m : Master) (t : Fin 16) (sp : Fin 3) (src : Fin 64)
  | spareSwitch (t : Fin 16) (sp : Fin 3)
  | frameDelivery (t : Fin 16)
  | outputMismatch (t : Fin 16) (heater : Bool) (ch : Fin 681)
  | actuatorWrite (d : Die) (t : Fin 16) (heater : Bool) (ch : Fin 681) (v : Int)
  | pendingWriteApply (t : Fin 16)
  | vhtrWindow (t : Fin 16) (mv : BitVec 16)
  | vhtrFault (t : Fin 16)
  -- loops
  | loopPass (d : Die) (k : Fin 72) (cycles : Nat)
  | loopLockAcquired (loop : Fin 10896)
  | lockLoss (loop : Fin 10896)
  | lockTimeout (loop : Fin 10896)
  | pinned (loop : Fin 10896)
  | starved (loop : Fin 10896)
  | loopOverrun (k : Fin 72)
  | flaskHandover (m : Master) (f : Fin 64) (next : Fin 128) (shadow : Fin 16)
  | handoverCopy (f : Fin 64)
  | handoverSwap (f : Fin 64)
  | loopCmdOpen (m : Master) (index : Fin 16384)
  | loopCmdClose (m : Master) (index : Fin 16384)
  | loopCmdHold (m : Master) (index : Fin 16384)
  | loopCmdRelease (m : Master) (index : Fin 16384)
  | loopCmdEffect
  -- calibration
  | fettleObject
  | calResult (r : Measured)
  | calApply (quantity : Fin 16) (object : Nat)
  | calIntegratorAdjust (element : Fin 10304)
  | calLegData0Write (m : Master) (v : Word)
  | calLegData1Write (m : Master) (v : Word)
  -- timebase
  | ppsEdge (errNs : Int)
  | todMessage (bytes : List Byte) (inWindow : Bool)
  | timeLocked
  | ppsTimeout
  | holdLimit
  | refclkLoss
  | timNow0Read (m : Master)
  | heatAct0Read (m : Master)
  -- heats
  | heatBankWrite (m : Master) (rec : Fin 4096) (v : BitVec 64)
  | heatCommit (m : Master)
  | heatValidated
  | heatCancel (m : Master)
  | heatActivate
  | epochBoundary
  -- ladle plane
  | ladleBurstReceive (port : Fin 68) (src : Fin 512) (offset : Int) (lanes : List RxLane)
  | dataFrameIngress (port : Fin 68) (f : DataFrame)
  | hello (port : Fin 512) (claimed : BitVec 16) (needNotice : Bool) (minGuard : BitVec 16)
  | demand (port : Fin 512) (entries : List (Fin 512 × BitVec 22))
  | laneMark (src dst : Fin 512) (cls : Fin 8) (serial : BitVec 32) (ladleSlot : Bool)
  | errorNote (port : Fin 512) (code : Byte)
  | helloSend
  | timeCheckSend (port : Fin 512)
  | ladleBurstSend (port : Fin 68) (output : Fin 592)
  | directHoldRelease (src dst : Fin 512) (cls : Fin 8)
  | swapArm (m : Master) (sp : Fin 4) (src : Fin 64)
  | swapReturn (m : Master) (sp : Fin 4) (src : Fin 64)
  | reservedMouldRecompile (mould : Fin 9)
  | ladlePortFail (supply : Bool) (index : Fin 68)
  | ladlePortRecover (supply : Bool) (index : Fin 68)
  | sramEccError (bank : Fin 64) (frame : Nat) (correctable headerLeft : Bool)
  | riserPrefetch (q : Fin 17408)
  | riserReadDone (q : Fin 17408) (corrected : Bool) (uncorrectable : Bool) (region : Fin 128)
  | mcReplicate (q : Fin 1024)
  | mcHoldAdmit (group : Fin 16384) (dst : Fin 512)
  | mcDrop (group : Fin 16384) (dst : Fin 512)
  | reseqSkip (flow : Fin 2097152)
  | cutThroughStomp (frame : Nat)
  | ladGrpCommit (m : Master) (v : Word)
  | shaperRefill
  | portPark (port : Fin 68)
  | portUnpark (port : Fin 68) (ready : Bool)
  -- Cloby: integer group (Table 11.5)
  | add (c : CoreId) (f : FormA)
  | sub (c : CoreId) (f : FormA)
  | and (c : CoreId) (f : FormA)
  | or (c : CoreId) (f : FormA)
  | xor (c : CoreId) (f : FormA)
  | andn (c : CoreId) (f : FormA)
  | adds (c : CoreId) (f : FormA)
  | subs (c : CoreId) (f : FormA)
  | sll (c : CoreId) (f : FormA)
  | srl (c : CoreId) (f : FormA)
  | sra (c : CoreId) (f : FormA)
  | srar (c : CoreId) (f : FormA)
  | sllv (c : CoreId) (f : FormA)
  | srlv (c : CoreId) (f : FormA)
  | srav (c : CoreId) (f : FormA)
  | min (c : CoreId) (f : FormA)
  | max (c : CoreId) (f : FormA)
  | abs (c : CoreId) (f : FormA)
  | selz (c : CoreId) (f : FormA)
  | selc (c : CoreId) (f : FormA)
  | seln (c : CoreId) (f : FormA)
  | sels (c : CoreId) (f : FormA)
  | cmp (c : CoreId) (f : FormA)
  | tst (c : CoreId) (f : FormA)
  | exh (c : CoreId) (f : FormA)
  | insh (c : CoreId) (f : FormA)
  | addi (c : CoreId) (f : FormB)
  | andi (c : CoreId) (f : FormB)
  | ori (c : CoreId) (f : FormB)
  | xori (c : CoreId) (f : FormB)
  | lui (c : CoreId) (f : FormB)
  | cmpi (c : CoreId) (f : FormB)
  | extu (c : CoreId) (f : FormB)
  | exts (c : CoreId) (f : FormB)
  | ins (c : CoreId) (f : FormB)
  -- Cloby: multiply and accumulate group (Table 11.6)
  | mula (c : CoreId) (f : FormA)
  | maca (c : CoreId) (f : FormA)
  | msua (c : CoreId) (f : FormA)
  | accr (c : CoreId) (f : FormA)
  | accw (c : CoreId) (f : FormA)
  | accz (c : CoreId) (f : FormA)
  | mulsLu (c : CoreId) (f : FormA)
  | mulsHu (c : CoreId) (f : FormA)
  | mulsLs (c : CoreId) (f : FormA)
  | mulsHs (c : CoreId) (f : FormA)
  | madLu (c : CoreId) (f : FormA)
  | madHu (c : CoreId) (f : FormA)
  | madLs (c : CoreId) (f : FormA)
  | madHs (c : CoreId) (f : FormA)
  | mulw (c : CoreId) (f : FormA)
  | lim (c : CoreId) (f : FormA)
  | limu (c : CoreId) (f : FormA)
  -- Cloby: memory and control flow (Table 11.7)
  | ldw (c : CoreId) (f : FormB)
  | ldh (c : CoreId) (f : FormB)
  | ldq (c : CoreId) (f : FormB)
  | ldr (c : CoreId) (f : FormB)
  | stw (c : CoreId) (f : FormB)
  | sth (c : CoreId) (f : FormB)
  | stq (c : CoreId) (f : FormB)
  | str (c : CoreId) (f : FormB)
  | b (c : CoreId) (f : FormC)
  | bl (c : CoreId) (f : FormC)
  | jr (c : CoreId) (f : FormA)
  -- Cloby: loop group (Table 11.8)
  | errs (c : CoreId) (f : FormA)
  | pia (c : CoreId) (f : FormA)
  | pip (c : CoreId) (f : FormA)
  | limt (c : CoreId) (f : FormA)
  | awr (c : CoreId) (f : FormA)
  | iput (c : CoreId) (f : FormA)
  | bld (c : CoreId) (f : FormA)
  | bapp (c : CoreId) (f : FormA)
  | rail (c : CoreId) (f : FormA)
  | lock (c : CoreId) (f : FormA)
  | live (c : CoreId) (f : FormB)
  -- Cloby: tile I/O (Table 11.9)
  | smpe (c : CoreId) (f : FormD)
  | smpd (c : CoreId) (f : FormD)
  | smpwe (c : CoreId) (f : FormD)
  | smpwd (c : CoreId) (f : FormD)
  | smpu (c : CoreId) (f : FormD)
  | acte (c : CoreId) (f : FormD)
  | acth (c : CoreId) (f : FormD)
  | cellx (c : CoreId) (f : FormD)
  -- Cloby: system group (Table 11.10)
  | wait (c : CoreId) (f : FormD)
  | evt (c : CoreId) (f : FormD)
  | trap (c : CoreId) (f : FormD)
  | mfs (c : CoreId) (f : FormD)
  | mts (c : CoreId) (f : FormD)
  | eret (c : CoreId) (f : FormD)
  | fence (c : CoreId) (f : FormD)
  -- Cloby-S additions (Table 11.11)
  | div (c : CoreId) (f : FormA)
  | divu (c : CoreId) (f : FormA)
  | rem (c : CoreId) (f : FormA)
  | remu (c : CoreId) (f : FormA)
  | add64 (c : CoreId) (f : FormA)
  | sub64 (c : CoreId) (f : FormA)
  | mull (c : CoreId) (f : FormA)
  | mullu (c : CoreId) (f : FormA)
  | sll64 (c : CoreId) (f : FormA)
  | srl64 (c : CoreId) (f : FormA)
  | sra64 (c : CoreId) (f : FormA)
  | cmp64 (c : CoreId) (f : FormA)
  | aswp (c : CoreId) (f : FormA)
  | aadd (c : CoreId) (f : FormA)
  | aand (c : CoreId) (f : FormA)
  | aor (c : CoreId) (f : FormA)
  | acas (c : CoreId) (f : FormA)
  | mq (c : CoreId) (f : FormD)
  | mrt (c : CoreId) (f : FormD)
  | hwr (c : CoreId) (f : FormD)
  -- firmware services (Table 11.18)
  | svcHeatCfg (c : CoreId)
  | svcHeatCommit (c : CoreId)
  | svcHeatCancel (c : CoreId)
  | svcDemand (c : CoreId)
  | svcEpoch (c : CoreId)
  | svcNote (c : CoreId)
  | matchComplete
  | waitsWake (c : CoreId)
  | coreTimerExpire (c : CoreId)
  -- jobs and claims
  | jobDoorbell (m : Master) (off : Nat) (v : Word)
  | nop (d : Desc)
  | loadImage (d : Desc) (kind : Fin 65536) (len : BitVec 32) (slotB : Bool)
  | startCalFull (d : Desc) (tiles : BitVec 16)
  | startCalTransfer (d : Desc) (tiles : BitVec 16)
  | startHeatLoad (d : Desc) (image : HeatImage)
  | startMouldLib (d : Desc) (count : BitVec 16) (entries : List LibEntry)
  | startFwActivate (d : Desc) (kind : Fin 16) (slotB : Bool)
  | startSurvey (d : Desc) (retiredOnly : Bool)
  | startRiserScrub (d : Desc) (regions : BitVec 128)
  | startElemRetire (d : Desc) (index : Fin 8192) (restore port : Bool)
  | startBankRetire (d : Desc) (bank : Fin 64)
  | startRegionRetire (d : Desc) (region : Fin 128)
  | startFlaskMove (d : Desc) (flask : Fin 64) (core : Fin 128)
  | startCoreRestart (d : Desc) (number : Fin 128) (type : Fin 4)
  | startAdcTakeover (d : Desc) (tile : Fin 16) (channel : Fin 64) (ret : Bool)
  | suspend (d : Desc) (job : BitVec 16)
  | resume (d : Desc) (job : BitVec 16)
  | cancel (d : Desc) (job : BitVec 16)
  | query (d : Desc) (job : BitVec 16)
  | commitConfig (d : Desc) (useExpect : Bool) (expect : BitVec 32)
  | claim (d : Desc) (resource : Fin 256)
  | release (d : Desc) (resource : Fin 256)
  | claimGrant (resource : Fin 71)
  | jobRun (job : BitVec 16)
  | jobSafePoint (job : BitVec 16) (progress : Nat)
  | jobComplete (job : BitVec 16) (result : JobEnd)
  | jobEntryFree (job : BitVec 16)
  | jobFlowEdit (m : Master) (v : Word)
  | jobRingCtrlWrite (m : Master) (p : Fin 2) (v : Word)
  -- registers, windows, bus
  | registerWrite (m : Master) (w : BusWrite)
  | bar2Write (m : Master) (w : BusWrite)
  | smbusReadByte (cmd : Byte)
  | smbusReadWord (cmd : Byte)
  | smbusBlockRead (cmd : Byte)
  | smbusWrite (cmd : Byte)
  | smbusWindowRefresh
  | cfgCrcPass
  | debugLock (port : Fin 256)
  | busLockForced
  | busRemapWrite (m : Master) (v : Word)
  | busSliceWrite (m : Master) (v : Word)
  | busBooted (m : Master)
  -- events
  | eventRingWrite (t : Fin 4)
  | evtAccept (m : Master) (t : Fin 4)
  | evtEoi (m : Master) (t : Fin 4)
  | holdoffExpire (t : Fin 4)
  | evtRedirWrite (m : Master) (t : Fin 4) (v : Word)
  | evtFallback (t : Fin 2)
  | evtRingCtrlWrite (m : Master) (t : Fin 4) (l : Fin 8) (v : Word)
  | evtRingHeadWrite (m : Master) (t : Fin 4) (l : Fin 8) (v : Word)
  -- cope and drag
  | heartbeatLoss
  | dieWatchdogExpire
  | arbitrationDecision (copeWord dragWord : Option Byte)
  | switchOverResume
  | cdSwitch (m : Master)
  | plannedSwitch
  | cdRemove (m : Master)
  | cdRejoin (m : Master)
  | standbyReady
  | arbiterDisagree
  | healthFault (d : Die) (bit : Fin 8)
  | linkCrcFail (d : Die)
  | standbyCopyApply
  -- faults, thermal, access lock
  | faultStatusClear (m : Master) (n : Fin 96) (bits : BitVec 4)
  | errPulseEnd
  | railFault (rail : Fin 6)
  | thermalConversion (readings : List (Option Int))
  | challenge (m : Master) (entropy : BitVec 128)
  | respondG (m : Master) (scope : Fin 4)
  | respondC (m : Master) (scope : Fin 4)
  | password (m : Master) (len : Fin 64)
  | close (m : Master)
  | challengeExpire
  | lockoutEnd
  | lockOpenExpire
  -- rows the table lists last
  | refclkReturn
  | copeDragLinkDown
  | pfAvailabilityChange (pf : Fin 2) (available : Bool)
  | arbiterAgree
  | debugPortReset
  | svc (c : CoreId) (f : FormD)
deriving DecidableEq, Repr

end Sys2Proof
end

