-- ==== Sys2Proof/Decode.lean ====
section
/-!
DEFINITION. The commands that words spell. The operation table gives no row any bits: a command reaches the block as a
register access, a frame, an edge or another happening, not as an encoded word.
-/
namespace Sys2Proof

/-- The command a word spells by the operation table's bits: none, since no row of the table gives bits. -/
def decodeTableWord (_nbits _w : Nat) : Option Instr := none

end Sys2Proof
end

