-- ==== Sys2Proof/Machine/RegTable.lean ====
section
/-!
DEFINITION. The register space of BAR0 (R280, Table 13.2): the offset of every register, the place of every field, and
the table of access codes by which writes are applied (R284). Written out of the register maps of the spec's chapters;
an indexed register is a function of its indices. Offsets are BAR0 offsets.
-/
namespace Sys2Proof.Machine

/-- A field of a register: the register's BAR0 offset and the field's bits [hi:lo]. -/
structure Fld where
  off : Nat
  hi : Nat
  lo : Nat
deriving DecidableEq, Repr

/-- The access codes of Table 00.6; `none` marks reserved bits, which a write does not change. -/
inductive Code where
  | rw | ro | w1c | mw | cnt | wo | none
deriving DecidableEq, Repr

/-- One field of a register's map: its bits and its access code. -/
structure FieldDesc where
  hi : Nat
  lo : Nat
  code : Code
deriving DecidableEq, Repr

/-- One register map, over up to two indices: n1 copies s1 apart, each with n2 copies s2 apart; the reset word is
`reset + i * ri + j * rj`. `priv` is the suffix +p, except at first index `privx`; `cfg` is the marker c. -/
structure RegDesc where
  name : String
  base : Nat
  n1 : Nat
  s1 : Nat
  n2 : Nat
  s2 : Nat
  reset : Nat
  ri : Nat
  rj : Nat
  priv : Bool
  privx : Option Nat
  cfg : Bool
  fields : List FieldDesc
deriving DecidableEq, Repr

namespace R

/-- GLB_STATE -/
abbrev glbState : Nat := 0x40
/-- GLB_STATE_REQ -/
abbrev glbStateReq : Nat := 0x44
/-- GLB_STATE_ERR -/
abbrev glbStateErr : Nat := 0x48
/-- GLB_HOLD_MOULD -/
abbrev glbHoldMould : Nat := 0x4c
/-- GLB_DRAIN_TIMEOUT -/
abbrev glbDrainTimeout : Nat := 0x50
/-- GLB_DRAIN_DISCARD -/
abbrev glbDrainDiscard : Nat := 0x54
/-- MLD_PILOT_CTRL -/
abbrev mldPilotCtrl : Nat := 0x8f000
/-- MLD_PILOT_VERDICTS -/
abbrev mldPilotVerdicts : Nat := 0x8f004
/-- MLD_PILOT_FAILS -/
abbrev mldPilotFails : Nat := 0x8f008
/-- MLD_PILOT_LAST -/
abbrev mldPilotLast : Nat := 0x8f00c
/-- MLD_STAGE_LEAD -/
abbrev mldStageLead : Nat := 0x80000
/-- MLD_IN_FORCE -/
abbrev mldInForce : Nat := 0x80004
/-- MLD_POUR_COUNT -/
abbrev mldPourCount : Nat := 0x80008
/-- MLD_POUR_HELD -/
abbrev mldPourHeld : Nat := 0x8000c
/-- MLD_HELD_LAST -/
abbrev mldHeldLast : Nat := 0x80010
/-- MLD_CMP_BASE -/
abbrev mldCmpBase : Nat := 0x80100
/-- MLD_CMP_REQ -/
abbrev mldCmpReq : Nat := 0x80104
/-- MLD_CMP_STAT -/
abbrev mldCmpStat : Nat := 0x80108
/-- MLD_REJ_PTR -/
abbrev mldRejPtr : Nat := 0x8010c
/-- MLD_REJ_LOST -/
abbrev mldRejLost : Nat := 0x80110
/-- TILE_EO_SPAN -/
abbrev tileEoSpan (i : Nat) (j : Nat) : Nat := 0x108000 + 0x10000 * i + 0x4 * j
/-- TILE_EO_SLEW -/
abbrev tileEoSlew (i : Nat) : Nat := 0x108060 + 0x10000 * i
/-- TILE_HTR_SLEW -/
abbrev tileHtrSlew (i : Nat) : Nat := 0x108064 + 0x10000 * i
/-- TILE_STATUS -/
abbrev tileStatus (i : Nat) : Nat := 0x100000 + 0x10000 * i
/-- TILE_VHTR -/
abbrev tileVhtr (i : Nat) : Nat := 0x100004 + 0x10000 * i
/-- TILE_URG_REQ -/
abbrev tileUrgReq (i : Nat) : Nat := 0x100010 + 0x10000 * i
/-- TILE_URG_STAT -/
abbrev tileUrgStat (i : Nat) : Nat := 0x100014 + 0x10000 * i
/-- TILE_URG_RES -/
abbrev tileUrgRes (i : Nat) : Nat := 0x100018 + 0x10000 * i
/-- TILE_SPARE -/
abbrev tileSpare (i : Nat) (j : Nat) : Nat := 0x100020 + 0x10000 * i + 0x4 * j
/-- TILE_CMP_STAT -/
abbrev tileCmpStat (i : Nat) : Nat := 0x100030 + 0x10000 * i
/-- TILE_CMP_COUNT -/
abbrev tileCmpCount (i : Nat) : Nat := 0x100034 + 0x10000 * i
/-- TILE_ERR_COUNTS -/
abbrev tileErrCounts (i : Nat) : Nat := 0x100038 + 0x10000 * i
/-- TILE_ADC_COR -/
abbrev tileAdcCor (i : Nat) (j : Nat) : Nat := 0x100100 + 0x10000 * i + 0x4 * j
/-- TILE_ADC_ZERO -/
abbrev tileAdcZero (i : Nat) (j : Nat) : Nat := 0x100200 + 0x10000 * i + 0x4 * j
/-- LOOP_CTRL -/
abbrev loopCtrl : Nat := 0xa0000
/-- LOOP_CMD -/
abbrev loopCmd : Nat := 0xa0010
/-- LOOP_QUERY -/
abbrev loopQuery : Nat := 0xa0014
/-- LOOP_QUERY_RES -/
abbrev loopQueryRes : Nat := 0xa0018
/-- LOOP_COUNTS_A -/
abbrev loopCountsA : Nat := 0xa0020
/-- LOOP_COUNTS_B -/
abbrev loopCountsB : Nat := 0xa0024
/-- LOOP_OVERRUN -/
abbrev loopOverrun : Nat := 0xa0028
/-- LOOP_PATH_CTRL -/
abbrev loopPathCtrl : Nat := 0xa0030
/-- LOOP_FLASK_MAP -/
abbrev loopFlaskMap (i : Nat) : Nat := 0xa0100 + 0x4 * i
/-- LOOP_PASS -/
abbrev loopPass (i : Nat) : Nat := 0xa0200 + 0x4 * i
/-- LOOP_PORT_TGT -/
abbrev loopPortTgt (i : Nat) : Nat := 0xa1000 + 0x4 * i
/-- LOOP_PATH_STAT -/
abbrev loopPathStat (i : Nat) : Nat := 0xa2000 + 0x4 * i
/-- CAL_APPLY_MODE -/
abbrev calApplyMode : Nat := 0xc0000
/-- CAL_DELTA_T -/
abbrev calDeltaT : Nat := 0xc0004
/-- CAL_STATUS -/
abbrev calStatus : Nat := 0xc0008
/-- CAL_FLAGGED -/
abbrev calFlagged : Nat := 0xc000c
/-- CAL_FETTLE -/
abbrev calFettle : Nat := 0xc0010
/-- CAL_LEG_INDEX -/
abbrev calLegIndex : Nat := 0xc0100
/-- CAL_LEG_DATA0 -/
abbrev calLegData0 : Nat := 0xc0104
/-- CAL_LEG_DATA1 -/
abbrev calLegData1 : Nat := 0xc0108
/-- TIM_STATUS -/
abbrev timStatus : Nat := 0x60000
/-- TIM_CTRL -/
abbrev timCtrl : Nat := 0x60004
/-- TIM_NOW -/
abbrev timNow (i : Nat) : Nat := 0x60010 + 0x4 * i
/-- TIM_TOD_LAST -/
abbrev timTodLast : Nat := 0x60020
/-- TIM_ERRS -/
abbrev timErrs : Nat := 0x60024
/-- HEAT_TIMING -/
abbrev heatTiming : Nat := 0x60100
/-- HEAT_SCHED -/
abbrev heatSched : Nat := 0x60104
/-- HEAT_MEET_MAX -/
abbrev heatMeetMax : Nat := 0x60108
/-- HEAT_RUN_BASE -/
abbrev heatRunBase (i : Nat) : Nat := 0x60110 + 0x4 * i
/-- HEAT_RUN_BASE2 -/
abbrev heatRunBase2 : Nat := 0x60118
/-- HEAT_NEXT_BASE -/
abbrev heatNextBase (i : Nat) : Nat := 0x60120 + 0x4 * i
/-- HEAT_NEXT_CFG -/
abbrev heatNextCfg : Nat := 0x6012c
/-- HEAT_COMMIT -/
abbrev heatCommit : Nat := 0x60130
/-- HEAT_NEXT_STATUS -/
abbrev heatNextStatus : Nat := 0x60134
/-- HEAT_ACT -/
abbrev heatAct (i : Nat) : Nat := 0x60140 + 0x4 * i
/-- HEAT_LATE_N -/
abbrev heatLateN : Nat := 0x6014c
/-- HEAT_LIVE -/
abbrev heatLive : Nat := 0x60150
/-- HEAT_LIVE_SERIAL -/
abbrev heatLiveSerial : Nat := 0x60154
/-- LAD_CTRL -/
abbrev ladCtrl : Nat := 0x200000
/-- LAD_CLASS_MAP0 -/
abbrev ladClassMap0 : Nat := 0x200010
/-- LAD_CLASS_MAP1 -/
abbrev ladClassMap1 : Nat := 0x200014
/-- LAD_PROF -/
abbrev ladProf (i : Nat) : Nat := 0x200020 + 0x4 * i
/-- LAD_BP_CLASS -/
abbrev ladBpClass (i : Nat) : Nat := 0x200060 + 0x4 * i
/-- LAD_BP_GLOBAL -/
abbrev ladBpGlobal : Nat := 0x200080
/-- LAD_SPILL -/
abbrev ladSpill : Nat := 0x200084
/-- LAD_MC_CTRL -/
abbrev ladMcCtrl : Nat := 0x200088
/-- LAD_RESEQ -/
abbrev ladReseq : Nat := 0x20008c
/-- LAD_HEAVY -/
abbrev ladHeavy : Nat := 0x200090
/-- LAD_OCC -/
abbrev ladOcc : Nat := 0x2000a0
/-- LAD_RISER_OCC -/
abbrev ladRiserOcc : Nat := 0x2000a4
/-- LAD_GRP_COMMIT -/
abbrev ladGrpCommit : Nat := 0x2000b0
/-- LAD_PORT_A -/
abbrev ladPortA (i : Nat) : Nat := 0x200100 + 0x4 * i
/-- LAD_PORT_S -/
abbrev ladPortS (i : Nat) : Nat := 0x200200 + 0x4 * i
/-- LAD_SWAP -/
abbrev ladSwap (i : Nat) : Nat := 0x200300 + 0x4 * i
/-- LAD_CNT -/
abbrev ladCnt (i : Nat) : Nat := 0x200400 + 0x4 * i
/-- LSV_CTRL -/
abbrev lsvCtrl : Nat := 0x280000
/-- LSV_LANE_Q -/
abbrev lsvLaneQ : Nat := 0x280010
/-- LSV_LANE_RES -/
abbrev lsvLaneRes : Nat := 0x280014
/-- LSV_CNT -/
abbrev lsvCnt (i : Nat) : Nat := 0x280100 + 0x4 * i
/-- LSV_DSHP -/
abbrev lsvDshp (i : Nat) : Nat := 0x281000 + 0x4 * i
/-- LSV_QCFG -/
abbrev lsvQcfg (i : Nat) : Nat := 0x2c0000 + 0x8 * i
/-- LSV_QSHP -/
abbrev lsvQshp (i : Nat) : Nat := 0x2c0004 + 0x8 * i
/-- JOB_RING0_BASE_LO -/
abbrev jobRing0BaseLo : Nat := 0x50000
/-- JOB_RING0_BASE_HI -/
abbrev jobRing0BaseHi : Nat := 0x50004
/-- JOB_RING1_BASE_LO -/
abbrev jobRing1BaseLo : Nat := 0x50020
/-- JOB_RING1_BASE_HI -/
abbrev jobRing1BaseHi : Nat := 0x50024
/-- JOB_RING0_CTRL -/
abbrev jobRing0Ctrl : Nat := 0x50008
/-- JOB_RING1_CTRL -/
abbrev jobRing1Ctrl : Nat := 0x50028
/-- JOB_RING0_HEAD -/
abbrev jobRing0Head : Nat := 0x5000c
/-- JOB_RING1_HEAD -/
abbrev jobRing1Head : Nat := 0x5002c
/-- JOB_ACTIVE -/
abbrev jobActive : Nat := 0x50100
/-- JOB_IMG -/
abbrev jobImg (i : Nat) : Nat := 0x50114 + 0x4 * i
/-- JOB_FLOW_EDIT -/
abbrev jobFlowEdit : Nat := 0x50200
/-- JOB_CLAIM -/
abbrev jobClaim (i : Nat) : Nat := 0x51000 + 0x4 * i
/-- CFG_REF -/
abbrev cfgRef : Nat := 0x10000
/-- CFG_CRC -/
abbrev cfgCrc : Nat := 0x10004
/-- CFG_STATUS -/
abbrev cfgStatus : Nat := 0x10008
/-- CFG_MISMATCHES -/
abbrev cfgMismatches : Nat := 0x1000c
/-- GLB_ID -/
abbrev glbId : Nat := 0x0
/-- GLB_REV -/
abbrev glbRev : Nat := 0x4
/-- GLB_SERIAL_LO -/
abbrev glbSerialLo : Nat := 0x8
/-- GLB_SERIAL_HI -/
abbrev glbSerialHi : Nat := 0xc
/-- GLB_CAPS -/
abbrev glbCaps : Nat := 0x10
/-- GLB_SW_FLAGS -/
abbrev glbSwFlags : Nat := 0x14
/-- BUS_REMAP -/
abbrev busRemap : Nat := 0x300000
/-- BUS_SLICE -/
abbrev busSlice : Nat := 0x300004
/-- BUS_STATUS -/
abbrev busStatus : Nat := 0x300008
/-- BUS_PROMOTE -/
abbrev busPromote : Nat := 0x30000c
/-- BUS_ERR_COUNTS -/
abbrev busErrCounts : Nat := 0x300010
/-- EVT_DELIVER_EN -/
abbrev evtDeliverEn : Nat := 0x20000
/-- EVT_STATUS -/
abbrev evtStatus : Nat := 0x20004
/-- EVT_LOST -/
abbrev evtLost : Nat := 0x20008
/-- EVT_FALLBACK_TIMEOUT -/
abbrev evtFallbackTimeout : Nat := 0x2000c
/-- EVT_ROUTE0 -/
abbrev evtRoute0 : Nat := 0x20100
/-- EVT_ROUTE -/
abbrev evtRoute (i : Nat) : Nat := 0x20100 + 0x4 * i
/-- EVT_TGT_CTRL -/
abbrev evtTgtCtrl (i : Nat) : Nat := 0x21000 + 0x100 * i
/-- EVT_TGT_ACCEPT -/
abbrev evtTgtAccept (i : Nat) : Nat := 0x21004 + 0x100 * i
/-- EVT_TGT_EOI -/
abbrev evtTgtEoi (i : Nat) : Nat := 0x21008 + 0x100 * i
/-- EVT_TGT_STACK -/
abbrev evtTgtStack (i : Nat) : Nat := 0x2100c + 0x100 * i
/-- EVT_RING_BASE_LO -/
abbrev evtRingBaseLo (i : Nat) (j : Nat) : Nat := 0x22000 + 0x100 * i + 0x20 * j
/-- EVT_RING_BASE_HI -/
abbrev evtRingBaseHi (i : Nat) (j : Nat) : Nat := 0x22004 + 0x100 * i + 0x20 * j
/-- EVT_RING_CTRL -/
abbrev evtRingCtrl (i : Nat) (j : Nat) : Nat := 0x22008 + 0x100 * i + 0x20 * j
/-- EVT_RING_HEAD -/
abbrev evtRingHead (i : Nat) (j : Nat) : Nat := 0x2200c + 0x100 * i + 0x20 * j
/-- EVT_RING_TAIL -/
abbrev evtRingTail (i : Nat) (j : Nat) : Nat := 0x22010 + 0x100 * i + 0x20 * j
/-- CD_STATUS -/
abbrev cdStatus : Nat := 0xe0000
/-- CD_CTRL -/
abbrev cdCtrl : Nat := 0xe0004
/-- CD_CMD -/
abbrev cdCmd : Nat := 0xe0008
/-- CD_CMD_STAT -/
abbrev cdCmdStat : Nat := 0xe000c
/-- CD_HEALTH -/
abbrev cdHealth : Nat := 0xe0010
/-- CD_LAST -/
abbrev cdLast : Nat := 0xe0014
/-- CD_COUNTS -/
abbrev cdCounts : Nat := 0xe0018
/-- CD_COPY_STAT -/
abbrev cdCopyStat : Nat := 0xe001c
/-- FLT_SUMMARY -/
abbrev fltSummary : Nat := 0x30000
/-- FLT_ERR_HOLD -/
abbrev fltErrHold : Nat := 0x30004
/-- FLT_ERR_COUNT -/
abbrev fltErrCount : Nat := 0x30008
/-- FLT_FEC_STAT -/
abbrev fltFecStat : Nat := 0x30010
/-- FLT_FEC_ADDR_LO -/
abbrev fltFecAddrLo : Nat := 0x30014
/-- FLT_FEC_ADDR_HI -/
abbrev fltFecAddrHi : Nat := 0x30018
/-- FLT_FEC_INFO -/
abbrev fltFecInfo : Nat := 0x3001c
/-- FLT_FEC_NS -/
abbrev fltFecNs : Nat := 0x30020
/-- FLT_FEC_SEC -/
abbrev fltFecSec : Nat := 0x30024
/-- FLT_SRC -/
abbrev fltSrc (i : Nat) : Nat := 0x30100 + 0x4 * i
/-- THM_CTRL -/
abbrev thmCtrl : Nat := 0x40000
/-- THM_THR_MASK -/
abbrev thmThrMask : Nat := 0x40004
/-- THM_STATUS -/
abbrev thmStatus : Nat := 0x40008
/-- THM_CH -/
abbrev thmCh (i : Nat) : Nat := 0x40100 + 0x4 * i
/-- THM_EXT -/
abbrev thmExt (i : Nat) : Nat := 0x40200 + 0x4 * i
/-- GLB_RESET -/
abbrev glbReset : Nat := 0x58
/-- GLB_BOOT -/
abbrev glbBoot : Nat := 0x5c
/-- LOCK_STATUS -/
abbrev lockStatus : Nat := 0x310000
/-- LOCK_CTRL -/
abbrev lockCtrl : Nat := 0x310004
/-- LOCK_CMD -/
abbrev lockCmd : Nat := 0x310008
/-- LOCK_CHAL -/
abbrev lockChal (i : Nat) : Nat := 0x310010 + 0x4 * i
/-- LOCK_RESP -/
abbrev lockResp (i : Nat) : Nat := 0x310020 + 0x4 * i

end R

namespace F

abbrev glbStateKeepCause : Fld := ⟨R.glbState, 23, 20⟩
abbrev glbStateCalUntraced : Fld := ⟨R.glbState, 16, 16⟩
abbrev glbStateTarget : Fld := ⟨R.glbState, 14, 12⟩
abbrev glbStateTrans : Fld := ⟨R.glbState, 11, 11⟩
abbrev glbStateFabric : Fld := ⟨R.glbState, 9, 8⟩
abbrev glbStateSvc : Fld := ⟨R.glbState, 5, 4⟩
abbrev glbStateDev : Fld := ⟨R.glbState, 2, 0⟩
abbrev glbStateReqSvcValid : Fld := ⟨R.glbStateReq, 6, 6⟩
abbrev glbStateReqSvc : Fld := ⟨R.glbStateReq, 5, 4⟩
abbrev glbStateReqDevValid : Fld := ⟨R.glbStateReq, 3, 3⟩
abbrev glbStateReqDev : Fld := ⟨R.glbStateReq, 2, 0⟩
abbrev glbStateErrRejects : Fld := ⟨R.glbStateErr, 31, 16⟩
abbrev glbStateErrReason : Fld := ⟨R.glbStateErr, 3, 0⟩
abbrev glbHoldMouldMould : Fld := ⟨R.glbHoldMould, 12, 0⟩
abbrev glbDrainTimeoutUnits : Fld := ⟨R.glbDrainTimeout, 15, 0⟩
abbrev glbDrainDiscardFrames : Fld := ⟨R.glbDrainDiscard, 31, 0⟩
abbrev mldPilotCtrlEvWeak : Fld := ⟨R.mldPilotCtrl, 2, 2⟩
abbrev mldPilotCtrlHoldChk : Fld := ⟨R.mldPilotCtrl, 1, 1⟩
abbrev mldPilotCtrlEn : Fld := ⟨R.mldPilotCtrl, 0, 0⟩
abbrev mldPilotVerdictsCount : Fld := ⟨R.mldPilotVerdicts, 31, 0⟩
abbrev mldPilotFailsCount : Fld := ⟨R.mldPilotFails, 31, 0⟩
abbrev mldPilotLastRho : Fld := ⟨R.mldPilotLast, 31, 24⟩
abbrev mldPilotLastVerdict : Fld := ⟨R.mldPilotLast, 11, 10⟩
abbrev mldPilotLastOutput : Fld := ⟨R.mldPilotLast, 9, 0⟩
abbrev mldStageLeadLead : Fld := ⟨R.mldStageLead, 7, 0⟩
abbrev mldInForceZero : Fld := ⟨R.mldInForce, 14, 14⟩
abbrev mldInForceHeld : Fld := ⟨R.mldInForce, 13, 13⟩
abbrev mldInForceMould : Fld := ⟨R.mldInForce, 12, 0⟩
abbrev mldPourCountCount : Fld := ⟨R.mldPourCount, 31, 0⟩
abbrev mldPourHeldCount : Fld := ⟨R.mldPourHeld, 31, 0⟩
abbrev mldHeldLastTiles : Fld := ⟨R.mldHeldLast, 31, 16⟩
abbrev mldHeldLastCause : Fld := ⟨R.mldHeldLast, 15, 14⟩
abbrev mldHeldLastMould : Fld := ⟨R.mldHeldLast, 12, 0⟩
abbrev mldCmpBaseTag : Fld := ⟨R.mldCmpBase, 31, 16⟩
abbrev mldCmpBaseBase : Fld := ⟨R.mldCmpBase, 12, 0⟩
abbrev mldCmpReqGo : Fld := ⟨R.mldCmpReq, 31, 31⟩
abbrev mldCmpReqUseBase : Fld := ⟨R.mldCmpReq, 19, 19⟩
abbrev mldCmpReqSlot : Fld := ⟨R.mldCmpReq, 18, 13⟩
abbrev mldCmpReqTarget : Fld := ⟨R.mldCmpReq, 12, 0⟩
abbrev mldCmpStatBusy : Fld := ⟨R.mldCmpStat, 31, 31⟩
abbrev mldCmpStatOverrun : Fld := ⟨R.mldCmpStat, 30, 30⟩
abbrev mldCmpStatResult : Fld := ⟨R.mldCmpStat, 29, 28⟩
abbrev mldCmpStatReason : Fld := ⟨R.mldCmpStat, 27, 24⟩
abbrev mldCmpStatTarget : Fld := ⟨R.mldCmpStat, 12, 0⟩
abbrev mldRejPtrWr : Fld := ⟨R.mldRejPtr, 27, 16⟩
abbrev mldRejPtrRd : Fld := ⟨R.mldRejPtr, 11, 0⟩
abbrev mldRejLostCount : Fld := ⟨R.mldRejLost, 31, 0⟩
abbrev tileEoSpanSpan (i : Nat) (j : Nat) : Fld := ⟨R.tileEoSpan i j, 31, 0⟩
abbrev tileEoSlewInterval (i : Nat) : Fld := ⟨R.tileEoSlew i, 31, 16⟩
abbrev tileEoSlewStep (i : Nat) : Fld := ⟨R.tileEoSlew i, 11, 0⟩
abbrev tileHtrSlewInterval (i : Nat) : Fld := ⟨R.tileHtrSlew i, 31, 16⟩
abbrev tileHtrSlewStep (i : Nat) : Fld := ⟨R.tileHtrSlew i, 15, 0⟩
abbrev tileStatusTile (i : Nat) : Fld := ⟨R.tileStatus i, 27, 24⟩
abbrev tileStatusCmpOn (i : Nat) : Fld := ⟨R.tileStatus i, 3, 3⟩
abbrev tileStatusZero (i : Nat) : Fld := ⟨R.tileStatus i, 2, 2⟩
abbrev tileStatusSealed (i : Nat) : Fld := ⟨R.tileStatus i, 1, 1⟩
abbrev tileStatusSealAll (i : Nat) : Fld := ⟨R.tileStatus i, 0, 0⟩
abbrev tileVhtrOut (i : Nat) : Fld := ⟨R.tileVhtr i, 16, 16⟩
abbrev tileVhtrMv (i : Nat) : Fld := ⟨R.tileVhtr i, 15, 0⟩
abbrev tileUrgReqGo (i : Nat) : Fld := ⟨R.tileUrgReq i, 31, 31⟩
abbrev tileUrgReqDc (i : Nat) : Fld := ⟨R.tileUrgReq i, 16, 16⟩
abbrev tileUrgReqMon (i : Nat) : Fld := ⟨R.tileUrgReq i, 9, 0⟩
abbrev tileUrgStatValid (i : Nat) : Fld := ⟨R.tileUrgStat i, 31, 31⟩
abbrev tileUrgStatRefused (i : Nat) : Fld := ⟨R.tileUrgStat i, 30, 30⟩
abbrev tileUrgStatPending (i : Nat) : Fld := ⟨R.tileUrgStat i, 29, 29⟩
abbrev tileUrgStatDc (i : Nat) : Fld := ⟨R.tileUrgStat i, 16, 16⟩
abbrev tileUrgStatMon (i : Nat) : Fld := ⟨R.tileUrgStat i, 9, 0⟩
abbrev tileUrgResSample (i : Nat) : Fld := ⟨R.tileUrgRes i, 31, 0⟩
abbrev tileSpareEn (i : Nat) (j : Nat) : Fld := ⟨R.tileSpare i j, 31, 31⟩
abbrev tileSpareState (i : Nat) (j : Nat) : Fld := ⟨R.tileSpare i j, 30, 29⟩
abbrev tileSpareSrc (i : Nat) (j : Nat) : Fld := ⟨R.tileSpare i j, 5, 0⟩
abbrev tileCmpStatMism (i : Nat) : Fld := ⟨R.tileCmpStat i, 31, 31⟩
abbrev tileCmpStatHtr (i : Nat) : Fld := ⟨R.tileCmpStat i, 30, 30⟩
abbrev tileCmpStatChan (i : Nat) : Fld := ⟨R.tileCmpStat i, 9, 0⟩
abbrev tileCmpCountCount (i : Nat) : Fld := ⟨R.tileCmpCount i, 31, 0⟩
abbrev tileErrCountsDrop (i : Nat) : Fld := ⟨R.tileErrCounts i, 31, 24⟩
abbrev tileErrCountsOverwr (i : Nat) : Fld := ⟨R.tileErrCounts i, 23, 16⟩
abbrev tileErrCountsUrgRef (i : Nat) : Fld := ⟨R.tileErrCounts i, 15, 8⟩
abbrev tileErrCountsOvr (i : Nat) : Fld := ⟨R.tileErrCounts i, 7, 0⟩
abbrev tileAdcCorGain (i : Nat) (j : Nat) : Fld := ⟨R.tileAdcCor i j, 31, 16⟩
abbrev tileAdcCorOfs (i : Nat) (j : Nat) : Fld := ⟨R.tileAdcCor i j, 15, 0⟩
abbrev tileAdcZeroCount (i : Nat) (j : Nat) : Fld := ⟨R.tileAdcZero i j, 29, 14⟩
abbrev tileAdcZeroRaw (i : Nat) (j : Nat) : Fld := ⟨R.tileAdcZero i j, 13, 0⟩
abbrev loopCtrlStarve : Fld := ⟨R.loopCtrl, 31, 24⟩
abbrev loopCtrlDarkLvl : Fld := ⟨R.loopCtrl, 23, 16⟩
abbrev loopCtrlLockTo : Fld := ⟨R.loopCtrl, 7, 4⟩
abbrev loopCtrlPathEn : Fld := ⟨R.loopCtrl, 0, 0⟩
abbrev loopCmdGo : Fld := ⟨R.loopCmd, 31, 31⟩
abbrev loopCmdCmd : Fld := ⟨R.loopCmd, 18, 16⟩
abbrev loopCmdIndex : Fld := ⟨R.loopCmd, 13, 0⟩
abbrev loopQueryIndex : Fld := ⟨R.loopQuery, 13, 0⟩
abbrev loopQueryResState : Fld := ⟨R.loopQueryRes, 31, 29⟩
abbrev loopQueryResHostHold : Fld := ⟨R.loopQueryRes, 28, 28⟩
abbrev loopQueryResEngHold : Fld := ⟨R.loopQueryRes, 27, 27⟩
abbrev loopQueryResLow : Fld := ⟨R.loopQueryRes, 26, 26⟩
abbrev loopQueryResDark : Fld := ⟨R.loopQueryRes, 25, 25⟩
abbrev loopQueryResLockCnt : Fld := ⟨R.loopQueryRes, 24, 19⟩
abbrev loopQueryResOut : Fld := ⟨R.loopQueryRes, 15, 0⟩
abbrev loopCountsAAllLocked : Fld := ⟨R.loopCountsA, 31, 31⟩
abbrev loopCountsALocking : Fld := ⟨R.loopCountsA, 29, 16⟩
abbrev loopCountsALocked : Fld := ⟨R.loopCountsA, 13, 0⟩
abbrev loopCountsBFault : Fld := ⟨R.loopCountsB, 29, 16⟩
abbrev loopCountsBHeld : Fld := ⟨R.loopCountsB, 13, 0⟩
abbrev loopOverrunCount : Fld := ⟨R.loopOverrun, 31, 0⟩
abbrev loopPathCtrlSplim : Fld := ⟨R.loopPathCtrl, 31, 20⟩
abbrev loopPathCtrlMinq : Fld := ⟨R.loopPathCtrl, 19, 16⟩
abbrev loopPathCtrlTol : Fld := ⟨R.loopPathCtrl, 15, 8⟩
abbrev loopPathCtrlDelta : Fld := ⟨R.loopPathCtrl, 7, 0⟩
abbrev loopFlaskMapGo (i : Nat) : Fld := ⟨R.loopFlaskMap i, 31, 31⟩
abbrev loopFlaskMapShadow (i : Nat) : Fld := ⟨R.loopFlaskMap i, 27, 24⟩
abbrev loopFlaskMapState (i : Nat) : Fld := ⟨R.loopFlaskMap i, 23, 22⟩
abbrev loopFlaskMapNext (i : Nat) : Fld := ⟨R.loopFlaskMap i, 14, 8⟩
abbrev loopFlaskMapCore (i : Nat) : Fld := ⟨R.loopFlaskMap i, 6, 0⟩
abbrev loopPassMax (i : Nat) : Fld := ⟨R.loopPass i, 25, 13⟩
abbrev loopPassLast (i : Nat) : Fld := ⟨R.loopPass i, 12, 0⟩
abbrev loopPortTgtTarget (i : Nat) : Fld := ⟨R.loopPortTgt i, 15, 0⟩
abbrev loopPathStatState (i : Nat) : Fld := ⟨R.loopPathStat i, 31, 30⟩
abbrev loopPathStatRho (i : Nat) : Fld := ⟨R.loopPathStat i, 23, 16⟩
abbrev loopPathStatPwr (i : Nat) : Fld := ⟨R.loopPathStat i, 15, 0⟩
abbrev calApplyModeStep : Fld := ⟨R.calApplyMode, 0, 0⟩
abbrev calDeltaTDt : Fld := ⟨R.calDeltaT, 7, 0⟩
abbrev calStatusBusy : Fld := ⟨R.calStatus, 31, 31⟩
abbrev calStatusPendDt : Fld := ⟨R.calStatus, 30, 30⟩
abbrev calStatusRefOk : Fld := ⟨R.calStatus, 29, 29⟩
abbrev calStatusVrefOk : Fld := ⟨R.calStatus, 28, 28⟩
abbrev calStatusPending : Fld := ⟨R.calStatus, 15, 0⟩
abbrev calFlaggedCount : Fld := ⟨R.calFlagged, 31, 0⟩
abbrev calFettleEn : Fld := ⟨R.calFettle, 31, 31⟩
abbrev calFettleTile : Fld := ⟨R.calFettle, 23, 20⟩
abbrev calFettlePasses : Fld := ⟨R.calFettle, 15, 0⟩
abbrev calLegIndexElem : Fld := ⟨R.calLegIndex, 13, 0⟩
abbrev calLegData0Bar : Fld := ⟨R.calLegData0, 31, 16⟩
abbrev calLegData0Cross : Fld := ⟨R.calLegData0, 15, 0⟩
abbrev calLegData1Hconv : Fld := ⟨R.calLegData1, 15, 0⟩
abbrev timStatusEstErr : Fld := ⟨R.timStatus, 31, 16⟩
abbrev timStatusSlew : Fld := ⟨R.timStatus, 8, 8⟩
abbrev timStatusSrcHold : Fld := ⟨R.timStatus, 7, 7⟩
abbrev timStatusLeap : Fld := ⟨R.timStatus, 6, 5⟩
abbrev timStatusRefclkOk : Fld := ⟨R.timStatus, 4, 4⟩
abbrev timStatusState : Fld := ⟨R.timStatus, 2, 0⟩
abbrev timCtrlSlewMax : Fld := ⟨R.timCtrl, 31, 16⟩
abbrev timCtrlHoldLimit : Fld := ⟨R.timCtrl, 15, 8⟩
abbrev timCtrlPpsFall : Fld := ⟨R.timCtrl, 0, 0⟩
abbrev timNowValue (i : Nat) : Fld := ⟨R.timNow i, 31, 0⟩
abbrev timTodLastSeq : Fld := ⟨R.timTodLast, 31, 16⟩
abbrev timTodLastUtcOffset : Fld := ⟨R.timTodLast, 15, 0⟩
abbrev timErrsPpsBad : Fld := ⟨R.timErrs, 31, 24⟩
abbrev timErrsTodBad : Fld := ⟨R.timErrs, 23, 16⟩
abbrev timErrsSecMism : Fld := ⟨R.timErrs, 15, 8⟩
abbrev timErrsHoldovers : Fld := ⟨R.timErrs, 7, 0⟩
abbrev heatTimingLead : Fld := ⟨R.heatTiming, 31, 16⟩
abbrev heatTimingCtrl : Fld := ⟨R.heatTiming, 15, 0⟩
abbrev heatSchedHost : Fld := ⟨R.heatSched, 31, 31⟩
abbrev heatSchedEpoch : Fld := ⟨R.heatSched, 19, 0⟩
abbrev heatMeetMaxMs : Fld := ⟨R.heatMeetMax, 15, 0⟩
abbrev heatRunBaseValue (i : Nat) : Fld := ⟨R.heatRunBase i, 31, 0⟩
abbrev heatRunBase2Set : Fld := ⟨R.heatRunBase2, 31, 31⟩
abbrev heatRunBase2Value : Fld := ⟨R.heatRunBase2, 30, 0⟩
abbrev heatNextBaseValue (i : Nat) : Fld := ⟨R.heatNextBase i, 31, 0⟩
abbrev heatNextCfgAsap : Fld := ⟨R.heatNextCfg, 31, 31⟩
abbrev heatNextCfgDclass : Fld := ⟨R.heatNextCfg, 23, 16⟩
abbrev heatNextCfgGuard : Fld := ⟨R.heatNextCfg, 8, 0⟩
abbrev heatCommitGo : Fld := ⟨R.heatCommit, 31, 31⟩
abbrev heatCommitCancel : Fld := ⟨R.heatCommit, 30, 30⟩
abbrev heatNextStatusState : Fld := ⟨R.heatNextStatus, 31, 29⟩
abbrev heatNextStatusReason : Fld := ⟨R.heatNextStatus, 27, 24⟩
abbrev heatNextStatusDir : Fld := ⟨R.heatNextStatus, 23, 23⟩
abbrev heatNextStatusIndex : Fld := ⟨R.heatNextStatus, 12, 0⟩
abbrev heatActValue (i : Nat) : Fld := ⟨R.heatAct i, 31, 0⟩
abbrev heatLateNN : Fld := ⟨R.heatLateN, 31, 0⟩
abbrev heatLiveMould : Fld := ⟨R.heatLive, 28, 16⟩
abbrev heatLiveTag : Fld := ⟨R.heatLive, 15, 0⟩
abbrev heatLiveSerialSerial : Fld := ⟨R.heatLiveSerial, 31, 0⟩
abbrev ladCtrlCutEn : Fld := ⟨R.ladCtrl, 2, 2⟩
abbrev ladCtrlAutoSwap : Fld := ⟨R.ladCtrl, 1, 1⟩
abbrev ladCtrlReseqDef : Fld := ⟨R.ladCtrl, 0, 0⟩
abbrev ladClassMap0W0 : Fld := ⟨R.ladClassMap0, 7, 5⟩
abbrev ladClassMap0Base0 : Fld := ⟨R.ladClassMap0, 4, 0⟩
abbrev ladClassMap0W1 : Fld := ⟨R.ladClassMap0, 15, 13⟩
abbrev ladClassMap0Base1 : Fld := ⟨R.ladClassMap0, 12, 8⟩
abbrev ladClassMap0W2 : Fld := ⟨R.ladClassMap0, 23, 21⟩
abbrev ladClassMap0Base2 : Fld := ⟨R.ladClassMap0, 20, 16⟩
abbrev ladClassMap0W3 : Fld := ⟨R.ladClassMap0, 31, 29⟩
abbrev ladClassMap0Base3 : Fld := ⟨R.ladClassMap0, 28, 24⟩
abbrev ladClassMap1W0 : Fld := ⟨R.ladClassMap1, 7, 5⟩
abbrev ladClassMap1Base0 : Fld := ⟨R.ladClassMap1, 4, 0⟩
abbrev ladClassMap1W1 : Fld := ⟨R.ladClassMap1, 15, 13⟩
abbrev ladClassMap1Base1 : Fld := ⟨R.ladClassMap1, 12, 8⟩
abbrev ladClassMap1W2 : Fld := ⟨R.ladClassMap1, 23, 21⟩
abbrev ladClassMap1Base2 : Fld := ⟨R.ladClassMap1, 20, 16⟩
abbrev ladClassMap1W3 : Fld := ⟨R.ladClassMap1, 31, 29⟩
abbrev ladClassMap1Base3 : Fld := ⟨R.ladClassMap1, 28, 24⟩
abbrev ladProfRiserEn (i : Nat) : Fld := ⟨R.ladProf i, 31, 31⟩
abbrev ladProfPf (i : Nat) : Fld := ⟨R.ladProf i, 30, 16⟩
abbrev ladProfLim (i : Nat) : Fld := ⟨R.ladProf i, 15, 0⟩
abbrev ladBpClassXoff (i : Nat) : Fld := ⟨R.ladBpClass i, 31, 16⟩
abbrev ladBpClassXon (i : Nat) : Fld := ⟨R.ladBpClass i, 15, 0⟩
abbrev ladBpGlobalRiserOff : Fld := ⟨R.ladBpGlobal, 31, 24⟩
abbrev ladBpGlobalRiserOn : Fld := ⟨R.ladBpGlobal, 23, 16⟩
abbrev ladBpGlobalOnchipOff : Fld := ⟨R.ladBpGlobal, 15, 8⟩
abbrev ladBpGlobalOnchipOn : Fld := ⟨R.ladBpGlobal, 7, 0⟩
abbrev ladSpillPct : Fld := ⟨R.ladSpill, 6, 0⟩
abbrev ladMcCtrlHold : Fld := ⟨R.ladMcCtrl, 31, 16⟩
abbrev ladMcCtrlAdmit : Fld := ⟨R.ladMcCtrl, 15, 0⟩
abbrev ladReseqDepth : Fld := ⟨R.ladReseq, 22, 16⟩
abbrev ladReseqTimeout : Fld := ⟨R.ladReseq, 15, 0⟩
abbrev ladHeavyUnits : Fld := ⟨R.ladHeavy, 31, 0⟩
abbrev ladOccGxoff : Fld := ⟨R.ladOcc, 31, 31⟩
abbrev ladOccCells : Fld := ⟨R.ladOcc, 20, 0⟩
abbrev ladRiserOccCells : Fld := ⟨R.ladRiserOcc, 29, 0⟩
abbrev ladGrpCommitGo : Fld := ⟨R.ladGrpCommit, 31, 31⟩
abbrev ladGrpCommitGroup : Fld := ⟨R.ladGrpCommit, 13, 0⟩
abbrev ladPortAState (i : Nat) : Fld := ⟨R.ladPortA i, 31, 29⟩
abbrev ladPortAParked (i : Nat) : Fld := ⟨R.ladPortA i, 28, 28⟩
abbrev ladPortAMisdel (i : Nat) : Fld := ⟨R.ladPortA i, 23, 16⟩
abbrev ladPortAUncorr (i : Nat) : Fld := ⟨R.ladPortA i, 15, 8⟩
abbrev ladPortASubst (i : Nat) : Fld := ⟨R.ladPortA i, 6, 0⟩
abbrev ladPortSState (i : Nat) : Fld := ⟨R.ladPortS i, 31, 29⟩
abbrev ladPortSParked (i : Nat) : Fld := ⟨R.ladPortS i, 28, 28⟩
abbrev ladPortSMisdel (i : Nat) : Fld := ⟨R.ladPortS i, 23, 16⟩
abbrev ladPortSUncorr (i : Nat) : Fld := ⟨R.ladPortS i, 15, 8⟩
abbrev ladPortSSubst (i : Nat) : Fld := ⟨R.ladPortS i, 6, 0⟩
abbrev ladSwapGo (i : Nat) : Fld := ⟨R.ladSwap i, 31, 31⟩
abbrev ladSwapEn (i : Nat) : Fld := ⟨R.ladSwap i, 30, 30⟩
abbrev ladSwapState (i : Nat) : Fld := ⟨R.ladSwap i, 29, 28⟩
abbrev ladSwapFrom (i : Nat) : Fld := ⟨R.ladSwap i, 5, 0⟩
abbrev ladCntCount (i : Nat) : Fld := ⟨R.ladCnt i, 31, 0⟩
abbrev lsvCtrlParkEn : Fld := ⟨R.lsvCtrl, 1, 1⟩
abbrev lsvCtrlShapeEn : Fld := ⟨R.lsvCtrl, 0, 0⟩
abbrev lsvLaneQSrc : Fld := ⟨R.lsvLaneQ, 20, 12⟩
abbrev lsvLaneQDst : Fld := ⟨R.lsvLaneQ, 11, 3⟩
abbrev lsvLaneQClass : Fld := ⟨R.lsvLaneQ, 2, 0⟩
abbrev lsvLaneResMode : Fld := ⟨R.lsvLaneRes, 31, 31⟩
abbrev lsvLaneResMark : Fld := ⟨R.lsvLaneRes, 30, 30⟩
abbrev lsvLaneResHold : Fld := ⟨R.lsvLaneRes, 29, 29⟩
abbrev lsvLaneResCount : Fld := ⟨R.lsvLaneRes, 23, 0⟩
abbrev lsvCntCount (i : Nat) : Fld := ⟨R.lsvCnt i, 31, 0⟩
abbrev lsvDshpRate (i : Nat) : Fld := ⟨R.lsvDshp i, 31, 16⟩
abbrev lsvDshpBurst (i : Nat) : Fld := ⟨R.lsvDshp i, 15, 0⟩
abbrev lsvQcfgStrict (i : Nat) : Fld := ⟨R.lsvQcfg i, 31, 31⟩
abbrev lsvQcfgQuantum (i : Nat) : Fld := ⟨R.lsvQcfg i, 15, 0⟩
abbrev lsvQshpRate (i : Nat) : Fld := ⟨R.lsvQshp i, 31, 16⟩
abbrev lsvQshpBurst (i : Nat) : Fld := ⟨R.lsvQshp i, 15, 0⟩
abbrev jobRing0BaseLoAddr : Fld := ⟨R.jobRing0BaseLo, 31, 0⟩
abbrev jobRing0BaseHiAddr : Fld := ⟨R.jobRing0BaseHi, 31, 0⟩
abbrev jobRing1BaseLoAddr : Fld := ⟨R.jobRing1BaseLo, 31, 0⟩
abbrev jobRing1BaseHiAddr : Fld := ⟨R.jobRing1BaseHi, 31, 0⟩
abbrev jobRing0CtrlEn : Fld := ⟨R.jobRing0Ctrl, 31, 31⟩
abbrev jobRing0CtrlSize : Fld := ⟨R.jobRing0Ctrl, 3, 0⟩
abbrev jobRing1CtrlEn : Fld := ⟨R.jobRing1Ctrl, 31, 31⟩
abbrev jobRing1CtrlSize : Fld := ⟨R.jobRing1Ctrl, 3, 0⟩
abbrev jobRing0HeadTail : Fld := ⟨R.jobRing0Head, 27, 16⟩
abbrev jobRing0HeadHead : Fld := ⟨R.jobRing0Head, 11, 0⟩
abbrev jobRing1HeadTail : Fld := ⟨R.jobRing1Head, 27, 16⟩
abbrev jobRing1HeadHead : Fld := ⟨R.jobRing1Head, 11, 0⟩
abbrev jobActiveNextId : Fld := ⟨R.jobActive, 31, 16⟩
abbrev jobActiveUsed : Fld := ⟨R.jobActive, 5, 0⟩
abbrev jobImgBState (i : Nat) : Fld := ⟨R.jobImg i, 19, 18⟩
abbrev jobImgAState (i : Nat) : Fld := ⟨R.jobImg i, 17, 16⟩
abbrev jobImgRunning (i : Nat) : Fld := ⟨R.jobImg i, 15, 0⟩
abbrev jobFlowEditGo : Fld := ⟨R.jobFlowEdit, 31, 31⟩
abbrev jobFlowEditVal : Fld := ⟨R.jobFlowEdit, 30, 28⟩
abbrev jobFlowEditMask : Fld := ⟨R.jobFlowEdit, 27, 25⟩
abbrev jobFlowEditFlow : Fld := ⟨R.jobFlowEdit, 20, 0⟩
abbrev jobClaimHolder (i : Nat) : Fld := ⟨R.jobClaim i, 31, 30⟩
abbrev jobClaimStanding (i : Nat) : Fld := ⟨R.jobClaim i, 29, 29⟩
abbrev jobClaimWaiters (i : Nat) : Fld := ⟨R.jobClaim i, 28, 24⟩
abbrev jobClaimJob (i : Nat) : Fld := ⟨R.jobClaim i, 15, 0⟩
abbrev cfgRefCrc : Fld := ⟨R.cfgRef, 31, 0⟩
abbrev cfgCrcCrc : Fld := ⟨R.cfgCrc, 31, 0⟩
abbrev cfgStatusArmed : Fld := ⟨R.cfgStatus, 31, 31⟩
abbrev cfgStatusDirty : Fld := ⟨R.cfgStatus, 30, 30⟩
abbrev cfgStatusMism : Fld := ⟨R.cfgStatus, 29, 29⟩
abbrev cfgStatusPasses : Fld := ⟨R.cfgStatus, 15, 0⟩
abbrev cfgMismatchesCount : Fld := ⟨R.cfgMismatches, 31, 0⟩
abbrev glbIdPart : Fld := ⟨R.glbId, 31, 16⟩
abbrev glbIdIssue : Fld := ⟨R.glbId, 15, 8⟩
abbrev glbIdPkg : Fld := ⟨R.glbId, 7, 0⟩
abbrev glbRevPic : Fld := ⟨R.glbRev, 31, 24⟩
abbrev glbRevTile : Fld := ⟨R.glbRev, 23, 16⟩
abbrev glbRevCtrl : Fld := ⟨R.glbRev, 15, 8⟩
abbrev glbRevLadle : Fld := ⟨R.glbRev, 7, 0⟩
abbrev glbSerialLoSerial : Fld := ⟨R.glbSerialLo, 31, 0⟩
abbrev glbSerialHiSerial : Fld := ⟨R.glbSerialHi, 31, 0⟩
abbrev glbCapsUserKey : Fld := ⟨R.glbCaps, 31, 31⟩
abbrev glbCapsChalKey : Fld := ⟨R.glbCaps, 30, 30⟩
abbrev glbCapsPassword : Fld := ⟨R.glbCaps, 29, 29⟩
abbrev glbCapsHbm : Fld := ⟨R.glbCaps, 15, 8⟩
abbrev glbCapsLadle : Fld := ⟨R.glbCaps, 7, 0⟩
abbrev glbSwFlagsFlag : Fld := ⟨R.glbSwFlags, 15, 0⟩
abbrev busRemapSwap : Fld := ⟨R.busRemap, 0, 0⟩
abbrev busSliceDebug : Fld := ⟨R.busSlice, 23, 23⟩
abbrev busSliceCd : Fld := ⟨R.busSlice, 22, 22⟩
abbrev busSlicePcie : Fld := ⟨R.busSlice, 21, 21⟩
abbrev busSliceLadle : Fld := ⟨R.busSlice, 20, 20⟩
abbrev busSliceReg : Fld := ⟨R.busSlice, 19, 19⟩
abbrev busSliceMould : Fld := ⟨R.busSlice, 18, 18⟩
abbrev busSliceSram : Fld := ⟨R.busSlice, 17, 17⟩
abbrev busSliceSpare : Fld := ⟨R.busSlice, 16, 16⟩
abbrev busSliceCluster : Fld := ⟨R.busSlice, 15, 0⟩
abbrev busStatusBooted : Fld := ⟨R.busStatus, 31, 31⟩
abbrev busStatusLocked : Fld := ⟨R.busStatus, 30, 30⟩
abbrev busStatusForced : Fld := ⟨R.busStatus, 8, 8⟩
abbrev busStatusLastLock : Fld := ⟨R.busStatus, 7, 0⟩
abbrev busPromoteCycles : Fld := ⟨R.busPromote, 9, 0⟩
abbrev busErrCountsDecode : Fld := ⟨R.busErrCounts, 31, 24⟩
abbrev busErrCountsPriv : Fld := ⟨R.busErrCounts, 23, 16⟩
abbrev busErrCountsShape : Fld := ⟨R.busErrCounts, 15, 8⟩
abbrev busErrCountsLock : Fld := ⟨R.busErrCounts, 7, 4⟩
abbrev busErrCountsReset : Fld := ⟨R.busErrCounts, 3, 0⟩
abbrev evtDeliverEnEn : Fld := ⟨R.evtDeliverEn, 0, 0⟩
abbrev evtStatusOvf : Fld := ⟨R.evtStatus, 31, 31⟩
abbrev evtStatusUsed : Fld := ⟨R.evtStatus, 12, 0⟩
abbrev evtLostCount : Fld := ⟨R.evtLost, 31, 0⟩
abbrev evtFallbackTimeoutMs : Fld := ⟨R.evtFallbackTimeout, 31, 16⟩
abbrev evtFallbackTimeoutTgt : Fld := ⟨R.evtFallbackTimeout, 1, 0⟩
abbrev evtRoute0L4 : Fld := ⟨R.evtRoute0, 18, 16⟩
abbrev evtRoute0L3 : Fld := ⟨R.evtRoute0, 15, 13⟩
abbrev evtRoute0L2 : Fld := ⟨R.evtRoute0, 12, 10⟩
abbrev evtRoute0L1 : Fld := ⟨R.evtRoute0, 9, 7⟩
abbrev evtRoute0L0 : Fld := ⟨R.evtRoute0, 6, 4⟩
abbrev evtRoute0Tgt : Fld := ⟨R.evtRoute0, 3, 0⟩
abbrev evtRouteL4 (i : Nat) : Fld := ⟨R.evtRoute i, 18, 16⟩
abbrev evtRouteL3 (i : Nat) : Fld := ⟨R.evtRoute i, 15, 13⟩
abbrev evtRouteL2 (i : Nat) : Fld := ⟨R.evtRoute i, 12, 10⟩
abbrev evtRouteL1 (i : Nat) : Fld := ⟨R.evtRoute i, 9, 7⟩
abbrev evtRouteL0 (i : Nat) : Fld := ⟨R.evtRoute i, 6, 4⟩
abbrev evtRouteTgt (i : Nat) : Fld := ⟨R.evtRoute i, 3, 0⟩
abbrev evtTgtCtrlRedir (i : Nat) : Fld := ⟨R.evtTgtCtrl i, 25, 24⟩
abbrev evtTgtCtrlHoldoff (i : Nat) : Fld := ⟨R.evtTgtCtrl i, 9, 0⟩
abbrev evtTgtAcceptValid (i : Nat) : Fld := ⟨R.evtTgtAccept i, 31, 31⟩
abbrev evtTgtAcceptDepth (i : Nat) : Fld := ⟨R.evtTgtAccept i, 10, 8⟩
abbrev evtTgtAcceptLevel (i : Nat) : Fld := ⟨R.evtTgtAccept i, 2, 0⟩
abbrev evtTgtEoiAny (i : Nat) : Fld := ⟨R.evtTgtEoi i, 31, 0⟩
abbrev evtTgtStackAvail (i : Nat) : Fld := ⟨R.evtTgtStack i, 31, 31⟩
abbrev evtTgtStackFallback (i : Nat) : Fld := ⟨R.evtTgtStack i, 30, 30⟩
abbrev evtTgtStackEoiEmpty (i : Nat) : Fld := ⟨R.evtTgtStack i, 23, 16⟩
abbrev evtTgtStackPending (i : Nat) : Fld := ⟨R.evtTgtStack i, 15, 8⟩
abbrev evtTgtStackLevels (i : Nat) : Fld := ⟨R.evtTgtStack i, 7, 0⟩
abbrev evtRingBaseLoAddr (i : Nat) (j : Nat) : Fld := ⟨R.evtRingBaseLo i j, 31, 0⟩
abbrev evtRingBaseHiAddr (i : Nat) (j : Nat) : Fld := ⟨R.evtRingBaseHi i j, 31, 0⟩
abbrev evtRingCtrlEn (i : Nat) (j : Nat) : Fld := ⟨R.evtRingCtrl i j, 31, 31⟩
abbrev evtRingCtrlSize (i : Nat) (j : Nat) : Fld := ⟨R.evtRingCtrl i j, 3, 0⟩
abbrev evtRingHeadHead (i : Nat) (j : Nat) : Fld := ⟨R.evtRingHead i j, 11, 0⟩
abbrev evtRingTailPhase (i : Nat) (j : Nat) : Fld := ⟨R.evtRingTail i j, 12, 12⟩
abbrev evtRingTailTail (i : Nat) (j : Nat) : Fld := ⟨R.evtRingTail i j, 11, 0⟩
abbrev cdStatusActive : Fld := ⟨R.cdStatus, 31, 31⟩
abbrev cdStatusStby : Fld := ⟨R.cdStatus, 30, 28⟩
abbrev cdStatusArb : Fld := ⟨R.cdStatus, 27, 27⟩
abbrev cdStatusGap : Fld := ⟨R.cdStatus, 26, 26⟩
abbrev cdStatusLinkUp : Fld := ⟨R.cdStatus, 25, 25⟩
abbrev cdCtrlRejoin : Fld := ⟨R.cdCtrl, 31, 31⟩
abbrev cdCtrlCrclim : Fld := ⟨R.cdCtrl, 23, 16⟩
abbrev cdCtrlWdog : Fld := ⟨R.cdCtrl, 15, 0⟩
abbrev cdCmdGo : Fld := ⟨R.cdCmd, 31, 31⟩
abbrev cdCmdCmd : Fld := ⟨R.cdCmd, 1, 0⟩
abbrev cdCmdStatResult : Fld := ⟨R.cdCmdStat, 31, 30⟩
abbrev cdCmdStatCmd : Fld := ⟨R.cdCmdStat, 1, 0⟩
abbrev cdHealthDrag : Fld := ⟨R.cdHealth, 15, 8⟩
abbrev cdHealthCope : Fld := ⟨R.cdHealth, 7, 0⟩
abbrev cdLastData : Fld := ⟨R.cdLast, 31, 0⟩
abbrev cdCountsSwitch : Fld := ⟨R.cdCounts, 31, 24⟩
abbrev cdCountsMism : Fld := ⟨R.cdCounts, 23, 16⟩
abbrev cdCountsUnres : Fld := ⟨R.cdCounts, 15, 8⟩
abbrev cdCountsHbloss : Fld := ⟨R.cdCounts, 7, 0⟩
abbrev cdCopyStatDiff : Fld := ⟨R.cdCopyStat, 31, 16⟩
abbrev cdCopyStatResent : Fld := ⟨R.cdCopyStat, 15, 0⟩
abbrev fltSummaryThrottle : Fld := ⟨R.fltSummary, 11, 11⟩
abbrev fltSummaryShutdown : Fld := ⟨R.fltSummary, 10, 10⟩
abbrev fltSummaryHold : Fld := ⟨R.fltSummary, 9, 9⟩
abbrev fltSummaryErrLow : Fld := ⟨R.fltSummary, 8, 8⟩
abbrev fltSummaryClass : Fld := ⟨R.fltSummary, 4, 1⟩
abbrev fltErrHoldAuto : Fld := ⟨R.fltErrHold, 1, 1⟩
abbrev fltErrHoldLow : Fld := ⟨R.fltErrHold, 0, 0⟩
abbrev fltErrCountCount : Fld := ⟨R.fltErrCount, 31, 0⟩
abbrev fltFecStatValid : Fld := ⟨R.fltFecStat, 31, 31⟩
abbrev fltFecStatMore : Fld := ⟨R.fltFecStat, 15, 0⟩
abbrev fltFecAddrLoAddr : Fld := ⟨R.fltFecAddrLo, 31, 0⟩
abbrev fltFecAddrHiAddr : Fld := ⟨R.fltFecAddrHi, 31, 0⟩
abbrev fltFecInfoSpace : Fld := ⟨R.fltFecInfo, 23, 20⟩
abbrev fltFecInfoSize : Fld := ⟨R.fltFecInfo, 19, 16⟩
abbrev fltFecInfoWrite : Fld := ⟨R.fltFecInfo, 15, 15⟩
abbrev fltFecInfoKind : Fld := ⟨R.fltFecInfo, 11, 8⟩
abbrev fltFecInfoMaster : Fld := ⟨R.fltFecInfo, 7, 0⟩
abbrev fltFecNsTime : Fld := ⟨R.fltFecNs, 31, 0⟩
abbrev fltFecSecTime : Fld := ⟨R.fltFecSec, 31, 0⟩
abbrev fltSrcStat4 (i : Nat) : Fld := ⟨R.fltSrc i, 27, 27⟩
abbrev fltSrcStat3 (i : Nat) : Fld := ⟨R.fltSrc i, 26, 26⟩
abbrev fltSrcStat2 (i : Nat) : Fld := ⟨R.fltSrc i, 25, 25⟩
abbrev fltSrcStat1 (i : Nat) : Fld := ⟨R.fltSrc i, 24, 24⟩
abbrev fltSrcAct4 (i : Nat) : Fld := ⟨R.fltSrc i, 23, 21⟩
abbrev fltSrcAct3 (i : Nat) : Fld := ⟨R.fltSrc i, 20, 18⟩
abbrev fltSrcAct2 (i : Nat) : Fld := ⟨R.fltSrc i, 17, 15⟩
abbrev fltSrcAct1 (i : Nat) : Fld := ⟨R.fltSrc i, 14, 12⟩
abbrev fltSrcCount (i : Nat) : Fld := ⟨R.fltSrc i, 7, 0⟩
abbrev thmCtrlKnee : Fld := ⟨R.thmCtrl, 31, 16⟩
abbrev thmCtrlSlope : Fld := ⟨R.thmCtrl, 15, 8⟩
abbrev thmCtrlFloor : Fld := ⟨R.thmCtrl, 7, 0⟩
abbrev thmThrMaskMask : Fld := ⟨R.thmThrMask, 15, 0⟩
abbrev thmStatusMax : Fld := ⟨R.thmStatus, 31, 16⟩
abbrev thmStatusAdmit : Fld := ⟨R.thmStatus, 15, 8⟩
abbrev thmStatusShutCh : Fld := ⟨R.thmStatus, 7, 4⟩
abbrev thmStatusMaxCh : Fld := ⟨R.thmStatus, 3, 0⟩
abbrev thmChLimit (i : Nat) : Fld := ⟨R.thmCh i, 31, 16⟩
abbrev thmChTemp (i : Nat) : Fld := ⟨R.thmCh i, 15, 0⟩
abbrev thmExtParam (i : Nat) : Fld := ⟨R.thmExt i, 31, 16⟩
abbrev thmExtType (i : Nat) : Fld := ⟨R.thmExt i, 1, 0⟩
abbrev glbResetGo : Fld := ⟨R.glbReset, 31, 31⟩
abbrev glbResetCmd : Fld := ⟨R.glbReset, 30, 28⟩
abbrev glbResetKind : Fld := ⟨R.glbReset, 25, 24⟩
abbrev glbResetSlot : Fld := ⟨R.glbReset, 23, 23⟩
abbrev glbResetKey : Fld := ⟨R.glbReset, 15, 0⟩
abbrev glbBootRcv : Fld := ⟨R.glbBoot, 31, 31⟩
abbrev glbBootFallback : Fld := ⟨R.glbBoot, 30, 30⟩
abbrev glbBootOk : Fld := ⟨R.glbBoot, 26, 24⟩
abbrev glbBootSlot : Fld := ⟨R.glbBoot, 22, 20⟩
abbrev glbBootRcvErr : Fld := ⟨R.glbBoot, 19, 16⟩
abbrev glbBootBoots : Fld := ⟨R.glbBoot, 15, 0⟩
abbrev lockStatusDebug : Fld := ⟨R.lockStatus, 31, 31⟩
abbrev lockStatusFactory : Fld := ⟨R.lockStatus, 30, 30⟩
abbrev lockStatusLockout : Fld := ⟨R.lockStatus, 29, 29⟩
abbrev lockStatusChal : Fld := ⟨R.lockStatus, 28, 28⟩
abbrev lockStatusResult : Fld := ⟨R.lockStatus, 27, 24⟩
abbrev lockStatusFails : Fld := ⟨R.lockStatus, 23, 20⟩
abbrev lockStatusRemain : Fld := ⟨R.lockStatus, 19, 0⟩
abbrev lockCtrlMin : Fld := ⟨R.lockCtrl, 10, 0⟩
abbrev lockCmdGo : Fld := ⟨R.lockCmd, 31, 31⟩
abbrev lockCmdCmd : Fld := ⟨R.lockCmd, 26, 24⟩
abbrev lockCmdScope : Fld := ⟨R.lockCmd, 9, 8⟩
abbrev lockCmdLen : Fld := ⟨R.lockCmd, 5, 0⟩
abbrev lockChalChal (i : Nat) : Fld := ⟨R.lockChal i, 31, 0⟩
abbrev lockRespResp (i : Nat) : Fld := ⟨R.lockResp i, 31, 0⟩

end F

/-- The register maps with the prefix GLB_. -/
def regsGlb : List RegDesc := [
  ⟨"GLB_STATE", 0x40, 1, 0x1, 1, 0x1, 0x10, 0x0, 0x0, false, none, false,
    [⟨31, 24, .none⟩, ⟨23, 20, .ro⟩, ⟨19, 17, .none⟩, ⟨16, 16, .ro⟩, ⟨15, 15, .none⟩, ⟨14, 12, .ro⟩, ⟨11, 11, .ro⟩, ⟨10, 10, .none⟩, ⟨9, 8, .ro⟩, ⟨7, 6, .none⟩, ⟨5, 4, .ro⟩, ⟨3, 3, .none⟩, ⟨2, 0, .ro⟩]⟩,
  ⟨"GLB_STATE_REQ", 0x44, 1, 0x1, 1, 0x1, 0x0, 0x0, 0x0, true, none, false,
    [⟨31, 7, .none⟩, ⟨6, 6, .wo⟩, ⟨5, 4, .wo⟩, ⟨3, 3, .wo⟩, ⟨2, 0, .wo⟩]⟩,
  ⟨"GLB_STATE_ERR", 0x48, 1, 0x1, 1, 0x1, 0x0, 0x0, 0x0, false, none, false,
    [⟨31, 16, .cnt⟩, ⟨15, 4, .none⟩, ⟨3, 0, .w1c⟩]⟩,
  ⟨"GLB_HOLD_MOULD", 0x4c, 1, 0x1, 1, 0x1, 0x0, 0x0, 0x0, true, none, true,
    [⟨31, 13, .none⟩, ⟨12, 0, .rw⟩]⟩,
  ⟨"GLB_DRAIN_TIMEOUT", 0x50, 1, 0x1, 1, 0x1, 0x64, 0x0, 0x0, true, none, true,
    [⟨31, 16, .none⟩, ⟨15, 0, .rw⟩]⟩,
  ⟨"GLB_DRAIN_DISCARD", 0x54, 1, 0x1, 1, 0x1, 0x0, 0x0, 0x0, false, none, false,
    [⟨31, 0, .cnt⟩]⟩,
  ⟨"GLB_ID", 0x0, 1, 0x1, 1, 0x1, 0x5120a001, 0x0, 0x0, false, none, false,
    [⟨31, 16, .ro⟩, ⟨15, 8, .ro⟩, ⟨7, 0, .ro⟩]⟩,
  ⟨"GLB_REV", 0x4, 1, 0x1, 1, 0x1, 0xa0a0a0a0, 0x0, 0x0, false, none, false,
    [⟨31, 24, .ro⟩, ⟨23, 16, .ro⟩, ⟨15, 8, .ro⟩, ⟨7, 0, .ro⟩]⟩,
  ⟨"GLB_SERIAL_LO", 0x8, 1, 0x1, 1, 0x1, 0x0, 0x0, 0x0, false, none, false,
    [⟨31, 0, .ro⟩]⟩,
  ⟨"GLB_SERIAL_HI", 0xc, 1, 0x1, 1, 0x1, 0x0, 0x0, 0x0, false, none, false,
    [⟨31, 0, .ro⟩]⟩,
  ⟨"GLB_CAPS", 0x10, 1, 0x1, 1, 0x1, 0x844, 0x0, 0x0, false, none, false,
    [⟨31, 31, .ro⟩, ⟨30, 30, .ro⟩, ⟨29, 29, .ro⟩, ⟨28, 16, .none⟩, ⟨15, 8, .ro⟩, ⟨7, 0, .ro⟩]⟩,
  ⟨"GLB_SW_FLAGS", 0x14, 1, 0x1, 1, 0x1, 0x0, 0x0, 0x0, true, none, false,
    [⟨31, 16, .mw⟩, ⟨15, 0, .mw⟩]⟩,
  ⟨"GLB_RESET", 0x58, 1, 0x1, 1, 0x1, 0x0, 0x0, 0x0, true, none, false,
    [⟨31, 31, .wo⟩, ⟨30, 28, .wo⟩, ⟨27, 26, .none⟩, ⟨25, 24, .wo⟩, ⟨23, 23, .wo⟩, ⟨22, 16, .none⟩, ⟨15, 0, .wo⟩]⟩,
  ⟨"GLB_BOOT", 0x5c, 1, 0x1, 1, 0x1, 0x0, 0x0, 0x0, false, none, false,
    [⟨31, 31, .ro⟩, ⟨30, 30, .ro⟩, ⟨29, 27, .none⟩, ⟨26, 24, .ro⟩, ⟨23, 23, .none⟩, ⟨22, 20, .ro⟩, ⟨19, 16, .ro⟩, ⟨15, 0, .ro⟩]⟩]

/-- The register maps with the prefix MLD_. -/
def regsMld : List RegDesc := [
  ⟨"MLD_PILOT_CTRL", 0x8f000, 1, 0x1, 1, 0x1, 0x7, 0x0, 0x0, true, none, true,
    [⟨31, 3, .none⟩, ⟨2, 2, .rw⟩, ⟨1, 1, .rw⟩, ⟨0, 0, .rw⟩]⟩,
  ⟨"MLD_PILOT_VERDICTS", 0x8f004, 1, 0x1, 1, 0x1, 0x0, 0x0, 0x0, false, none, false,
    [⟨31, 0, .cnt⟩]⟩,
  ⟨"MLD_PILOT_FAILS", 0x8f008, 1, 0x1, 1, 0x1, 0x0, 0x0, 0x0, false, none, false,
    [⟨31, 0, .cnt⟩]⟩,
  ⟨"MLD_PILOT_LAST", 0x8f00c, 1, 0x1, 1, 0x1, 0xc00, 0x0, 0x0, false, none, false,
    [⟨31, 24, .ro⟩, ⟨23, 12, .none⟩, ⟨11, 10, .ro⟩, ⟨9, 0, .ro⟩]⟩,
  ⟨"MLD_STAGE_LEAD", 0x80000, 1, 0x1, 1, 0x1, 0x50, 0x0, 0x0, true, none, true,
    [⟨31, 8, .none⟩, ⟨7, 0, .rw⟩]⟩,
  ⟨"MLD_IN_FORCE", 0x80004, 1, 0x1, 1, 0x1, 0x4000, 0x0, 0x0, false, none, false,
    [⟨31, 15, .none⟩, ⟨14, 14, .ro⟩, ⟨13, 13, .ro⟩, ⟨12, 0, .ro⟩]⟩,
  ⟨"MLD_POUR_COUNT", 0x80008, 1, 0x1, 1, 0x1, 0x0, 0x0, 0x0, false, none, false,
    [⟨31, 0, .cnt⟩]⟩,
  ⟨"MLD_POUR_HELD", 0x8000c, 1, 0x1, 1, 0x1, 0x0, 0x0, 0x0, false, none, false,
    [⟨31, 0, .cnt⟩]⟩,
  ⟨"MLD_HELD_LAST", 0x80010, 1, 0x1, 1, 0x1, 0x0, 0x0, 0x0, false, none, false,
    [⟨31, 16, .ro⟩, ⟨15, 14, .ro⟩, ⟨13, 13, .none⟩, ⟨12, 0, .ro⟩]⟩,
  ⟨"MLD_CMP_BASE", 0x80100, 1, 0x1, 1, 0x1, 0x0, 0x0, 0x0, true, none, false,
    [⟨31, 16, .rw⟩, ⟨15, 13, .none⟩, ⟨12, 0, .rw⟩]⟩,
  ⟨"MLD_CMP_REQ", 0x80104, 1, 0x1, 1, 0x1, 0x0, 0x0, 0x0, true, none, false,
    [⟨31, 31, .wo⟩, ⟨30, 20, .none⟩, ⟨19, 19, .wo⟩, ⟨18, 13, .wo⟩, ⟨12, 0, .wo⟩]⟩,
  ⟨"MLD_CMP_STAT", 0x80108, 1, 0x1, 1, 0x1, 0x0, 0x0, 0x0, false, none, false,
    [⟨31, 31, .ro⟩, ⟨30, 30, .ro⟩, ⟨29, 28, .ro⟩, ⟨27, 24, .ro⟩, ⟨23, 13, .none⟩, ⟨12, 0, .ro⟩]⟩,
  ⟨"MLD_REJ_PTR", 0x8010c, 1, 0x1, 1, 0x1, 0x0, 0x0, 0x0, true, none, false,
    [⟨31, 28, .none⟩, ⟨27, 16, .ro⟩, ⟨15, 12, .none⟩, ⟨11, 0, .rw⟩]⟩,
  ⟨"MLD_REJ_LOST", 0x80110, 1, 0x1, 1, 0x1, 0x0, 0x0, 0x0, false, none, false,
    [⟨31, 0, .cnt⟩]⟩]

/-- The register maps with the prefix TILE_. -/
def regsTile : List RegDesc := [
  ⟨"TILE_EO_SPAN", 0x108000, 16, 0x10000, 21, 0x4, 0x0, 0x0, 0x0, true, none, true,
    [⟨31, 0, .rw⟩]⟩,
  ⟨"TILE_EO_SLEW", 0x108060, 16, 0x10000, 1, 0x1, 0x10000, 0x0, 0x0, true, none, true,
    [⟨31, 16, .rw⟩, ⟨15, 12, .none⟩, ⟨11, 0, .rw⟩]⟩,
  ⟨"TILE_HTR_SLEW", 0x108064, 16, 0x10000, 1, 0x1, 0x5000400, 0x0, 0x0, true, none, true,
    [⟨31, 16, .rw⟩, ⟨15, 0, .rw⟩]⟩,
  ⟨"TILE_STATUS", 0x100000, 16, 0x10000, 1, 0x1, 0x4, 0x1000000, 0x0, false, none, false,
    [⟨31, 28, .none⟩, ⟨27, 24, .ro⟩, ⟨23, 4, .none⟩, ⟨3, 3, .ro⟩, ⟨2, 2, .ro⟩, ⟨1, 1, .ro⟩, ⟨0, 0, .ro⟩]⟩,
  ⟨"TILE_VHTR", 0x100004, 16, 0x10000, 1, 0x1, 0x0, 0x0, 0x0, false, none, false,
    [⟨31, 17, .none⟩, ⟨16, 16, .ro⟩, ⟨15, 0, .ro⟩]⟩,
  ⟨"TILE_URG_REQ", 0x100010, 16, 0x10000, 1, 0x1, 0x0, 0x0, 0x0, true, none, false,
    [⟨31, 31, .wo⟩, ⟨30, 17, .none⟩, ⟨16, 16, .wo⟩, ⟨15, 10, .none⟩, ⟨9, 0, .wo⟩]⟩,
  ⟨"TILE_URG_STAT", 0x100014, 16, 0x10000, 1, 0x1, 0x0, 0x0, 0x0, false, none, false,
    [⟨31, 31, .ro⟩, ⟨30, 30, .ro⟩, ⟨29, 29, .ro⟩, ⟨28, 17, .none⟩, ⟨16, 16, .ro⟩, ⟨15, 10, .none⟩, ⟨9, 0, .ro⟩]⟩,
  ⟨"TILE_URG_RES", 0x100018, 16, 0x10000, 1, 0x1, 0x0, 0x0, 0x0, false, none, false,
    [⟨31, 0, .ro⟩]⟩,
  ⟨"TILE_SPARE", 0x100020, 16, 0x10000, 3, 0x4, 0x0, 0x0, 0x0, true, none, true,
    [⟨31, 31, .rw⟩, ⟨30, 29, .ro⟩, ⟨28, 6, .none⟩, ⟨5, 0, .rw⟩]⟩,
  ⟨"TILE_CMP_STAT", 0x100030, 16, 0x10000, 1, 0x1, 0x0, 0x0, 0x0, false, none, false,
    [⟨31, 31, .w1c⟩, ⟨30, 30, .ro⟩, ⟨29, 10, .none⟩, ⟨9, 0, .ro⟩]⟩,
  ⟨"TILE_CMP_COUNT", 0x100034, 16, 0x10000, 1, 0x1, 0x0, 0x0, 0x0, false, none, false,
    [⟨31, 0, .cnt⟩]⟩,
  ⟨"TILE_ERR_COUNTS", 0x100038, 16, 0x10000, 1, 0x1, 0x0, 0x0, 0x0, false, none, false,
    [⟨31, 24, .cnt⟩, ⟨23, 16, .cnt⟩, ⟨15, 8, .cnt⟩, ⟨7, 0, .cnt⟩]⟩,
  ⟨"TILE_ADC_COR", 0x100100, 16, 0x10000, 48, 0x4, 0x40000000, 0x0, 0x0, true, none, true,
    [⟨31, 16, .rw⟩, ⟨15, 0, .rw⟩]⟩,
  ⟨"TILE_ADC_ZERO", 0x100200, 16, 0x10000, 48, 0x4, 0x0, 0x0, 0x0, false, none, false,
    [⟨31, 30, .none⟩, ⟨29, 14, .ro⟩, ⟨13, 0, .ro⟩]⟩]

/-- The register maps with the prefix LOOP_. -/
def regsLoop : List RegDesc := [
  ⟨"LOOP_CTRL", 0xa0000, 1, 0x1, 1, 0x1, 0xff1000f1, 0x0, 0x0, true, none, true,
    [⟨31, 24, .rw⟩, ⟨23, 16, .rw⟩, ⟨15, 8, .none⟩, ⟨7, 4, .rw⟩, ⟨3, 1, .none⟩, ⟨0, 0, .rw⟩]⟩,
  ⟨"LOOP_CMD", 0xa0010, 1, 0x1, 1, 0x1, 0x0, 0x0, 0x0, true, none, false,
    [⟨31, 31, .wo⟩, ⟨30, 19, .none⟩, ⟨18, 16, .wo⟩, ⟨15, 14, .none⟩, ⟨13, 0, .wo⟩]⟩,
  ⟨"LOOP_QUERY", 0xa0014, 1, 0x1, 1, 0x1, 0x0, 0x0, 0x0, true, none, false,
    [⟨31, 14, .none⟩, ⟨13, 0, .rw⟩]⟩,
  ⟨"LOOP_QUERY_RES", 0xa0018, 1, 0x1, 1, 0x1, 0x0, 0x0, 0x0, false, none, false,
    [⟨31, 29, .ro⟩, ⟨28, 28, .ro⟩, ⟨27, 27, .ro⟩, ⟨26, 26, .ro⟩, ⟨25, 25, .ro⟩, ⟨24, 19, .ro⟩, ⟨18, 16, .none⟩, ⟨15, 0, .ro⟩]⟩,
  ⟨"LOOP_COUNTS_A", 0xa0020, 1, 0x1, 1, 0x1, 0x0, 0x0, 0x0, false, none, false,
    [⟨31, 31, .ro⟩, ⟨30, 30, .none⟩, ⟨29, 16, .ro⟩, ⟨15, 14, .none⟩, ⟨13, 0, .ro⟩]⟩,
  ⟨"LOOP_COUNTS_B", 0xa0024, 1, 0x1, 1, 0x1, 0x0, 0x0, 0x0, false, none, false,
    [⟨31, 30, .none⟩, ⟨29, 16, .ro⟩, ⟨15, 14, .none⟩, ⟨13, 0, .ro⟩]⟩,
  ⟨"LOOP_OVERRUN", 0xa0028, 1, 0x1, 1, 0x1, 0x0, 0x0, 0x0, false, none, false,
    [⟨31, 0, .cnt⟩]⟩,
  ⟨"LOOP_PATH_CTRL", 0xa0030, 1, 0x1, 1, 0x1, 0x10040a08, 0x0, 0x0, true, none, true,
    [⟨31, 20, .rw⟩, ⟨19, 16, .rw⟩, ⟨15, 8, .rw⟩, ⟨7, 0, .rw⟩]⟩,
  ⟨"LOOP_FLASK_MAP", 0xa0100, 64, 0x4, 1, 0x1, 0x4000000, 0x101, 0x0, true, none, false,
    [⟨31, 31, .wo⟩, ⟨30, 28, .none⟩, ⟨27, 24, .rw⟩, ⟨23, 22, .ro⟩, ⟨21, 15, .none⟩, ⟨14, 8, .rw⟩, ⟨7, 7, .none⟩, ⟨6, 0, .ro⟩]⟩,
  ⟨"LOOP_PASS", 0xa0200, 72, 0x4, 1, 0x1, 0x0, 0x0, 0x0, false, none, false,
    [⟨31, 26, .none⟩, ⟨25, 13, .ro⟩, ⟨12, 0, .ro⟩]⟩,
  ⟨"LOOP_PORT_TGT", 0xa1000, 592, 0x4, 1, 0x1, 0xff38, 0x0, 0x0, true, none, true,
    [⟨31, 16, .none⟩, ⟨15, 0, .rw⟩]⟩,
  ⟨"LOOP_PATH_STAT", 0xa2000, 592, 0x4, 1, 0x1, 0x0, 0x0, 0x0, false, none, false,
    [⟨31, 30, .ro⟩, ⟨29, 24, .none⟩, ⟨23, 16, .ro⟩, ⟨15, 0, .ro⟩]⟩]

/-- The register maps with the prefix CAL_. -/
def regsCal : List RegDesc := [
  ⟨"CAL_APPLY_MODE", 0xc0000, 1, 0x1, 1, 0x1, 0x0, 0x0, 0x0, true, none, true,
    [⟨31, 1, .none⟩, ⟨0, 0, .rw⟩]⟩,
  ⟨"CAL_DELTA_T", 0xc0004, 1, 0x1, 1, 0x1, 0x1e, 0x0, 0x0, true, none, true,
    [⟨31, 8, .none⟩, ⟨7, 0, .rw⟩]⟩,
  ⟨"CAL_STATUS", 0xc0008, 1, 0x1, 1, 0x1, 0x0, 0x0, 0x0, false, none, false,
    [⟨31, 31, .ro⟩, ⟨30, 30, .ro⟩, ⟨29, 29, .ro⟩, ⟨28, 28, .ro⟩, ⟨27, 16, .none⟩, ⟨15, 0, .ro⟩]⟩,
  ⟨"CAL_FLAGGED", 0xc000c, 1, 0x1, 1, 0x1, 0x0, 0x0, 0x0, false, none, false,
    [⟨31, 0, .cnt⟩]⟩,
  ⟨"CAL_FETTLE", 0xc0010, 1, 0x1, 1, 0x1, 0x80000000, 0x0, 0x0, true, none, true,
    [⟨31, 31, .rw⟩, ⟨30, 24, .none⟩, ⟨23, 20, .ro⟩, ⟨19, 16, .none⟩, ⟨15, 0, .ro⟩]⟩,
  ⟨"CAL_LEG_INDEX", 0xc0100, 1, 0x1, 1, 0x1, 0x0, 0x0, 0x0, true, none, false,
    [⟨31, 14, .none⟩, ⟨13, 0, .rw⟩]⟩,
  ⟨"CAL_LEG_DATA0", 0xc0104, 1, 0x1, 1, 0x1, 0x0, 0x0, 0x0, true, none, false,
    [⟨31, 16, .rw⟩, ⟨15, 0, .rw⟩]⟩,
  ⟨"CAL_LEG_DATA1", 0xc0108, 1, 0x1, 1, 0x1, 0x0, 0x0, 0x0, true, none, false,
    [⟨31, 16, .none⟩, ⟨15, 0, .rw⟩]⟩]

/-- The register maps with the prefix TIM_. -/
def regsTim : List RegDesc := [
  ⟨"TIM_STATUS", 0x60000, 1, 0x1, 1, 0x1, 0xffff0000, 0x0, 0x0, false, none, false,
    [⟨31, 16, .ro⟩, ⟨15, 9, .none⟩, ⟨8, 8, .ro⟩, ⟨7, 7, .ro⟩, ⟨6, 5, .ro⟩, ⟨4, 4, .ro⟩, ⟨3, 3, .none⟩, ⟨2, 0, .ro⟩]⟩,
  ⟨"TIM_CTRL", 0x60004, 1, 0x1, 1, 0x1, 0x640a00, 0x0, 0x0, true, none, true,
    [⟨31, 16, .rw⟩, ⟨15, 8, .rw⟩, ⟨7, 1, .none⟩, ⟨0, 0, .rw⟩]⟩,
  ⟨"TIM_NOW", 0x60010, 3, 0x4, 1, 0x1, 0x0, 0x0, 0x0, false, none, false,
    [⟨31, 0, .ro⟩]⟩,
  ⟨"TIM_TOD_LAST", 0x60020, 1, 0x1, 1, 0x1, 0x0, 0x0, 0x0, false, none, false,
    [⟨31, 16, .ro⟩, ⟨15, 0, .ro⟩]⟩,
  ⟨"TIM_ERRS", 0x60024, 1, 0x1, 1, 0x1, 0x0, 0x0, 0x0, false, none, false,
    [⟨31, 24, .cnt⟩, ⟨23, 16, .cnt⟩, ⟨15, 8, .cnt⟩, ⟨7, 0, .cnt⟩]⟩]

/-- The register maps with the prefix HEAT_. -/
def regsHeat : List RegDesc := [
  ⟨"HEAT_TIMING", 0x60100, 1, 0x1, 1, 0x1, 0xc80064, 0x0, 0x0, true, none, true,
    [⟨31, 16, .rw⟩, ⟨15, 0, .rw⟩]⟩,
  ⟨"HEAT_SCHED", 0x60104, 1, 0x1, 1, 0x1, 0x3e8, 0x0, 0x0, true, none, true,
    [⟨31, 31, .rw⟩, ⟨30, 20, .none⟩, ⟨19, 0, .rw⟩]⟩,
  ⟨"HEAT_MEET_MAX", 0x60108, 1, 0x1, 1, 0x1, 0x3e8, 0x0, 0x0, true, none, true,
    [⟨31, 16, .none⟩, ⟨15, 0, .rw⟩]⟩,
  ⟨"HEAT_RUN_BASE", 0x60110, 2, 0x4, 1, 0x1, 0x0, 0x0, 0x0, true, none, false,
    [⟨31, 0, .rw⟩]⟩,
  ⟨"HEAT_RUN_BASE2", 0x60118, 1, 0x1, 1, 0x1, 0x0, 0x0, 0x0, true, none, false,
    [⟨31, 31, .ro⟩, ⟨30, 0, .rw⟩]⟩,
  ⟨"HEAT_NEXT_BASE", 0x60120, 3, 0x4, 1, 0x1, 0x0, 0x0, 0x0, true, none, false,
    [⟨31, 0, .rw⟩]⟩,
  ⟨"HEAT_NEXT_CFG", 0x6012c, 1, 0x1, 1, 0x1, 0xff0040, 0x0, 0x0, true, none, false,
    [⟨31, 31, .rw⟩, ⟨30, 24, .none⟩, ⟨23, 16, .rw⟩, ⟨15, 9, .none⟩, ⟨8, 0, .rw⟩]⟩,
  ⟨"HEAT_COMMIT", 0x60130, 1, 0x1, 1, 0x1, 0x0, 0x0, 0x0, true, none, false,
    [⟨31, 31, .wo⟩, ⟨30, 30, .wo⟩, ⟨29, 0, .none⟩]⟩,
  ⟨"HEAT_NEXT_STATUS", 0x60134, 1, 0x1, 1, 0x1, 0x0, 0x0, 0x0, false, none, false,
    [⟨31, 29, .ro⟩, ⟨28, 28, .none⟩, ⟨27, 24, .ro⟩, ⟨23, 23, .ro⟩, ⟨22, 13, .none⟩, ⟨12, 0, .ro⟩]⟩,
  ⟨"HEAT_ACT", 0x60140, 3, 0x4, 1, 0x1, 0x0, 0x0, 0x0, false, none, false,
    [⟨31, 0, .ro⟩]⟩,
  ⟨"HEAT_LATE_N", 0x6014c, 1, 0x1, 1, 0x1, 0x0, 0x0, 0x0, false, none, false,
    [⟨31, 0, .ro⟩]⟩,
  ⟨"HEAT_LIVE", 0x60150, 1, 0x1, 1, 0x1, 0x0, 0x0, 0x0, false, none, false,
    [⟨31, 29, .none⟩, ⟨28, 16, .ro⟩, ⟨15, 0, .ro⟩]⟩,
  ⟨"HEAT_LIVE_SERIAL", 0x60154, 1, 0x1, 1, 0x1, 0x0, 0x0, 0x0, false, none, false,
    [⟨31, 0, .ro⟩]⟩]

/-- The register maps with the prefix LAD_. -/
def regsLad : List RegDesc := [
  ⟨"LAD_CTRL", 0x200000, 1, 0x1, 1, 0x1, 0x7, 0x0, 0x0, true, none, true,
    [⟨31, 3, .none⟩, ⟨2, 2, .rw⟩, ⟨1, 1, .rw⟩, ⟨0, 0, .rw⟩]⟩,
  ⟨"LAD_CLASS_MAP0", 0x200010, 1, 0x1, 1, 0x1, 0x4c484440, 0x0, 0x0, true, none, true,
    [⟨7, 5, .rw⟩, ⟨4, 0, .rw⟩, ⟨15, 13, .rw⟩, ⟨12, 8, .rw⟩, ⟨23, 21, .rw⟩, ⟨20, 16, .rw⟩, ⟨31, 29, .rw⟩, ⟨28, 24, .rw⟩]⟩,
  ⟨"LAD_CLASS_MAP1", 0x200014, 1, 0x1, 1, 0x1, 0x5c585450, 0x0, 0x0, true, none, true,
    [⟨7, 5, .rw⟩, ⟨4, 0, .rw⟩, ⟨15, 13, .rw⟩, ⟨12, 8, .rw⟩, ⟨23, 21, .rw⟩, ⟨20, 16, .rw⟩, ⟨31, 29, .rw⟩, ⟨28, 24, .rw⟩]⟩,
  ⟨"LAD_PROF", 0x200020, 16, 0x4, 1, 0x1, 0x80100040, 0x0, 0x0, true, none, true,
    [⟨31, 31, .rw⟩, ⟨30, 16, .rw⟩, ⟨15, 0, .rw⟩]⟩,
  ⟨"LAD_BP_CLASS", 0x200060, 8, 0x4, 1, 0x1, 0x10000c0, 0x0, 0x0, true, none, true,
    [⟨31, 16, .rw⟩, ⟨15, 0, .rw⟩]⟩,
  ⟨"LAD_BP_GLOBAL", 0x200080, 1, 0x1, 1, 0x1, 0x5f5a231e, 0x0, 0x0, true, none, true,
    [⟨31, 24, .rw⟩, ⟨23, 16, .rw⟩, ⟨15, 8, .rw⟩, ⟨7, 0, .rw⟩]⟩,
  ⟨"LAD_SPILL", 0x200084, 1, 0x1, 1, 0x1, 0x19, 0x0, 0x0, true, none, true,
    [⟨31, 7, .none⟩, ⟨6, 0, .rw⟩]⟩,
  ⟨"LAD_MC_CTRL", 0x200088, 1, 0x1, 1, 0x1, 0x1f40040, 0x0, 0x0, true, none, true,
    [⟨31, 16, .rw⟩, ⟨15, 0, .rw⟩]⟩,
  ⟨"LAD_RESEQ", 0x20008c, 1, 0x1, 1, 0x1, 0x400014, 0x0, 0x0, true, none, true,
    [⟨31, 23, .none⟩, ⟨22, 16, .rw⟩, ⟨15, 0, .rw⟩]⟩,
  ⟨"LAD_HEAVY", 0x200090, 1, 0x1, 1, 0x1, 0x2625a, 0x0, 0x0, true, none, true,
    [⟨31, 0, .rw⟩]⟩,
  ⟨"LAD_OCC", 0x2000a0, 1, 0x1, 1, 0x1, 0x0, 0x0, 0x0, false, none, false,
    [⟨31, 31, .ro⟩, ⟨30, 21, .none⟩, ⟨20, 0, .ro⟩]⟩,
  ⟨"LAD_RISER_OCC", 0x2000a4, 1, 0x1, 1, 0x1, 0x0, 0x0, 0x0, false, none, false,
    [⟨31, 30, .none⟩, ⟨29, 0, .ro⟩]⟩,
  ⟨"LAD_GRP_COMMIT", 0x2000b0, 1, 0x1, 1, 0x1, 0x0, 0x0, 0x0, true, none, false,
    [⟨31, 31, .wo⟩, ⟨30, 14, .none⟩, ⟨13, 0, .wo⟩]⟩,
  ⟨"LAD_PORT_A", 0x200100, 64, 0x4, 1, 0x1, 0x10000000, 0x1, 0x0, false, none, false,
    [⟨31, 29, .ro⟩, ⟨28, 28, .ro⟩, ⟨27, 24, .none⟩, ⟨23, 16, .cnt⟩, ⟨15, 8, .cnt⟩, ⟨7, 7, .none⟩, ⟨6, 0, .ro⟩]⟩,
  ⟨"LAD_PORT_S", 0x200200, 4, 0x4, 1, 0x1, 0x30000040, 0x1, 0x0, false, none, false,
    [⟨31, 29, .ro⟩, ⟨28, 28, .ro⟩, ⟨27, 24, .none⟩, ⟨23, 16, .cnt⟩, ⟨15, 8, .cnt⟩, ⟨7, 7, .none⟩, ⟨6, 0, .ro⟩]⟩,
  ⟨"LAD_SWAP", 0x200300, 4, 0x4, 1, 0x1, 0x0, 0x0, 0x0, true, none, false,
    [⟨31, 31, .wo⟩, ⟨30, 30, .rw⟩, ⟨29, 28, .ro⟩, ⟨27, 6, .none⟩, ⟨5, 0, .rw⟩]⟩,
  ⟨"LAD_CNT", 0x200400, 16, 0x4, 1, 0x1, 0x0, 0x0, 0x0, false, none, false,
    [⟨31, 0, .cnt⟩]⟩]

/-- The register maps with the prefix LSV_. -/
def regsLsv : List RegDesc := [
  ⟨"LSV_CTRL", 0x280000, 1, 0x1, 1, 0x1, 0x3, 0x0, 0x0, true, none, true,
    [⟨31, 2, .none⟩, ⟨1, 1, .rw⟩, ⟨0, 0, .rw⟩]⟩,
  ⟨"LSV_LANE_Q", 0x280010, 1, 0x1, 1, 0x1, 0x0, 0x0, 0x0, true, none, false,
    [⟨31, 21, .none⟩, ⟨20, 12, .rw⟩, ⟨11, 3, .rw⟩, ⟨2, 0, .rw⟩]⟩,
  ⟨"LSV_LANE_RES", 0x280014, 1, 0x1, 1, 0x1, 0x0, 0x0, 0x0, false, none, false,
    [⟨31, 31, .ro⟩, ⟨30, 30, .ro⟩, ⟨29, 29, .ro⟩, ⟨28, 24, .none⟩, ⟨23, 0, .ro⟩]⟩,
  ⟨"LSV_CNT", 0x280100, 8, 0x4, 1, 0x1, 0x0, 0x0, 0x0, false, none, false,
    [⟨31, 0, .cnt⟩]⟩,
  ⟨"LSV_DSHP", 0x281000, 512, 0x4, 1, 0x1, 0x0, 0x0, 0x0, true, none, true,
    [⟨31, 16, .rw⟩, ⟨15, 0, .rw⟩]⟩,
  ⟨"LSV_QCFG", 0x2c0000, 16384, 0x8, 1, 0x1, 0x2400, 0x0, 0x0, true, none, true,
    [⟨31, 31, .rw⟩, ⟨30, 16, .none⟩, ⟨15, 0, .rw⟩]⟩,
  ⟨"LSV_QSHP", 0x2c0004, 16384, 0x8, 1, 0x1, 0x0, 0x0, 0x0, true, none, true,
    [⟨31, 16, .rw⟩, ⟨15, 0, .rw⟩]⟩]

/-- The register maps with the prefix JOB_. -/
def regsJob : List RegDesc := [
  ⟨"JOB_RING0_BASE_LO", 0x50000, 1, 0x1, 1, 0x1, 0x0, 0x0, 0x0, true, none, true,
    [⟨31, 0, .rw⟩]⟩,
  ⟨"JOB_RING0_BASE_HI", 0x50004, 1, 0x1, 1, 0x1, 0x0, 0x0, 0x0, true, none, true,
    [⟨31, 0, .rw⟩]⟩,
  ⟨"JOB_RING1_BASE_LO", 0x50020, 1, 0x1, 1, 0x1, 0x0, 0x0, 0x0, false, none, true,
    [⟨31, 0, .rw⟩]⟩,
  ⟨"JOB_RING1_BASE_HI", 0x50024, 1, 0x1, 1, 0x1, 0x0, 0x0, 0x0, false, none, true,
    [⟨31, 0, .rw⟩]⟩,
  ⟨"JOB_RING0_CTRL", 0x50008, 1, 0x1, 1, 0x1, 0x6, 0x0, 0x0, true, none, true,
    [⟨31, 31, .rw⟩, ⟨30, 4, .none⟩, ⟨3, 0, .rw⟩]⟩,
  ⟨"JOB_RING1_CTRL", 0x50028, 1, 0x1, 1, 0x1, 0x6, 0x0, 0x0, false, none, true,
    [⟨31, 31, .rw⟩, ⟨30, 4, .none⟩, ⟨3, 0, .rw⟩]⟩,
  ⟨"JOB_RING0_HEAD", 0x5000c, 1, 0x1, 1, 0x1, 0x0, 0x0, 0x0, false, none, false,
    [⟨31, 28, .none⟩, ⟨27, 16, .ro⟩, ⟨15, 12, .none⟩, ⟨11, 0, .ro⟩]⟩,
  ⟨"JOB_RING1_HEAD", 0x5002c, 1, 0x1, 1, 0x1, 0x0, 0x0, 0x0, false, none, false,
    [⟨31, 28, .none⟩, ⟨27, 16, .ro⟩, ⟨15, 12, .none⟩, ⟨11, 0, .ro⟩]⟩,
  ⟨"JOB_ACTIVE", 0x50100, 1, 0x1, 1, 0x1, 0x10000, 0x0, 0x0, false, none, false,
    [⟨31, 16, .ro⟩, ⟨15, 6, .none⟩, ⟨5, 0, .ro⟩]⟩,
  ⟨"JOB_IMG", 0x50114, 3, 0x4, 1, 0x1, 0x0, 0x0, 0x0, false, none, false,
    [⟨31, 20, .none⟩, ⟨19, 18, .ro⟩, ⟨17, 16, .ro⟩, ⟨15, 0, .ro⟩]⟩,
  ⟨"JOB_FLOW_EDIT", 0x50200, 1, 0x1, 1, 0x1, 0x0, 0x0, 0x0, true, none, false,
    [⟨31, 31, .wo⟩, ⟨30, 28, .wo⟩, ⟨27, 25, .wo⟩, ⟨24, 21, .none⟩, ⟨20, 0, .wo⟩]⟩,
  ⟨"JOB_CLAIM", 0x51000, 71, 0x4, 1, 0x1, 0x0, 0x0, 0x0, false, none, false,
    [⟨31, 30, .ro⟩, ⟨29, 29, .ro⟩, ⟨28, 24, .ro⟩, ⟨23, 16, .none⟩, ⟨15, 0, .ro⟩]⟩]

/-- The register maps with the prefix CFG_. -/
def regsCfg : List RegDesc := [
  ⟨"CFG_REF", 0x10000, 1, 0x1, 1, 0x1, 0x0, 0x0, 0x0, false, none, false,
    [⟨31, 0, .ro⟩]⟩,
  ⟨"CFG_CRC", 0x10004, 1, 0x1, 1, 0x1, 0x0, 0x0, 0x0, false, none, false,
    [⟨31, 0, .ro⟩]⟩,
  ⟨"CFG_STATUS", 0x10008, 1, 0x1, 1, 0x1, 0x0, 0x0, 0x0, false, none, false,
    [⟨31, 31, .ro⟩, ⟨30, 30, .ro⟩, ⟨29, 29, .w1c⟩, ⟨28, 16, .none⟩, ⟨15, 0, .cnt⟩]⟩,
  ⟨"CFG_MISMATCHES", 0x1000c, 1, 0x1, 1, 0x1, 0x0, 0x0, 0x0, false, none, false,
    [⟨31, 0, .cnt⟩]⟩]

/-- The register maps with the prefix BUS_. -/
def regsBus : List RegDesc := [
  ⟨"BUS_REMAP", 0x300000, 1, 0x1, 1, 0x1, 0x0, 0x0, 0x0, true, none, false,
    [⟨31, 1, .none⟩, ⟨0, 0, .rw⟩]⟩,
  ⟨"BUS_SLICE", 0x300004, 1, 0x1, 1, 0x1, 0x0, 0x0, 0x0, true, none, true,
    [⟨31, 24, .none⟩, ⟨23, 23, .rw⟩, ⟨22, 22, .rw⟩, ⟨21, 21, .rw⟩, ⟨20, 20, .rw⟩, ⟨19, 19, .rw⟩, ⟨18, 18, .rw⟩, ⟨17, 17, .rw⟩, ⟨16, 16, .rw⟩, ⟨15, 0, .rw⟩]⟩,
  ⟨"BUS_STATUS", 0x300008, 1, 0x1, 1, 0x1, 0x0, 0x0, 0x0, false, none, false,
    [⟨31, 31, .ro⟩, ⟨30, 30, .ro⟩, ⟨29, 9, .none⟩, ⟨8, 8, .w1c⟩, ⟨7, 0, .ro⟩]⟩,
  ⟨"BUS_PROMOTE", 0x30000c, 1, 0x1, 1, 0x1, 0x40, 0x0, 0x0, true, none, true,
    [⟨31, 10, .none⟩, ⟨9, 0, .rw⟩]⟩,
  ⟨"BUS_ERR_COUNTS", 0x300010, 1, 0x1, 1, 0x1, 0x0, 0x0, 0x0, false, none, false,
    [⟨31, 24, .cnt⟩, ⟨23, 16, .cnt⟩, ⟨15, 8, .cnt⟩, ⟨7, 4, .cnt⟩, ⟨3, 0, .cnt⟩]⟩]

/-- The register maps with the prefix EVT_. -/
def regsEvt : List RegDesc := [
  ⟨"EVT_DELIVER_EN", 0x20000, 1, 0x1, 1, 0x1, 0x1, 0x0, 0x0, true, none, true,
    [⟨31, 1, .none⟩, ⟨0, 0, .rw⟩]⟩,
  ⟨"EVT_STATUS", 0x20004, 1, 0x1, 1, 0x1, 0x0, 0x0, 0x0, false, none, false,
    [⟨31, 31, .w1c⟩, ⟨30, 13, .none⟩, ⟨12, 0, .ro⟩]⟩,
  ⟨"EVT_LOST", 0x20008, 1, 0x1, 1, 0x1, 0x0, 0x0, 0x0, false, none, false,
    [⟨31, 0, .cnt⟩]⟩,
  ⟨"EVT_FALLBACK_TIMEOUT", 0x2000c, 1, 0x1, 1, 0x1, 0x3e80002, 0x0, 0x0, true, none, true,
    [⟨31, 16, .rw⟩, ⟨15, 2, .none⟩, ⟨1, 0, .rw⟩]⟩,
  ⟨"EVT_ROUTE0", 0x20100, 1, 0x1, 1, 0x1, 0x7d14d, 0x0, 0x0, false, none, false,
    [⟨31, 19, .none⟩, ⟨18, 16, .ro⟩, ⟨15, 13, .ro⟩, ⟨12, 10, .ro⟩, ⟨9, 7, .ro⟩, ⟨6, 4, .ro⟩, ⟨3, 0, .ro⟩]⟩,
  ⟨"EVT_ROUTE", 0x20100, 96, 0x4, 1, 0x1, 0x7d115, 0x0, 0x0, true, none, true,
    [⟨31, 19, .none⟩, ⟨18, 16, .rw⟩, ⟨15, 13, .rw⟩, ⟨12, 10, .rw⟩, ⟨9, 7, .rw⟩, ⟨6, 4, .rw⟩, ⟨3, 0, .rw⟩]⟩,
  ⟨"EVT_TGT_CTRL", 0x21000, 4, 0x100, 1, 0x1, 0x0, 0x1000000, 0x0, true, some 1, true,
    [⟨31, 26, .none⟩, ⟨25, 24, .rw⟩, ⟨23, 10, .none⟩, ⟨9, 0, .rw⟩]⟩,
  ⟨"EVT_TGT_ACCEPT", 0x21004, 4, 0x100, 1, 0x1, 0x0, 0x0, 0x0, false, some 1, false,
    [⟨31, 31, .ro⟩, ⟨30, 11, .none⟩, ⟨10, 8, .ro⟩, ⟨7, 3, .none⟩, ⟨2, 0, .ro⟩]⟩,
  ⟨"EVT_TGT_EOI", 0x21008, 4, 0x100, 1, 0x1, 0x0, 0x0, 0x0, false, some 1, false,
    [⟨31, 0, .wo⟩]⟩,
  ⟨"EVT_TGT_STACK", 0x2100c, 4, 0x100, 1, 0x1, 0x0, 0x0, 0x0, false, some 1, false,
    [⟨31, 31, .ro⟩, ⟨30, 30, .ro⟩, ⟨29, 24, .none⟩, ⟨23, 16, .cnt⟩, ⟨15, 8, .ro⟩, ⟨7, 0, .ro⟩]⟩,
  ⟨"EVT_RING_BASE_LO", 0x22000, 4, 0x100, 8, 0x20, 0x0, 0x0, 0x0, true, some 1, true,
    [⟨31, 0, .rw⟩]⟩,
  ⟨"EVT_RING_BASE_HI", 0x22004, 4, 0x100, 8, 0x20, 0x0, 0x0, 0x0, true, some 1, true,
    [⟨31, 0, .rw⟩]⟩,
  ⟨"EVT_RING_CTRL", 0x22008, 4, 0x100, 8, 0x20, 0x8, 0x0, 0x0, true, some 1, true,
    [⟨31, 31, .rw⟩, ⟨30, 4, .none⟩, ⟨3, 0, .rw⟩]⟩,
  ⟨"EVT_RING_HEAD", 0x2200c, 4, 0x100, 8, 0x20, 0x0, 0x0, 0x0, true, some 1, false,
    [⟨31, 12, .none⟩, ⟨11, 0, .rw⟩]⟩,
  ⟨"EVT_RING_TAIL", 0x22010, 4, 0x100, 8, 0x20, 0x1000, 0x0, 0x0, false, some 1, false,
    [⟨31, 13, .none⟩, ⟨12, 12, .ro⟩, ⟨11, 0, .ro⟩]⟩]

/-- The register maps with the prefix CD_. -/
def regsCd : List RegDesc := [
  ⟨"CD_STATUS", 0xe0000, 1, 0x1, 1, 0x1, 0x0, 0x0, 0x0, false, none, false,
    [⟨31, 31, .ro⟩, ⟨30, 28, .ro⟩, ⟨27, 27, .ro⟩, ⟨26, 26, .ro⟩, ⟨25, 25, .ro⟩, ⟨24, 0, .none⟩]⟩,
  ⟨"CD_CTRL", 0xe0004, 1, 0x1, 1, 0x1, 0x80100064, 0x0, 0x0, true, none, true,
    [⟨31, 31, .rw⟩, ⟨30, 24, .none⟩, ⟨23, 16, .rw⟩, ⟨15, 0, .rw⟩]⟩,
  ⟨"CD_CMD", 0xe0008, 1, 0x1, 1, 0x1, 0x0, 0x0, 0x0, true, none, false,
    [⟨31, 31, .wo⟩, ⟨30, 2, .none⟩, ⟨1, 0, .wo⟩]⟩,
  ⟨"CD_CMD_STAT", 0xe000c, 1, 0x1, 1, 0x1, 0x0, 0x0, 0x0, false, none, false,
    [⟨31, 30, .ro⟩, ⟨29, 2, .none⟩, ⟨1, 0, .ro⟩]⟩,
  ⟨"CD_HEALTH", 0xe0010, 1, 0x1, 1, 0x1, 0x0, 0x0, 0x0, false, none, false,
    [⟨31, 16, .none⟩, ⟨15, 8, .ro⟩, ⟨7, 0, .ro⟩]⟩,
  ⟨"CD_LAST", 0xe0014, 1, 0x1, 1, 0x1, 0x0, 0x0, 0x0, false, none, false,
    [⟨31, 0, .ro⟩]⟩,
  ⟨"CD_COUNTS", 0xe0018, 1, 0x1, 1, 0x1, 0x0, 0x0, 0x0, false, none, false,
    [⟨31, 24, .cnt⟩, ⟨23, 16, .cnt⟩, ⟨15, 8, .cnt⟩, ⟨7, 0, .cnt⟩]⟩,
  ⟨"CD_COPY_STAT", 0xe001c, 1, 0x1, 1, 0x1, 0x0, 0x0, 0x0, false, none, false,
    [⟨31, 16, .cnt⟩, ⟨15, 0, .cnt⟩]⟩]

/-- The register maps with the prefix FLT_. -/
def regsFlt : List RegDesc := [
  ⟨"FLT_SUMMARY", 0x30000, 1, 0x1, 1, 0x1, 0x0, 0x0, 0x0, false, none, false,
    [⟨31, 12, .none⟩, ⟨11, 11, .ro⟩, ⟨10, 10, .ro⟩, ⟨9, 9, .ro⟩, ⟨8, 8, .ro⟩, ⟨7, 5, .none⟩, ⟨4, 1, .ro⟩, ⟨0, 0, .none⟩]⟩,
  ⟨"FLT_ERR_HOLD", 0x30004, 1, 0x1, 1, 0x1, 0x0, 0x0, 0x0, true, none, true,
    [⟨31, 2, .none⟩, ⟨1, 1, .rw⟩, ⟨0, 0, .rw⟩]⟩,
  ⟨"FLT_ERR_COUNT", 0x30008, 1, 0x1, 1, 0x1, 0x0, 0x0, 0x0, false, none, false,
    [⟨31, 0, .cnt⟩]⟩,
  ⟨"FLT_FEC_STAT", 0x30010, 1, 0x1, 1, 0x1, 0x0, 0x0, 0x0, false, none, false,
    [⟨31, 31, .w1c⟩, ⟨30, 16, .none⟩, ⟨15, 0, .cnt⟩]⟩,
  ⟨"FLT_FEC_ADDR_LO", 0x30014, 1, 0x1, 1, 0x1, 0x0, 0x0, 0x0, false, none, false,
    [⟨31, 0, .ro⟩]⟩,
  ⟨"FLT_FEC_ADDR_HI", 0x30018, 1, 0x1, 1, 0x1, 0x0, 0x0, 0x0, false, none, false,
    [⟨31, 0, .ro⟩]⟩,
  ⟨"FLT_FEC_INFO", 0x3001c, 1, 0x1, 1, 0x1, 0x0, 0x0, 0x0, false, none, false,
    [⟨31, 24, .none⟩, ⟨23, 20, .ro⟩, ⟨19, 16, .ro⟩, ⟨15, 15, .ro⟩, ⟨14, 12, .none⟩, ⟨11, 8, .ro⟩, ⟨7, 0, .ro⟩]⟩,
  ⟨"FLT_FEC_NS", 0x30020, 1, 0x1, 1, 0x1, 0x0, 0x0, 0x0, false, none, false,
    [⟨31, 0, .ro⟩]⟩,
  ⟨"FLT_FEC_SEC", 0x30024, 1, 0x1, 1, 0x1, 0x0, 0x0, 0x0, false, none, false,
    [⟨31, 0, .ro⟩]⟩,
  ⟨"FLT_SRC", 0x30100, 96, 0x4, 1, 0x1, 0xac8000, 0x0, 0x0, true, none, true,
    [⟨31, 28, .none⟩, ⟨27, 27, .w1c⟩, ⟨26, 26, .w1c⟩, ⟨25, 25, .w1c⟩, ⟨24, 24, .w1c⟩, ⟨23, 21, .rw⟩, ⟨20, 18, .rw⟩, ⟨17, 15, .rw⟩, ⟨14, 12, .rw⟩, ⟨11, 8, .none⟩, ⟨7, 0, .cnt⟩]⟩]

/-- The register maps with the prefix THM_. -/
def regsThm : List RegDesc := [
  ⟨"THM_CTRL", 0x40000, 1, 0x1, 1, 0x1, 0x550050a, 0x0, 0x0, true, none, true,
    [⟨31, 16, .rw⟩, ⟨15, 8, .rw⟩, ⟨7, 0, .rw⟩]⟩,
  ⟨"THM_THR_MASK", 0x40004, 1, 0x1, 1, 0x1, 0xfff, 0x0, 0x0, true, none, true,
    [⟨31, 16, .none⟩, ⟨15, 0, .rw⟩]⟩,
  ⟨"THM_STATUS", 0x40008, 1, 0x1, 1, 0x1, 0x80006400, 0x0, 0x0, false, none, false,
    [⟨31, 16, .ro⟩, ⟨15, 8, .ro⟩, ⟨7, 4, .ro⟩, ⟨3, 0, .ro⟩]⟩,
  ⟨"THM_CH", 0x40100, 16, 0x4, 1, 0x1, 0x6408000, 0x0, 0x0, true, none, true,
    [⟨31, 16, .rw⟩, ⟨15, 0, .ro⟩]⟩,
  ⟨"THM_EXT", 0x40200, 4, 0x4, 1, 0x1, 0x27600000, 0x0, 0x0, true, none, true,
    [⟨31, 16, .rw⟩, ⟨15, 2, .none⟩, ⟨1, 0, .rw⟩]⟩]

/-- The register maps with the prefix LOCK_. -/
def regsLock : List RegDesc := [
  ⟨"LOCK_STATUS", 0x310000, 1, 0x1, 1, 0x1, 0x0, 0x0, 0x0, false, none, false,
    [⟨31, 31, .ro⟩, ⟨30, 30, .ro⟩, ⟨29, 29, .ro⟩, ⟨28, 28, .ro⟩, ⟨27, 24, .ro⟩, ⟨23, 20, .ro⟩, ⟨19, 0, .ro⟩]⟩,
  ⟨"LOCK_CTRL", 0x310004, 1, 0x1, 1, 0x1, 0x3c, 0x0, 0x0, true, none, true,
    [⟨31, 11, .none⟩, ⟨10, 0, .rw⟩]⟩,
  ⟨"LOCK_CMD", 0x310008, 1, 0x1, 1, 0x1, 0x0, 0x0, 0x0, false, none, false,
    [⟨31, 31, .wo⟩, ⟨30, 27, .none⟩, ⟨26, 24, .wo⟩, ⟨23, 10, .none⟩, ⟨9, 8, .wo⟩, ⟨7, 6, .none⟩, ⟨5, 0, .wo⟩]⟩,
  ⟨"LOCK_CHAL", 0x310010, 4, 0x4, 1, 0x1, 0x0, 0x0, 0x0, false, none, false,
    [⟨31, 0, .ro⟩]⟩,
  ⟨"LOCK_RESP", 0x310020, 8, 0x4, 1, 0x1, 0x0, 0x0, 0x0, false, none, false,
    [⟨31, 0, .wo⟩]⟩]

/-- Every register map of the register space; EVT_ROUTE0 stands before EVT_ROUTE, whose index 0 it is. -/
def regTable : List RegDesc :=
  regsGlb ++ regsMld ++ regsTile ++ regsLoop ++ regsCal ++ regsTim ++ regsHeat ++ regsLad ++ regsLsv ++ regsJob ++ regsCfg ++ regsBus ++ regsEvt ++ regsCd ++ regsFlt ++ regsThm ++ regsLock

end Sys2Proof.Machine
end

