-- ==== Sys2Proof/Config.lean ====
section
/-!
DEFINITION. What the spec leaves to one module or leaves open: every constant here is opaque, so no proof can see its value.
A value that is free afresh at each use is applied to the counter `State.free`, which the step advances.
-/
namespace Sys2Proof.Config

/-- A number the spec leaves open, fresh at each value of the counter (log 2). -/
opaque freeNat : Nat → Nat

/-- A word the spec leaves open, fresh at each value of the counter (log 2). -/
opaque freeWord : Nat → Word

/-- Whether cell `c` is BAR in the routing numbered `r`: the mould router's choice is the engine's own (R375, log 15). -/
opaque routeBar : Nat → Nat → Bool

/-- Whether, with the connections of the outputs below it, the connection of an output of a permutation can be routed around
the retired cells: it depends on the interconnect of C1 to C18, which is not specified (R375, log 15). -/
opaque routableUpTo : List Nat → List Nat → Nat → Bool

/-- The factory's cross and bar codes of an element on each span (R136, log 12). -/
opaque factoryCode : Nat → Nat → Int

/-- The factory value of the other calibrated quantities, by quantity code and object (Table 06.2, log 12). -/
opaque factoryValue : Nat → Nat → Int

/-- The module serial number (Table 13.15). -/
opaque serial : BitVec 64

/-- What OTP says is provisioned: USER_KEY, CHAL_KEY, PASSWORD (Table 13.16, bits 2, 1, 0). -/
opaque otp : BitVec 3

/-- The device-unique key held by Gernaum, the customer key, and the password digest in OTP (R357, R358). -/
opaque gernaumKey : List Byte
opaque customerKey : List Byte
opaque passwordDigest : List Byte

/-- By how many ns EST_ERR rises in one ms of HOLDOVER, by the ms and its place since entry: the timebase's own model of its
oscillator's drift (Table 07.14, log 5). -/
opaque holdoverDrift : Nat → Nat → Nat

/-- The measurement uncertainty that EST_ERR adds to the phase error in ACQUIRE and LOCKED (Table 07.14, log 5). -/
opaque measureUncertainty : Nat

/-- How far, below the limit of 10 ppm, a slew has moved network time over a span: by the instant and the span (R146, log 102). -/
opaque slewRate : Nat → Nat → Nat

/-- The chips of RUN (0) and of HOLD (1): of an input in a chip period; the sequences are not stated, the bound on their family
is Machine.ChipFamily (R42, log 103). -/
opaque chip : Nat → Nat → Nat → Bool

/-- Which of the row positions open to it the path to an output takes in one of the columns C1 to C18, by the mould's layers,
the output and the column: the interconnect of these columns is not specified (R375, log 15). -/
opaque pathRow : List (Option Nat × List Nat) → Nat → Nat → Nat

/-- Intended power in nW from an output monitor's error and its tone response, and total power in nW from its DC level and
responsivity: the formulas are not stated (R113, log 10). -/
opaque tonePower : Int → Int → Nat
opaque totalPower : Int → Int → Nat

/-- Whether a reported figure is rounded up where the spec gives the quantity but not its rounding (log 63). -/
opaque roundUp : Nat → Nat → Bool

/-- Which of several requests an output grants and which of several grants an input accepts: the matching unit's own choice,
by the round, the port and the number of candidates (R162, log 21). -/
opaque matchPick : Nat → Nat → Nat

/-- Whether the POLICY image in slot A (false) or B is the firmware library's default policy (R163, log 114). -/
opaque defaultPolicy : Bool → Bool

/-- What the default policy leaves to itself, by the epoch and the slot: the mould from which it looks for one not in use, whether
time runs short, and a slot's duration where those built do not keep control reach (R163, log 114). -/
opaque policyMould : Nat → Nat → Nat
opaque policyTimeShort : Nat → Nat → Bool
opaque policyDur : Nat → Nat → Nat

/-- The levels of the PRBS13Q test pattern from its seed (IEEE 802.3 clause 120, Table 08.3; log 116). -/
opaque prbs13q : Nat → Nat

/-- The addresses in shared SRAM at which the firmware library keeps the frozen demand matrix and the heavy list (Table
11.18, log 21). -/
opaque demandAddress : Word
opaque heavyAddress : Word

/-- The resistance of an element's heater, which R84 gives to 10 %: a value of Machine.heaterOhm (log 12). -/
opaque heaterOhms : Nat → Nat

/-- The heater step in codes by which a sweep measures HEFF (R122), and the corrected code that a channel's gain makes of the tile
reference's nominal 1.2500 V: neither is stated (log 12). -/
opaque heaterStep : Nat
opaque refCode : Nat

/-- Where in network time the PWM periods of the heater drivers start, modulo 160 ns, and, as an odd stride, the order in which
the six low bits of a code are spread over 64 periods: neither is stated (R84, log 108). -/
opaque pwmPhase : Nat
opaque pwmStride : Nat

/-- The factory's loss of the FA connector facet of a core input, or of output o at 592 + o, in 0.01 dB (R117, R121). -/
opaque facetLoss : Nat → Int

/-- The path with the largest loss of an input, by the loss values in force: its output, and the cells it crosses between C0 and
C19 (R106, log 111). -/
opaque worstPath : List (Nat × Int) → Nat → Nat × List Nat

end Sys2Proof.Config
end

