-- ==== Sys2Proof/Machine/Bits.lean ====
section
/-!
DEFINITION. Bit fields of words, saturating counts, rounding and the checksums the spec names (R143, R180, R239, R292).
-/
namespace Sys2Proof.Machine

/-- The bits [hi:lo] of a word, as a number. -/
def bitsOf (w : Word) (hi lo : Nat) : Nat := (w.extractLsb' lo (hi + 1 - lo)).toNat

/-- The word with bits [hi:lo] replaced by a number, taken modulo the field's width. -/
def withBits (w : Word) (hi lo v : Nat) : Word :=
  (w &&& ~~~(((BitVec.allOnes (hi + 1 - lo)).setWidth 32) <<< lo)) |||
    (((BitVec.ofNat (hi + 1 - lo) v).setWidth 32) <<< lo)

/-- One bit of a word as a number. -/
def bitOf (w : Word) (b : Nat) : Bool := w.getLsbD b

/-- A natural as a signed number of n bits. -/
def signed (n v : Nat) : Int := if v % 2 ^ n < 2 ^ (n - 1) then (v % 2 ^ n : Nat) else ((v % 2 ^ n : Nat) : Int) - 2 ^ n

/-- A signed number as the low n bits of its two's complement. -/
def unsigned (n : Nat) (v : Int) : Nat := (v % (2 ^ n : Nat)).toNat

/-- A number held between two limits. -/
def clampInt (lo hi v : Int) : Int := if v < lo then lo else if hi < v then hi else v

/-- A number held between two limits. -/
def clampNat (lo hi v : Nat) : Nat := if v < lo then lo else if hi < v then hi else v

/-- A count that saturates at a limit. -/
def satAdd (limit c n : Nat) : Nat := if limit < c + n then limit else c + n

/-- The nearest integer to n / d, halves away from zero (R239); d is positive. -/
def roundDiv (n : Int) (d : Nat) : Int :=
  if 0 ≤ n then (2 * n + d) / (2 * d) else -((2 * (-n) + d) / (2 * d))

/-- n / d rounded towards zero. -/
def truncDiv (n : Int) (d : Nat) : Int := if 0 ≤ n then n / d else -((-n) / d)

/-- The number one bit of a flag stands for. -/
def b2n (b : Bool) : Nat := if b then 1 else 0

/-- The rounded-up quotient. -/
def ceilDiv (a b : Nat) : Nat := (a + b - 1) / b

/-- One byte into CRC-16/CCITT-FALSE (R143): polynomial 0x1021, most significant bit first. -/
def crc16Byte (c : BitVec 16) (x : Byte) : BitVec 16 :=
  (List.range 8).foldl (fun c _ => if c.getLsbD 15 then (c <<< 1) ^^^ 0x1021#16 else c <<< 1) (c ^^^ (x.setWidth 16 <<< 8))

/-- CRC-16/CCITT-FALSE of a byte list (R143): initial value 0xFFFF, no reflection, no final XOR. -/
def crc16 (bs : List Byte) : BitVec 16 := bs.foldl crc16Byte 0xFFFF#16

/-- One byte into a reflected 32-bit CRC whose reflected polynomial is given. -/
def crc32Byte (poly : BitVec 32) (c : BitVec 32) (x : Byte) : BitVec 32 :=
  (List.range 8).foldl (fun c _ => if c.getLsbD 0 then (c >>> 1) ^^^ poly else c >>> 1) (c ^^^ x.setWidth 32)

/-- CRC-32 of a frame's payload (R180): polynomial 0x04C1_1DB7, reflected, initial and final value all ones. -/
def crc32 (bs : List Byte) : BitVec 32 := ~~~(bs.foldl (crc32Byte 0xEDB88320#32) 0xFFFFFFFF#32)

/-- CRC-32C of the configuration registers (R292): polynomial 0x1EDC_6F41, reflected, all ones before and after. -/
def crc32c (bs : List Byte) : BitVec 32 := ~~~(bs.foldl (crc32Byte 0x82F63B78#32) 0xFFFFFFFF#32)

/-- The four bytes of a word, least significant first. -/
def bytesOf (w : Word) : List Byte :=
  [w.extractLsb' 0 8, w.extractLsb' 8 8, w.extractLsb' 16 8, w.extractLsb' 24 8]

/-- The word of four bytes, least significant first. -/
def wordOf (a b c d : Byte) : Word := ((d ++ c) ++ b) ++ a

end Sys2Proof.Machine
end

