-- ==== Sys2Proof/Machine/SMap.lean ====
section
/-!
DEFINITION. Sparse maps from natural keys, in one canonical form: keys strictly rising, and, where the map has a default,
no entry equal to what an unlisted key reads as. Memories, register files and tables of the block are held this way, so
that equal contents are equal data.
-/
namespace Sys2Proof.Machine

/-- A sparse map: its entries in rising order of their keys. -/
abbrev SMap (α : Type) := List (Nat × α)

/-- The entry of a key, if it is listed. -/
def SMap.find? {α : Type} : SMap α → Nat → Option α
  | [], _ => none
  | (j, v) :: m, k => if j = k then some v else SMap.find? m k

/-- What a key reads as: its entry, or the default. -/
def SMap.get {α : Type} (d : Nat → α) (m : SMap α) (k : Nat) : α :=
  match m.find? k with
  | some v => v
  | none => d k

/-- The map without a key. -/
def SMap.erase {α : Type} : SMap α → Nat → SMap α
  | [], _ => []
  | (j, v) :: m, k => if j = k then SMap.erase m k else (j, v) :: SMap.erase m k

/-- An entry put in its place, before the first greater key. -/
def SMap.insert {α : Type} : SMap α → Nat → α → SMap α
  | [], k, v => [(k, v)]
  | (j, w) :: m, k, v => if k < j then (k, v) :: (j, w) :: m else (j, w) :: SMap.insert m k v

/-- The map with a key set, for maps without a default. -/
def SMap.put {α : Type} (m : SMap α) (k : Nat) (v : α) : SMap α := (m.erase k).insert k v

/-- The map with a key set; the value an unlisted key reads as is not listed. -/
def SMap.set {α : Type} [DecidableEq α] (d : Nat → α) (m : SMap α) (k : Nat) (v : α) : SMap α :=
  if v = d k then m.erase k else m.put k v

/-- The map with a key's value changed by a function. -/
def SMap.modify {α : Type} [DecidableEq α] (d : Nat → α) (m : SMap α) (k : Nat) (f : α → α) : SMap α :=
  m.set d k (f (m.get d k))

/-- Every entry changed by a function of its key and value; entries that become the default leave the list. -/
def SMap.mapAll {α : Type} [DecidableEq α] (d : Nat → α) (f : Nat → α → α) (m : SMap α) : SMap α :=
  (m.map (fun p => (p.1, f p.1 p.2))).filter (fun p => decide (p.2 ≠ d p.1))

/-- Keys strictly rising, each above a bound. -/
def SMap.risingFrom {α : Type} : Nat → SMap α → Bool
  | _, [] => true
  | b, (j, _) :: m => decide (b ≤ j) && SMap.risingFrom (j + 1) m

/-- The canonical form: keys strictly rising and no entry equal to its default. -/
def SMap.wf {α : Type} [DecidableEq α] (d : Nat → α) (m : SMap α) : Bool :=
  SMap.risingFrom 0 m && m.all (fun p => decide (p.2 ≠ d p.1))

end Sys2Proof.Machine
end

