-- ==== Sys2Proof/Machine/State.lean ====
section
/-!
DEFINITION. The state of the block, as plain data. Every register of BAR0 has its one home in `regs`, under its offset
(Machine/RegTable.lean names offsets and fields); what the spec gives the machine besides registers stands in the fields
below, each citing the rule that names it. INVENTORY.md lists them all.
-/
namespace Sys2Proof.Machine

/-- Time and the timebase beside TIM_STATUS (R140, R144-R146). Times are counts of ns. -/
structure TimeBase where
  /-- ns since VKEEP rose: the measure of every duration the spec gives (log 3) -/
  now : Nat
  /-- network time: seconds x 10^9 + nanoseconds (R140) -/
  net : Nat
  /-- ns that pass when a step finds no command waiting (log 3) -/
  gap : Nat
  /-- the ACQUIRE count (Table 07.3) -/
  count : Nat
  /-- `now` at the latest accepted edge -/
  lastEdge : Option Nat
  /-- the valid message waiting for its edge: the seconds it names, and `now` at its arrival (R143, R144) -/
  msg : Option (Nat × Nat)
  /-- difference from the prediction named by the message of the previous accepted edge (Table 07.3) -/
  diff : Option Int
  /-- phase error at the latest accepted edge, ns -/
  phase : Int
  /-- ns by which a slew in progress has still to move network time (R146) -/
  slewLeft : Int
  /-- consecutive accepted edges within 5 ns during a slew (R146) -/
  calm : Nat
  /-- `now` at entry to HOLDOVER, and EST_ERR then -/
  heldSince : Option Nat
  heldError : Nat
deriving DecidableEq, Repr

/-- A shakeout in progress (R20). -/
structure Shake where
  start : Nat
  /-- jobs, heats, drain and arbitration have been ended by it (R154, R157, R269, R325) -/
  settled : Bool
  /-- the zero-hold of S + 6.4 us has taken place (R20) -/
  zeroed : Bool
  /-- it has a fault or thermal cause, and ends in RECOVER (R16, R20) -/
  fault : Bool
  /-- it is a warm reset (R350) -/
  warm : Bool
deriving DecidableEq, Repr

/-- Lands, clocks and the progress of transitions beside GLB_STATE (R8, R14-R20, R347-R355). -/
structure Power where
  vkeepLow : Bool
  pwrGood : Bool
  rstN : Bool
  perstN : Bool
  refclk : Bool
  /-- the keeper answers on SMBus; BAR0 answers (R291, Table 17.3) -/
  smbus : Bool
  bar0 : Bool
  /-- the core and slot clocks run; the ladle clock and HBM run (Table 01.5) -/
  fastClocks : Bool
  ladleClock : Bool
  /-- the rails out of range now (R340) -/
  badRails : List Nat
  /-- the shakeout in progress (R20) -/
  shake : Option Shake
  /-- the hold mould has still to be poured before every loop closes and HOLD is entered (Table 01.9) -/
  holdDue : Bool
  /-- `now` at the start of the drain, and whether it has ended (R19) -/
  drain : Option Nat
  drained : Bool
  /-- the (group, class) status bits that set RECOVER (R337) -/
  recover : List (Nat × Nat)
  /-- `now` at power good or at the start of the latest power-up calibration (R351) -/
  calStart : Nat
deriving DecidableEq, Repr

/-- An event record (Table 14.1) without its phase; `sec` and `ns` are the stamp. -/
structure EvRec where
  source : Nat
  code : Nat
  level : Nat
  data : Word
  ns : Nat
  sec : Nat
  replay : Bool
deriving DecidableEq, Repr

/-- A record in the pending buffer with the targets it has still to reach (R304). -/
structure Pending where
  /-- the place of its raise among all raises (R304) -/
  seq : Nat
  /-- the record, and the targets that have still to take it (R301, R304) -/
  record : EvRec
  targets : List Nat
deriving DecidableEq, Repr

/-- The event controller beside its registers (R304-R313). Lists by target have four entries. -/
structure Events where
  buffer : List Pending
  /-- the raises so far: the next record's place in raise order (R304) -/
  raised : Nat
  /-- the reserved overflow place of a target, with its place in raise order (R306) -/
  overflow : SMap (Nat × EvRec)
  /-- ring contents: key ((8 t + l) * 4096 + place), value record and its phase bit (R305) -/
  rings : SMap (EvRec × Bool)
  /-- priority stacks, top first (R307) -/
  stackOf : SMap (List Nat)
  /-- the signal condition of each target as last seen, `now` of its latest signal, a signal due later (R307, R310) -/
  cond : SMap Bool
  lastSignal : SMap (Option Nat)
  due : SMap (Option Nat)
  /-- signals sent to each target -/
  signals : SMap Nat
  /-- PF in D0 with Bus Master Enable; `now` since a PF is unavailable; fallback in force (R304, R312) -/
  available : SMap Bool
  since : SMap Nat
  fallback : SMap Bool
  /-- records mirrored to the standby and not yet confirmed (R313), oldest first -/
  replay : List Pending
deriving DecidableEq, Repr

/-- A standing condition of a fault source (R335). -/
structure Standing where
  source : Nat
  cls : Nat
  kind : Nat
  data : Word
deriving DecidableEq, Repr

/-- The fault collector beside its registers (R334-R340). -/
structure Faults where
  errLow : Bool
  /-- `now` at which the running ERR_N pulse ends -/
  pulseEnd : Option Nat
  /-- the conditions that stand (R335) -/
  standing : List Standing
  /-- consecutive VHTR windows out of range by tile (R85), recorded temperatures by tile (R126) -/
  vhtrBad : SMap Nat
  tempsAt : SMap (List (Option Int))
deriving DecidableEq, Repr

/-- A compiled mould record (R47, R49) and its permutation table entry. `layers` says what its cells were compiled to: the
number of the routing the router chose (R375; none: every cell CROSS) and the cells retired then, followed for a BASED
record by the layers its base had when it was compiled. -/
structure Mould where
  partialReq : Bool
  base : Option Nat
  assigned : Nat
  perm : List Nat
  layers : List (Option Nat × List Nat)
  /-- VALID -/
  valid : Bool
deriving DecidableEq, Repr

/-- The four requesters of the mould router and the engine itself (R51, Table 03.5); `policy` is a schedule core at work on the
default policy's own decomposition (R163). -/
inductive Requester where
  | engine | retirement | schedule (core : Nat) | policy | library (job : Nat) | host
deriving DecidableEq, Repr

/-- A compile request (R52): its requester, target, base, assignment and tag; `desc` is an MRT descriptor's address. -/
structure CompileReq where
  who : Requester
  target : Nat
  base : Option Nat
  assign : List Nat
  tag : Word
  desc : Nat
deriving DecidableEq, Repr

/-- A mould staged for a pour (R57): the network time of the pour, the intended inputs of the outputs, why it does not
seal (Table 03.6), and the tiles whose bank has sealed. -/
structure Staged where
  mould : Nat
  pourAt : Nat
  inputs : List Nat
  invalid : Bool
  gap : Bool
  sealedTiles : List Nat
  /-- network time at which staging began (R62), and whether the pour is the one by which RUN is left (Table 01.9) -/
  startedAt : Nat
  toHold : Bool
  /-- SEAL_ALL has been sampled at T - 5 ns: whether a fault action held pours then (R59, R336) -/
  sample : Option Bool
deriving DecidableEq, Repr

/-- Moulds and pours beside the MLD_ registers (R47-R63, R45). -/
structure Moulds where
  store : SMap Mould
  retired : List Nat
  /-- core inputs whose port loop is retired (Table 05.6) -/
  retiredPorts : List Nat
  /-- rejection ring entries: words 0-2 (Table 03.5) -/
  rejects : SMap (Word × Word × Word)
  /-- words of the host request area and of the firmware working area, by byte offset in the store (Table 03.3) -/
  area : SMap Word
  /-- compile requests waiting, and the one being compiled (R56) -/
  waiting : List CompileReq
  running : Option CompileReq
  /-- the routing the next compile takes (R375) -/
  nextRoute : Nat
  /-- the mould staged for a pour (R57) -/
  staged : Option Staged
  /-- dither is gated off (R62) -/
  ditherOff : Bool
  /-- the intended inputs of the outputs by the latest mould poured (R47, R59) -/
  perm : List Nat
  /-- `now` since which every element is at zero drive, counted from the cause of the shakeout that brought it there (R34);
  none once an element is driven -/
  zeroSince : Option Int
  /-- network times of the latest pours made, pours held and ditherings gated, latest first (R62, R73, Table 04.4) -/
  pours : List Nat
  helds : List Nat
  gates : List Nat
  /-- a HOLD pour is asked for, and whether it is of a mould that calibration measures through (R68, R121) -/
  holdPour : Option Nat
  calPour : Bool
  /-- network time of a pour that took its place before another duty of its edge, its own command being still to come (R89) -/
  earlyPour : Option Nat
  /-- pilot windows by output: contributions, sum of chip x correlation, sum of mean power (R45) -/
  pilot : SMap (Nat × Int × Nat)
  /-- chips so far: pours in RUN and periods of 1 ms in HOLD (R42); `now` of the verdict in MLD_PILOT_LAST -/
  chips : Nat
  lastVerdict : Option Nat
  /-- reserved moulds whose recompile after a swap is owed (R197) -/
  owed : List Nat
deriving DecidableEq, Repr

/-- The calibrated codes of an element (Table 06.5). -/
structure Codes where
  cross6 : Int
  bar6 : Int
  cross12 : Int
  bar12 : Int
deriving DecidableEq, Repr

/-- A span change in progress (R65): the new span, when its 2 us end, and whether the bit was written again. -/
structure SpanSeq where
  to12 : Bool
  ends : Nat
  again : Bool
deriving DecidableEq, Repr

/-- An urgent request waiting at a channel (R77): monitor, quantity, and who asked. -/
structure Urgent where
  mon : Nat
  dc : Bool
  /-- 0 a loop core (its master ID in `core`), 1 calibration, 2 the host -/
  who : Fin 3
  core : Nat
  /-- network time of the slot clock edge at which it reached the tile (R77, R78) -/
  arrived : Nat
deriving DecidableEq, Repr

/-- One ADC channel (R74-R79). -/
structure Channel where
  /-- the round position converted next, and the slots of the round used so far, urgent ones included (R77) -/
  pos : Nat
  slots : Nat
  /-- settling conversions left (R76), and urgent requests in their order (R77) -/
  settle : Nat
  urgent : List Urgent
  /-- the word of TILE_ADC_COR at the latest round start: the correction in force (R75) -/
  cor : Word
  /-- the channel whose monitors it converts since the latest round start; none converts the zero reference (R79) -/
  src : Option Nat
deriving DecidableEq, Repr

/-- One drive tile beside its TILE_ registers (R64-R89). Channel keys: EO DAC j is j, heater h is 1000 + h. -/
structure Tile where
  /-- live mould code by EO DAC (R64) -/
  live : SMap Int
  /-- trims and heater codes in force (R86) -/
  act : SMap Int
  /-- outputs that lag behind their target under the slew limiters (R66) -/
  lag : SMap Int
  /-- channels on the span of plus or minus 12 V, and span changes in progress (R65) -/
  span12 : SMap Bool
  span : SMap SpanSeq
  /-- pending values, and network time at which a write was last applied to a channel (R86) -/
  pend : SMap Int
  written : SMap Nat
  /-- a heater's code up to the period start at which its present one takes effect, and network time of that start (R84) -/
  heatFrom : SMap (Int × Nat)
  /-- the staging bank: a code and the state it stands for, or none for the keep mark (R57) -/
  staging : SMap (Option (Int × Nat))
  /-- the ADC channels (R74) -/
  chans : SMap Channel
  /-- network time of the latest round start, and whether it was a round D (R74) -/
  round : Nat
  roundD : Bool
  /-- sample words of the latest conversions, error at 2 m, DC at 2 m + 1, and those made in the window being filled (R81) -/
  samples : SMap Word
  fresh : List Nat
  /-- what each EO DAC's live code stands for: 0 zero, 1 cross, 2 bar, 3 retired; and the same at the previous frame
  boundary (R83) -/
  shown : SMap Nat
  seen : SMap Nat
  /-- SEQ of the next frame, and network time of the latest frame delivered (R82) -/
  seq : Nat
  frameAt : Nat
  /-- `now` of the latest step of the EO (0) and heater (1) limiters (R66) -/
  slewAt : SMap Nat
  /-- latest values written by cope and by drag, and counts of differences (R88) -/
  copeVal : SMap Int
  dragVal : SMap Int
  differ : SMap Nat
  /-- by spare: network time of the write that a takeover or return follows, and from its first round start on that start (R79) -/
  spareAt : SMap Nat
  /-- network time of the end of the latest VHTR window (R85) -/
  vhtrAt : Nat
deriving DecidableEq, Repr

/-- A core of a control die (R238, Table 11.12). -/
structure Core where
  g : SMap Word
  acc : SMap (BitVec 64)
  z : Bool
  n : Bool
  c : Bool
  v : Bool
  sat : Bool
  sats : Bool
  pc : Word
  user : Bool
  prevUser : Bool
  inTrap : Bool
  halted : Bool
  asleep : Bool
  epc : Word
  cause : Word
  tval : Word
  cycle : Nat
  fseq : Word
  ures : Word
  lctrl : Word
  netNs : Word
  netSec : Word
  wakeEn : Word
  wake : Word
  /-- wake sources pending (R258) -/
  pendWake : Nat
  /-- `now` at which TIMER reaches zero; 0 when it does not run -/
  timer : Nat
  /-- FWSCR0 to 15, by their numbers (Table 11.12) -/
  scratch : SMap Word
  /-- accelerator commands outstanding (R256) -/
  outstanding : Nat
  /-- it waits in service HEAT_COMMIT for STATE to leave VALIDATING (R257) -/
  commits : Bool
  /-- frame banks and cell-state windows of a loop core, as words (Table 11.14) -/
  bank0 : List Word
  bank1 : List Word
  cells0 : List Word
  cells1 : List Word
  /-- flask data memory with the hold bitmaps, or local data SRAM (Tables 11.14, 11.16), by byte -/
  mem : SMap Byte
  /-- code memory, by byte (R254) -/
  code : SMap Byte
  /-- the bank of an inactive policy is loaded and waits for the epoch boundary (Table 12.8) -/
  policyWaits : Bool
deriving DecidableEq, Repr

/-- The steps of a path loop (R114). -/
inductive PathStep where
  | probe | decide | level
deriving DecidableEq, Repr

/-- A probe in progress (R114): the element, the state whose set-point was moved, that set-point before it, the purity before
it, and the mould. -/
structure Probe where
  element : Nat
  bar : Bool
  was : Int
  rho : Nat
  mould : Nat
deriving DecidableEq, Repr

/-- One path loop (R112-R115). -/
structure PathLoop where
  step : PathStep
  place : Nat
  levelPlace : Nat
  up : Bool
  /-- the probe in progress -/
  probe : Option Probe
deriving DecidableEq, Repr

/-- Loops beside the LOOP_ registers and the records in flask data memory (R90-R116). -/
structure Loops where
  /-- the parameters of Table 05.5 have been loaded: at the first entry to HOLD (R97) -/
  loaded : Bool
  /-- LOOP_CMD commands waiting for the frame boundary: command code, loop and network time of the write (R116) -/
  cmds : List (Nat × Nat × Nat)
  /-- hold causes by loop: the engine's 1 span change, 2 shakeout, 4 calibration, and 8 the host's (R107) -/
  holds : SMap Nat
  /-- the core that a handover in progress hands a flask to, by flask: NEXT as it was when GO was written (R91; log 105) -/
  handing : SMap Nat
  /-- network time at which a handover in SHADOW swaps, by flask (R91) -/
  shadow : SMap Nat
  /-- LOOP_QUERY_RES of a loop as of the latest completed pass of its flask on the active die (Table 05.15) -/
  passed : SMap Word
  /-- of an element loop, by its passes: frames LOCKED in a row, and frames since its cell was CROSS and since it was BAR, to 256
  (R123) -/
  locked : SMap (Nat × Nat × Nat)
  /-- loops whose STARVED event has been raised since their latest usable sample (R110) -/
  starved : List Nat
  /-- the path loops, by output (R114) -/
  path : SMap PathLoop
  /-- qualifying frames since an output's latest update, latest first: (mould, A, P) (R113) -/
  good : SMap (List (Nat × Nat × Nat))
deriving DecidableEq, Repr

/-- A calibration result as it is checked and comes into force (R124, R132): a value in the units of its quantity, or for EO_CODE
the codes of both spans with extinction in 0.1 dB and residual phase error in 0.1 mrad; for DITHER beside ESCALE the dither gain in
0.001 of design and the dither in 0.001 % of the half-wave voltage. -/
structure Result where
  quantity : Nat
  object : Nat
  value : Int
  codes : Codes
  ext : Nat
  pherr : Nat
  gain : Int
  amp : Int
deriving DecidableEq, Repr

/-- A POWER_UP or FULL pass in progress (R125, R128, R129). -/
structure CalPass where
  /-- the ID of its job; 0 for a pass of the engine's own -/
  job : Nat
  /-- its place among all passes (R124), and whether it is a POWER_UP pass -/
  num : Nat
  powerUp : Bool
  /-- its tiles in order, and the objects of them done, in the order of Table 06.7 -/
  tiles : List Nat
  pos : Nat
  /-- REF_IN accepted by its check, if it has made it; a reference was refused (R118) -/
  refOk : Option Bool
  refused : Bool
  /-- keys of the responsivities and losses it has replaced (R119) -/
  replaced : List Nat
  /-- the channels a spare has taken over for it: tile and spare (R128) -/
  spares : List (Nat × Nat)
  /-- the flask handed to a spare loop core, and its own core, which runs the sweeps (R129) -/
  own : Option (Nat × Nat)
  /-- loops that its sweeps have opened (R122, R129) -/
  swept : List Nat
  /-- the cell partner held at its cross code, with the live code and what that stood for before (R122) -/
  partner : Option (Nat × Int × Nat)
deriving DecidableEq, Repr

/-- A committed calibration result waiting for its apply instant (R132, R134). -/
structure Waiting where
  result : Result
  step : Bool
deriving DecidableEq, Repr

/-- Calibration beside the CAL_ registers (R117-R139). -/
structure Cal where
  codes : SMap Codes
  /-- values in force of the other quantities, key 100000 * quantity + object -/
  values : SMap Int
  /-- quality entries: elements at e, ports at 20000 + i, ADC channels at 30000 + a (R137) -/
  quality : SMap Word
  /-- reference chain entries: COUNT and network time (R138) -/
  chain : SMap (Nat × Nat)
  /-- committed results that wait for their apply instants (R132) -/
  waiting : SMap Waiting
  /-- integrator adjustments owed: element, code change in CROSS and in BAR (R133) -/
  adjust : SMap (Int × Int)
  /-- tiles whose untraced bit is set (R119) -/
  untraced : List Nat
  /-- by object, over POWER_UP and FULL passes: consecutive passes that flagged it, the latest of them, and the latest pass that
  brought a result (R124) -/
  fails : SMap (Nat × Nat × Nat)
  /-- tiles whose temperature-delta pass waits for HOLD (R126) -/
  deltaWaiting : List Nat
  /-- calibration measures through REF_IN now (R43) -/
  viaRef : Bool
  /-- the passes in progress or suspended, passes a shakeout has ended and still to be undone, and the passes so far (R125, R130) -/
  passes : List CalPass
  undo : List CalPass
  passNum : Nat
  /-- the coefficients have been loaded at power-up (Table 06.21) -/
  loaded : Bool
  /-- objects of the tile CAL_FETTLE.TILE that fettling has done, whether one is in hand, and the spares that have taken over
  channels for it (R127) -/
  fettled : Nat
  fettleBusy : Bool
  fettleSpares : List (Nat × Nat)
  /-- the latest urgent result that calibration asked for: tile, monitor and sample word (R78) -/
  urgent : Option (Nat × Nat × Word)
deriving DecidableEq, Repr

/-- A heat that has been committed (R151-R155). -/
structure Heat where
  a : Nat
  cycle : Nat
  guard : Nat
  dclass : Nat
  ctrl : Nat
  serial : Word
  /-- pairs (i, j) that some slot connects (R164) -/
  direct : List (Nat × Nat)
  /-- the number of its slots, and whether it is the base heat (R158) -/
  n : Nat
  base : Bool
  /-- swaps that were ARMED when it was committed: they take effect at its activation (R197) -/
  swaps : List Nat
deriving DecidableEq, Repr

/-- A commit in hand: the network time of its edge, whether PF0 made it, the swaps ARMED then, and CTRL then in us (R151, R197,
Table 07.24). -/
structure Commit where
  edge : Nat
  host : Bool
  swaps : List Nat
  ctrl : Nat
deriving DecidableEq, Repr

/-- A matching command: a core's, with its master ID and descriptor address, or the default policy's own (R162, R163). -/
inductive MatchCmd where
  | core (id desc : Nat)
  | policy
deriving DecidableEq, Repr

/-- A decomposition by the default policy (R163): the weights left by 592 i + j and the bytes that one unit of weight stands for,
the slots built (mould and duration in 5 ns units), and the pairs and the mould of the slot in hand. -/
structure Decomp where
  weights : SMap Nat
  unit : Nat
  slots : List (Nat × Nat)
  pairs : List (Nat × Nat)
  target : Nat
deriving DecidableEq, Repr

/-- The repair of the live heat after an automatic swap (R199): its records, the moulds still to be recompiled with the exchange,
with their assignments, and the moulds recompiled with what replaces each. -/
structure Repair where
  records : List (BitVec 64)
  todo : List (Nat × List Nat)
  made : List (Nat × Nat)
  target : Nat
deriving DecidableEq, Repr

/-- Heats and the schedule engine beside the HEAT_ registers (R147-R166). Bank records by index. -/
structure Heats where
  live : SMap (BitVec 64)
  next : SMap (BitVec 64)
  commit : Option Commit
  armed : Option Heat
  now : Option Heat
  /-- lane pairs and classes of the heat before the live one (R231) -/
  prev : Option Heat
  /-- the base heat waits for A after a request for RUN (R159) -/
  waitingRun : Option Heat
  /-- the activation instant of the latest heat activated, network time (Table 07.40) -/
  act : Nat
  /-- the slot poured at the next boundary, the network time of that boundary, the slot in progress, and whether its pour
  was held (R148, R59, R220) -/
  slot : Nat
  boundary : Nat
  cur : Option Nat
  slotHeld : Bool
  /-- writes to HEAT_RUN_BASE0, 1, 2 since reset or the last entry to RUN (Table 07.30) -/
  baseWritten : List Nat
  /-- the serial has never been used since VKEEP rose (R149) -/
  fresh : Bool
  /-- epoch boundaries so far, and network time of the latest (R160) -/
  epochs : Nat
  epochAt : Nat
  /-- the epoch in force, us: a change takes effect at a whole second (Table 07.26) -/
  epochLen : Nat
  /-- demand gathered in this epoch and frozen at the last boundary: key 592 i + j (R160, R161) -/
  gather : SMap Nat
  frozen : SMap Nat
  /-- heavy flows of this epoch, and those frozen (R217) -/
  heavy : List Nat
  frozenHeavy : List Nat
  /-- a decomposition is in progress (R166), and the default policy's (R163) -/
  decomposing : Bool
  decomp : Option Decomp
  /-- the policy's repair of the live heat in progress (R199) -/
  repair : Option Repair
  /-- matching commands waiting (R162, R256) -/
  matching : List MatchCmd
deriving DecidableEq, Repr

/-- A frame stored in the ladle buffer (R200, Table 09.2). -/
structure Frame where
  src : Nat
  dst : Nat
  cls : Nat
  flow : Nat
  seq : Nat
  mcast : Bool
  /-- HTAG as received, payload and trailer (R179, R200) -/
  tag : Nat
  payload : List Byte
  trailer : Word
  /-- its cells on chip, first cell first, and the number of its cells in the riser -/
  cells : List Nat
  riser : Nat
  /-- copies still to leave, and copies begun while the frame was coming in (R215) -/
  refs : Nat
  started : Nat
  /-- it is still coming in: network time of the end of the slot that brings it; and the ladle port that it comes through -/
  coming : Option Nat
  port : Nat
  /-- it was sent against R231: R231 holds it -/
  against : Bool
  /-- the queue it was put into (R202) -/
  queue : Nat
  /-- its flow's expected sequence is set from it (R214) -/
  setsExp : Bool
deriving DecidableEq, Repr

/-- An entry of a queue: a stored frame by its number, or a lane mark (R228). -/
inductive QEntry where
  | frame (id : Nat)
  | mark (src dst cls : Nat) (serial : Word)
deriving DecidableEq, Repr

/-- A frame's length in bytes, and its cells on chip. -/
def Frame.len (f : Frame) : Nat := f.payload.length
def Frame.onchip (f : Frame) : Nat := f.cells.length

/-- One queue (Table 09.3): PROFILE as written and as in force since its latest enqueue (R204); its cell counts follow from its
frames. -/
structure Queue where
  entries : List QEntry
  profile : Nat
  inForce : Nat
deriving DecidableEq, Repr

/-- A flow table entry (Table 09.5). -/
structure Flow where
  src : Nat
  dst : Nat
  cls : Nat
  valid : Bool
  reseq : Bool
  heavy : Bool
  pin : Bool
  lmode : Bool
  /-- EXP_SEQ is to be set from the next frame: after a return to RUN (R214) -/
  learnExp : Bool
  /-- its lane has been DIRECT since its latest frame: EXP_SEQ is to be set from the next frame under LADLE (R214) -/
  wasDirect : Bool
  /-- EXP_SEQ; ns since the hold began; LSER; skips; the epoch, its bytes, those of the epoch before, and frames (Table
  09.5) -/
  exp : Nat
  holdNs : Nat
  lser : Nat
  skips : Nat
  epoch : Nat
  bytes : Nat
  prev : Nat
  frames : Nat
  /-- held frames in order of arrival: sequence number, frame, and what the timer had run when it was set aside (R214) -/
  held : List (Nat × Nat × Nat)
deriving DecidableEq, Repr

/-- A group table entry (Table 09.4): destinations as a bit string. -/
structure Group where
  dests : Nat
  valid : Bool
  self : Bool
  drops : Nat
deriving DecidableEq, Repr

/-- A copy in the multicast hold (R213). -/
structure HeldCopy where
  group : Nat
  dst : Nat
  frame : Nat
  since : Nat
deriving DecidableEq, Repr

/-- A part of a heat's notice for one line card (Tables 08.11, 08.12): the heat, and the part's entries from slot `first` on. -/
structure Notice where
  serial : Word
  cancelled : Bool
  part : Nat
  parts : Nat
  dclass : Nat
  a : Nat
  guard : Nat
  cycle : Nat
  ctrl : Nat
  slots : Nat
  first : Nat
  entries : List (BitVec 64)
deriving DecidableEq, Repr

/-- A control frame waiting for a line card (Table 10.1, R184-R189): XOFF or XON with its state; a notice; HELLO; TIME_CHECK with
its figures and T + G of the latest burst measured; ERROR_NOTE. Times are network time. -/
inductive Ctl where
  | flow (stop : Bool) (mask : Nat) (all : Bool)
  | notice (n : Notice)
  | hello
  | timeCheck (count : Nat) (mean least greatest : Int) (at_ : Nat)
  | error (code count : Nat) (serial : Word) (slot peer : Nat) (at_ : Nat)
deriving DecidableEq, Repr

/-- A fabric frame in a burst (R173, R178, R179): header, payload, trailer, and the offset of its header in the burst's byte
stream. -/
structure Sent where
  header : BitVec 128
  payload : List Byte
  trailer : Word
  pos : Nat
  /-- the stored frame it is a copy of, and the queue or control frame it came from -/
  frame : Option (Nat × Frame)
  ctl : Option Ctl
  /-- a port failure cuts it short (R199) -/
  cut : Bool
deriving DecidableEq, Repr

/-- A lane mark that waits: its count is of the lane's frames numbered below `upTo` (R228, R229), and it stands in one cell. -/
structure Mark where
  serial : Word
  upTo : Nat
  cell : Nat
  /-- set aside from its queue -/
  aside : Bool
deriving DecidableEq, Repr

/-- The ladle plane's buffering beside the LAD_ registers (R192-R217). -/
structure Ladle where
  frames : SMap Frame
  nextFrame : Nat
  queues : SMap Queue
  flows : SMap Flow
  groups : SMap Group
  /-- the group shadow entry's 20 words (R212) -/
  shadow : SMap Word
  /-- the multicast hold, oldest first (R213) -/
  hold : List HeldCopy
  /-- stopped classes, key 8 s + k (R209) -/
  stopped : SMap Bool
  /-- global XOFF by occupancy, by a drain, by throttling (R209, R345) -/
  xoffOcc : Bool
  xoffDrain : Bool
  xoffThermal : Bool
  /-- dark laser supplies and optical engines that fail their self-test (R199) -/
  dark : List Nat
  badEngines : List Nat
  /-- queues whose riser read is in progress, with the tries left (R207, R208) -/
  reading : SMap Nat
  /-- banks and regions retired, and those whose retirement is in progress (R201, R208, Table 12.5) -/
  retiredBanks : List Nat
  retiredRegions : List Nat
  retiringBanks : List Nat
  retiringRegions : List Nat
  /-- `now` of the latest MC_DROP event of a group and ECC_CORR event of a bank (R213, R201) -/
  dropEvent : SMap Nat
  eccEvent : SMap Nat
deriving DecidableEq, Repr

/-- The ladle plane's service beside the LSV_ registers (R219-R232). -/
structure Service where
  /-- active list of a destination in its order, the queue visited next, deficits, and the slot clock edge at which a queue joined
  (R221) -/
  active : SMap (List Nat)
  visit : SMap Nat
  deficit : SMap Int
  joined : SMap Nat
  /-- buckets in bytes: queue q at q, destination d at 100000 + d (R222); registers in force there since a refill -/
  bucket : SMap Int
  inForce : SMap Word
  /-- the admission meter (R345) -/
  meter : Option Int
  /-- frames released by the resequencer, by destination (R214) -/
  released : SMap (List Nat)
  /-- lane marks that wait and marks accepted, key (512 src + dst) * 8 + cls (R227, R228) -/
  marks : SMap (List Mark)
  accepted : SMap (List Word)
  /-- lanes with a mark accepted for the heat in which they are DIRECT, with its serial, while they stay so (R230) -/
  marked : SMap Word
  /-- lanes whose ladle frames R231 holds now -/
  laneHeld : List Nat
  /-- control frames that wait for a line card (R184 to R189) -/
  ctl : SMap (List Ctl)
  /-- control frames sent to a line card so far (SEQ of Table 08.6) -/
  ctlSeq : SMap Nat
  /-- burst offsets measured since the latest TIME_CHECK: count, sum, least, greatest in ps, and T + G of the latest (R188) -/
  timing : SMap (Nat × Int × Int × Int × Nat)
  /-- the latest burst of each ladle port with the network time of the end of its slot -/
  burst : SMap (Nat × List Sent)
deriving DecidableEq, Repr

/-- The states of a job (Table 12.4). -/
inductive JobState where
  | queued | running | suspending | suspended | cancelling | done | failed | cancelled
deriving DecidableEq, Repr

/-- The work of a job (Table 12.5). -/
inductive JobKind where
  | calFull (tiles : Nat)
  | calTransfer (tiles : Nat)
  | heatLoad (image : HeatImage)
  | mouldLib (entries : List LibEntry)
  | fwActivate (kind : Nat) (slotB : Bool)
  | survey (retiredOnly : Bool)
  | riserScrub (regions : Nat)
  | elemRetire (index : Nat) (restore port : Bool)
  | bankRetire (bank : Nat)
  | regionRetire (region : Nat)
  | flaskMove (flask core : Nat)
  | coreRestart (core : Nat)
  | adcTakeover (tile channel : Nat) (ret : Bool)
  | imageLoad (kind : Nat) (slotB : Bool)
deriving DecidableEq, Repr

/-- One job of the job table (R264-R269). -/
structure Job where
  id : Nat
  kind : JobKind
  state : JobState
  evt : Bool
  recovery : Bool
  progress : Nat
  total : Nat
  cause : Nat
  /-- suspension causes HOST and PREEMPT (R266) -/
  hostSusp : Bool
  preempted : Bool
  /-- it has passed its last safe point (R267) -/
  past : Bool
  /-- ends FAILED with cause STATE at its next safe point (R269) -/
  stateLeft : Bool
  /-- `now` at which it reached a terminal state -/
  endedAt : Nat
  /-- the resources it gives up at its next safe point, preempted by others (R274) -/
  lost : List Nat
deriving DecidableEq, Repr

/-- A holder or a waiter of a claimable resource (R272). -/
inductive Claimant where
  | job (id : Nat) (recovery : Bool)
  | host
  | engine
deriving DecidableEq, Repr

/-- One claimable resource (R272). -/
structure Claim where
  holder : Option Claimant
  standing : Bool
  fifo : List Claimant
deriving DecidableEq, Repr

/-- The write-back of a job descriptor (Table 12.1, bytes 48-63). -/
structure WriteBack where
  result : Nat
  state : Nat
  id : Nat
  data : Nat
deriving DecidableEq, Repr

/-- Jobs and claims beside the JOB_ registers (R261-R274). -/
structure Jobs where
  table : List Job
  claims : SMap Claim
  /-- write-backs by ring and place: key 4096 p + place -/
  back : SMap WriteBack
deriving DecidableEq, Repr

/-- An arbitration in progress (R324): trigger 1 mismatch, 2 heartbeat loss; its start and the reporting tile. -/
structure Arbitration where
  trigger : Nat
  start : Nat
  tile : Nat
deriving DecidableEq, Repr

/-- A word streamed to the standby die (R317): the core that stored it, or 127 for shared SRAM; its byte offset there; and
network time at the store. -/
structure Streamed where
  unit : Nat
  offset : Nat
  word : Word
  at_ : Nat
deriving DecidableEq, Repr

/-- Cope and drag beside the CD_ registers (R314-R330). -/
structure CopeDrag where
  arb : Option Arbitration
  /-- a switch-over gap: D and Fr in network time (R326) -/
  gap : Option (Nat × Nat)
  /-- the halves of the arbiter disagree (R314) -/
  disagree : Bool
  /-- a planned switch-over waits: trigger code (R328) -/
  planned : Option Nat
  /-- heartbeats stopped by the die watchdog (R322) -/
  silent : Bool
  /-- the standby runs an image of the active die's COMPAT level (R316) -/
  compatOk : Bool
  /-- words streamed and not yet applied (R317, R318) -/
  stream : List Streamed
  /-- `now` of the CRC failures of the last millisecond by die, and of the latest LINK_CRC event (R323, R331) -/
  crcFails : SMap (List Nat)
  crcEvent : Option Nat
  /-- a die kept out until REJOIN (R330) -/
  waitRejoin : Bool
deriving DecidableEq, Repr

/-- The access lock beside the LOCK_ registers (R356-R360). Times are `now`. -/
structure Lock where
  chalUntil : Nat
  lockoutUntil : Option Nat
  openUntil : Nat
deriving DecidableEq, Repr

/-- A refused access as the first-error capture records it (Table 16.9). -/
structure Access where
  master : Master
  /-- 0 BAR0, 1 BAR2, 2 BAR4, 3 core data address, 4 debug port address -/
  space : Nat
  /-- its address, its size in bytes, and whether it is a write (R339) -/
  addr : Nat
  size : Nat
  write : Bool
deriving DecidableEq, Repr

/-- The bus matrix and SMBus beside the BUS_ registers (R291, R297, R300). -/
structure Bus where
  /-- the port the debug port has locked, and `now` then -/
  locked : Option (Nat × Nat)
  /-- masters with a burst in progress, and its address (R300) -/
  bursts : List (Nat × Nat)
  /-- the 8 words of the SMBus snapshot, and the bytes of the latest answer; none for a NACK -/
  window : List Word
  answer : Option (List Byte)
  /-- the recovery buffer in shared SRAM (R353), and the shared SRAM of each die by byte -/
  sram : SMap Byte
  /-- a c register was written during the configuration pass in progress (R293) -/
  passDirty : Bool
  /-- the access in hand inside a command, and whether it has been logged; none between commands (R339) -/
  hand : Option Access
  handLogged : Bool
deriving DecidableEq, Repr

/-- The state of the block. -/
structure State where
  pending : List Instr
  /-- the counter of free values (log 2) -/
  free : Nat
  /-- every register of BAR0 that does not hold its reset word, by offset (Machine/RegTable.lean) -/
  regs : SMap Word
  /-- the parts of the block, each with its own structure above -/
  time : TimeBase
  power : Power
  events : Events
  faults : Faults
  moulds : Moulds
  tiles : SMap Tile
  loops : Loops
  cores : SMap Core
  cal : Cal
  heats : Heats
  ladle : Ladle
  service : Service
  jobs : Jobs
  cd : CopeDrag
  lock : Lock
  bus : Bus
deriving DecidableEq, Repr

/-- The reasons the block stops with a fault. None: every happening the spec calls an error is an effect on the state
(an error flag, a log entry, an event record). -/
inductive Fault where
  /-- Raised by no meaning. Safe: kept so that the type has a name. -/
  | unused
deriving DecidableEq, Repr

/-- The reasons a command is refused. -/
inductive Refusal where
  /-- A command with no meaning yet, by its mnemonic. Safe: nothing is claimed of it. -/
  | notModelled (mnemonic : String)
deriving DecidableEq, Repr

/-- What a meaning answers. -/
abbrev Out := Host.Outcome State Fault Refusal

/-- The timebase when VKEEP has risen: 0 s 0 ns, FREE (R140, R144; log 3, log 5). -/
def TimeBase.reset : TimeBase :=
  { now := 0, net := 0, gap := 5, count := 0, lastEdge := none, msg := none, diff := none, phase := 0, slewLeft := 0, calm := 0,
    heldSince := none, heldError := 0 }

/-- Lands and clocks when VKEEP has risen: the keeper alone runs (R8, R348; log 6). -/
def Power.reset : Power :=
  { vkeepLow := false, pwrGood := false, rstN := false, perstN := false, refclk := false, smbus := false, bar0 := false,
    fastClocks := false, ladleClock := false, badRails := [], shake := none, holdDue := false, drain := none, drained := false,
    recover := [], calStart := 0 }

/-- The event controller after reset: nothing recorded, nothing signalled (R303 to R312). -/
def Events.reset : Events :=
  { buffer := [], raised := 0, overflow := [], rings := [], stackOf := [], cond := [], lastSignal := [], due := [], signals := [],
    available := [], since := [], fallback := [], replay := [] }

/-- The fault collector after reset: ERR_N released (R334). -/
def Faults.reset : Faults := { errLow := false, pulseEnd := none, standing := [], vhtrBad := [], tempsAt := [] }

/-- Moulds and pours after reset: no compiled mould, nothing staged, nothing poured (log 7). -/
def Moulds.reset : Moulds :=
  { store := [], retired := [], retiredPorts := [], rejects := [], area := [], waiting := [], running := none,
    nextRoute := 0, staged := none, ditherOff := false, perm := [], zeroSince := some (-1000000), pours := [], helds := [], gates := [],
    holdPour := none, calPour := false, earlyPour := none, pilot := [], chips := 0,
    lastVerdict := none, owed := [] }

/-- The loop engine after reset (log 10). -/
def Loops.reset : Loops := { loaded := false, cmds := [], holds := [], handing := [], shadow := [], passed := [], locked := [], starved := [], path := [], good := [] }

/-- Calibration after reset: nothing measured; coefficients as the factory store has them (R136; log 12). -/
def Cal.reset : Cal :=
  { codes := [], values := [], quality := [], chain := [], waiting := [], adjust := [], untraced := [], fails := [],
    deltaWaiting := [], viaRef := false, passes := [], undo := [], passNum := 0, loaded := false, fettled := 0, fettleBusy := false,
    fettleSpares := [], urgent := none }

/-- Heats after reset: both banks clear, no heat (R159). -/
def Heats.reset : Heats :=
  { live := [], next := [], commit := none, armed := none, now := none, prev := none, waitingRun := none, act := 0,
    slot := 0, boundary := 0, cur := none, slotHeld := false,
    baseWritten := [], fresh := true, epochs := 0, epochAt := 0, epochLen := 1000, gather := [], frozen := [], heavy := [],
    frozenHeavy := [], decomposing := false, decomp := none, repair := none, matching := [] }

/-- The ladle plane after reset: nothing buffered (log 11). -/
def Ladle.reset : Ladle :=
  { frames := [], nextFrame := 0, queues := [], flows := [], groups := [], shadow := [], hold := [],
    stopped := [], xoffOcc := false, xoffDrain := false, xoffThermal := false, dark := [], badEngines := [],
    reading := [], retiredBanks := [], retiredRegions := [], retiringBanks := [], retiringRegions := [], dropEvent := [], eccEvent := [] }

/-- The ladle plane's service after reset. -/
def Service.reset : Service :=
  { active := [], visit := [], deficit := [], joined := [], bucket := [], inForce := [], meter := none, released := [], marks := [],
    accepted := [], marked := [], laneHeld := [], ctl := [], ctlSeq := [], timing := [], burst := [] }

/-- Jobs and claims after reset: none. -/
def Jobs.reset : Jobs := { table := [], claims := [], back := [] }

/-- Cope and drag after reset: cope active, the standby booting (Table 15.7). -/
def CopeDrag.reset : CopeDrag :=
  { arb := none, gap := none, disagree := false, planned := none, silent := false, compatOk := false, stream := [],
    crcFails := [], crcEvent := none, waitRejoin := false }

/-- The access lock after reset: closed, no challenge, no lockout (R356). -/
def Lock.reset : Lock := { chalUntil := 0, lockoutUntil := none, openUntil := 0 }

/-- The bus after reset; the SMBus window has not been refreshed yet (log 14). -/
def Bus.reset : Bus :=
  { locked := none, bursts := [], window := [], answer := none, sram := [], passDirty := false, hand := none,
    handLogged := false }

/-- The block right after reset: VKEEP has just risen (R349, power-on). Every register reads its reset word, since
none is listed. -/
def State.reset : State :=
  { pending := [], free := 0, regs := [], time := TimeBase.reset, power := Power.reset, events := Events.reset,
    faults := Faults.reset, moulds := Moulds.reset, tiles := [], loops := Loops.reset, cores := [], cal := Cal.reset,
    heats := Heats.reset, ladle := Ladle.reset, service := Service.reset, jobs := Jobs.reset, cd := CopeDrag.reset,
    lock := Lock.reset, bus := Bus.reset }

end Sys2Proof.Machine
end

