-- ==== Sys2Proof/Machine/Ops.lean ====
section
/-!
DEFINITION. The named operations every meaning is written over: registers and their fields, time, event records and
faults (R301-R340), the latching of a shakeout (R16, R20), the end of jobs and the release of claims (R264-R273), and
the logging of refused accesses (R281-R283, R339).
-/
namespace Sys2Proof.Machine

/-! ## Registers -/

/-- The indices at which a register map covers an offset, if it does. -/
def RegDesc.index (r : RegDesc) (off : Nat) : Option (Nat × Nat) :=
  if off < r.base then none
  else
    let i := if r.n1 = 1 then 0 else (off - r.base) / r.s1
    let d := off - r.base - i * r.s1
    let j := if r.n2 = 1 then 0 else d / r.s2
    if i < r.n1 ∧ j < r.n2 ∧ (if r.n2 = 1 then 0 else j * r.s2) = d then some (i, j) else none

/-- The register map of an offset in a list of maps, with its indices. -/
def findReg : List RegDesc → Nat → Option (RegDesc × Nat × Nat)
  | [], _ => none
  | r :: rs, off =>
    match r.index off with
    | some (i, j) => some (r, i, j)
    | none => findReg rs off

/-- What a register reads as after reset: the reset word of its map; the serial number and what OTP provisions are the
module's own (Tables 13.15, 13.16). -/
def resetWord (off : Nat) : Word :=
  if off = R.glbSerialLo then Config.serial.extractLsb' 0 32
  else if off = R.glbSerialHi then Config.serial.extractLsb' 32 32
  else if off = R.glbCaps then (Config.otp.setWidth 32 <<< 29) ||| 0x844#32
  else
    match findReg regTable off with
    | some (r, i, j) => BitVec.ofNat 32 (r.reset + i * r.ri + j * r.rj)
    | none => 0

/-- The word a register holds. -/
def State.reg (s : State) (off : Nat) : Word := s.regs.get resetWord off

/-- A register given a word. -/
def State.setReg (s : State) (off : Nat) (v : Word) : State := { s with regs := s.regs.set resetWord off v }

/-- The value of a field. -/
def State.fld (s : State) (f : Fld) : Nat := bitsOf (s.reg f.off) f.hi f.lo

/-- A field given a value, taken modulo its width. -/
def State.setFld (s : State) (f : Fld) (v : Nat) : State := s.setReg f.off (withBits (s.reg f.off) f.hi f.lo v)

/-- Whether a field is not zero. -/
def State.flag (s : State) (f : Fld) : Bool := s.fld f != 0

/-- The greatest value a field holds. -/
def Fld.limit (f : Fld) : Nat := 2 ^ (f.hi + 1 - f.lo) - 1

/-- A counter advanced, saturating at its field's greatest value. -/
def State.count (s : State) (f : Fld) (n : Nat) : State := s.setFld f (satAdd f.limit (s.fld f) n)

/-- Device state, service state and fabric of GLB_STATE (Table 01.13). -/
def State.dev (s : State) : Nat := s.fld F.glbStateDev
def State.svc (s : State) : Nat := s.fld F.glbStateSvc
def State.fabric (s : State) : Nat := s.fld F.glbStateFabric

/-- Whether a transition is in progress (R15). -/
def State.trans (s : State) : Bool := s.flag F.glbStateTrans

/-- Whether the standby die is ready (R316). -/
def State.standbyReady (s : State) : Bool := s.fld F.cdStatusStby == 2

/-- The active die (R314). -/
def State.activeDie (s : State) : Die := if s.flag F.cdStatusActive then .drag else .cope

/-! ## Time -/

/-- Nanoseconds in a second. -/
abbrev second : Nat := 1000000000

/-- The status bit, action field and count of a group and class (Table 16.11). -/
def F.fltStat (n cls : Nat) : Fld := ⟨R.fltSrc n, 23 + cls, 23 + cls⟩
def F.fltAct (n cls : Nat) : Fld := ⟨R.fltSrc n, 11 + 3 * cls, 9 + 3 * cls⟩

/-- Whether pours are held by a fault action: a status bit is set whose class has HOLD in its group (R336). -/
def State.faultHold (s : State) : Bool :=
  (List.range 96).any (fun n => [1, 2, 3, 4].any (fun k => s.flag (F.fltStat n k) && (s.fld (F.fltAct n k)).testBit 1))

/-- SEAL_ALL is sampled when network time reaches T - 5 ns of the staged pour, and with it whether a fault action holds pours:
no bank sealed later counts (R59, R336). -/
def State.sampleSeal (s : State) (net : Nat) : Moulds :=
  match s.moulds.staged with
  | some st =>
    if st.sample.isNone && decide (st.pourAt ≤ net + 5) then
      { s.moulds with staged := some { st with sample := some s.faultHold } }
    else s.moulds
  | none => s.moulds

/-- What a slew moves network time by while a span of d ns passes: towards the reference, at most 10 ppm of the span, the rate
below that limit being the timebase's own (R146; log 102). -/
def TimeBase.slewed (x : TimeBase) (d : Nat) : Int :=
  let most := min x.slewLeft.natAbs (Config.slewRate x.now d % (d / 100000 + 1))
  if 0 ≤ x.slewLeft then most else -most

/-- Time passes: the time since VKEEP rose, and network time, moved towards the reference by a slew. -/
def State.elapse (s : State) (d : Nat) : State :=
  let c := s.time.slewed d
  let net := ((s.time.net + d : Nat) + c).toNat
  { s with time := { s.time with now := s.time.now + d, net := net, slewLeft := s.time.slewLeft - c }, moulds := s.sampleSeal net }

/-- A happening due at an instant since VKEEP rose: time passes up to that instant, if it lies ahead (log 3). -/
def State.untilNow (s : State) (t : Nat) : State := if s.time.now < t then s.elapse (t - s.time.now) else s

/-- A happening due at an instant of network time (log 3). -/
def State.untilNet (s : State) (t : Nat) : State :=
  if s.time.net < t then
    let d := t - s.time.net
    let c := s.time.slewed d
    { s with time := { s.time with now := ((s.time.now + d : Nat) - c).toNat, net := t, slewLeft := s.time.slewLeft - c }
             moulds := s.sampleSeal t }
  else s

/-- Seconds and nanoseconds of network time (R140). -/
def State.netSec (s : State) : Nat := s.time.net / second
def State.netNs (s : State) : Nat := s.time.net % second

/-! ## Free values -/

/-- A word the spec leaves open, and the counter advanced (log 2). -/
def State.freeWord (s : State) : Word × State := (Config.freeWord s.free, { s with free := s.free + 1 })

/-- A number the spec leaves open, and the counter advanced (log 2). -/
def State.freeNat (s : State) : Nat × State := (Config.freeNat s.free, { s with free := s.free + 1 })

/-! ## Event records (R301-R313) -/

/-- The word of a data word given as a number. -/
def word (n : Nat) : Word := BitVec.ofNat 32 n

/-- Whether a target can take records: a PF as its power state says, a management core always (R304). -/
def State.available (s : State) (t : Nat) : Bool := s.events.available.get (fun t => decide (2 ≤ t)) t

/-- Whether a PF's records go to the fallback target (R312). -/
def State.fallback (s : State) (t : Nat) : Bool := s.events.fallback.get (fun _ => false) t

/-- The fallback target of a PF; one that names the PF itself acts as MC0 (R312). -/
def State.fallbackOf (s : State) (t : Nat) : Nat :=
  if s.fld F.evtFallbackTimeoutTgt = t then 2 else s.fld F.evtFallbackTimeoutTgt

/-- Where a record for target t goes: after redirection, and after the fallback of the target it reaches (R311, R312). -/
def State.target (s : State) (t : Nat) : Nat :=
  let u := s.fld (F.evtTgtCtrlRedir t)
  if s.fallback u then s.fallbackOf u else u

/-- The targets of a routing mask after redirection, each once, in ascending order (R303, R311). -/
def State.targets (s : State) (mask : Nat) : List Nat :=
  let us := ([0, 1, 2, 3].filter (fun t => mask.testBit t)).map s.target
  [0, 1, 2, 3].filter (fun u => us.contains u)

/-- Places of the pending buffer (R304). -/
abbrev bufferPlaces : Nat := 4096

/-- ERR_N driven low: a pulse of 10 us, or the running pulse extended; each pulse counts once (R334). -/
def State.errPulse (s : State) : State :=
  let s1 := if s.faults.pulseEnd.isNone then s.count F.fltErrCountCount 1 else s
  { s1 with faults := { s1.faults with errLow := true, pulseEnd := some (s.time.now + 10000) } }

/-- The codes of GLB_STATE.KEEP_CAUSE (Table 01.13). -/
def keepCode : ShakeCause → Nat
  | .host => 1
  | .fault => 2
  | .thermal => 3
  | .warm => 4

/-- The rank of a KEEP_CAUSE code when causes meet (R16); a warm reset ranks with the host's requests (log 31). -/
def causeRank (c : Nat) : Nat := if c = 3 then 3 else if c = 2 then 2 else 1

/-- A shakeout cause latched: a shakeout starts, or, if one runs, its KEEP_CAUSE becomes the highest seen (R16, R20).
A fault cause pulses ERR_N (Table 01.10). -/
def State.latch (s : State) (c : ShakeCause) : State :=
  let isFault := c == .fault || c == .thermal
  let s1 := if isFault then s.errPulse else s
  match s1.power.shake with
  | some sh =>
    let s2 := if causeRank (s1.fld F.glbStateKeepCause) < causeRank (keepCode c) then s1.setFld F.glbStateKeepCause (keepCode c) else s1
    { s2 with power := { s2.power with shake := some { sh with fault := sh.fault || isFault, warm := sh.warm || c == .warm } } }
  | none =>
    let s2 := ((s1.setFld F.glbStateKeepCause (keepCode c)).setFld F.glbStateTrans 1).setFld F.glbStateTarget 0
    { s2 with power := { s2.power with
        shake := some { start := s.time.now, settled := false, zeroed := false, fault := isFault, warm := c == .warm } } }

/-- What a fault of class k of group n does at its raise beside its record: status, count and actions (R333, R335). -/
def State.faultStatus (s : State) (n cls : Nat) : State :=
  let s1 := (s.setFld (F.fltStat n cls) 1).count (F.fltSrcCount n) 1
  let act := s1.fld (F.fltAct n cls)
  let s2 := if act.testBit 0 then s1.errPulse else s1
  if act.testBit 2 then
    let s3 := { s2 with power := { s2.power with recover := (n, cls) :: s2.power.recover.filter (· ≠ (n, cls)) } }
    s3.latch .fault
  else s2

/-- A record lost for a target: its overflow record is created, or counts one more loss (R306; log 32). -/
def State.lose (s : State) (t : Nat) : State :=
  match s.events.overflow.find? t with
  | some (q, r) =>
    let n := if r.data.toNat = 0xFFFFFFFF then r.data else r.data + 1
    { s with events := { s.events with overflow := s.events.overflow.put t (q, { r with data := n }) } }
  | none =>
    let r : EvRec := { source := 0x200, code := 0x201, level := 7, data := 1, ns := s.netNs, sec := s.netSec, replay := false }
    ({ s with events := { s.events with
        raised := s.events.raised + 1
        overflow := s.events.overflow.put t (s.events.raised, r) } }).faultStatus 2 2

/-- A record entering the pending buffer for its targets, or lost for all of them when the buffer is full (R304, R306);
while the standby die is ready it is mirrored there (R313). -/
def State.post (s : State) (r : EvRec) (ts : List Nat) : State :=
  if ts.isEmpty then s
  else if bufferPlaces ≤ s.events.buffer.length then
    ts.foldl State.lose ((s.count F.evtLostCount 1).setFld F.evtStatusOvf 1)
  else
    let p : Pending := { seq := s.events.raised, record := r, targets := ts }
    { s with events := { s.events with
        raised := s.events.raised + 1
        buffer := s.events.buffer ++ [p]
        replay := if s.standbyReady then s.events.replay ++ [p] else s.events.replay } }

/-- The record of a happening: class and kind in CODE, level and targets by the route of the source's group (R301, R303). -/
def State.record (s : State) (src cls kind : Nat) (data : Word) : State :=
  let rt := s.reg (R.evtRoute0 + 4 * (src / 256))
  let r : EvRec := { source := src, code := 256 * cls + kind, level := bitsOf rt (6 + 3 * cls) (4 + 3 * cls), data := data,
                     ns := s.netNs, sec := s.netSec, replay := false }
  let s1 := s.post r (s.targets (bitsOf rt 3 0))
  if cls = 0 then s1 else s1.faultStatus (src / 256) cls

/-! ## Jobs and claims as far as a shakeout ends them -/

/-- The state codes of Table 12.4. -/
def JobState.code : JobState → Nat
  | .queued => 0
  | .running => 1
  | .suspending => 2
  | .suspended => 3
  | .cancelling => 4
  | .done => 5
  | .failed => 6
  | .cancelled => 7

/-- The terminal states (Table 12.4). -/
def JobState.terminal : JobState → Bool
  | .done | .failed | .cancelled => true
  | _ => false

/-- A claimable resource nobody holds or waits for (R272). -/
def Claim.free : Claim := { holder := none, standing := false, fifo := [] }

/-- The job a claimant is, or 0. -/
def jobOf : Claimant → Nat
  | .job id _ => id
  | _ => 0

/-- A resource without a job: its claim ends unless it is standing, and it leaves the FIFO (R273). -/
def Claim.without (c : Claim) (id : Nat) : Claim :=
  { holder := match c.holder with
      | some h => if jobOf h = id && !c.standing then none else c.holder
      | none => none
    standing := c.standing
    fifo := c.fifo.filter (fun w => jobOf w != id) }

/-- The claim of a resource (R272). -/
def Jobs.claim (j : Jobs) (r : Nat) : Claim := j.claims.get (fun _ => Claim.free) r

/-- A claim given to a resource. -/
def Jobs.setClaim (j : Jobs) (r : Nat) (c : Claim) : Jobs := { j with claims := j.claims.set (fun _ => Claim.free) r c }

/-- The claimable resources (Table 12.7). -/
abbrev resources : Nat := 71

/-- Every claim of a job released but standing ones (R273). -/
def Jobs.releaseAll (j : Jobs) (id : Nat) : Jobs :=
  (List.range resources).foldl (fun j r => j.setClaim r ((j.claim r).without id)) j

/-- The job of an ID in a table. -/
def findJob : List Job → Nat → Option Job
  | [], _ => none
  | j :: js, id => if j.id = id then some j else findJob js id

/-- A job table with the job of an ID changed. -/
def changeJob (t : List Job) (id : Nat) (f : Job → Job) : List Job := t.map (fun j => if j.id = id then f j else j)

/-- The compiles a job has asked for and that have not started, taken back (R267). -/
def State.dropRequests (s : State) (id : Nat) : State :=
  { s with moulds := { s.moulds with waiting := s.moulds.waiting.filter (fun r => r.who ≠ .library id) } }

/-- A bank or region whose retirement is in progress no more: returned to use, unless the job has retired it (Table 12.5). -/
def State.endRetiring (s : State) (k : JobKind) : State :=
  match k with
  | .bankRetire b => { s with ladle := { s.ladle with retiringBanks := s.ladle.retiringBanks.filter (· ≠ b) } }
  | .regionRetire r => { s with ladle := { s.ladle with retiringRegions := s.ladle.retiringRegions.filter (· ≠ r) } }
  | _ => s

/-- A job reaching a terminal state: its claims end, what it still asks for is taken back, a bank or region it has not retired
returns to use, and its event is recorded (R264, R267, R273). -/
def State.endJobRecord (s : State) (j : Job) (st : JobState) (cause : Nat) : State :=
  let s0 := (s.dropRequests j.id).endRetiring j.kind
  let s1 := { s0 with jobs := { (s0.jobs.releaseAll j.id) with
    table := changeJob s0.jobs.table j.id (fun j => { j with state := st, cause := cause, endedAt := s.time.now, lost := [] }) } }
  let data := word (j.id + 65536 * st.code + 1048576 * cause)
  if st = .failed then s1.record 0x500 1 0 data
  else if j.evt then s1.record 0x500 0 0 data
  else s1

/-- Every job ended at once by a shakeout: CANCELLED if it was queued or suspended, FAILED with cause SHAKEOUT otherwise
(R269). -/
def State.endAllJobs (s : State) : State :=
  (s.jobs.table.filter (fun j => !j.state.terminal)).foldl
    (fun s j => if j.state = .queued ∨ j.state = .suspended then s.endJobRecord j .cancelled 0
                else s.endJobRecord j .failed 2) s

/-- The states of HEAT_NEXT_STATUS.STATE (Table 07.38). -/
abbrev heatEmpty : Nat := 0
abbrev heatValidating : Nat := 1
abbrev heatArmed : Nat := 2
abbrev heatRejected : Nat := 3

/-- Both heat banks cleared and the next bank EMPTY (R159); reason and index lapse with the rejection they explained. -/
def State.clearBanks (s : State) : State :=
  let s1 := (s.setReg R.heatNextStatus 0).setReg R.heatLive 0
  { s1 with heats := { s1.heats with live := [], next := [], commit := none, armed := none, now := none, prev := none,
                                     waitingRun := none, cur := none, decomp := none, repair := none } }

/-- What a latched shakeout ends at once: jobs (R269), an ARMED heat with note CANCELLED cause 0x3 and the heats (R154,
R157), a drain, an arbitration or a switch-over (R325), calibration passes, staged pours, and the wait for a planned
switch-over. -/
def State.settle (s : State) : State :=
  match s.power.shake with
  | none => s
  | some sh =>
    if sh.settled then s
    else
      let s1 := { s with power := { s.power with
        shake := some { sh with settled := true }, holdDue := false, drain := none, drained := false } }
      let s2 := s1.endAllJobs
      let s3 := if s2.fld F.heatNextStatusState = heatArmed then s2.record 0x601 0 4 (word 0x34) else s2
      let s4 := s3.clearBanks
      let s5 := ((s4.setFld F.cdStatusArb 0).setFld F.cdStatusGap 0).setFld F.calStatusBusy 0
      { s5 with
        cal := { s5.cal with passes := [], undo := s5.cal.undo ++ s5.cal.passes }
        ladle := { s5.ladle with xoffDrain := false }
        cd := { s5.cd with arb := none, gap := none, planned := none }
        moulds := { s5.moulds with staged := none, holdPour := none, calPour := false, ditherOff := false } }

/-- A note (class 0) or fault (classes 1-4) raised: its record, its status and actions, and what a shakeout it starts
ends (R332, R335). -/
def State.raise (s : State) (src cls kind : Nat) (data : Word) : State := (s.record src cls kind data).settle

/-- A shakeout started by a cause that is no fault action (R14, R346, R350). -/
def State.shakeFor (s : State) (c : ShakeCause) : State := (s.latch c).settle

/-- A fault with a standing condition raised: the condition is remembered until it ends (R335). -/
def State.raiseStanding (s : State) (src cls kind : Nat) (data : Word) : State :=
  let c : Standing := { source := src, cls := cls, kind := kind, data := data }
  let s1 := { s with faults := { s.faults with
    standing := s.faults.standing.filter (fun (x : Standing) => x.source ≠ src ∨ x.kind ≠ kind ∨ x.cls ≠ cls) ++ [c] } }
  s1.raise src cls kind data

/-- A standing condition ended. -/
def State.endStanding (s : State) (src : Nat) : State :=
  { s with faults := { s.faults with standing := s.faults.standing.filter (fun (x : Standing) => x.source ≠ src) } }

/-! ## Jobs and the states they run in (R125, R269, Table 12.5) -/

/-- Whether a job is a pass of calibration that is running or suspended. -/
def Job.passes (j : Job) : Bool :=
  !j.state.terminal && j.state != .queued &&
    match j.kind with
    | .calFull _ | .calTransfer _ => true
    | _ => false

/-- CAL_STATUS.BUSY: a POWER_UP, FULL or TRANSFER pass runs or is suspended (Table 06.13). -/
def State.calBusy (s : State) : State :=
  s.setFld F.calStatusBusy (b2n (s.cal.passes.any (fun p => p.job == 0) || s.jobs.table.any Job.passes))

/-- The device and service states a job runs in (Tables 06.3, 12.5, 12.8): DEV 1 HOLD, 2 RUN; SVC 0 NORMAL, 1 START, 2 TEST,
3 RECOVER. -/
def JobKind.runsIn (k : JobKind) (dev svc : Nat) : Bool :=
  let holdOrRun := dev == 1 || dev == 2
  match k with
  | .calFull _ => dev == 1 && svc != 0
  | .calTransfer _ => holdOrRun && (svc == 0 || svc == 2)
  | .heatLoad _ | .riserScrub _ | .regionRetire _ => dev == 2
  | .survey _ => dev == 1 && (svc == 2 || svc == 3)
  | .imageLoad _ _ => svc != 1
  | .mouldLib _ | .fwActivate _ _ | .elemRetire _ _ _ | .bankRetire _ | .flaskMove _ _ | .coreRestart _ | .adcTakeover _ _ _ => holdOrRun

/-- A job whose state has been left: QUEUED or SUSPENDED it ends FAILED with cause STATE at once; running it does so at its
next safe point, if it has one ahead (R269; log 88). -/
def State.leaveJob (s : State) (j : Job) : State :=
  if j.state = .queued ∨ j.state = .suspended then s.endJobRecord j .failed 1
  else if j.past ∨ j.state = .cancelling then s
  else { s with jobs := { s.jobs with table := changeJob s.jobs.table j.id (fun j => { j with stateLeft := true }) } }

/-- Every job whose device and service state is no longer in force (R269). -/
def State.leaveJobs (s : State) : State :=
  ((s.jobs.table.filter (fun j => !j.state.terminal && !j.kind.runsIn s.dev s.svc)).foldl State.leaveJob s).calBusy

/-! ## The GLB_STATE notes (R23) -/

/-- The notes of a change of DEV, SVC and FABRIC from an earlier GLB_STATE word: one for each field that changed, in this
order, with the new bits [23:0] (R23; log 33). -/
def State.noteChanges (s : State) (old : Word) : State :=
  let new := s.reg R.glbState
  let one := fun (s : State) (hi lo : Nat) =>
    if bitsOf old hi lo = bitsOf new hi lo then s else s.raise 0 0 0 (new &&& 0xFFFFFF#32)
  one (one (one s 2 0) 5 4) 9 8

/-- A step's effect on GLB_STATE: the jobs whose state it leaves end, and a note is raised for each change (R23, R269). -/
def State.withNotes (s : State) (f : State → State) : State := (f s).leaveJobs.noteChanges (s.reg R.glbState)

/-! ## Masters and refused accesses (R281-R283, R339) -/

/-- The master ID without its die bit (Table 13.4). -/
def unitOf (m : Master) : Nat := m.toNat % 128

/-- The masters of Table 13.4 that stand for the host, the debug port and the cope-drag agent. -/
abbrev mPF0 : Nat := 0x58
abbrev mPF1 : Nat := 0x59
abbrev mAgent : Nat := 0x5C
abbrev mDebug : Nat := 0x5E

/-- A core's state, all zero and in firmware mode after reset (R238; log 9). -/
def Core.zero : Core :=
  { g := [], acc := [], z := false, n := false, c := false, v := false, sat := false, sats := false, pc := 0,
    user := false, prevUser := false, inTrap := false, halted := false, asleep := false, epc := 0, cause := 0, tval := 0,
    cycle := 0, fseq := 0, ures := 0, lctrl := 0, netNs := 0, netSec := 0, wakeEn := 0, wake := 0, pendWake := 0,
    timer := 0, scratch := [], outstanding := 0, commits := false,
    bank0 := [], bank1 := [], cells0 := [], cells1 := [], mem := [], code := [], policyWaits := false }

/-- The core of a master ID. -/
def State.core (s : State) (id : Nat) : Core := s.cores.get (fun _ => Core.zero) id

/-- A core given a state. -/
def State.setCore (s : State) (id : Nat) (c : Core) : State := { s with cores := s.cores.set (fun _ => Core.zero) id c }

/-- A tile with nothing live, every span at 6 V and every channel idle (R67). -/
def Tile.zero : Tile :=
  { live := [], act := [], lag := [], span12 := [], span := [], pend := [], written := [], heatFrom := [], staging := [], chans := [],
    round := 0, roundD := false, samples := [], fresh := [], shown := [], seen := [], seq := 0, frameAt := 0,
    slewAt := [], copeVal := [], dragVal := [], differ := [], spareAt := [], vhtrAt := 0 }

/-- A tile, and a tile given a state. -/
def State.tile (s : State) (t : Nat) : Tile := s.tiles.get (fun _ => Tile.zero) t
def State.setTile (s : State) (t : Nat) (x : Tile) : State := { s with tiles := s.tiles.set (fun _ => Tile.zero) t x }

/-- Whether the debug scope of the access lock is open (Table 17.8). -/
def State.lockOpen (s : State) : Bool := s.flag F.lockStatusDebug

/-- Privileged masters (R282). -/
def State.privileged (s : State) (m : Master) : Bool :=
  let u := unitOf m
  if u = mPF0 ∨ u = mAgent then true
  else if u = mDebug then s.lockOpen
  else if u < 82 then !(s.core m.toNat).user
  else false

/-- Whether a master ID is a core's, and in firmware mode. -/
def State.firmwareCore (s : State) (m : Master) (lo hi : Nat) : Bool :=
  decide (lo ≤ unitOf m) && decide (unitOf m ≤ hi) && !(s.core m.toNat).user

/-- The kinds of Table 13.5 and R339. -/
abbrev kDecode : Nat := 1
abbrev kPriv : Nat := 2
abbrev kWidth : Nat := 3
abbrev kAlign : Nat := 4
abbrev kProtect : Nat := 5
abbrev kLock : Nat := 6
abbrev kReset : Nat := 7
abbrev kRefused : Nat := 8

/-- The counter of BUS_ERR_COUNTS that counts a kind (Table 13.23). -/
def errCount (kind : Nat) : Option Fld :=
  if kind = kDecode then some F.busErrCountsDecode
  else if kind = kPriv then some F.busErrCountsPriv
  else if kind = kWidth ∨ kind = kAlign ∨ kind = kProtect then some F.busErrCountsShape
  else if kind = kLock then some F.busErrCountsLock
  else if kind = kReset then some F.busErrCountsReset
  else none

/-- First-error capture: the access is captured, or counted in MORE while a capture stands (R339). -/
def State.capture (s : State) (a : Access) (kind : Nat) : State :=
  if s.flag F.fltFecStatValid then s.count F.fltFecStatMore 1
  else
    let size := if 8 < a.size then 0 else a.size
    (((((s.setFld F.fltFecStatValid 1).setReg R.fltFecAddrLo (word a.addr)).setReg R.fltFecAddrHi (word (a.addr / 2 ^ 32))).setReg
      R.fltFecInfo (word (a.space * 2 ^ 20 + size * 2 ^ 16 + b2n a.write * 2 ^ 15 + kind * 256 + a.master.toNat))).setReg
      R.fltFecNs (word s.netNs)).setReg R.fltFecSec (word s.netSec)

/-- A refused access logged: captured, counted and reported by a record of source BUS (R283, R339); LOCK is a C2 fault,
every other kind a C0 note. -/
def State.logAccess (s : State) (a : Access) (kind : Nat) : State :=
  let s1 := s.capture a kind
  let s2 := match errCount kind with
    | some f => s1.count f 1
    | none => s1
  s2.raise 0x3000 (if kind = kLock then 2 else 0) kind (word (a.master.toNat + 256 * kind))

/-- An access refused with a kind. While an access of several words is in hand it is logged once, with its own address and
size (R339; log 92). -/
def State.refuse (s : State) (a : Access) (kind : Nat) : State :=
  match s.bus.hand with
  | none => s.logAccess a kind
  | some x =>
    if s.bus.handLogged then s
    else ({ s with bus := { s.bus with handLogged := true } }).logAccess x kind

/-- What an access does, with that access in hand; afterwards what was in hand before is so again. -/
def State.inHand (s : State) (a : Access) (f : State → State) : State :=
  let s1 := f { s with bus := { s.bus with hand := some a, handLogged := false } }
  { s1 with bus := { s1.bus with hand := s.bus.hand, handLogged := s.bus.handLogged } }

/-- A 32-bit write to a register's offset as an access: a core reaches registers at its data addresses (Table 11.16). -/
def regAccess (m : Master) (off : Nat) : Access :=
  if unitOf m < 82 then { master := m, space := 3, addr := 0x40000000 + off, size := 4, write := true }
  else { master := m, space := if unitOf m = mDebug then 4 else 0, addr := off, size := 4, write := true }

/-- Whether PCIe reaches the register space for a master: a PF does once BAR0 answers (Table 17.3). -/
def State.answers (s : State) (m : Master) : Bool :=
  if unitOf m = mPF0 ∨ unitOf m = mPF1 then s.power.bar0 else true

/-- A PCIe request that arrives in a switch-over gap waits for the new active die, which answers it from Fr on (R327). -/
def State.hostWaits (s : State) (m : Master) : State :=
  match s.cd.gap with
  | some (_, fr) => if unitOf m = mPF0 ∨ unitOf m = mPF1 then s.untilNet fr else s
  | none => s

/-- Whether an offset is open to a master: in recovery mode the GLB block only (R353); to the debug port with the lock
closed the LOCK block only (R356); the factory window with the factory scope only (R356). -/
def State.blockOpen (s : State) (m : Master) (off : Nat) : Bool :=
  if s.flag F.glbBootRcv ∧ 0x10000 ≤ off then false
  else if unitOf m = mDebug ∧ !s.lockOpen ∧ (off < 0x310000 ∨ 0x320000 ≤ off) then false
  else if 0x318000 ≤ off ∧ off < 0x320000 ∧ !s.flag F.lockStatusFactory then false
  else true

/-- Whether a register needs a privileged master (the suffix +p), by its map. -/
def privReg (off : Nat) : Bool :=
  match findReg regTable off with
  | some (r, i, _) => r.priv && !(r.privx == some i)
  | none => false

/-- Whether a register is covered by the configuration CRC (the marker c). -/
def cfgReg (off : Nat) : Bool :=
  match findReg regTable off with
  | some (r, _, _) => r.cfg
  | none => false

/-- A write to a c register sets DIRTY (R293). -/
def State.markDirty (s : State) (off : Nat) : State :=
  if cfgReg off then
    let s1 := s.setFld F.cfgStatusDirty 1
    { s1 with bus := { s1.bus with passDirty := true } }
  else s

/-- A 32-bit register write brought to its register: nothing happens before BAR0 answers; an offset closed to the master
is a decode miss; an unprivileged write to a +p register is discarded and logged; otherwise the register's own effect
takes place (R281, R282, R327, R356, Table 17.3). -/
def State.atReg (s : State) (m : Master) (off : Nat) (effect : State → State) : State :=
  if !s.answers m then s
  else
    let s := s.hostWaits m
    if !s.blockOpen m off then s.refuse (regAccess m off) kDecode
    else if privReg off ∧ !s.privileged m then s.refuse (regAccess m off) kPriv
    else effect s

/-- A write that a rule of the register's own chapter discards, logged with kind REFUSED (R339). -/
def State.refuseReg (s : State) (m : Master) (off : Nat) : State := s.refuse (regAccess m off) kRefused

/-- A wake source of a core becomes pending (R258). -/
def State.pend (s : State) (id bit : Nat) : State :=
  let c := s.core id
  s.setCore id { c with pendWake := c.pendWake ||| 2 ^ bit }

/-- A core of the active die, by its number (Table 13.4). -/
def State.activeId (s : State) (n : Nat) : Nat := n + 128 * s.activeDie.code

/-- FLT_SUMMARY (Table 16.4): throttling, shutdown status, held pours, ERR_N, and the classes with a status bit set. -/
def State.fltSummary (s : State) : Word :=
  let cls := fun k => (List.range 96).any (fun n => s.flag (F.fltStat n k))
  word (b2n (s.fld F.thmStatusAdmit < 100) * 2048 + b2n (s.power.recover.contains (4, 4) && s.flag (F.fltStat 4 4)) * 1024
    + b2n s.faultHold * 512 + b2n s.faults.errLow * 256 + b2n (cls 1) * 2 + b2n (cls 2) * 4 + b2n (cls 3) * 8 + b2n (cls 4) * 16)

/-- A master reset: a burst it has in progress is completed with the strobes off, a lock it holds is released, and the
event is logged with kind RESET; the address of a locked access is not held, so it is a free value (R300; log 39). -/
def State.resetMaster (s : State) (m : Master) : State :=
  let own := s.bus.bursts.find? (fun p => p.1 = m.toNat)
  let lock := decide (unitOf m = mDebug) && s.bus.locked.isSome
  if own.isNone ∧ !lock then s
  else
    let s1 := { s with bus := { s.bus with
      bursts := s.bus.bursts.filter (fun p => p.1 ≠ m.toNat)
      locked := if lock then none else s.bus.locked } }
    let s2 := if lock then s1.setFld F.busStatusLocked 0 else s1
    let sp := if unitOf m = mDebug then 4 else if unitOf m < 82 then 3 else 1
    match own with
    | some (_, a) => s2.refuse { master := m, space := sp, addr := a, size := 16, write := true } kReset
    | none =>
      let (w, s3) := s2.freeWord
      s3.logAccess { master := m, space := sp, addr := w.toNat, size := 4, write := true } kReset

end Sys2Proof.Machine
end

