-- ==== Sys2Proof/Machine/Timebase.lean ====
section
/-!
DEFINITION. The timebase (R140-R146, R374) and REFCLK (R340). The phase error an edge carries is network time at the edge
less the whole second the edge marks, in ns; it and what TOD_RX carries come from outside (log 5).
-/
namespace Sys2Proof.Machine

/-- The states of TIM_STATUS.STATE (Table 07.14). -/
abbrev tFree : Nat := 0
abbrev tAcquire : Nat := 1
abbrev tLocked : Nat := 2
abbrev tHoldover : Nat := 3
abbrev tStepWait : Nat := 4

/-- The state of the timebase. -/
def State.tim (s : State) : Nat := s.fld F.timStatusState

/-- EST_ERR given a magnitude, saturating (Table 07.14). -/
def State.setErr (s : State) (n : Nat) : State := s.setFld F.timStatusEstErr (if 0xFFFF < n then 0xFFFF else n)

/-- What EST_ERR has risen by over the first ms of a HOLDOVER entered at an instant (Table 07.14; log 5). -/
def driftOver (entry : Nat) : Nat → Nat
  | 0 => 0
  | k + 1 => driftOver entry k + Config.holdoverDrift entry k

/-- EST_ERR brought up to date: in HOLDOVER it rises from its value at entry by the timebase's own model, and during a slew it is
the error still to be slewed (Table 07.14; log 5). -/
def State.refreshErr (s : State) : State :=
  if s.tim = tHoldover then
    match s.time.heldSince with
    | some t => s.setErr (s.time.heldError + driftOver t ((s.time.now - t) / 1000000))
    | none => s
  else if s.tim = tLocked && s.flag F.timStatusSlew then s.setErr s.time.slewLeft.natAbs
  else s

/-- An event of source TIME: its data word is TIM_STATUS as it then stands (R374). -/
def State.timeEvent (s : State) (cls kind : Nat) : State :=
  let s1 := s.refreshErr
  s1.raise 0x600 cls kind (s1.reg R.timStatus)

/-- An edge as the timebase meets it (log 5): network time at which it falls, `now` then, the whole second it marks, and network
time there less that second, in ns. -/
structure Pulse where
  at_ : Nat
  now : Nat
  sec : Nat
  err : Int
deriving DecidableEq, Repr

/-- The first instant of network time at an error from a whole second that does not lie more than 10 us back (log 5). -/
def edgeAt (net : Nat) (err : Int) : Nat :=
  (net - 10000) + ((err - ((net - 10000 : Nat) : Int)) % (second : Int)).toNat

/-- The edge of an error, with time come to it if it lies ahead. -/
def State.edge (s : State) (err : Int) : Pulse :=
  let t := edgeAt s.time.net err
  { at_ := t, now := s.time.now - (s.time.net - t), sec := (((t : Int) - err) / (second : Int)).toNat, err := err }

/-- Network time moved by so many ns at once. -/
def State.moveNet (s : State) (by_ : Int) : State := { s with time := { s.time with net := ((s.time.net : Int) + by_).toNat } }

/-- An instant of network time as it reads after network time has been moved. -/
def movedBy (by_ : Int) (t : Nat) : Nat := ((t : Int) + by_).toNat

/-- The instants a tile holds of what is in progress, moved with network time; the frames delivered keep theirs (R144). -/
def Tile.moved (x : Tile) (by_ : Int) : Tile :=
  { x with round := Machine.movedBy by_ x.round, vhtrAt := Machine.movedBy by_ x.vhtrAt
           written := x.written.map (fun p => (p.1, Machine.movedBy by_ p.2))
           heatFrom := x.heatFrom.map (fun p => (p.1, (p.2.1, Machine.movedBy by_ p.2.2)))
           spareAt := x.spareAt.map (fun p => (p.1, Machine.movedBy by_ p.2))
           chans := x.chans.map (fun p => (p.1, { p.2 with
             urgent := p.2.urgent.map (fun u => { u with arrived := Machine.movedBy by_ u.arrived }) })) }

/-- A step moves network time at one edge (R144): what is in progress keeps its durations, a staged pour the slot clock edge after
its lead, and the frame boundaries follow (`State.nextPeriod`). -/
def State.stepNet (s : State) (by_ : Int) : State :=
  let s1 := (s.tiles.map Prod.fst).foldl (fun (s : State) t => s.setTile t ((s.tile t).moved by_)) (s.moveNet by_)
  let m := movedBy by_
  { s1 with
    moulds := { s1.moulds with
      staged := s1.moulds.staged.map (fun st => { st with pourAt := ceilDiv (m st.pourAt) 5 * 5, startedAt := m st.startedAt })
      pours := s1.moulds.pours.map m, helds := s1.moulds.helds.map m, gates := s1.moulds.gates.map m }
    loops := { s1.loops with
      cmds := s1.loops.cmds.map (fun c => (c.1, c.2.1, m c.2.2)), shadow := s1.loops.shadow.map (fun p => (p.1, m p.2)) }
    cd := { s1.cd with stream := s1.cd.stream.map (fun e => { e with at_ := m e.at_ })
                       gap := s1.cd.gap.map (fun g => (m g.1, ceilDiv (m g.2) 6400 * 6400)) } }

/-- A step at an edge: network time becomes the message's seconds, 0 ns; ACQUIRE, count 1; a slew ends (Table 07.3; log 5). -/
def State.stepTime (s : State) (e : Pulse) (sec : Nat) : State :=
  let s1 := ((s.stepNet ((sec * second : Nat) - (e.at_ : Int))).setFld F.timStatusState tAcquire).setFld F.timStatusSlew 0
  { s1.setErr Config.measureUncertainty with
    time := { s1.time with count := 1, lastEdge := some e.now, diff := none, phase := 0, calm := 0, slewLeft := 0, heldSince := none } }

/-- An accepted edge corrected (R144, R146): an error within 5 ns is adjusted away, a greater one is slewed in LOCKED, and
corrected at once in ACQUIRE. SLEW falls once three accepted edges in a row have been within 5 ns. -/
def State.correct (s : State) (e : Pulse) : State :=
  let small := e.err.natAbs ≤ 5
  let s0 := { s with time := { s.time with lastEdge := some e.now, phase := e.err } }
  if s.tim = tLocked then
    let calm := if small then s.time.calm + 1 else 0
    let slewing := !small || (s.flag F.timStatusSlew && decide (calm < 3))
    let s1 := ((if small then s0.moveNet (-e.err) else s0).setFld F.timStatusSlew (b2n slewing)).setErr (e.err.natAbs + Config.measureUncertainty)
    ({ s1 with time := { s1.time with calm := calm, slewLeft := if small then 0 else -e.err } }).refreshErr
  else (s0.moveNet (-e.err)).setErr (e.err.natAbs + Config.measureUncertainty)

/-- The seconds a valid message names that arrived in the second before an edge (Table 07.3). -/
def State.msgFor (s : State) (e : Pulse) : Option Nat :=
  match s.time.msg with
  | some (m, at_) => if e.now ≤ at_ + second then some m else none
  | none => none

/-- The message of an edge is used up. -/
def State.takeMsg (s : State) : State := { s with time := { s.time with msg := none } }

/-- STEP_WAIT entered, or kept, with the offset named by the latest valid edge and message (Tables 07.3, 07.14). -/
def State.stepWait (s : State) (off : Int) : State :=
  let entering := s.tim != tStepWait
  let s1 := s.setFld F.timStatusState tStepWait
  let s2 := { s1.setErr off.natAbs with time := { s1.time with heldSince := none, diff := none } }
  if entering then s2.timeEvent 2 3 else s2

/-- An edge discarded (R144). -/
def State.badEdge (s : State) : State := s.count F.timErrsPpsBad 1

/-- Whether an edge falls 1 s plus or minus 10 us after the previously accepted one (R144). -/
def State.edgeOk (s : State) (e : Pulse) : Bool :=
  match s.time.lastEdge with
  | some l => decide (((e.now : Int) - l - second).natAbs ≤ 10000)
  | none => false

/-- An edge in ACQUIRE after an accepted one (Table 07.3). -/
def State.edgeAcquire (s : State) (e : Pulse) : State :=
  if !s.edgeOk e then s.badEdge
  else
    match s.msgFor e with
    | some m =>
      if m = e.sec then
        let s1 := s.correct e
        { s1 with time := { s1.time with count := s1.time.count + 1 } }
      else
        let s1 := s.count F.timErrsSecMism 1
        { s1 with time := { s1.time with count := 0, lastEdge := none, phase := 0 } }
    | none => { s with time := { s.time with count := 0, lastEdge := none, phase := 0 } }

/-- An edge in LOCKED (Table 07.3): two consecutive accepted edges whose messages differ from the prediction by the same
non-zero number of seconds place the engine on a new time scale. -/
def State.edgeLocked (s : State) (e : Pulse) : State :=
  if !s.edgeOk e then s.badEdge
  else
    match s.msgFor e with
    | some m =>
      let d : Int := (m : Int) - e.sec
      if d = 0 then
        let s1 := s.correct e
        { s1 with time := { s1.time with diff := none } }
      else
        let s1 := s.count F.timErrsSecMism 1
        if s.time.diff = some d then
          if s.dev = 2 then (s1.correct e).stepWait (e.err - d * (second : Int)) else s1.stepTime e m
        else
          let s2 := s1.correct e
          { s2 with time := { s2.time with diff := some d } }
    | none =>
      let s1 := s.correct e
      { s1 with time := { s1.time with diff := none } }

/-- An edge in HOLDOVER (Table 07.3): with a message, a step outside RUN; in RUN a return to LOCKED by slewing when the
error is at most SLEW_MAX and the seconds are as predicted, else STEP_WAIT. -/
def State.edgeHoldover (s : State) (e : Pulse) : State :=
  match s.msgFor e with
  | none => s
  | some m =>
    if s.dev ≠ 2 then s.stepTime e m
    else if m = e.sec ∧ e.err.natAbs ≤ 1000 * clampNat 1 1000 (s.fld F.timCtrlSlewMax) then
      let s1 := (s.setFld F.timStatusState tLocked).setFld F.timStatusSlew 1
      ({ s1 with time := { s1.time with lastEdge := some e.now, phase := e.err, calm := 0, slewLeft := -e.err, heldSince := none,
                                        diff := none } }).refreshErr
    else
      let s1 := if m = e.sec then s else s.count F.timErrsSecMism 1
      s1.stepWait (e.err - ((m : Int) - e.sec) * (second : Int))

/-- An edge in STEP_WAIT (Table 07.3): a step once the engine has left RUN. -/
def State.edgeStepWait (s : State) (e : Pulse) : State :=
  match s.msgFor e with
  | none => s
  | some m => if s.dev ≠ 2 then s.stepTime e m else s.stepWait (e.err - ((m : Int) - e.sec) * (second : Int))

/-- PPS_EDGE: an active edge with its phase error (R144, R146). PPS_IN is taken in every device and service state. -/
def State.ppsEdge (s : State) (err : Int) : State :=
  let s1 := s.untilNet (edgeAt s.time.net err)
  let e := s1.edge err
  let s2 :=
    if s1.tim = tFree ∨ (s1.tim = tAcquire ∧ s1.time.count = 0) then
      match s1.msgFor e with
      | some m => s1.stepTime e m
      | none => s1
    else if s1.tim = tAcquire then s1.edgeAcquire e
    else if s1.tim = tLocked then s1.edgeLocked e
    else if s1.tim = tHoldover then s1.edgeHoldover e
    else s1.edgeStepWait e
  s2.takeMsg

def execPpsEdge (errNs : Int) (s : State) : Out := .next (s.ppsEdge errNs)

/-- The little-endian number of a byte list. -/
def natOf : List Byte → Nat
  | [] => 0
  | b :: bs => b.toNat + 256 * natOf bs

/-- Whether sixteen bytes are a valid message, when they fell in the window of R143. -/
def todValid (bs : List Byte) (inWindow : Bool) : Bool :=
  bs.length == 16 && inWindow && bs.getD 0 0 == 0x5A && bs.getD 1 0 == 0x3C && bs.getD 2 0 == 0x01 && (bs.getD 3 0).getLsbD 0
    && crc16 (bs.take 14) == BitVec.ofNat 16 (natOf (bs.drop 14))

/-- TOD_MESSAGE: a valid message waits for its edge and is reported; an invalid one is counted (R143, Tables 07.14, 07.20,
07.22). -/
def State.todMessage (s : State) (bs : List Byte) (inWindow : Bool) : State :=
  if todValid bs inWindow then
    let fl := bs.getD 3 0
    let s1 := (s.setFld F.timStatusSrcHold (b2n (fl.getLsbD 3))).setFld F.timStatusLeap (b2n (fl.getLsbD 1) + 2 * b2n (fl.getLsbD 2))
    let s2 := (s1.setFld F.timTodLastUtcOffset (natOf ((bs.drop 10).take 2))).setFld F.timTodLastSeq (natOf ((bs.drop 12).take 2))
    { s2 with time := { s2.time with msg := some (natOf ((bs.drop 4).take 6), s.time.now) } }
  else s.count F.timErrsTodBad 1

def execTodMessage (bytes : List Byte) (inWindow : Bool) (s : State) : Out := .next (s.todMessage bytes inWindow)

/-- TIME_LOCKED: the count has reached 3 with a phase error of at most 20 ns (Table 07.3). -/
def execTimeLocked (s : State) : Out :=
  .next (if s.tim = tAcquire ∧ 3 ≤ s.time.count ∧ s.time.phase.natAbs ≤ 20 then
      let s1 := s.setFld F.timStatusState tLocked
      ({ s1 with time := { s1.time with diff := none, calm := 0 } }).timeEvent 0 1
    else s)

/-- PPS_TIMEOUT: no accepted edge within 1 s + 10 us of the latest: LOCKED becomes HOLDOVER with a C2 fault, ACQUIRE starts
again (Table 07.3). -/
def State.ppsTimeout (s : State) : State :=
  match s.time.lastEdge with
  | none => s
  | some e =>
    if s.tim = tLocked then
      let s1 := ((s.untilNow (e + second + 10000)).setFld F.timStatusState tHoldover).count F.timErrsHoldovers 1
      ({ s1 with time := { s1.time with heldSince := some s1.time.now, heldError := s.refreshErr.fld F.timStatusEstErr, lastEdge := none,
                                        phase := 0, diff := none } }).timeEvent 2 2
    else if s.tim = tAcquire then
      let s1 := s.untilNow (e + second + 10000)
      { s1 with time := { s1.time with count := 0, lastEdge := none, phase := 0 } }
    else s

def execPpsTimeout (s : State) : Out := .next s.ppsTimeout

/-- HOLD_LIMIT: HOLDOVER has lasted TIM_CTRL.HOLD_LIMIT seconds, 0 acting as 1 (R145, Table 07.16). -/
def execHoldLimit (s : State) : Out :=
  .next (match s.time.heldSince with
    | some t =>
      if s.tim = tHoldover then (s.untilNow (t + second * clampNat 1 255 (s.fld F.timCtrlHoldLimit))).timeEvent 2 4 else s
    | none => s)

/-- REFCLK_LOSS: no REFCLK edge for 1 us (R340, R142). -/
def execRefclkLoss (s : State) : Out :=
  .next (if s.power.refclk then
      let s1 := s.setFld F.timStatusRefclkOk 0
      ({ s1 with power := { s1.power with refclk := false } }).raiseStanding 0x300 2 0 0
    else s)

/-- REFCLK_RETURN (R142). -/
def execRefclkReturn (s : State) : Out :=
  .next (if s.power.refclk then s
    else
      let s1 := s.setFld F.timStatusRefclkOk 1
      ({ s1 with power := { s1.power with refclk := true } }).endStanding 0x300)

/-- The three registers of a time: nanoseconds, seconds [31:0], seconds [47:32] (Tables 07.18, 07.40). -/
def State.latchTime (s : State) (r : Nat → Nat) (t : Nat) : State :=
  ((s.setReg (r 0) (word (t % second))).setReg (r 1) (word (t / second))).setReg (r 2) (word (t / second / 2 ^ 32 % 65536))

/-- TIM_NOW0_READ: the word returned stands in TIM_NOW0 and latches TIM_NOW1 and TIM_NOW2 (R286). -/
def execTimNow0Read (m : Master) (s : State) : Out :=
  .next (if s.answers m && s.blockOpen m (R.timNow 0) then (s.hostWaits m).latchTime R.timNow (s.hostWaits m).time.net else s)

/-- The instant that HEAT_ACTn reports: of the ARMED heat, of a base heat that waits for A, or of the latest heat activated (R159,
Table 07.40). -/
def State.actInstant (s : State) : Nat :=
  match s.heats.armed, s.heats.waitingRun with
  | some h, _ => h.a
  | none, some h => h.a
  | none, none => s.heats.act

/-- HEAT_ACT0_READ: as TIM_NOW0, of the activation instant (R286, Table 07.40). -/
def execHeatAct0Read (m : Master) (s : State) : Out :=
  .next (if s.answers m && s.blockOpen m (R.heatAct 0) then (s.hostWaits m).latchTime R.heatAct s.actInstant else s)

end Sys2Proof.Machine
end

