-- ==== Sys2Proof/Machine/BusMatrix.lean ====
section
/-!
DEFINITION. The bus matrix's own commands and the SMBus status window (R291, R297-R300).
-/
namespace Sys2Proof.Machine

/-- The debug port's master ID on the active die (Table 13.4). -/
def State.debugMaster (s : State) : Master := BitVec.ofNat 8 (mDebug + 128 * s.activeDie.code)

/-- DEBUG_LOCK: the debug port locks a target port for a read-modify-write sequence (R297); with the access lock closed
the access is a decode miss (R356). A sequence already holding a port goes on. -/
def execDebugLock (port : Fin 256) (s : State) : Out :=
  .next (if !s.lockOpen then s.refuse { master := s.debugMaster, space := 4, addr := port.val, size := 4, write := true } kDecode
    else match s.bus.locked with
      | some _ => s
      | none =>
        let s1 := s.setFld F.busStatusLocked 1
        { s1 with bus := { s1.bus with locked := some (port.val, s.time.now) } })

/-- BUS_LOCK_FORCED: a lock held for 16 cycles is forced open: its outstanding write is discarded, its holder gets an error
response, FORCED and LAST_LOCK say so, and a C2 fault of kind LOCK is raised (R297). -/
def execBusLockForced (s : State) : Out :=
  .next (match s.bus.locked with
    | none => s
    | some (port, _) =>
      let s1 := ((s.setFld F.busStatusLocked 0).setFld F.busStatusForced 1).setFld F.busStatusLastLock s.debugMaster.toNat
      let s2 := { s1 with bus := { s1.bus with locked := none } }
      s2.refuse { master := s.debugMaster, space := 4, addr := port, size := 4, write := true } kLock)

/-- A write of BUS_REMAP: only a management core in firmware mode may make it; any other is PROTECT (R299). -/
def State.remapWrite (s : State) (m : Master) (v : Word) : State :=
  if s.firmwareCore m 0x50 0x51 then s.setFld F.busRemapSwap (bitsOf v 0 0) else s.refuse (regAccess m R.busRemap) kProtect

def execBusRemapWrite (m : Master) (v : Word) (s : State) : Out := .next (s.atReg m R.busRemap (fun s => s.remapWrite m v))

/-- A write of BUS_SLICE: open until BOOTED, PROTECT after it (R298). -/
def State.sliceWrite (s : State) (m : Master) (v : Word) : State :=
  if s.flag F.busStatusBooted then s.refuse (regAccess m R.busSlice) kProtect
  else (s.setReg R.busSlice (v &&& 0x00FFFFFF#32)).markDirty R.busSlice

def execBusSliceWrite (m : Master) (v : Word) (s : State) : Out := .next (s.atReg m R.busSlice (fun s => s.sliceWrite m v))

/-- BUS_BOOTED: management firmware sets BOOTED (R298); to any other master the bit is read-only (Table 13.21). -/
def execBusBooted (m : Master) (s : State) : Out :=
  .next (if s.firmwareCore m 0x50 0x51 then s.setFld F.busStatusBooted 1 else s)

/-- DEBUG_PORT_RESET (R300). -/
def execDebugPortReset (s : State) : Out := .next (s.resetMaster s.debugMaster)

/-! ## The SMBus status window (R291, Table 13.7) -/

/-- The eight words of the window, taken from the registers. -/
def State.windowWords (s : State) : List Word :=
  [s.reg R.glbId, s.reg R.glbRev, s.reg R.glbSerialLo, s.reg R.glbSerialHi, s.reg R.glbState, s.fltSummary,
   word (s.fld F.thmStatusMax), s.refreshErr.reg R.timStatus]

/-- The snapshot: before the first refresh, the words as they stand after reset (log 14). -/
def State.snapshot (s : State) : List Word :=
  if s.bus.window.isEmpty then State.reset.windowWords else s.bus.window

/-- n bytes of the window from an offset; a byte beyond the window is not stated and so free (log 40). -/
def State.windowBytes (s : State) (off n : Nat) : List Byte :=
  let bs := s.snapshot.flatMap bytesOf
  (List.range n).map (fun i => bs.getD (off + i) ((Config.freeWord (s.free + i)).extractLsb' 0 8))

/-- An SMBus read answered with n bytes from an offset; nobody answers before the keeper runs (Table 17.3). -/
def State.smbusRead (s : State) (off n : Nat) : State :=
  if s.power.smbus then { s with free := s.free + n, bus := { s.bus with answer := some (s.windowBytes off n) } }
  else { s with bus := { s.bus with answer := none } }

def execSmbusReadByte (cmd : Byte) (s : State) : Out := .next (s.smbusRead cmd.toNat 1)
def execSmbusReadWord (cmd : Byte) (s : State) : Out := .next (s.smbusRead cmd.toNat 2)

/-- A Block Read returns 32 bytes from offset 0x00, whatever the command code (R291). -/
def execSmbusBlockRead (_cmd : Byte) (s : State) : Out := .next (s.smbusRead 0 32)

/-- Every write protocol is answered with NACK (R291). -/
def execSmbusWrite (_cmd : Byte) (s : State) : Out := .next { s with bus := { s.bus with answer := none } }

def execSmbusWindowRefresh (s : State) : Out := .next { s with bus := { s.bus with window := s.windowWords } }

end Sys2Proof.Machine
end

