-- ==== Sys2Proof/Machine/Sha.lean ====
section
/-!
DEFINITION. SHA-256 and HMAC-SHA-256 over byte lists, by which the access lock checks a response and a password
(R357, R358). The functions are those of FIPS 180-4 and FIPS 198-1, which the rules name.
-/
namespace Sys2Proof.Machine.Sha

/-- The 64 round constants of SHA-256. -/
def roundK : List Word :=
  [0x428a2f98#32, 0x71374491#32, 0xb5c0fbcf#32, 0xe9b5dba5#32, 0x3956c25b#32, 0x59f111f1#32, 0x923f82a4#32, 0xab1c5ed5#32,
   0xd807aa98#32, 0x12835b01#32, 0x243185be#32, 0x550c7dc3#32, 0x72be5d74#32, 0x80deb1fe#32, 0x9bdc06a7#32, 0xc19bf174#32,
   0xe49b69c1#32, 0xefbe4786#32, 0x0fc19dc6#32, 0x240ca1cc#32, 0x2de92c6f#32, 0x4a7484aa#32, 0x5cb0a9dc#32, 0x76f988da#32,
   0x983e5152#32, 0xa831c66d#32, 0xb00327c8#32, 0xbf597fc7#32, 0xc6e00bf3#32, 0xd5a79147#32, 0x06ca6351#32, 0x14292967#32] ++
  [0x27b70a85#32, 0x2e1b2138#32, 0x4d2c6dfc#32, 0x53380d13#32, 0x650a7354#32, 0x766a0abb#32, 0x81c2c92e#32, 0x92722c85#32,
   0xa2bfe8a1#32, 0xa81a664b#32, 0xc24b8b70#32, 0xc76c51a3#32, 0xd192e819#32, 0xd6990624#32, 0xf40e3585#32, 0x106aa070#32,
   0x19a4c116#32, 0x1e376c08#32, 0x2748774c#32, 0x34b0bcb5#32, 0x391c0cb3#32, 0x4ed8aa4a#32, 0x5b9cca4f#32, 0x682e6ff3#32,
   0x748f82ee#32, 0x78a5636f#32, 0x84c87814#32, 0x8cc70208#32, 0x90befffa#32, 0xa4506ceb#32, 0xbef9a3f7#32, 0xc67178f2#32]

/-- The eight working words. -/
structure Regs where
  a : Word
  b : Word
  c : Word
  d : Word
  e : Word
  f : Word
  g : Word
  h : Word
deriving DecidableEq, Repr

/-- The initial hash value of SHA-256. -/
def initial : Regs :=
  { a := 0x6a09e667, b := 0xbb67ae85, c := 0x3c6ef372, d := 0xa54ff53a, e := 0x510e527f, f := 0x9b05688c,
    g := 0x1f83d9ab, h := 0x5be0cd19 }

/-- One round with its constant and schedule word. -/
def round (r : Regs) (k w : Word) : Regs :=
  let s1 := r.e.rotateRight 6 ^^^ r.e.rotateRight 11 ^^^ r.e.rotateRight 25
  let ch := (r.e &&& r.f) ^^^ (~~~r.e &&& r.g)
  let t1 := r.h + s1 + ch + k + w
  let s0 := r.a.rotateRight 2 ^^^ r.a.rotateRight 13 ^^^ r.a.rotateRight 22
  let maj := (r.a &&& r.b) ^^^ (r.a &&& r.c) ^^^ (r.b &&& r.c)
  { a := t1 + (s0 + maj), b := r.a, c := r.b, d := r.c, e := r.d + t1, f := r.e, g := r.f, h := r.g }

/-- The rounds over a schedule held as its latest 16 words, oldest first. -/
def rounds : List Word → List Word → Regs → Regs
  | [], _, r => r
  | k :: ks, ws, r =>
    match ws with
    | w0 :: rest =>
      let w1 := rest.getD 0 0
      let w9 := rest.getD 8 0
      let w14 := rest.getD 13 0
      let g0 := w1.rotateRight 7 ^^^ w1.rotateRight 18 ^^^ (w1 >>> 3)
      let g1 := w14.rotateRight 17 ^^^ w14.rotateRight 19 ^^^ (w14 >>> 10)
      rounds ks (rest ++ [w0 + g0 + w9 + g1]) (round r k w0)
    | [] => r

/-- One block of sixteen words taken into the hash. -/
def block (r : Regs) (ws : List Word) : Regs :=
  let t := rounds roundK ws r
  { a := r.a + t.a, b := r.b + t.b, c := r.c + t.c, d := r.d + t.d, e := r.e + t.e, f := r.f + t.f, g := r.g + t.g,
    h := r.h + t.h }

/-- Big-endian words of a byte list. -/
def words : List Byte → List Word
  | a :: b :: c :: d :: bs => (a ++ b ++ c ++ d) :: words bs
  | _ => []

/-- A list cut into blocks of sixteen, at most n of them. -/
def blocks : Nat → List Word → List (List Word)
  | 0, _ => []
  | _ + 1, [] => []
  | n + 1, ws => ws.take 16 :: blocks n (ws.drop 16)

/-- The big-endian bytes of a word. -/
def bytesBE (w : Word) : List Byte := [w.extractLsb' 24 8, w.extractLsb' 16 8, w.extractLsb' 8 8, w.extractLsb' 0 8]

/-- A message with the padding of SHA-256. -/
def pad (m : List Byte) : List Byte :=
  let n := m.length
  let z := (119 - n % 64) % 64
  let bits := 8 * n
  m ++ [0x80#8] ++ List.replicate z 0 ++ bytesBE (BitVec.ofNat 32 (bits / 2 ^ 32)) ++ bytesBE (BitVec.ofNat 32 bits)

/-- SHA-256 of a byte list, 32 bytes. -/
def sha256 (m : List Byte) : List Byte :=
  let ws := words (pad m)
  let r := (blocks (ws.length / 16 + 1) ws).foldl block initial
  [r.a, r.b, r.c, r.d, r.e, r.f, r.g, r.h].flatMap bytesBE

/-- HMAC-SHA-256 of a byte list under a key. -/
def hmac (key m : List Byte) : List Byte :=
  let k0 := if 64 < key.length then sha256 key else key
  let k := k0 ++ List.replicate (64 - k0.length) 0
  sha256 (k.map (· ^^^ 0x5c) ++ sha256 (k.map (· ^^^ 0x36) ++ m))

end Sys2Proof.Machine.Sha
end

