-- ==== Sys2Proof/Machine/AccessLock.lean ====
section
/-!
DEFINITION. The access lock (R356-R360).
-/
namespace Sys2Proof.Machine

/-- A minute, in ns. -/
abbrev minute : Nat := 60 * second

/-- The results of LOCK_STATUS.RESULT (Table 17.8). -/
abbrev rOpened : Nat := 1
abbrev rFailed : Nat := 2
abbrev rLockedOut : Nat := 3
abbrev rNoChal : Nat := 4
abbrev rNoKey : Nat := 5
abbrev rScope : Nat := 6

/-- A write to LOCK_CMD by a master that may make it: PF0 or the debug port; any other is PROTECT (R356). -/
def State.atLock (s : State) (m : Master) (effect : State → State) : State :=
  s.atReg m R.lockCmd (fun s =>
    if unitOf m = mPF0 ∨ unitOf m = mDebug then effect s else s.refuse (regAccess m R.lockCmd) kProtect)

/-- The challenge that stands ends: CHAL and the challenge words read zero (Tables 17.8, 17.11). -/
def State.dropChallenge (s : State) : State :=
  let s1 := (List.range 4).foldl (fun s i => s.setReg (R.lockChal i) 0) (s.setFld F.lockStatusChal 0)
  { s1 with lock := { s1.lock with chalUntil := 0 } }

/-- The response words cleared, as after every attempt (Table 17.11). -/
def State.dropResponse (s : State) : State := (List.range 8).foldl (fun s i => s.setReg (R.lockResp i) 0) s

/-- CHALLENGE: the challenge words take 128 random bits, valid for 60 s (R357). -/
def State.challenge (s : State) (entropy : BitVec 128) : State :=
  let s1 := (List.range 4).foldl (fun s i => s.setReg (R.lockChal i) (entropy.extractLsb' (32 * i) 32)) (s.setFld F.lockStatusChal 1)
  { s1 with lock := { s1.lock with chalUntil := s.time.now + 60 * second } }

def execChallenge (m : Master) (entropy : BitVec 128) (s : State) : Out := .next (s.atLock m (fun s => s.challenge entropy))

/-- The bytes of consecutive registers, least significant first. -/
def State.regBytes (s : State) (offs : List Nat) : List Byte := offs.flatMap (fun o => bytesOf (s.reg o))

/-- The 16 challenge bytes, the 32 response bytes, and the 8 serial bytes (R357). -/
def State.chalBytes (s : State) : List Byte := s.regBytes ((List.range 4).map R.lockChal)
def State.respBytes (s : State) : List Byte := s.regBytes ((List.range 8).map R.lockResp)
def State.serialBytes (s : State) : List Byte := s.regBytes [R.glbSerialLo, R.glbSerialHi]

/-- The response the lock expects under a key for a scope (R357). -/
def State.expected (s : State) (key : List Byte) (scope : Nat) : List Byte :=
  Sha.hmac key (s.chalBytes ++ s.serialBytes ++ [BitVec.ofNat 8 scope])

/-- The data word of the lock's events (R360). -/
def State.lockData (s : State) (method scope : Nat) : Word := word (method + 16 * scope + 256 * s.fld F.lockStatusFails)

/-- The lockout for a failure count, in ns: 10 min at 3, doubling up to 10,240 min (R359). -/
def lockoutFor (fails : Nat) : Nat :=
  let m := 10 * 2 ^ (fails - 3)
  minute * (if 10240 < m then 10240 else m)

/-- A lockout begun for the failure count that stands (R359). -/
def State.startLockout (s : State) : State :=
  let s1 := s.setFld F.lockStatusLockout 1
  { s1 with lock := { s1.lock with lockoutUntil := some (s.time.now + lockoutFor (s.fld F.lockStatusFails)) } }

/-- An attempt that is checked and fails (R359, R360). -/
def State.lockFails (s : State) (method scope : Nat) : State :=
  let s1 := (s.count F.lockStatusFails 1).setFld F.lockStatusResult rFailed
  let s2 := s1.raise 0x3100 1 2 (s1.lockData method scope)
  if 3 ≤ s2.fld F.lockStatusFails then (s2.startLockout).raise 0x3100 2 3 (s2.lockData method scope) else s2

/-- A successful opening of a scope for LOCK_CTRL.MIN minutes; FAILS returns to 0 (R359, R360). -/
def State.lockOpens (s : State) (method scope : Nat) : State :=
  let s1 := ((s.setFld F.lockStatusDebug 1).setFld F.lockStatusFactory (b2n (scope == 3))).setFld F.lockStatusFails 0
  let s2 := s1.setFld F.lockStatusResult rOpened
  let s3 := { s2 with lock := { s2.lock with openUntil := s.time.now + minute * clampNat 1 1440 (s.fld F.lockCtrlMin) } }
  s3.raise 0x3100 0 1 (s3.lockData method scope)

/-- An attempt (R359): refused with a result and uncounted in a lockout, without a valid challenge, with nothing
provisioned, or with a scope the method cannot open; otherwise it opens the scope or fails. Whatever its result, the
challenge ends and the response words are cleared. -/
def State.attempt (s : State) (method scope : Nat) (needChal provisioned scopeOk : Bool) (good : Bool) : State :=
  let s1 := s.dropChallenge.dropResponse
  if s.flag F.lockStatusLockout then s1.setFld F.lockStatusResult rLockedOut
  else if needChal && !s.flag F.lockStatusChal then s1.setFld F.lockStatusResult rNoChal
  else if !provisioned then s1.setFld F.lockStatusResult rNoKey
  else if !scopeOk then s1.setFld F.lockStatusResult rScope
  else if good then s1.lockOpens method scope
  else s1.lockFails method scope

/-- RESPOND_G: the device-unique key opens either scope (R357). -/
def State.respondG (s : State) (scope : Nat) : State :=
  s.attempt 1 scope true true (scope == 1 || scope == 3) (s.respBytes == s.expected Config.gernaumKey scope)

def execRespondG (m : Master) (scope : Fin 4) (s : State) : Out := .next (s.atLock m (fun s => s.respondG scope.val))

/-- RESPOND_C: the customer key opens DEBUG only (R357). -/
def State.respondC (s : State) (scope : Nat) : State :=
  s.attempt 2 scope true (s.flag F.glbCapsChalKey) (scope == 1) (s.respBytes == s.expected Config.customerKey scope)

def execRespondC (m : Master) (scope : Fin 4) (s : State) : Out := .next (s.atLock m (fun s => s.respondC scope.val))

/-- PASSWORD: SHA-256 of the serial bytes and the password against the digest in OTP opens DEBUG (R358); a length outside
1-32 matches nothing (log 41). -/
def State.password (s : State) (len : Nat) : State :=
  s.attempt 3 1 false (s.flag F.glbCapsPassword) true
    (1 ≤ len && len ≤ 32 && Sha.sha256 (s.serialBytes ++ s.respBytes.take len) == Config.passwordDigest)

def execPassword (m : Master) (len : Fin 64) (s : State) : Out := .next (s.atLock m (fun s => s.password len.val))

/-- The lock closing: an open lock closes with its note and resets the debug port (R360). -/
def State.lockCloses (s : State) : State :=
  if s.lockOpen then
    let scope := if s.flag F.lockStatusFactory then 3 else 1
    let s1 := (s.setFld F.lockStatusDebug 0).setFld F.lockStatusFactory 0
    let s2 := { s1 with lock := { s1.lock with openUntil := 0 } }
    (s2.raise 0x3100 0 4 (s2.lockData 0 scope)).resetMaster s.debugMaster
  else s

def execClose (m : Master) (s : State) : Out := .next (s.atLock m State.lockCloses)

/-- CHALLENGE_EXPIRE: 60 s after the challenge it ends (R357). -/
def execChallengeExpire (s : State) : Out :=
  .next (if s.flag F.lockStatusChal then (s.untilNow s.lock.chalUntil).dropChallenge else s)

/-- LOCKOUT_END: the lockout ends on the keeper clock (R359). -/
def execLockoutEnd (s : State) : Out :=
  .next (match s.lock.lockoutUntil with
    | some t =>
      let s1 := (s.untilNow t).setFld F.lockStatusLockout 0
      { s1 with lock := { s1.lock with lockoutUntil := none } }
    | none => s)

/-- LOCK_OPEN_EXPIRE: the open period ends (R360). -/
def execLockOpenExpire (s : State) : Out :=
  .next (if s.lockOpen then (s.untilNow s.lock.openUntil).lockCloses else s)

/-- LOCK_STATUS with the seconds of lockout left (Table 17.8), rounded up (log 42). -/
def State.lockStatusWord (s : State) : Word :=
  let left := match s.lock.lockoutUntil with
    | some t => ceilDiv (t - s.time.now) second
    | none => 0
  withBits (s.reg R.lockStatus) 19 0 (if 0xFFFFF < left then 0xFFFFF else left)

end Sys2Proof.Machine
end

