-- ==== Sys2Proof/Machine/Events.lean ====
section
/-!
DEFINITION. The event controller's commands (R304-R312): writing records to rings, accept, end of interrupt, holdoff,
redirection, fallback and the ring registers.
-/
namespace Sys2Proof.Machine

/-! ## Words of the byte memories -/

/-- A word of a byte memory, and a word written, lowest byte first (R238). -/
def memWord (m : SMap Byte) (a : Nat) : Word :=
  wordOf (m.get (fun _ => 0) a) (m.get (fun _ => 0) (a + 1)) (m.get (fun _ => 0) (a + 2)) (m.get (fun _ => 0) (a + 3))

/-- Bytes written from an address. -/
def putBytes (m : SMap Byte) (a : Nat) : List Byte → SMap Byte
  | [] => m
  | b :: bs => putBytes (m.set (fun _ => 0) a b) (a + 1) bs

/-- Words written from an address. -/
def putWords (m : SMap Byte) (a : Nat) (ws : List Word) : SMap Byte := putBytes m a (ws.flatMap bytesOf)

/-- The core number that stands for shared SRAM in the stream. -/
abbrev sramUnit : Nat := 127

/-- A word stored in a core's memory or in the shared SRAM of a die. -/
def State.putWord (s : State) (unit : Nat) (d : Die) (a : Nat) (w : Word) : State :=
  if unit = sramUnit then { s with bus := { s.bus with sram := putWords s.bus.sram (a + 16777216 * d.code) [w] } }
  else
    let c := s.core (unit + 128 * d.code)
    s.setCore (unit + 128 * d.code) { c with mem := putWords c.mem a [w] }

/-- The word there. -/
def State.getWord (s : State) (unit : Nat) (d : Die) (a : Nat) : Word :=
  if unit = sramUnit then memWord s.bus.sram (a + 16777216 * d.code) else memWord (s.core (unit + 128 * d.code)).mem a

/-- A word stored by any master on a die; what the active die stores is streamed while the standby is ready (R317). -/
def State.storeWord (s : State) (unit : Nat) (d : Die) (a : Nat) (w : Word) : State :=
  let s1 := s.putWord unit d a w
  if d = s.activeDie ∧ s.standbyReady then { s1 with cd := { s1.cd with stream := s1.cd.stream ++ [{ unit := unit, offset := a, word := w, at_ := s.time.net }] } }
  else s1

/-! ## Rings and targets -/

/-- The number of places of ring (t, l): 2^SIZE, SIZE held between 4 and 12 (Table 14.13). -/
def State.ringPlaces (s : State) (t l : Nat) : Nat := 2 ^ clampNat 4 12 (s.fld (F.evtRingCtrlSize t l))

/-- Whether ring (t, l) holds records (R307). -/
def State.levelPending (s : State) (t l : Nat) : Bool := s.fld (F.evtRingHeadHead t l) != s.fld (F.evtRingTailTail t l)

/-- A target's priority stack, top first (R307). -/
def State.stack (s : State) (t : Nat) : List Nat := s.events.stackOf.get (fun _ => []) t

/-- The running priority plus one: 0 is IDLE (R307). -/
def State.running (s : State) (t : Nat) : Nat :=
  match s.stack t with
  | l :: _ => l + 1
  | [] => 0

/-- The pending levels above the running priority, highest first (R308). -/
def State.above (s : State) (t : Nat) : List Nat :=
  [7, 6, 5, 4, 3, 2, 1, 0].filter (fun l => s.levelPending t l && decide (s.running t ≤ l))

/-- A signal sent to a target: an MSI-X message, or the EVENT wake source of a management core (R307). -/
def State.signal (s : State) (t : Nat) : State :=
  let s1 := { s with events := { s.events with
    signals := s.events.signals.modify (fun _ => 0) t (· + 1)
    lastSignal := s.events.lastSignal.set (fun _ => none) t (some s.time.now)
    due := s.events.due.set (fun _ => none) t none } }
  if t < 2 then s1 else s1.pend (s.activeId (0x50 + (t - 2))) 0

/-- The holdoff of a target, in ns (Table 14.9). -/
def State.holdoff (s : State) (t : Nat) : Nat := 1000 * clampNat 0 1000 (s.fld (F.evtTgtCtrlHoldoff t))

/-- A signal that falls due: delayed while the stack is not empty and the previous signal is less than the holdoff ago,
sent at once otherwise (R310). -/
def State.signalDue (s : State) (t : Nat) : State :=
  match s.events.lastSignal.get (fun _ => none) t with
  | some p =>
    if !(s.stack t).isEmpty ∧ s.time.now < p + s.holdoff t then
      { s with events := { s.events with due := s.events.due.set (fun _ => none) t (some (p + s.holdoff t)) } }
    else s.signal t
  | none => s.signal t

/-- The signal condition evaluated again: a signal falls due when it turns true (R307). -/
def State.evaluate (s : State) (t : Nat) : State :=
  let c := !(s.above t).isEmpty
  let was := s.events.cond.get (fun _ => false) t
  let s1 := { s with events := { s.events with cond := s.events.cond.set (fun _ => false) t c } }
  if c && !was then s1.signalDue t else s1

/-- The records waiting for target t in raise order, the overflow record in its place (R304, R306). -/
def State.waitingFor (s : State) (t : Nat) : List Pending :=
  let own := s.events.buffer.filter (fun p => p.targets.contains t)
  match s.events.overflow.find? t with
  | some (q, r) => own.takeWhile (fun p => p.seq < q) ++ [{ seq := q, record := r, targets := [t] }] ++ own.dropWhile (fun p => p.seq < q)
  | none => own

/-- Whether ring (t, l) is in use and has a free place (R304, R305). -/
def State.ringFree (s : State) (t l : Nat) : Bool :=
  s.flag (F.evtRingCtrlEn t l) &&
    ((s.fld (F.evtRingTailTail t l) + 1) % s.ringPlaces t l != s.fld (F.evtRingHeadHead t l) % s.ringPlaces t l)

/-- The first record that may be written for t: its ring has room and no earlier record of its source waits (R304). -/
def State.writable (s : State) (t : Nat) : List Pending → List Nat → Option Pending
  | [], _ => none
  | p :: ps, held =>
    if !held.contains p.record.source && s.ringFree t p.record.level then some p
    else s.writable t ps (p.record.source :: held)

/-- A target taken off a record of a list; the record leaves the list with its last target. -/
def dropTarget (ps : List Pending) (seq t : Nat) : List Pending :=
  (ps.map (fun p => if p.seq = seq then { p with targets := p.targets.filter (· ≠ t) } else p)).filter (fun p => !p.targets.isEmpty)

/-- The key of a ring place. -/
def ringKey (t l place : Nat) : Nat := (8 * t + l) * 4096 + place

/-- The four words of a record with its phase (Table 14.1). -/
def EvRec.words (r : EvRec) (phase : Bool) : List Word :=
  let stamp := r.ns + r.sec % 2 ^ 33 * 2 ^ 30 + b2n r.replay * 2 ^ 63
  [word (r.source + r.code * 2 ^ 16 + r.level * 2 ^ 28 + b2n phase * 2 ^ 31), r.data, word stamp, word (stamp / 2 ^ 32)]

/-- A record's words stored in a management core's ring, in the shared SRAM of the active die: the low 24 bits of BASE and 16
bytes a place (R305, Table 11.16; log 96). A PF's ring lies in host memory, which is outside the engine. -/
def State.storeRecord (s : State) (t l place : Nat) (ws : List Word) : State :=
  if t < 2 then s
  else
    let a := s.fld (F.evtRingBaseLoAddr t l) + 16 * place
    (ws.zipIdx).foldl (fun (s : State) p => s.storeWord sramUnit s.activeDie ((a + 4 * p.2) % 16777216) p.1) s

/-- A record written at TAIL of its ring with the ring's phase, TAIL advanced, the phase turned at the end of the ring
(R305), and its place freed (R304, R306). The standby's mirror notes the write for a PF (R313). -/
def State.writeRecord (s : State) (t : Nat) (p : Pending) : State :=
  let l := p.record.level
  let tail := s.fld (F.evtRingTailTail t l)
  let ph := s.flag (F.evtRingTailPhase t l)
  let n := s.ringPlaces t l
  let s1 := s.setFld (F.evtRingTailTail t l) ((tail + 1) % n)
  let s2 := if n ≤ tail + 1 then s1.setFld (F.evtRingTailPhase t l) (b2n !ph) else s1
  let s3 := { s2 with events := { s2.events with
      rings := s2.events.rings.put (ringKey t l tail) (p.record, ph)
      buffer := dropTarget s2.events.buffer p.seq t
      overflow := match s2.events.overflow.find? t with
        | some (q, _) => if q = p.seq then s2.events.overflow.erase t else s2.events.overflow
        | none => s2.events.overflow
      replay := if t < 2 then dropTarget s2.events.replay p.seq t else s2.events.replay } }
  s3.storeRecord t l tail (p.record.words ph)

/-- EVENT_RING_WRITE: the first record whose conditions hold is written to target t's ring, with a signal if the
condition turns true (R304, R305, R307). -/
def State.ringWrite (s : State) (t : Nat) : State :=
  if s.flag F.evtDeliverEnEn && s.available t then
    match s.writable t (s.waitingFor t) [] with
    | some p => (s.writeRecord t p).evaluate t
    | none => s
  else s

def execEventRingWrite (t : Fin 4) (s : State) : Out := .next (s.ringWrite t.val)

/-- The master that serves a target: PF0, PF1, or a management core of the active die (R308). -/
def State.targetMaster (s : State) (t : Nat) (m : Master) : Bool :=
  if t < 2 then decide (unitOf m = mPF0 + t) else decide (m.toNat = s.activeId (0x50 + (t - 2)))

/-- A read of ACCEPT by its own master: the highest pending level above the running priority is pushed and returned; the
register holds the word returned (R308, Table 14.10). -/
def State.accept (s : State) (t : Nat) : State :=
  match s.above t with
  | l :: _ =>
    let st := l :: s.stack t
    let s1 := { s with events := { s.events with stackOf := s.events.stackOf.set (fun _ => []) t st } }
    (s1.setReg (R.evtTgtAccept t) (word (0x80000000 + (st.length % 8) * 256 + l))).evaluate t
  | [] => s.setReg (R.evtTgtAccept t) 0

/-- EVT_ACCEPT: a read by another master has no effect (R308). -/
def execEvtAccept (m : Master) (t : Fin 4) (s : State) : Out :=
  .next (if s.answers m && s.targetMaster t.val m then (s.hostWaits m).accept t.val else s)

/-- An end of interrupt: the stack is popped; a level pending above the new running priority signals at once, and so does
a delayed signal when the stack empties; an EOI on an empty stack is counted and noted (R309, R310). -/
def State.eoi (s : State) (t : Nat) : State :=
  match s.stack t with
  | [] => (s.count (F.evtTgtStackEoiEmpty t) 1).raise 0x200 0 2 (word t)
  | _ :: st =>
    let s1 := { s with events := { s.events with stackOf := s.events.stackOf.set (fun _ => []) t st } }
    let again := !(s1.above t).isEmpty
    let s2 := { s1 with events := { s1.events with cond := s1.events.cond.set (fun _ => false) t again } }
    if again || (st.isEmpty && (s2.events.due.get (fun _ => none) t).isSome) then s2.signal t else s2

/-- A write of EVT_TGTt_EOI; another master's is discarded and logged (R309). -/
def State.eoiBy (s : State) (m : Master) (t : Nat) : State :=
  if s.targetMaster t m then s.eoi t else s.refuseReg m (R.evtTgtEoi t)

/-- EVT_EOI. -/
def execEvtEoi (m : Master) (t : Fin 4) (s : State) : Out :=
  .next (s.atReg m (R.evtTgtEoi t.val) (fun s => s.eoiBy m t.val))

/-- HOLDOFF_EXPIRE: the delayed signal is sent when its holdoff ends (R310). -/
def execHoldoffExpire (t : Fin 4) (s : State) : Out :=
  .next (match s.events.due.get (fun _ => none) t.val with
    | some d => (s.untilNow d).signal t.val
    | none => s)

/-- The records waiting in the buffer for t move to u, each reaching u once (R311, R312). -/
def State.moveRecords (s : State) (t u : Nat) : State :=
  let move := fun (p : Pending) =>
    if p.targets.contains t then { p with targets := u :: p.targets.filter (fun x => x ≠ t ∧ x ≠ u) } else p
  { s with events := { s.events with buffer := s.events.buffer.map move, replay := s.events.replay.map move } }

/-- Whether REDIR = u may be written for t: u itself is not redirected and nothing else is redirected to t (R311). -/
def State.redirAllowed (s : State) (t u : Nat) : Bool :=
  u == t || (s.fld (F.evtTgtCtrlRedir u) == u &&
    [0, 1, 2, 3].all (fun w => w == t || s.fld (F.evtTgtCtrlRedir w) != t))

/-- A write of EVT_TGTt_CTRL (R311). -/
def State.redirWrite (s : State) (m : Master) (t : Nat) (v : Word) : State :=
  let u := bitsOf v 25 24
  if s.redirAllowed t u then
    let s1 := ((s.setFld (F.evtTgtCtrlRedir t) u).setFld (F.evtTgtCtrlHoldoff t) (bitsOf v 9 0)).markDirty (R.evtTgtCtrl t)
    if u = t then s1 else s1.moveRecords t u
  else s.refuseReg m (R.evtTgtCtrl t)

def execEvtRedirWrite (m : Master) (t : Fin 4) (v : Word) (s : State) : Out :=
  .next (s.atReg m (R.evtTgtCtrl t.val) (fun s => s.redirWrite m t.val v))

/-- The time a PF may be unavailable before its records go elsewhere, in ns (Table 14.7). -/
def State.fallbackAfter (s : State) : Nat := 1000000 * clampNat 1 60000 (s.fld F.evtFallbackTimeoutMs)

/-- EVT_FALLBACK: a PF unavailable for the fallback time: its waiting records and every later one go to the fallback
target (R312). -/
def execEvtFallback (t : Fin 2) (s : State) : Out :=
  .next (if s.available t.val || s.fallback t.val then s
    else
      let s1 := s.untilNow (s.events.since.get (fun _ => 0) t.val + s.fallbackAfter)
      let s2 := { s1 with events := { s1.events with fallback := s1.events.fallback.set (fun _ => false) t.val true } }
      s2.moveRecords t.val (s2.fallbackOf t.val))

/-- A ring out of use: HEAD, TAIL and phase as after reset (R305). -/
def State.clearRing (s : State) (t l : Nat) : State :=
  ((s.setFld (F.evtRingCtrlEn t l) 0).setReg (R.evtRingHead t l) 0).setReg (R.evtRingTail t l) 0x1000

/-- A write of EVT_RINGt_l_CTRL; clearing EN empties the ring (R305). -/
def State.ringCtrlWrite (s : State) (t l : Nat) (v : Word) : State :=
  let s1 := ((s.setFld (F.evtRingCtrlSize t l) (bitsOf v 3 0)).setFld (F.evtRingCtrlEn t l) (bitsOf v 31 31)).markDirty (R.evtRingCtrl t l)
  (if bitOf v 31 then s1 else s1.clearRing t l).evaluate t

def execEvtRingCtrlWrite (m : Master) (t : Fin 4) (l : Fin 8) (v : Word) (s : State) : Out :=
  .next (s.atReg m (R.evtRingCtrl t.val l.val) (fun s => s.ringCtrlWrite t.val l.val v))

/-- The places from one ring index up to another. -/
def ringSpan (n a b : Nat) : List Nat := (List.range ((b + n - a % n) % n)).map (fun i => (a + i) % n)

/-- A write of HEAD: the places up to it are free, and a management core's records there are confirmed as consumed
(R305, R313). -/
def State.ringHeadWrite (s : State) (t l : Nat) (v : Word) : State :=
  let old := s.fld (F.evtRingHeadHead t l)
  let new := bitsOf v 11 0
  let taken := (ringSpan (s.ringPlaces t l) old new).filterMap (fun i => (s.events.rings.find? (ringKey t l i)).map (·.1))
  let seqs := (s.events.replay.filter (fun p => taken.contains p.record)).map (·.seq)
  let s1 := s.setFld (F.evtRingHeadHead t l) new
  let s2 := if t < 2 then s1
    else { s1 with events := { s1.events with replay := seqs.foldl (fun ps q => dropTarget ps q t) s1.events.replay } }
  s2.evaluate t

def execEvtRingHeadWrite (m : Master) (t : Fin 4) (l : Fin 8) (v : Word) (s : State) : Out :=
  .next (s.atReg m (R.evtRingHead t.val l.val) (fun s => s.ringHeadWrite t.val l.val v))

/-- A PF becoming available: its fallback ends for new raises; or unavailable: its wait begins (R304, R312). -/
def State.setAvailable (s : State) (t : Nat) (a : Bool) : State :=
  { s with events := { s.events with
      available := s.events.available.set (fun t => decide (2 ≤ t)) t a
      fallback := if a then s.events.fallback.set (fun _ => false) t false else s.events.fallback
      since := if a then s.events.since else s.events.since.set (fun _ => 0) t s.time.now } }

/-- PF_AVAILABILITY_CHANGE: no change when the PF already stands so (R312). A PF is available only with PERST_N released. -/
def execPfAvailabilityChange (pf : Fin 2) (available : Bool) (s : State) : Out :=
  .next (if s.available pf.val = available then s
    else
      let s1 := if available then { s with power := { s.power with perstN := true } } else s
      s1.setAvailable pf.val available)

/-- EVT_TGTt_STACK (Table 14.12): availability, fallback, the empty EOIs, the pending levels and the stack. -/
def State.stackWord (s : State) (t : Nat) : Word :=
  let levels := fun (f : Nat → Bool) => ((List.range 8).filter f).foldl (fun a l => a + 2 ^ l) 0
  word (b2n (s.available t) * 2 ^ 31 + b2n (s.fallback t) * 2 ^ 30 + s.fld (F.evtTgtStackEoiEmpty t) * 2 ^ 16
    + levels (s.levelPending t) * 256 + levels (fun l => (s.stack t).contains l))

end Sys2Proof.Machine
end

