-- ==== Sys2Proof/Machine/CopeDrag.lean ====
section
/-!
DEFINITION. Cope and drag (R314-R331). A state holds one file of registers for both dies, since every write takes effect on
both (R319; log 20); cores and their memories are held per die.
-/
namespace Sys2Proof.Machine

/-- STBY codes (Table 15.7). -/
abbrev stNone : Nat := 0
abbrev stCopying : Nat := 1
abbrev stReady : Nat := 2
abbrev stOut : Nat := 3

/-- The health word field of a die (Table 15.11). -/
def healthFld : Die → Fld
  | .cope => F.cdHealthCope
  | .drag => F.cdHealthDrag

/-- The standby die. -/
def State.standbyDie (s : State) : Die := s.activeDie.other

/-- The data word of the CD events (R331): the active die, the trigger, both health words and the reporting tile. -/
def State.cdData (s : State) (trigger tile : Nat) : Word :=
  word (s.activeDie.code + 16 * trigger + 256 * s.fld F.cdHealthCope + 65536 * s.fld F.cdHealthDrag + 16777216 * tile)

/-- Whether an activation of kind DIE runs (R276). -/
def State.dieActivation (s : State) : Bool :=
  s.jobs.table.any (fun j => !j.state.terminal &&
    match j.kind with
    | .fwActivate k _ => k == 1
    | _ => false)

/-- The comparison of the two dies' outputs switched on or off in every tile; counts are zero while it is off (R88, R316,
R326). -/
def State.setCompare (s : State) (on : Bool) : State :=
  (List.range 16).foldl (fun s t =>
    (s.setFld (F.tileStatusCmpOn t) (b2n on)).setTile t { s.tile t with differ := [] }) s

/-- The standby die stops being ready: comparison stops, mirroring ends, and STANDBY_LOST is raised, a C0 note while a DIE
activation runs (R316). A standby that was not ready only takes the new STBY. -/
def State.loseStandby (s : State) (stby trigger tile : Nat) : State :=
  if s.standbyReady then
    let s1 := (s.setFld F.cdStatusStby stby).setCompare false
    let s2 := { s1 with events := { s1.events with replay := [] }, cd := { s1.cd with stream := [] } }
    if s2.dieActivation then s2.raise 0xE00 0 4 (s2.cdData trigger tile)
    else s2.raiseStanding 0xE00 2 4 (s2.cdData trigger tile)
  else s.setFld F.cdStatusStby stby

/-- An arbitration started by a mismatch (1) or a heartbeat loss (2) (R324). -/
def State.startArb (s : State) (trigger tile : Nat) : State :=
  let s1 := s.setFld F.cdStatusArb 1
  { s1 with cd := { s1.cd with arb := some { trigger := trigger, start := s.time.now, tile := tile } } }

/-- Whether an arbitration or a switch-over is in progress. -/
def State.cdBusy (s : State) : Bool := s.cd.arb.isSome || s.cd.gap.isSome

/-- A mismatch report of a tile: counted, and acted on only while the standby is ready and nothing is in progress (R321). -/
def State.mismatch (s : State) (tile : Nat) : State :=
  let s1 := s.count F.cdCountsMism 1
  if s1.standbyReady ∧ !s1.cdBusy then s1.startArb 1 tile else s1

/-- HEARTBEAT_LOSS: counted; it starts an arbitration, or turns one of the same edge into a heartbeat loss (R324, R325). -/
def execHeartbeatLoss (s : State) : Out :=
  .next (
    let s1 := s.count F.cdCountsHbloss 1
    match s1.cd.arb with
    | some a =>
      if a.start = s1.time.now then { s1 with cd := { s1.cd with arb := some { a with trigger := 2 } } } else s1
    | none => if s1.cd.gap.isSome then s1 else s1.startArb 2 0)

/-- DIE_WATCHDOG_EXPIRE: the active die sends no heartbeat any more (R322). -/
def execDieWatchdogExpire (s : State) : Out := .next { s with cd := { s.cd with silent := true } }

/-- The first frame boundary at or after an instant of network time (R9). -/
def frameAt (t : Nat) : Nat := ceilDiv t 6400 * 6400

/-- A streamed word applied on the standby die; a flask memory word that differs is counted (R318). -/
def State.applyWord (s : State) (e : Streamed) : State :=
  let d := s.standbyDie
  (if s.getWord e.unit d e.offset = e.word ∨ 72 ≤ e.unit then s else s.count F.cdCopyStatDiff 1).putWord e.unit d e.offset e.word

/-- The words streamed before an instant applied on the standby die, in order; later ones wait (R318). -/
def State.applyBefore (s : State) (f : Nat) : State :=
  let s1 := (s.cd.stream.filter (fun e => decide (e.at_ < f))).foldl State.applyWord s
  { s1 with cd := { s1.cd with stream := s.cd.stream.filter (fun e => !decide (e.at_ < f)) } }

/-- Every streamed word applied, as at a switch-over (Table 15.4). -/
def State.applyStream (s : State) : State :=
  let s1 := s.cd.stream.foldl State.applyWord s
  { s1 with cd := { s1.cd with stream := [] } }

/-- A management core's ring and stack on a new active die: empty (R313). -/
def State.freshTarget (s : State) (t : Nat) : State :=
  let s1 := (List.range 8).foldl (fun s l => (s.setReg (R.evtRingHead t l) 0).setReg (R.evtRingTail t l) 0x1000) s
  { s1 with events := { s1.events with
      stackOf := s1.events.stackOf.set (fun _ => []) t []
      cond := s1.events.cond.set (fun _ => false) t false
      due := s1.events.due.set (fun _ => none) t none } }

/-- EVENT_REPLAY: the mirrored records not confirmed enter the new die's buffer in raise order, marked REPLAY; those that
find it full are lost and counted (R313). -/
def State.replayEvents (s : State) : State :=
  let rs := s.events.replay
  let s1 := { s with events := { s.events with buffer := [], replay := [] } }
  let s2 := rs.foldl (fun (s : State) p => s.post { p.record with replay := true } p.targets) s1
  (s2.freshTarget 2).freshTarget 3

/-- A decomposition in progress abandoned with a C1 note of source SCHED; its data word is not stated, so free (R166,
R327; log 47); what the default policy had still asked for it is taken back. -/
def State.abandonDecomposition (s : State) : State :=
  if s.heats.decomposing then
    let (w, s1) := s.freeWord
    let m := s1.moulds
    ({ s1 with
       heats := { s1.heats with decomposing := false, decomp := none, matching := s1.heats.matching.filter (· ≠ MatchCmd.policy) }
       moulds := { m with waiting := m.waiting.filter (fun r => r.who ≠ Requester.policy || s1.heats.repair.any (fun (x : Repair) => x.target == r.target)) } }).raise
      0x602 1 0 w
  else s

/-- The staging banks that are not sealed are discarded, and the staged pour is held with cause GAP unless every bank had
sealed (R326, R60). -/
def State.gapStaging (s : State) : State :=
  match s.moulds.staged with
  | none => s
  | some st =>
    if st.sealedTiles.length = 16 then s
    else { s with moulds := { s.moulds with staged := some { st with gap := true } } }

/-- The next slot clock edge, as the decision instant D lies on one (R9, R324, R328). -/
def State.toSlotEdge (s : State) : State := s.untilNet (ceilDiv s.time.net 5 * 5)

/-- SWITCH_OVER at D: die-select flips, comparison stops, unsealed banks are discarded, the new die applies the last copied
words and replays events; the gap lasts to Fr (R326, R327, R313). -/
def State.switchOver (s : State) : State :=
  let s1 := s.applyStream.gapStaging
  let d := s1.time.net
  let s2 := ((s1.setFld F.cdStatusActive s1.standbyDie.code).setFld F.cdStatusStby stNone).setCompare false
  let s3 := ((s2.setFld F.cdStatusGap 1).setFld F.cdStatusArb 0).count F.cdCountsSwitch 1
  let s4 := { s3 with cd := { s3.cd with arb := none, gap := some (d, frameAt (d + 6400)), planned := none, silent := false } }
  let s5 := s4.replayEvents
  ({ s5 with heats := { s5.heats with repair := none } }).abandonDecomposition

/-- A health report taken at an arbitration: bits already set stay, and a die that does not report is SILENT (R323). -/
def State.report (s : State) (d : Die) (w : Option Byte) : State :=
  let bits := match w with
    | some b => b.toNat % 128
    | none => 0x20
  s.setFld (healthFld d) (s.fld (healthFld d) ||| bits)

/-- A die reset: its cores and their memories, and its health word (R323, R326, R330). -/
def State.resetDie (s : State) (d : Die) : State :=
  let s1 := s.setFld (healthFld d) 0
  { s1 with cores := s1.cores.filter (fun p => p.1 / 128 ≠ d.code) }

/-- A standby die after its reset: it boots, or with REJOIN = 0 stays out until it is told to rejoin (R330). -/
def State.resetStandby (s : State) : State :=
  let s1 := s.resetDie s.standbyDie
  if s1.flag F.cdCtrlRejoin then s1.setFld F.cdStatusStby stNone
  else { s1.setFld F.cdStatusStby stOut with cd := { s1.cd with waitRejoin := true } }

/-- A ready standby removed: it stops being ready, and is reset at once (R325, Table 15.3). -/
def State.removeStandby (s : State) (trigger tile : Nat) : State := (s.loseStandby stNone trigger tile).resetStandby

/-- Table 15.3 decided: switch-over, standby removed, unresolved, or shakeout (R324). While the halves disagree no
switch-over is made, and the arbitration waits for their agreement (R314; log 48). A standby no longer ready, beside an active
die that passes, leaves nothing to decide (log 48). -/
def State.decideArb (s : State) (a : Arbitration) (cope drag : Option Byte) : State :=
  let s1 := (s.report .cope cope).report .drag drag
  let activeFails := a.trigger == 2 || s1.flag (healthFld s1.activeDie)
  let standbyFails := s1.flag (healthFld s1.standbyDie)
  let tile := if a.trigger = 1 then a.tile else 0
  let close := fun (s : State) => { s.setFld F.cdStatusArb 0 with cd := { s.cd with arb := none } }
  if activeFails && !standbyFails && s1.standbyReady then
    if s1.cd.disagree then s1
    else
      let s2 := s1.switchOver
      let data := s2.cdData a.trigger tile
      (s2.setReg R.cdLast data).raise 0xE00 2 1 data
  else if activeFails then
    let s2 := close s1
    let data := s2.cdData a.trigger tile
    ((s2.setReg R.cdLast data).latch .fault).raise 0xE00 4 6 data
  else if !s1.standbyReady then close s1
  else if standbyFails then (close s1).removeStandby a.trigger tile
  else
    let s2 := (close s1).count F.cdCountsUnres 1
    let data := s2.cdData a.trigger tile
    (s2.setReg R.cdLast data).raise 0xE00 3 3 data

/-- ARBITRATION_DECISION with the words the two dies report; none for a die that does not report in time. -/
def execArbitrationDecision (copeWord dragWord : Option Byte) (s : State) : Out :=
  .next (match s.cd.arb with
    | some a => s.toSlotEdge.decideArb a copeWord dragWord
    | none => s)

/-- SWITCH_OVER_RESUME: at Fr the gap ends and the former active die is reset (Table 15.4). -/
def execSwitchOverResume (s : State) : Out :=
  .next (match s.cd.gap with
    | some (_, fr) =>
      let s1 := (s.untilNet fr).setFld F.cdStatusGap 0
      ({ s1 with cd := { s1.cd with gap := none } }).resetStandby
    | none => s)

/-- The answer of CD_CMD (Table 15.10). -/
def State.cdAnswer (s : State) (cmd result : Nat) : State :=
  (s.setFld F.cdCmdStatResult result).setFld F.cdCmdStatCmd cmd

/-- CD_CMD SWITCH: BUSY in an arbitration or a switch-over, NOT_READY without a ready standby, else the switch-over waits for
the next seal (R325, R328). -/
def State.cdSwitch (s : State) : State :=
  if s.cdBusy then s.cdAnswer 1 1
  else if !s.standbyReady then s.cdAnswer 1 2
  else
    let s1 := s.cdAnswer 1 0
    { s1 with cd := { s1.cd with planned := some 3 } }

def execCdSwitch (m : Master) (s : State) : Out := .next (s.atReg m R.cdCmd State.cdSwitch)

/-- Whether the instant of a planned switch-over has come: every staging bank has sealed; in KEEP the next edge serves
(R328; log 49). -/
def State.sealedAll (s : State) : Bool :=
  match s.moulds.staged with
  | some st => st.sealedTiles.length == 16
  | none => s.dev == 0

/-- PLANNED_SWITCH: at the seal of the next pour (R328). A request whose standby was lost before lapses (log 49). -/
def execPlannedSwitch (s : State) : Out :=
  .next (match s.cd.planned with
    | some trig =>
      if !s.standbyReady then { s with cd := { s.cd with planned := none } }
      else if s.cdBusy || s.cd.disagree || !s.sealedAll then s
      else
        let s1 := s.toSlotEdge.switchOver
        let data := s1.cdData trig 0
        (s1.setReg R.cdLast data).raise 0xE00 0 2 data
    | none => s)

/-- CD_CMD REMOVE: a ready standby is reset and kept out until REJOIN (R330). -/
def State.cdRemove (s : State) : State :=
  if s.cdBusy then s.cdAnswer 2 1
  else if !s.standbyReady then s.cdAnswer 2 3
  else
    let s1 := ((s.cdAnswer 2 0).loseStandby stOut 3 0).resetDie s.standbyDie
    { s1 with cd := { s1.cd with waitRejoin := true } }

def execCdRemove (m : Master) (s : State) : Out := .next (s.atReg m R.cdCmd State.cdRemove)

/-- CD_CMD REJOIN: a reset die boots; of a ready die it is refused with STATE (R330). -/
def State.cdRejoin (s : State) : State :=
  if s.cdBusy then s.cdAnswer 3 1
  else if s.standbyReady then s.cdAnswer 3 3
  else
    let s1 := s.cdAnswer 3 0
    if s1.fld F.cdStatusStby = stOut then
      { s1.setFld F.cdStatusStby stNone with cd := { s1.cd with waitRejoin := false } }
    else s1

def execCdRejoin (m : Master) (s : State) : Out := .next (s.atReg m R.cdCmd State.cdRejoin)

/-- The initial copy: the memories of the active die's cores and the shared SRAM (Table 15.1). -/
def State.copyDie (s : State) : State :=
  let a := s.activeDie.code
  let b := s.standbyDie.code
  let s1 := (List.range 82).foldl (fun (s : State) n =>
    let src := s.core (n + 128 * a)
    let dst := s.core (n + 128 * b)
    s.setCore (n + 128 * b) { dst with mem := src.mem, code := src.code }) s
  let own := s1.bus.sram.filter (fun p => p.1 / 2 ^ 24 = a)
  let both := own.foldl (fun (m : SMap Byte) p => m.set (fun _ => 0) (p.1 % 2 ^ 24 + b * 2 ^ 24) p.2)
    (s1.bus.sram.filter (fun p => p.1 / 2 ^ 24 ≠ b))
  { s1 with bus := { s1.bus with sram := both } }

/-- STANDBY_READY: the initial copy is complete over a link that is up, with the health word clear and an image of the
same level (R316); records still waiting are in the mirror. -/
def execStandbyReady (s : State) : Out :=
  .next (if s.standbyReady ∨ s.cdBusy ∨ s.cd.waitRejoin ∨ !s.cd.compatOk ∨ s.flag (healthFld s.standbyDie) then s
    else
      let s1 := ((s.copyDie.setFld F.cdStatusLinkUp 1).setFld F.cdStatusStby stReady).setCompare true
      let s2 := { s1 with events := { s1.events with replay := s1.events.buffer } }
      let s3 := s2.endStanding 0xE00
      s3.raise 0xE00 0 5 (s3.cdData 0 0))

/-- ARBITER_DISAGREE (R314). -/
def execArbiterDisagree (s : State) : Out :=
  .next (if s.cd.disagree then s
    else
      let s1 := { s with cd := { s.cd with disagree := true } }
      s1.raise 0xE00 3 7 (s1.cdData 0 0))

/-- ARBITER_AGREE (R314). -/
def execArbiterAgree (s : State) : Out := .next { s with cd := { s.cd with disagree := false } }

/-- A health bit set on a die: a ready standby whose word is not clear is removed, and a die whose word shows BIST,
LOCKSTEP, CLOCK or SUPPLY stays out (R316, R323, R325, R330; log 38). Bit 7 is zero (Table 15.2). -/
def State.setHealth (s : State) (d : Die) (bit : Nat) : State :=
  if 7 ≤ bit then s
  else
    let s1 := s.setFld (healthFld d) (s.fld (healthFld d) ||| 2 ^ bit)
    if d = s1.activeDie then s1
    else if s1.standbyReady then s1.removeStandby 0 0
    else if bit = 0 ∨ bit = 1 ∨ bit = 3 ∨ bit = 4 then s1.setFld F.cdStatusStby stOut
    else s1

def execHealthFault (d : Die) (bit : Fin 8) (s : State) : Out := .next (s.setHealth d bit.val)

/-- LINK_CRC_FAIL: a transfer sent by a die fails its CRC and is resent; more than CRCLIM in 1 ms set LINK in its health
word (0 acting as 1); LINK_CRC is raised at most once per second (R317, R323, R331). -/
def State.linkCrcFail (s : State) (d : Die) : State :=
  let s1 := s.count F.cdCopyStatResent 1
  let recent := s1.time.now :: (s1.cd.crcFails.get (fun _ => []) d.code).filter (fun t => s1.time.now < t + 1000000)
  let s2 := { s1 with cd := { s1.cd with crcFails := s1.cd.crcFails.set (fun _ => []) d.code recent } }
  let lim := clampNat 1 255 (s2.fld F.cdCtrlCrclim)
  let s3 := if lim < recent.length then s2.setHealth d 2 else s2
  let due := match s3.cd.crcEvent with
    | some t => decide (t + second ≤ s3.time.now)
    | none => true
  if due then
    let s4 := { s3 with cd := { s3.cd with crcEvent := some s3.time.now } }
    s4.raise 0xE01 1 8 (s4.cdData 0 0)
  else s3

def execLinkCrcFail (d : Die) (s : State) : Out := .next (s.linkCrcFail d)

/-- STANDBY_COPY_APPLY: at F + 200 ns the standby writes the words streamed before F, F being the first frame boundary after
the oldest of them (R318). -/
def execStandbyCopyApply (s : State) : Out :=
  .next (match s.cd.stream with
    | e :: _ =>
      if s.standbyReady then
        let s1 := s.untilNet ((e.at_ / 6400 + 1) * 6400 + 200)
        s1.applyBefore ((s1.time.net - 200) / 6400 * 6400)
      else s
    | [] => s)

/-- COPE_DRAG_LINK_DOWN (R316). A die that is OUT stays so. -/
def execCopeDragLinkDown (s : State) : Out :=
  .next (
    let s1 := s.setFld F.cdStatusLinkUp 0
    if s1.fld F.cdStatusStby = stOut then s1 else s1.loseStandby stNone 0 0)

end Sys2Proof.Machine
end

