-- ==== Sys2Proof/Machine/Moulds.lean ====
section
/-!
DEFINITION. Mould records, the mould router and its requests, staging, sealing and pours (R24-R28, R33, R47-R63, R68,
R375).
-/
namespace Sys2Proof.Machine

/-! ## Geometry and slot records -/

/-- Core ports, cells, and the unassigned value of a request (R7, R50). -/
abbrev ports : Nat := 592
abbrev cells : Nat := 5152
abbrev unassigned : Nat := 0x3FF

/-- The column of a cell: 296 cells in C0-C3 and C16-C19, 232 in each central column (R7, R26). -/
def columnOf (c : Nat) : Nat :=
  if c < 1184 then c / 296 else if c < 3968 then 4 + (c - 1184) / 232 else 16 + (c - 3968) / 296

/-- The cells and the first cell of a column (Table 02.2). -/
def columnCells (k : Nat) : Nat := if k < 4 ∨ 16 ≤ k then 296 else 232
def columnFirst (k : Nat) : Nat := if k < 4 then 296 * k else if k < 16 then 1184 + 232 * (k - 4) else 3968 + 296 * (k - 16)

/-- Row positions of a column. -/
abbrev rows : Nat := 296

/-- Whether a row position of a column carries a cell: every one of the outer columns, and those with r mod 37 up to 28 of the
central ones, where the others pass straight (Table 02.2). -/
def populated (k r : Nat) : Bool := decide (r < rows) && (decide (k < 4 ∨ 16 ≤ k) || decide (r % 37 ≤ 28))

/-- The cell at a row position of a column, if one stands there (R26). -/
def cellAt (k r : Nat) : Option Nat :=
  if !populated k r then none
  else some (columnFirst k + (if k < 4 ∨ 16 ≤ k then r else 29 * (r / 37) + r % 37))

/-- The row position of a cell: the inverse of the numbering of R26. -/
def rowOf (c : Nat) : Nat :=
  let k := columnOf c
  let d := c - columnFirst k
  if k < 4 ∨ 16 ≤ k then d else 37 * (d / 29) + d % 29

/-- The permutation of the rest ring: the input of each output (R33). -/
def restRing : List Nat :=
  (List.range ports).map (fun o =>
    if o < 512 then (o + 511) % 512 else if o < 580 then o else if o % 2 = 0 then o + 1 else o - 1)

/-- The input each output shows now, if the spec promises one: none while calibration or a survey moves elements (R13); that of
the rest ring from 1 ms after every element went to zero drive, none before (R20, R33, R34); else that of the mould in force. -/
def State.connectivity (s : State) : Option (List Nat) :=
  if s.fabric = 3 then none
  else match s.moulds.zeroSince with
    | none => some s.moulds.perm
    | some t => if t + 1000000 ≤ (s.time.now : Int) then some restRing else none

/-- The fields of a slot record (Table 07.4). -/
def slotMould (r : BitVec 64) : Nat := (r.extractLsb' 0 13).toNat
def slotDur (r : BitVec 64) : Nat := (r.extractLsb' 16 24).toNat
def slotLadle (r : BitVec 64) : Bool := r.getLsbD 40
def slotPchk (r : BitVec 64) : Bool := r.getLsbD 41
def slotEnd (r : BitVec 64) : Bool := r.getLsbD 42

/-- A record of a heat bank; an unwritten one is zero (R159). -/
def bankAt (b : SMap (BitVec 64)) (i : Nat) : BitVec 64 := b.get (fun _ => 0) i

/-- The records of a bank from index i to the first that carries END, none within the fuel giving none (R148). -/
def recordsFrom (b : SMap (BitVec 64)) : Nat → Nat → Option (List (BitVec 64))
  | 0, _ => none
  | n + 1, i =>
    if slotEnd (bankAt b i) then some [bankAt b i]
    else (recordsFrom b n (i + 1)).map (fun rs => bankAt b i :: rs)

/-- The slot records of the heat in a bank (R148). -/
def heatRecords (b : SMap (BitVec 64)) : Option (List (BitVec 64)) := recordsFrom b 4096 0

/-! ## Records -/

/-- The code of a cell in a record's layers (Table 03.2): RETIRED if it was retired when the record was written; the
router's choice otherwise, and KEEP where that equals the base record's state (R49, R54). -/
def layerCode (c : Nat) : List (Option Nat × List Nat) → Nat
  | [] => CellState.cross.code
  | (route, gone) :: base =>
    if gone.contains c then CellState.retired.code
    else
      let own := match route with
        | some r => if Config.routeBar r c then CellState.bar.code else CellState.cross.code
        | none => CellState.cross.code
      match base with
      | [] => own
      | _ :: _ => if own = layerCode c base then CellState.keep.code else own

/-- The state of a cell in a record. -/
def Mould.cell (m : Mould) (c : Nat) : Nat := layerCode c m.layers

/-- A record nobody has written: VALID = 0 (log 7). -/
def Mould.blank : Mould := { partialReq := false, base := none, assigned := 0, perm := [], layers := [], valid := false }

/-- The record of an index. -/
def State.mould (s : State) (i : Nat) : Mould := s.moulds.store.get (fun _ => Mould.blank) i

/-- A record written. -/
def State.setMould (s : State) (i : Nat) (m : Mould) : State :=
  { s with moulds := { s.moulds with store := s.moulds.store.set (fun _ => Mould.blank) i m } }

/-- The moulds named by the heats that put moulds in use: the live bank in RUN, the next bank while VALIDATING or ARMED (R55;
outside RUN none is, R159). -/
def State.heatMoulds (s : State) : List Nat :=
  let live := if s.heats.now.isSome then (heatRecords s.heats.live).getD [] else []
  let st := s.fld F.heatNextStatusState
  let next := if st = heatValidating ∨ st = heatArmed then (heatRecords s.heats.next).getD [] else []
  (live ++ next).map slotMould

/-- The moulds in use by themselves (R55). -/
def State.usedDirectly (s : State) : List Nat :=
  s.heatMoulds ++ (if s.dev = 1 then [s.fld F.glbHoldMouldMould] else [])
    ++ (if s.flag F.mldInForceZero then [] else [s.fld F.mldInForceMould])
    ++ (match s.moulds.staged with
      | some st => [st.mould]
      | none => [])

/-- Whether a mould is in use: by itself, or as the BASE of a record that is (R55). -/
def State.inUse (s : State) (m : Nat) : Bool :=
  s.usedDirectly.any (fun d => d == m || ((s.mould d).valid && (s.mould d).base == some m))

/-! ## Requests -/

/-- Whether swap s exchanges its ports now: armed to replace, or serving with no return armed (R197, R198). -/
def State.exchanging (s : State) (sp : Nat) : Bool :=
  let st := s.fld (F.ladSwapState sp)
  (st == 1 && s.flag (F.ladSwapEn sp)) || st == 2

/-- A core port after the exchanges of the swaps (R197). -/
def State.exchange (s : State) (p : Nat) : Nat :=
  (List.range 4).foldl (fun p sp =>
    let j := 512 + s.fld (F.ladSwapFrom sp)
    if s.exchanging sp then (if p = j then 576 + sp else if p = 576 + sp then j else p) else p) p

/-- A request after the exchanges, as input values and as output positions (R197). -/
def State.exchanged (s : State) (as : List Nat) : List Nat :=
  (List.range ports).map (fun o =>
    let v := as.getD (s.exchange o) unassigned
    if v < ports then s.exchange v else v)

/-- The unassigned outputs filled in ascending order from the free inputs (R52). -/
def fillIn : List Nat → List Nat → List Nat
  | [], _ => []
  | a :: as, free =>
    if a < ports then a :: fillIn as free
    else match free with
      | f :: fs => f :: fillIn as fs
      | [] => a :: fillIn as []

/-- The completion rule (R52): the n-th unassigned input goes to the n-th unassigned output. -/
def complete (as : List Nat) : List Nat := fillIn as ((List.range ports).filter (fun i => !as.contains i))

/-- The assignment of base heat slot k: ports 64k to 64k + 63 with L0 to L63 in both directions (Table 07.8). -/
def baseSlotAssign (k : Nat) : List Nat :=
  (List.range ports).map (fun o =>
    if 512 ≤ o ∧ o < 576 then 64 * k + (o - 512)
    else if o / 64 = k ∧ o < 512 then 512 + o % 64
    else unassigned)

/-- The assignment of a reserved mould (R51). -/
def reservedAssign (i : Nat) : List Nat := if i = 0 then restRing else baseSlotAssign (i - 1)

/-- Whether one value stands twice in a list, unassigned outputs aside. -/
def duplicates : List Nat → Bool
  | [] => false
  | a :: as => (decide (a < ports) && as.contains a) || duplicates as

/-- Whether no column pair holds more than one retired cell: then every permutation is realised (R28). -/
def promised (gone : List Nat) : Bool :=
  (List.range 10).all (fun p => decide ((gone.filter (fun c => columnOf c / 2 = p)).length ≤ 1))

/-- The lowest output whose connection, with those of the outputs below it, no routing around the retired cells realises, if
there is one: the OUTPUT of a NOROUTE entry (R28, R375; log 15). -/
def unroutable (gone perm : List Nat) : Option Nat :=
  if promised gone then none else (List.range ports).find? (fun o => !Config.routableUpTo gone perm o)

/-- Whether the router routes a permutation around the retired cells (R28, R375). -/
def routable (gone perm : List Nat) : Bool := (unroutable gone perm).isNone

/-- The requester code of Table 03.5; the table has none for the engine's own compiles, which are recorded with the code of
the retirement job (log 99). -/
def Requester.code : Requester → Nat
  | .engine | .retirement => 0
  | .schedule _ | .policy => 1
  | .library _ => 2
  | .host => 3

/-- Whether a requester is the engine or its retirement job: the engine alone compiles the reserved moulds (R51, Table
03.4). -/
def Requester.own : Requester → Bool
  | .engine | .retirement => true
  | _ => false

/-- The reasons of Table 03.4. -/
abbrev rejRange : Nat := 1
abbrev rejDup : Nat := 2
abbrev rejReserved : Nat := 3
abbrev rejInUse : Nat := 4
abbrev rejBase : Nat := 5
abbrev rejNoroute : Nat := 6

/-- The reason a request is rejected, the first of Table 03.4 that applies; 0 if none does (R53). -/
def State.rejection (s : State) (r : CompileReq) : Nat :=
  if r.assign.any (fun v => decide (v ≠ unassigned ∧ 591 < v)) ∨ 8191 < r.target then rejRange
  else if duplicates r.assign then rejDup
  else if r.target ≤ 8 ∧ !r.who.own then rejReserved
  else if s.inUse r.target ∧ r.who ≠ .retirement then rejInUse
  else if (match r.base with
    | some b => !(s.mould b).valid
    | none => false) then rejBase
  else if r.target ≠ 0 ∧ !routable s.moulds.retired (complete (s.exchanged r.assign)) then rejNoroute
  else 0

/-- The record a request compiles to; mould 0 is every cell CROSS (R51, R52, R54). -/
def State.compiled (s : State) (r : CompileReq) : Mould :=
  let perm := if r.target = 0 then restRing else complete (s.exchanged r.assign)
  let n := (r.assign.filter (fun v => decide (v < ports))).length
  let own := (if r.target = 0 then none else some s.moulds.nextRoute, s.moulds.retired)
  { partialReq := decide (n < ports), base := r.base, assigned := n, perm := perm,
    layers := own :: (match r.base with
      | some b => (s.mould b).layers
      | none => []),
    valid := true }

/-- An entry appended to the rejection ring, or counted as lost when the ring is full (R53, Tables 03.5, 03.27). -/
def State.rejectEntry (s : State) (target who reason output : Nat) (tag : Word) : State :=
  let wr := s.fld F.mldRejPtrWr
  if (wr + 1) % 4096 = s.fld F.mldRejPtrRd then s.count F.mldRejLostCount 1
  else
    let w0 := word (target + who * 2 ^ 13 + reason * 2 ^ 16 + output * 2 ^ 20)
    let e := (w0, tag, word s.moulds.retired.length)
    let s1 := s.setFld F.mldRejPtrWr ((wr + 1) % 4096)
    { s1 with moulds := { s1.moulds with rejects := s1.moulds.rejects.set (fun _ => (0, 0, 0)) wr e } }

/-- BASE_INVALIDATE: a compile that writes index b clears VALID in every record whose BASE is b (R54). -/
def State.invalidateBased (s : State) (b : Nat) : State :=
  { s with moulds := { s.moulds with
      store := s.moulds.store.mapAll (fun _ => Mould.blank) (fun _ m => if m.base = some b then { m with valid := false } else m) } }

/-- The results of MLD_CMP_STAT (Table 03.25): 1 DONE, 2 REJECTED, and the host's note (source MOULD). -/
def State.hostResult (s : State) (target reason : Nat) : State :=
  let s1 := (((s.setFld F.mldCmpStatBusy 0).setFld F.mldCmpStatResult (if reason = 0 then 1 else 2)).setFld
    F.mldCmpStatReason reason).setFld F.mldCmpStatTarget target
  s1.raise 0x800 0 0 (s1.reg R.mldCmpStat)

/-- A schedule core's accelerator command completes: one fewer outstanding, and the ACCEL wake source (R256, R258). -/
def State.accelDone (s : State) (id : Nat) : State :=
  let c := s.core id
  (s.setCore id { c with outstanding := c.outstanding - 1 }).pend id 4

/-- What a requester learns of a completed compile: the host by MLD_CMP_STAT and its note, a schedule core by its result
word in shared SRAM and the ACCEL source, a job by one entry more done or by cause REJECTED (R256, R270, Tables 03.25, 12.6). -/
def State.tellRequester (s : State) (r : CompileReq) (reason : Nat) : State :=
  match r.who with
  | .host => s.hostResult r.target reason
  | .schedule id =>
    let w := word (0x80000000 + (if reason = 0 then 0 else 0x40000000 + reason * 65536))
    (s.storeWord sramUnit (if id < 128 then .cope else .drag) (r.desc + 12) w).accelDone id
  | .library id => { s with jobs := { s.jobs with
      table := changeJob s.jobs.table id (fun j => if reason = 0 then { j with progress := j.progress + 1 } else { j with cause := 4 }) } }
  | .engine | .retirement | .policy => s

/-- The compile in progress completes: its record and permutation are written, or it is rejected with an entry and the
target stays as it was (R52-R56). The records based on the target lose VALID before the target's own record is written, so that
a request whose base is its own target leaves that record VALID (R54; log 100). -/
def State.finishCompile (s : State) (r : CompileReq) : State :=
  let reason := s.rejection r
  let s1 := { s with moulds := { s.moulds with running := none } }
  if reason = 0 then
    let m := s1.compiled r
    let s2 := (s1.invalidateBased r.target).setMould r.target m
    let s3 := { s2 with moulds := { s2.moulds with nextRoute := s2.moulds.nextRoute + 1 } }
    s3.tellRequester r 0
  else
    let out := if reason = rejNoroute then (unroutable s1.moulds.retired (complete (s1.exchanged r.assign))).getD 0 else 0
    (s1.rejectEntry r.target r.who.code reason out r.tag).tellRequester r reason

/-- The requests of one rank, in arrival order, before those of the next (R56). The engine's own compiles, which R56 does not
rank, rank with those of the retirement job (log 101). -/
def nextRequest (ws : List CompileReq) : Option CompileReq :=
  (ws.filter (fun r => r.who.code = 0) ++ ws.filter (fun r => r.who.code = 1) ++ ws.filter (fun r => r.who.code = 2)
    ++ ws.filter (fun r => r.who.code = 3)).head?

/-- The list without its first element equal to one. -/
def dropFirst (r : CompileReq) : List CompileReq → List CompileReq
  | [] => []
  | w :: ws => if w = r then ws else w :: dropFirst r ws

/-- Whether a retirement job has compiles to make: they come before every other request (R56). -/
def State.retirementWaits (s : State) : Bool :=
  s.jobs.table.any (fun j => j.state == .running && match j.kind with
    | .elemRetire _ _ port => !port
    | _ => false)

/-- The requests that may start: one of the engine's own for a mould in use waits until the mould is not (R197). -/
def State.startable (s : State) : List CompileReq :=
  s.moulds.waiting.filter (fun r => !(decide (r.who = .engine) && s.inUse r.target))

/-- COMPILE_START: the router takes the next request, one at a time, on the core clock (R56, Table 01.5). -/
def execCompileStart (s : State) : Out :=
  .next (if !s.power.fastClocks || s.retirementWaits then s
    else match s.moulds.running, nextRequest s.startable with
      | none, some r => { s with moulds := { s.moulds with running := some r, waiting := dropFirst r s.moulds.waiting } }
      | _, _ => s)

/-- A request joins the router's queue. -/
def State.request (s : State) (r : CompileReq) : State :=
  { s with moulds := { s.moulds with waiting := s.moulds.waiting ++ [r] } }

/-- The engine's own request for a reserved mould (R51). -/
def State.requestReserved (s : State) (i : Nat) : State :=
  s.request { who := .engine, target := i, base := none, assign := reservedAssign i, tag := 0, desc := 0 }

/-- Moulds 0-8 requested at entry to HOLD from KEEP (R51). -/
def State.requestAllReserved (s : State) : State := (List.range 9).foldl State.requestReserved s

/-- A word of the host request area or the firmware working area, by its byte offset in the store (Table 03.3). -/
def State.areaWord (s : State) (off : Nat) : Word := s.moulds.area.get (fun _ => 0) off

/-- The ten-bit values of a request packed in words from a reader of word i (R50). -/
def unpackRequest (w : Nat → Word) : List Nat :=
  (List.range ports).map (fun o =>
    let b := 10 * o
    ((w (b / 32)).toNat + 2 ^ 32 * (w (b / 32 + 1)).toNat) / 2 ^ (b % 32) % 1024)

/-- A write of MLD_CMP_REQ: with GO a compile is queued, or dropped with OVERRUN while one is queued or compiling (Table
03.25). The request is taken from its slot, which the host must not change meanwhile. -/
def State.cmpReq (s : State) (v : Word) : State :=
  if !bitOf v 31 then s
  else if s.flag F.mldCmpStatBusy then s.setFld F.mldCmpStatOverrun 1
  else
    let slot := 0x1040000 + 1024 * bitsOf v 18 13
    let s1 := (s.setFld F.mldCmpStatBusy 1).setFld F.mldCmpStatOverrun 0
    s1.request { who := .host, target := bitsOf v 12 0, base := if bitOf v 19 then some (s.fld F.mldCmpBaseBase) else none,
                 assign := unpackRequest (fun i => s.areaWord (slot + 4 * i)), tag := word (s.fld F.mldCmpBaseTag), desc := 0 }

def execMldCmpReq (m : Master) (v : Word) (s : State) : Out := .next (s.atReg m R.mldCmpReq (fun s => s.cmpReq v))

/-- RESERVED_MOULD_RECOMPILE: the recompile of a mould owed since a swap was armed, once the mould is not in use (R197). -/
def execReservedMouldRecompile (mould : Fin 9) (s : State) : Out :=
  .next (if s.moulds.owed.contains mould.val && !s.inUse mould.val then
      ({ s with moulds := { s.moulds with owed := s.moulds.owed.filter (· ≠ mould.val) } }).requestReserved mould.val
    else s)

/-- Moulds 1-8 recompiled after an exchange changes: at once where a mould is not in use, otherwise owed (R197). -/
def State.recompileReserved (s : State) : State :=
  [1, 2, 3, 4, 5, 6, 7, 8].foldl (fun (s : State) i =>
    if s.inUse i then { s with moulds := { s.moulds with owed := i :: s.moulds.owed.filter (· ≠ i) } } else s.requestReserved i) s

/-! ## Calibrated values in force (Table 06.2) -/

/-- The codes of the quantities. -/
abbrev qTref : Nat := 1
abbrev qOfs : Nat := 2
abbrev qGain : Nat := 3
abbrev qResp : Nat := 4
abbrev qCode : Nat := 5
abbrev qHeff : Nat := 6
abbrev qDither : Nat := 7
abbrev qKxt : Nat := 8
abbrev qLoss : Nat := 9

/-- A core port as an object of LOSS; a cell is its own number. -/
abbrev lossPort : Nat := 10000

/-- The key of an object of a quantity. -/
def calKey (q o : Nat) : Nat := 100000 * q + o

/-- The factory's value by key (R136; log 12). -/
def factoryAt (k : Nat) : Int := Config.factoryValue (k / 100000) (k % 100000)

/-- The value in force: the factory's until a result is (R136; log 12). -/
def State.calValue (s : State) (q o : Nat) : Int := s.cal.values.get factoryAt (calKey q o)

/-! ## Staging -/

/-- The calibrated codes of an element: the factory's until a result is in force (R136; log 12). -/
def State.codes (s : State) (e : Nat) : Codes :=
  s.cal.codes.get (fun e => { cross6 := Config.factoryCode e 0, bar6 := Config.factoryCode e 1,
                              cross12 := Config.factoryCode e 2, bar12 := Config.factoryCode e 3 }) e

/-- The code an element loads for a cell state on a span: its calibrated bar or cross code, or 0 when retired (R48). -/
def Codes.forCell (c : Codes) (cell : Nat) (span12 : Bool) : Int :=
  if cell = CellState.bar.code then (if span12 then c.bar12 else c.bar6)
  else if cell = CellState.cross.code then (if span12 then c.cross12 else c.cross6)
  else 0

/-- What a live code stands for: 1 cross, 2 bar, 3 retired (R83). -/
def shownFor (cell : Nat) : Nat := if cell = CellState.bar.code then 2 else if cell = CellState.cross.code then 1 else 3

/-- The staging bank of tile t for a record: a code for each element of a BAR, CROSS or RETIRED cell, the keep mark for
each of a KEEP cell (R57). -/
def State.bankFor (s : State) (t : Nat) (m : Mould) : SMap (Option (Int × Nat)) :=
  (List.range 644).map (fun j =>
    let e := 644 * t + j
    let cell := m.cell (e / 2)
    (j, if cell = CellState.keep.code then none
        else some ((s.codes e).forCell cell ((s.tile t).span12.get (fun _ => false) j), shownFor cell)))

/-- The mould to be poured next and the network time of its pour: a requested pour in HOLD (R68), the first slot of an
armed heat or of the base heat at its activation instant, else the next slot of the live heat (R57, R155). -/
def State.nextPour (s : State) : Option (Nat × Nat) :=
  match s.moulds.holdPour with
  | some m => some (m, ceilDiv (s.time.net + 200) 5 * 5)
  | none =>
    match s.heats.waitingRun with
    | some h => some (slotMould (bankAt s.heats.live 0), h.a)
    | none =>
      match s.heats.now with
      | none => none
      | some _ =>
        match s.heats.armed with
        | some h => if h.a = s.heats.boundary then some (slotMould (bankAt s.heats.next 0), h.a)
                    else some (slotMould (bankAt s.heats.live s.heats.slot), s.heats.boundary)
        | none => some (slotMould (bankAt s.heats.live s.heats.slot), s.heats.boundary)

/-- Whether the next boundary is the one at which the engine leaves RUN: the drain has ended, it is a cycle boundary of the live
heat, and no armed heat activates at it (Table 01.9, R157). -/
def State.leavesRun (s : State) : Bool :=
  s.power.drained && s.heats.now.isSome && s.heats.slot == 0 && s.heats.armed.isNone

/-- The staging lead, in ns, held between 200 and 1,000 (Table 03.11). -/
def State.stageLead (s : State) : Nat := 5 * clampNat 40 200 (s.fld F.mldStageLeadLead)

/-- Staging of a mould for a pour: every tile's bank is written; a record that is not VALID, or is BASED on a mould not in
force, does not seal, and a staging start in a switch-over gap stages nothing (R57, R58, R326). `toHold` marks the pour by
which RUN is left. -/
def State.stage (s : State) (mould pourAt : Nat) (toHold : Bool) : State :=
  let m := s.mould mould
  let based := match m.base with
    | some b => b != s.fld F.mldInForceMould || s.flag F.mldInForceZero
    | none => false
  let bad := !m.valid || based
  let gap := s.cd.gap.isSome
  let st : Staged := { mould := mould, pourAt := pourAt, inputs := m.perm, invalid := bad, gap := gap, sealedTiles := [],
                       startedAt := s.time.net, toHold := toHold, sample := none }
  let s1 := (List.range 16).foldl (fun (s : State) t => (s.setFld (F.tileStatusSealed t) 0).setFld (F.tileStatusSealAll t) 0) s
  let s2 := if bad || gap then s1
    else (List.range 16).foldl (fun (s : State) t => s.setTile t { s.tile t with staging := s.bankFor t m }) s1
  { s2 with moulds := { s2.moulds with staged := some st } }

/-- Whether a compile of a mould for the engine itself waits or runs: a hold pour of it begins after it (R51, R68). -/
def State.beingMade (s : State) (m : Nat) : Bool :=
  (s.moulds.waiting ++ s.moulds.running.toList).any (fun r => r.who.own && r.target == m)

/-- TILE_SEAL: a tile whose bank holds the mould seals it; with all sixteen sealed SEAL_ALL is high. A bank sealed after the
sample at T - 5 ns comes too late for the pour (R57, R59). -/
def State.seal (s : State) (t : Nat) : State :=
  match s.moulds.staged with
  | none => s
  | some st =>
    if st.invalid || st.gap || st.sealedTiles.contains t || st.sample.isSome then s
    else
      let st1 := { st with sealedTiles := t :: st.sealedTiles }
      let s1 := s.setFld (F.tileStatusSealed t) 1
      let s2 := if st1.sealedTiles.length = 16 then (List.range 16).foldl (fun (s : State) u => s.setFld (F.tileStatusSealAll u) 1) s1 else s1
      { s2 with moulds := { s2.moulds with staged := some st1 } }

def execTileSeal (t : Fin 16) (s : State) : Out := .next (s.seal t.val)

/-- A list of network times with one more, less what lies more than 20 us before it. -/
def recent (ts : List Nat) (t : Nat) : List Nat := t :: ts.filter (fun u => decide (t < u + 20000))

/-- DITHER_GATE_OFF: at T - 80 ns of a pour whose staging has begun by then; no other time gates it (R62). -/
def execDitherGateOff (s : State) : Out :=
  .next (match s.moulds.staged with
    | some st =>
      if st.pourAt < st.startedAt + 80 || s.moulds.ditherOff then s
      else
        let s1 := s.untilNet (st.pourAt - 80)
        { s1 with moulds := { s1.moulds with ditherOff := true, gates := recent s1.moulds.gates st.pourAt } }
    | none => s)

/-- DITHER_RESUME: at T + 320 ns of the pour that gated it (R62). -/
def execDitherResume (s : State) : Out :=
  .next (if s.moulds.ditherOff then
      let s1 := s.untilNet (s.moulds.gates.headD 0 + 320)
      { s1 with moulds := { s1.moulds with ditherOff := false } }
    else s)

/-! ## The pour -/

/-- The limits of an EO output code (R64). -/
def satEO (v : Int) : Int := clampInt (-2048) 2047 v

/-- The trim or heater code in force; channel keys: EO DAC j is j, heater h is 1000 + h. -/
def Tile.inForce (x : Tile) (ch : Nat) : Int := x.act.get (fun _ => 0) ch

/-- The target of an output: live code plus trim, saturated; the heater's code; zero while a span change waits (R64,
R65). -/
def Tile.target (x : Tile) (ch : Nat) : Int :=
  if ch < 1000 then
    (if (x.span.find? ch).isSome then 0 else satEO (x.live.get (fun _ => 0) ch + x.inForce ch))
  else x.inForce ch

/-- The output of a channel: its target, unless a slew limiter holds it behind (R66). -/
def Tile.output (x : Tile) (ch : Nat) : Int := x.lag.get (fun c => x.target c) ch

/-- A change of a tile's targets seen by the limiters: outputs follow at once with the limiter off, and stay where they
were with it on (R66). -/
def Tile.follow (old new : Tile) (limited : Bool) (chs : List Nat) : Tile :=
  if limited then
    { new with lag := chs.foldl (fun l ch => if old.output ch = new.target ch then SMap.erase l ch else SMap.put l ch (old.output ch)) new.lag }
  else { new with lag := chs.foldl (fun l ch => SMap.erase l ch) new.lag }

/-- Whether the EO or heater limiter of a tile is on (R66). -/
def State.limited (s : State) (t : Nat) (heater : Bool) : Bool :=
  if heater then s.fld (F.tileHtrSlewStep t) != 0 else s.fld (F.tileEoSlewStep t) != 0

/-- The staged codes loaded into a tile's live bank; elements with the keep mark keep theirs (R59). -/
def State.pourTile (s : State) (t : Nat) : State :=
  let x := s.tile t
  let loads := x.staging.filterMap (fun p => p.2.map (fun c => (p.1, c)))
  let y := { x with
    live := loads.foldl (fun l p => l.set (fun _ => 0) p.1 p.2.1) x.live
    shown := loads.foldl (fun l p => l.set (fun _ => 0) p.1 p.2.2) x.shown
    staging := [] }
  s.setTile t (Tile.follow x y (s.limited t false) (loads.map (·.1)))

/-- The banks discarded and the seals released after a boundary. -/
def State.unstage (s : State) : State :=
  let s1 := (List.range 16).foldl (fun (s : State) t =>
    let s1 := (s.setFld (F.tileStatusSealed t) 0).setFld (F.tileStatusSealAll t) 0
    if (s1.tile t).staging.isEmpty then s1 else s1.setTile t { s1.tile t with staging := [] }) s
  { s1 with moulds := { s1.moulds with staged := none, holdPour := none } }

/-- The tiles not sealed, bit t for tile t (Table 03.19). -/
def unsealedMask (st : Staged) : Nat :=
  ((List.range 16).filter (fun t => !st.sealedTiles.contains t)).foldl (fun a t => a + 2 ^ t) 0

/-- The codes of Table 03.6. -/
abbrev hLate : Nat := 0
abbrev hInvalid : Nat := 1
abbrev hGap : Nat := 2
abbrev hFault : Nat := 3

/-- Why a staged pour is held, FAULT before the others (Table 03.6; log 53); none when it is made: SEAL_ALL was high and no
fault held it when it was sampled at T - 5 ns (R59, R336). -/
def heldCause (st : Staged) : Option Nat :=
  match st.sample with
  | some fault =>
    if fault then some hFault
    else if st.sealedTiles.length = 16 then none
    else if st.invalid then some hInvalid
    else if st.gap then some hGap
    else some hLate
  | none => if st.invalid then some hInvalid else if st.gap then some hGap else some hLate

/-- The slot that begins at a boundary: HEAT_LIVE shows it, and the next boundary is its end (R148, R149). In RUN a held
pour's slot runs its full duration too (R59). -/
def State.beginSlot (s : State) (held : Bool) : State :=
  match s.heats.now with
  | none => s
  | some h =>
    let r := bankAt s.heats.live s.heats.slot
    let s1 := (s.setFld F.heatLiveMould (slotMould r)).setFld F.heatLiveTag (4096 * (h.serial.toNat % 16) + s.heats.slot)
    let next := if h.n ≤ s.heats.slot + 1 then 0 else s.heats.slot + 1
    { s1 with heats := { s1.heats with
        cur := some s.heats.slot, slot := next, boundary := s.heats.boundary + 5 * slotDur r, slotHeld := held } }

/-- A pour made: every tile loads its bank, and the mould becomes the mould in force (R59). -/
def State.pourMade (s : State) (st : Staged) : State :=
  let s1 := (List.range 16).foldl State.pourTile s
  let s2 := (s1.setFld F.mldInForceMould st.mould).setFld F.mldInForceHeld 0
  let s3 := s2.setReg R.mldPourCount (s2.reg R.mldPourCount + 1)
  let s4 := { s3 with moulds := { s3.moulds with
    perm := st.inputs, zeroSince := none, pours := recent s3.moulds.pours st.pourAt, chips := s3.moulds.chips + 1 } }
  s4.unstage.beginSlot false

/-- A pour held: the banks are discarded, the fabric keeps the mould in force, the held pour is counted and recorded, and a
C2 fault POUR_HELD is raised (R59); in RUN the ladle ports send fill in the slot, which is counted (R220). -/
def State.pourHeld (s : State) (st : Staged) (cause : Nat) : State :=
  let w := word (unsealedMask st * 65536 + cause * 16384 + st.mould)
  let s1 := (((s.setFld F.mldInForceHeld 1).count F.mldPourHeldCount 1).setReg R.mldHeldLast w).unstage
  let s2 := if s1.heats.now.isSome then (s1.count (F.lsvCntCount 7) 1).beginSlot true else s1
  let s3 := { s2 with moulds := { s2.moulds with helds := recent s2.moulds.helds st.pourAt } }
  s3.raise 0x801 2 0 w

/-- A slot boundary for which nothing was staged: held, with every tile unsealed (R59). -/
def lateStaged (mould pourAt : Nat) : Staged :=
  { mould := mould, pourAt := pourAt, inputs := [], invalid := false, gap := false, sealedTiles := [], startedAt := pourAt, toHold := false,
    sample := none }

/-- The pour staged, or due with nothing staged at a boundary of the live heat. -/
def State.duePour (s : State) : Option Staged :=
  match s.moulds.staged with
  | some st => some st
  | none =>
    if s.heats.now.isSome && !s.leavesRun then s.nextPour.map (fun p => lateStaged p.1 p.2) else none

/-- A pour whose instant has come, by the sample of SEAL_ALL 5 ns before it: made or held (R59). -/
def State.duePoured (s : State) (st : Staged) : State :=
  let st1 := s.moulds.staged.getD st
  match heldCause st1 with
  | some c => s.pourHeld st1 c
  | none => s.pourMade st1

/-- A request for HOLD made in HOLD ends with its pour (Table 01.9). -/
def State.endRepour (s : State) : State :=
  if s.dev = 1 ∧ s.trans ∧ s.fld F.glbStateTarget = 1 then (s.setFld F.glbStateTrans 0).setFld F.glbStateTarget 0 else s

end Sys2Proof.Machine
end

