-- ==== Sys2Proof/Machine/Tiles.lean ====
section
/-!
DEFINITION. Drive tiles: spans and slew limiters (R65, R66), ADC rounds, urgent samples and spares (R69-R81), sample frames
(R82, R83), VHTR (R85), actuator writes (R86, R87) and output comparators (R88).
-/
namespace Sys2Proof.Machine

/-- Monitors, EO DACs and heater drivers of a tile (Table 04.1). -/
abbrev monitors : Nat := 718
abbrev eoDacs : Nat := 644
abbrev heaters : Nat := 681

/-! ## Heater drivers and dither (R72, R84) -/

/-- The first start of a 160 ns PWM period after an instant of network time (R84; log 108). -/
def nextPwm (net : Nat) : Nat :=
  let p := Config.pwmPhase % 160
  (net + 160 - p) / 160 * 160 + p

/-- The code a heater driver works to at an instant of network time: a new one takes effect at a period start (R84). -/
def Tile.driven (x : Tile) (h net : Nat) : Int :=
  match x.heatFrom.find? h with
  | some (old, at_) => if net < at_ then old else x.output (1000 + h)
  | none => x.output (1000 + h)

/-- A tile whose heater outputs have changed from those of another at an instant: the drivers take them up at their next
period start (R84). -/
def Tile.heated (old new : Tile) (net : Nat) (chs : List Nat) : Tile :=
  { new with
      heatFrom := chs.foldl (fun m ch =>
        if 1000 ≤ ch ∧ old.output ch ≠ new.output ch then m.put (ch - 1000) (old.driven (ch - 1000) net, nextPwm net) else m)
        new.heatFrom }

/-- The width of pulse n of a heater driver at code h, in 1/1,024 of a period: the ten high bits, and one step more in as many
of every 64 periods as the six low bits say (R84; log 108). -/
def pulseWidth (h n : Nat) : Nat := h / 64 + b2n (decide ((2 * Config.pwmStride + 1) * n % 64 < h % 64))

/-- Heater power in nW at a code, of a heater of r ohm, at VHTR in mV: h / 65,536 x VHTR^2 / R (R84). -/
def heaterPower (h mv r : Nat) : Nat := h * (mv * mv) * 1000 / (65536 * r)

/-- The instant in its 400 ns period that the dither stands at: periods start at multiples of 400 ns of network time (R72). -/
def State.ditherPhase (s : State) : Nat := s.time.net % 400

/-- Whether the dither is on an element's drive: out of KEEP, not under zero-hold, within gating or on a RETIRED cell (R72). -/
def State.dithered (s : State) (e : Nat) : Bool :=
  s.power.fastClocks && !s.flag (F.tileStatusZero (e / 644)) && !s.moulds.ditherOff
    && (s.tile (e / 644)).shown.get (fun _ => 0) (e % 644) != 3

/-- Whether the keeper's zero-hold is asserted in a tile (Table 04.7). -/
def State.zeroHeld (s : State) (t : Nat) : Bool := s.flag (F.tileStatusZero t)

/-- The first instant of network time, not before now and not an earlier one's own, that lies `phase` after a multiple of the
6.4 us period: a step of network time has left an earlier instant that lies ahead behind (R144). -/
def State.nextPeriod (s : State) (after phase : Nat) : Nat :=
  let least := if s.time.net = after then after + 1 else s.time.net
  ceilDiv (least - phase) 6400 * 6400 + phase

/-- The first frame boundary after an instant of network time, whether it has passed or not (R9). -/
def boundaryAfter (after : Nat) : Nat := (after / 6400 + 1) * 6400

/-! ## Span changes and slew limiters -/

/-- A hold cause of an inner loop set or cleared: 1 span change, 2 shakeout, 4 calibration, 8 the host's (R107). -/
def State.setHold (s : State) (loop cause : Nat) (on : Bool) : State :=
  let change := fun h => if on then h ||| cause else h - (h &&& cause)
  { s with loops := { s.loops with holds := s.loops.holds.modify (fun _ => 0) loop change } }

/-- The cell state that an element's live code stands for, as a code of Table 03.2 (R83). -/
def cellShown (n : Nat) : Nat :=
  if n = 2 then CellState.bar.code else if n = 1 then CellState.cross.code else CellState.retired.code

/-- A span change of EO DAC j of tile t begun: the output goes to 0 past the limiter and the loop is HELD (R65). -/
def State.beginSpan (s : State) (t j : Nat) (to12 : Bool) : State :=
  let x := s.tile t
  let y := { x with span := x.span.put j { to12 := to12, ends := s.time.now + 2000, again := false }, lag := x.lag.erase j }
  (s.setTile t y).setHold (644 * t + j) 1 true

/-- The span of EO DAC j switched and its live code loaded in the new span (R65). -/
def State.loadSpan (s : State) (t j : Nat) (to12 : Bool) : State :=
  let x := s.tile t
  let n := x.shown.get (fun _ => 0) j
  let v := if n = 0 then 0 else (s.codes (644 * t + j)).forCell (cellShown n) to12
  let y := { x with span := x.span.erase j, span12 := x.span12.set (fun _ => false) j to12, live := x.live.set (fun _ => 0) j v }
  s.setTile t (Tile.follow x y (s.limited t false) [j])

/-- The bit of an EO DAC in TILE_EO_SPAN. -/
def State.spanBit (s : State) (t j : Nat) : Bool := bitOf (s.reg (R.tileEoSpan t (j / 32))) (j % 32)

/-- One EO DAC after a write of its span bit: at once under zero-hold; a sequence that runs takes the bit when it ends;
otherwise a sequence begins where the bit changes (R65). -/
def State.spanWrite (s : State) (t j : Nat) : State :=
  let x := s.tile t
  let want := s.spanBit t j
  match x.span.find? j with
  | some q => s.setTile t { x with span := x.span.put j { q with again := true } }
  | none =>
    if want = x.span12.get (fun _ => false) j then s
    else if s.zeroHeld t then s.loadSpan t j want
    else s.beginSpan t j want

/-- A write of TILE_EO_SPANn; the last word has four bits (R65, R69). -/
def State.spanWord (s : State) (t n : Nat) (v : Word) : State :=
  let s1 := (s.setReg (R.tileEoSpan t n) (if n = 20 then v &&& 0xF#32 else v)).markDirty (R.tileEoSpan t n)
  let old := s.reg (R.tileEoSpan t n)
  ((List.range 32).filter (fun b => decide (32 * n + b < eoDacs) &&
      (bitOf old b != bitOf v b || ((s.tile t).span.find? (32 * n + b)).isSome))).foldl
    (fun s b => s.spanWrite t (32 * n + b)) s1

def execSpanChangeStart (m : Master) (t : Fin 16) (n : Fin 21) (v : Word) (s : State) : Out :=
  .next (s.atReg m (R.tileEoSpan t.val n.val) (fun s => s.spanWord t.val n.val v))

/-- SPAN_CHANGE_END: after 2 us; a bit written again meanwhile starts the next sequence (R65). -/
def State.spanEnd (s : State) (t j : Nat) : State :=
  match (s.tile t).span.find? j with
  | none => s
  | some q =>
    let s1 := ((s.untilNow q.ends).loadSpan t j q.to12).setHold (644 * t + j) 1 false
    if q.again && s1.spanBit t j != q.to12 then s1.beginSpan t j (s1.spanBit t j) else s1


/-- A value moved towards a target by at most a step (R66). -/
def towards (step : Nat) (v goal : Int) : Int := v + clampInt (-(step : Int)) step (goal - v)

/-- One channel moved by its limiter. -/
def Tile.slew (x : Tile) (step : Nat) (ch : Nat) : Tile :=
  let v := towards step (x.output ch) (x.target ch)
  { x with lag := if v = x.target ch then x.lag.erase ch else x.lag.put ch v }

/-- SLEW_STEP: INTERVAL slot clock periods after its latest step, a limiter that is on moves each lagging output of its
kind; one that has been switched off lets them follow at once (R66). In a switch-over gap every output
holds its last value (R6, R326). -/
def State.slewStep (s : State) (t : Nat) (heater : Bool) : State :=
  if s.cd.gap.isSome then s
  else
    let step := if heater then s.fld (F.tileHtrSlewStep t) else s.fld (F.tileEoSlewStep t)
    let interval := max 1 (if heater then s.fld (F.tileHtrSlewInterval t) else s.fld (F.tileEoSlewInterval t))
    let k := b2n heater
    let s1 := if step = 0 then s else s.untilNow (((s.tile t).slewAt.get (fun _ => 0) k) + 5 * interval)
    let x := s1.tile t
    let chs := (x.lag.map (·.1)).filter (fun ch => decide (1000 ≤ ch) == heater)
    let y := if step = 0 then { x with lag := x.lag.filter (fun p => !(decide (1000 ≤ p.1) == heater)) }
      else chs.foldl (fun x ch => x.slew step ch) x
    s1.setTile t { x.heated y s1.time.net chs with slewAt := y.slewAt.set (fun _ => 0) k s1.time.now }

def execSlewStep (t : Fin 16) (heater : Bool) (s : State) : Out := .next (s.slewStep t.val heater)

/-! ## ADC channels -/

/-- A channel that has converted nothing: correction 1.0 and 0 (Table 04.25). -/
def Channel.idle : Channel := { pos := 0, slots := 0, settle := 0, urgent := [], cor := 0x40000000, src := none }

/-- A channel of a tile. -/
def Tile.chan (x : Tile) (a : Nat) : Channel := x.chans.get (fun _ => Channel.idle) a
def Tile.setChan (x : Tile) (a : Nat) (c : Channel) : Tile := { x with chans := x.chans.set (fun _ => Channel.idle) a c }

/-- TILE_SPARE.STATE codes (Table 04.17). -/
abbrev spIdle : Nat := 0
abbrev spShadow : Nat := 1
abbrev spServing : Nat := 2
abbrev spReturning : Nat := 3

/-- The spare that has taken over channel a, if one is not IDLE. -/
def State.spareOf (s : State) (t a : Nat) : Option Nat :=
  [0, 1, 2].find? (fun p => s.fld (F.tileSpareState t p) != spIdle && s.fld (F.tileSpareSrc t p) == a)

/-- The state of the spare on a channel, IDLE without one. -/
def State.spareStateOf (s : State) (t a : Nat) : Nat :=
  match s.spareOf t a with
  | some p => s.fld (F.tileSpareState t p)
  | none => spIdle

/-- The channel whose monitors channel a converts from a round start on: its own unless a spare serves it; a spare's
source unless it is IDLE (R70, R79). -/
def State.sourceOf (s : State) (t a : Nat) : Option Nat :=
  if a < 45 then (if s.spareStateOf t a = spServing then none else some a)
  else if s.fld (F.tileSpareState t (a - 45)) = spIdle then none else some (s.fld (F.tileSpareSrc t (a - 45)))

/-- Whether frames take the results channel a converts for channel src (R79). -/
def State.framed (s : State) (t a src : Nat) : Bool :=
  let st := s.spareStateOf t src
  if a < 45 then st == spIdle || st == spShadow else st == spServing || st == spReturning

/-- The channel that converts a monitor for frames and urgent samples now (R77). -/
def State.channelFor (s : State) (t mon : Nat) : Nat :=
  let a := mon / 16
  match s.spareOf t a with
  | some p => if s.framed t (45 + p) a then 45 + p else a
  | none => a

/-- A spare's takeover or return begun: the network time that its next step counts from. -/
def State.setSpareAt (s : State) (t sp : Nat) (at_ : Option Nat) : State :=
  let x := s.tile t
  s.setTile t { x with spareAt := match at_ with
    | some n => x.spareAt.put sp n
    | none => x.spareAt.erase sp }

/-- A sequence of spare sp that completes: SHADOW becomes SERVING, RETURNING becomes IDLE (R79). -/
def State.spareDone (s : State) (t sp : Nat) : State :=
  let st := s.fld (F.tileSpareState t sp)
  if st = spShadow then (s.setFld (F.tileSpareState t sp) spServing).setSpareAt t sp none
  else if st = spReturning then (s.setFld (F.tileSpareState t sp) spIdle).setSpareAt t sp none
  else s

/-- The sequences in progress in every tile completed at once: the fast clocks stop (R79). -/
def State.spareStop (s : State) : State :=
  (List.range 16).foldl (fun (s : State) t => [0, 1, 2].foldl (fun (s : State) sp => s.spareDone t sp) s) s

/-- The state a sequence written to TILE_SPAREs enters at the next round start: SHADOW for a takeover, RETURNING for a return; none
where EN asks for what stands (R79). -/
def State.spareNext (s : State) (t sp : Nat) : Option Nat :=
  let st := s.fld (F.tileSpareState t sp)
  if s.flag (F.tileSpareEn t sp) && st == spIdle then some spShadow
  else if !s.flag (F.tileSpareEn t sp) && st == spServing then some spReturning
  else none

/-- Spare sp at a round start of network time f: after one complete round of shadowing the switch; at the first round start
after a write the shadowing begins (R79). -/
def State.spareRound (s : State) (t sp f : Nat) : State :=
  match (s.tile t).spareAt.find? sp with
  | none => s
  | some w =>
    match s.spareNext t sp with
    | some st => if w < f then (s.setFld (F.tileSpareState t sp) st).setSpareAt t sp (some f) else s
    | none => if w + 3200 ≤ f then s.spareDone t sp else s

/-- A round that starts now: the spares switch, and every channel starts at position 0 with the correction and the source that stand
then (R74, R75, R79). -/
def State.roundStart (s : State) (t : Nat) (roundD : Bool) : State :=
  let s1 := [0, 1, 2].foldl (fun (u : State) sp => u.spareRound t sp s.time.net) s
  let x := (List.range 48).foldl (fun (x : Tile) a =>
    x.setChan a { x.chan a with pos := 0, slots := 0, cor := s1.reg (R.tileAdcCor t a), src := s1.sourceOf t a }) (s1.tile t)
  s1.setTile t { x with round := s1.time.net, roundD := roundD }

/-- A raw conversion corrected (R75). -/
def correctSample (cor : Word) (raw : BitVec 14) : Int :=
  clampInt (-32768) 32767 (roundDiv ((4 * raw.toInt - (cor.extractLsb' 0 16).toInt) * (bitsOf cor 31 16 : Int)) 16384)

/-- The bits of the sample word (Table 04.3). -/
abbrev bUrg : Nat := 2 ^ 21
abbrev bSpare : Nat := 2 ^ 20
abbrev bStale : Nat := 2 ^ 19
abbrev bDoff : Nat := 2 ^ 18
abbrev bSettle : Nat := 2 ^ 17
abbrev bOvr : Nat := 2 ^ 16

/-- Whether an error sample of a monitor at an instant meets dither gating: an element tap by its 1.6 us window; an input
or output monitor by its frame window, the one that ended at the start of the window it is converted in (R62, R73,
Table 04.3; log 56). -/
def State.gated (s : State) (mon at_ : Nat) : Bool :=
  s.moulds.gates.any (fun g =>
    if mon < 644 then decide (g < at_ + 80 ∧ at_ < g + 1920)
    else
      let w := at_ / 6400 * 6400
      decide (g < w + 80 ∧ w < g + 400 + 6400))

/-- The sample word and the SETTLE count after a conversion by channel a; `mon` is none for the zero reference (R75, R76,
R81). -/
def State.sampleWord (s : State) (t a : Nat) (mon : Nat) (dc urg : Bool) (at_ : Nat) (raw : BitVec 14) (range : Int) : Word :=
  let c := (s.tile t).chan a
  let v : Int := if 0 < range then 32767 else if range < 0 then -32768 else correctSample c.cor raw
  word (b2n urg * bUrg + b2n (decide (45 ≤ a)) * bSpare + b2n (!dc && s.gated mon at_) * bDoff + b2n (c.settle != 0) * bSettle
    + b2n (range != 0) * bOvr + unsigned 16 v)

/-- The SETTLE count after a conversion (R76). -/
def settleNext (settle : Nat) (range : Int) : Nat := if range ≠ 0 then 2 else settle - 1

/-- The zero reference converted by channel a (R74). -/
def State.zeroReference (s : State) (t a : Nat) (raw : BitVec 14) : State :=
  (s.setFld (F.tileAdcZeroCount t a) (s.fld (F.tileAdcZeroCount t a) + 1)).setFld (F.tileAdcZeroRaw t a) raw.toNat

/-- A conversion that over-ranges is counted (Table 04.23). -/
def State.countOvr (s : State) (t : Nat) (range : Int) : State := if range = 0 then s else s.count (F.tileErrCountsOvr t) 1

/-- Network time at which a slot of the running round begins. -/
def Tile.slotTime (x : Tile) (slot : Nat) : Nat := x.round + 200 * slot

/-- Whether the next slot of the round belongs to a channel's oldest urgent request: it has reached the tile by the slot's start
(R77). -/
def Tile.urgentDue (x : Tile) (c : Channel) : Bool :=
  match c.urgent with
  | [] => false
  | u :: _ => decide (u.arrived ≤ x.slotTime c.slots)

/-- ADC_CONVERSION: the round position of a channel converted in the next slot of the round, unless an urgent request takes that
slot (R74-R77). A round has 16 slots; what does not fit is not converted (R77). -/
def State.convert (s : State) (t a : Nat) (raw : BitVec 14) (range : Int) : State :=
  let x := s.tile t
  let c := x.chan a
  if !s.power.fastClocks ∨ 16 ≤ c.slots ∨ 16 ≤ c.pos ∨ x.urgentDue c then s
  else
    let at_ := x.slotTime c.slots
    let next := { c with pos := c.pos + 1, slots := c.slots + 1, settle := settleNext c.settle range }
    let s1 := (s.untilNet (at_ + 200)).countOvr t range
    let idle := match c.src with
      | none => true
      | some b => decide (monitors ≤ 16 * b + c.pos)
    if idle then (s1.zeroReference t a raw).setTile t (x.setChan a next)
    else
      let b := c.src.getD a
      let mon := 16 * b + c.pos
      let y := x.setChan a next
      let key := 2 * mon + b2n x.roundD
      if s.framed t a b then
        s1.setTile t { y with samples := y.samples.put key (s.sampleWord t a mon x.roundD false at_ raw range)
                              fresh := key :: y.fresh.filter (· ≠ key) }
      else s1.setTile t y

def execAdcConversion (t : Fin 16) (ch : Fin 48) (raw : BitVec 14) (range : Int) (s : State) : Out :=
  .next (s.convert t.val ch.val raw range)

/-! ## Urgent samples -/

/-- Whether an urgent request is refused: in KEEP, under zero-hold, or when its channel's queue holds four (R78). -/
def State.urgentRefused (s : State) (t mon : Nat) : Bool :=
  s.dev == 0 || s.zeroHeld t || decide (monitors ≤ mon) || decide (4 ≤ ((s.tile t).chan (s.channelFor t mon)).urgent.length)

/-- A request in its place: behind those of earlier edges, and at one edge loop core, calibration, host (R78). -/
def placeUrgent (u : Urgent) : List Urgent → List Urgent
  | [] => [u]
  | w :: ws => if w.arrived = u.arrived ∧ u.who < w.who then u :: w :: ws else w :: placeUrgent u ws

/-- A request queued at the channel that converts its monitor (R77, R78). -/
def State.queueUrgent (s : State) (t : Nat) (u : Urgent) : State :=
  let x := s.tile t
  let a := s.channelFor t u.mon
  let c := x.chan a
  s.setTile t (x.setChan a { c with urgent := placeUrgent u c.urgent })

/-- What a requester learns of a refusal: the host by TILE_URG_STAT; a loop core by the condition of its SMPU (R78, R247). -/
def State.urgentReply (s : State) (t : Nat) (u : Urgent) : State :=
  if u.who = 2 then (s.setFld (F.tileUrgStatPending t) 0).setFld (F.tileUrgStatRefused t) 1 else s

/-- A full queue whose last request came at the same edge from a requester queued later: that request finds the queue full in
its turn and is refused (R78). -/
def State.displaceUrgent (s : State) (t : Nat) (u : Urgent) : State :=
  let x := s.tile t
  let a := s.channelFor t u.mon
  let c := x.chan a
  match c.urgent.getLast? with
  | some w =>
    if 4 ≤ c.urgent.length ∧ w.arrived = u.arrived ∧ u.who < w.who then
      ((s.setTile t (x.setChan a { c with urgent := c.urgent.dropLast })).count (F.tileErrCountsUrgRef t) 1).urgentReply t w
    else s
  | none => s

/-- An urgent request of a loop core (0), calibration (1) or the host (2), reaching the tile at the next slot clock edge; the flag
says whether it was taken (R77, R78). -/
def State.urgent (s : State) (t mon : Nat) (dc : Bool) (who : Fin 3) (core : Nat) : State × Bool :=
  let u : Urgent := { mon := mon, dc := dc, who := who, core := core, arrived := ceilDiv s.time.net 5 * 5 }
  let s1 := s.displaceUrgent t u
  if s1.urgentRefused t mon then (s1.count (F.tileErrCountsUrgRef t) 1, false) else (s1.queueUrgent t u, true)

/-- A host urgent request: a GO clears VALID and REFUSED; one while PENDING = 1 is refused (Table 04.13). -/
def State.urgReq (s : State) (t : Nat) (v : Word) : State :=
  if !bitOf v 31 then s
  else
    let s1 := (s.setFld (F.tileUrgStatValid t) 0).setFld (F.tileUrgStatRefused t) 0
    if s1.flag (F.tileUrgStatPending t) then
      (s1.count (F.tileErrCountsUrgRef t) 1).setFld (F.tileUrgStatRefused t) 1
    else
      let s2 := (s1.setFld (F.tileUrgStatMon t) (bitsOf v 9 0)).setFld (F.tileUrgStatDc t) (bitsOf v 16 16)
      match s2.urgent t (bitsOf v 9 0) (bitOf v 16) 2 0 with
      | (s3, true) => s3.setFld (F.tileUrgStatPending t) 1
      | (s3, false) => s3.setFld (F.tileUrgStatRefused t) 1

def execTileUrgReq (m : Master) (t : Fin 16) (v : Word) (s : State) : Out :=
  .next (s.atReg m (R.tileUrgReq t.val) (fun s => s.urgReq t.val v))

/-- The result of an urgent sample handed to its requester (R78, Table 04.13, Table 11.12). -/
def State.urgentDone (s : State) (t : Nat) (u : Urgent) (w : Word) : State :=
  if u.who = 2 then
    ((s.setReg (R.tileUrgRes t) w).setFld (F.tileUrgStatValid t) 1).setFld (F.tileUrgStatPending t) 0
  else if u.who = 0 then s.setCore u.core { s.core u.core with ures := w }
  else { s with cal := { s.cal with urgent := some (t, u.mon, w) } }

/-- The partner of a channel in a takeover, which converts the same urgent slots (R79). -/
def State.partner (s : State) (t a : Nat) : Option Nat :=
  if a < 45 then (s.spareOf t a).map (fun p => 45 + p)
  else if s.fld (F.tileSpareState t (a - 45)) = spIdle then none else some (s.fld (F.tileSpareSrc t (a - 45)))

/-- URGENT_RESULT: the oldest urgent request of a channel converted in the next slot of the round, with the round moved on
by one slot; its word carries URG and enters no frame (R77, R78, R81). -/
def State.urgentConvert (s : State) (t a : Nat) (raw : BitVec 14) (range : Int) : State :=
  let x := s.tile t
  let c := x.chan a
  match c.urgent with
  | [] => s
  | u :: us =>
    if !s.power.fastClocks ∨ 16 ≤ c.slots ∨ !x.urgentDue c then s
    else
      let at_ := x.slotTime c.slots
      let w := s.sampleWord t a u.mon u.dc true at_ raw range
      let y := x.setChan a { c with urgent := us, slots := c.slots + 1, settle := settleNext c.settle range }
      let z := match s.partner t a with
        | some b => if (y.chan b).src = c.src then y.setChan b { y.chan b with slots := (y.chan b).slots + 1, settle := (y.chan b).settle - 1 } else y
        | none => y
      (((s.untilNet (at_ + 200)).countOvr t range).setTile t z).urgentDone t u w

def execUrgentResult (t : Fin 16) (ch : Fin 48) (raw : BitVec 14) (range : Int) (s : State) : Out :=
  .next (s.urgentConvert t.val ch.val raw range)

/-! ## Spares -/

/-- Whether R80 discards a write of TILE_SPAREs. A channel whose takeover has been written and awaits its first round start counts
as taken (log 109). -/
def State.spareBad (s : State) (t sp : Nat) (en : Bool) (src : Nat) : Bool :=
  let st := s.fld (F.tileSpareState t sp)
  decide (44 < src) || [0, 1, 2].any (fun p => p != sp && (s.fld (F.tileSpareState t p) != spIdle || s.flag (F.tileSpareEn t p))
        && s.fld (F.tileSpareSrc t p) == src)
    || st == spShadow || st == spReturning || (en && st == spServing && s.fld (F.tileSpareSrc t sp) != src)

/-- A write of TILE_SPAREs (R79, R80): a repeat of EN and SRC has no effect; a sequence begins at the next round start. -/
def State.spareWrite (s : State) (m : Master) (t sp : Nat) (en : Bool) (src : Nat) : State :=
  if s.flag (F.tileSpareEn t sp) = en ∧ s.fld (F.tileSpareSrc t sp) = src then s
  else if s.spareBad t sp en src then s.refuseReg m (R.tileSpare t sp)
  else
    let st := s.fld (F.tileSpareState t sp)
    let src1 := if st = spServing then s.fld (F.tileSpareSrc t sp) else src
    let s1 := ((s.setFld (F.tileSpareEn t sp) (b2n en)).setFld (F.tileSpareSrc t sp) src1).markDirty (R.tileSpare t sp)
    s1.setSpareAt t sp (if (s1.spareNext t sp).isSome then some s1.time.net else none)

def execSpareTakeover (m : Master) (t : Fin 16) (sp : Fin 3) (src : Fin 64) (s : State) : Out :=
  .next (s.atReg m (R.tileSpare t.val sp.val) (fun s => s.spareWrite m t.val sp.val true src.val))

def execSpareReturn (m : Master) (t : Fin 16) (sp : Fin 3) (src : Fin 64) (s : State) : Out :=
  .next (s.atReg m (R.tileSpare t.val sp.val) (fun s => s.spareWrite m t.val sp.val false src.val))

/-- SPARE_SWITCH: at the second round start after the write, with the fast clocks running (R79). -/
def State.spareSwitch (s : State) (t sp : Nat) : State :=
  match (s.tile t).spareAt.find? sp with
  | none => s
  | some w =>
    if !s.power.fastClocks then s
    else
      match s.spareNext t sp with
      | some st => ((s.untilNet ((w / 3200 + 2) * 3200)).setFld (F.tileSpareState t sp) st).spareDone t sp
      | none => (s.untilNet (w + 3200)).spareDone t sp

def execSpareSwitch (t : Fin 16) (sp : Fin 3) (s : State) : Out := .next (s.spareSwitch t.val sp.val)

/-! ## Actuator writes -/

/-- A channel's key from its kind and index. -/
def chanKey (heater : Bool) (ch : Nat) : Nat := if heater then 1000 + ch else ch

/-- A value held in the range of its channel: a signed 12-bit trim or a 16-bit heater code (R86). -/
def actRange (key : Nat) (v : Int) : Int := if key < 1000 then satEO v else clampInt 0 65535 v

/-- Whether the element of an actuator channel lies in a cell RETIRED in the mould in force (R87). -/
def Tile.channelRetired (x : Tile) (key : Nat) : Bool :=
  let e := if key < 1000 then key else key - 1000
  decide (e < eoDacs) && x.shown.get (fun _ => 0) e == 3

/-- A value put in force on a channel; an output with a limiter on lags behind it, and a heater driver takes it up at its next
period start (R66, R84, R86). -/
def State.actuate (s : State) (t key : Nat) (v : Int) : State :=
  let x := s.tile t
  let y := { x with act := x.act.set (fun _ => 0) key v, written := x.written.put key s.time.net }
  s.setTile t (x.heated (Tile.follow x y (s.limited t (decide (1000 ≤ key))) [key]) s.time.net [key])

/-- Trim and heater of an element set to zero by the engine: outputs with a limiter on follow it (R27, R66). -/
def State.zeroElement (s : State) (e : Nat) : State :=
  let t := e / 644
  let j := e % 644
  let x := s.tile t
  let y := { x with act := (x.act.set (fun _ => 0) j 0).set (fun _ => 0) (1000 + j) 0 }
  let z := Tile.follow x (Tile.follow x y (s.limited t false) [j]) (s.limited t true) [1000 + j]
  s.setTile t (x.heated z s.time.net [1000 + j])

/-- Whether a write has been applied to a channel since the latest frame boundary (R86). -/
def Tile.changed (x : Tile) (key net : Nat) : Bool :=
  match x.written.find? key with
  | some w => decide (net / 6400 * 6400 ≤ w)
  | none => false

/-- The pending writes whose frame boundary has come are applied; not in a switch-over gap, in which every output holds its value
(R86, R326). -/
def State.writesDue (s : State) (t : Nat) : State :=
  let x := s.tile t
  if s.cd.gap.isSome then s
  else
    (x.pend.filter (fun p => !x.changed p.1 s.time.net)).foldl (fun s p => s.actuate t p.1 p.2)
      (s.setTile t { x with pend := x.pend.filter (fun p => x.changed p.1 s.time.net) })

/-- At the next frame boundary the pending writes are applied, and each channel may change again (R86). -/
def State.applyPending (s : State) (t : Nat) : State :=
  match (s.tile t).pend with
  | [] => s
  | (k, _) :: _ => (s.untilNet (boundaryAfter ((s.tile t).written.get (fun _ => 0) k))).writesDue t

/-- An actuator write of a die: the standby's only reaches the comparators; the active die's is discarded and counted
under zero-hold, for a retired element, and in a switch-over gap taken from neither die; else it is applied at the next
edge, or waits in the channel's pending place (R86, R87, R326). -/
def State.actuatorWrite (s : State) (d : Die) (t key : Nat) (v0 : Int) : State :=
  let v := actRange key v0
  let s0 := s.writesDue t
  let x := s0.tile t
  let s1 := s0.setTile t (match d with
    | .cope => { x with copeVal := x.copeVal.put key v }
    | .drag => { x with dragVal := x.dragVal.put key v })
  if d ≠ s.activeDie ∨ s.cd.gap.isSome then s1
  else if s.zeroHeld t ∨ x.channelRetired key then s1.count (F.tileErrCountsDrop t) 1
  else if !x.changed key s.time.net then s1.actuate t key v
  else
    let s2 := if (x.pend.find? key).isSome then s1.count (F.tileErrCountsOverwr t) 1 else s1
    s2.setTile t { s2.tile t with pend := (s2.tile t).pend.put key v }

/-- ACTUATOR_WRITE; an EO channel above 643 does not exist. -/
def execActuatorWrite (d : Die) (t : Fin 16) (heater : Bool) (ch : Fin 681) (v : Int) (s : State) : Out :=
  .next (if !heater ∧ eoDacs ≤ ch.val then s else s.actuatorWrite d t.val (chanKey heater ch.val) v)

/-- Comparison at a frame boundary of the latest values of both dies, on every channel: a difference above 4 LSB counts, any other
resets the count (R88). A channel that a die has not written since zero-hold was released stands at zero (R67; log 57). -/
def Tile.compare (x : Tile) : Tile :=
  let keys := x.copeVal.map (·.1) ++ (x.dragVal.map (·.1)).filter (fun k => (x.copeVal.find? k).isNone)
  { x with differ := keys.foldl (fun d k =>
      let a := x.copeVal.get (fun _ => 0) k
      let b := x.dragVal.get (fun _ => 0) k
      if 4 < (a - b).natAbs then d.modify (fun _ => 0) k (· + 1) else d.erase k) x.differ }

/-- OUTPUT_MISMATCH: a channel with three consecutive counts is recorded and reported, and its count restarts (R88, R321). -/
def State.outputMismatch (s : State) (t : Nat) (heater : Bool) (ch : Nat) : State :=
  let x := s.tile t
  let key := chanKey heater ch
  if 3 ≤ x.differ.get (fun _ => 0) key then
    let s1 := s.setTile t { x with differ := x.differ.erase key }
    let s2 := ((s1.setFld (F.tileCmpStatMism t) 1).setFld (F.tileCmpStatHtr t) (b2n heater)).setFld (F.tileCmpStatChan t) ch
    (s2.count (F.tileCmpCountCount t) 1).mismatch t
  else s

def execOutputMismatch (t : Fin 16) (heater : Bool) (ch : Fin 681) (s : State) : Out :=
  .next (s.outputMismatch t.val heater ch.val)

/-! ## Sample frames -/

/-- The state of an EO DAC's code as the notice sees it: zero during a span change (R65, R83). -/
def Tile.noticed (x : Tile) (j : Nat) : Nat :=
  if (x.span.find? j).isSome then 0 else
    let n := x.shown.get (fun _ => 0) j
    if n = 3 then 0 else n

/-- The two notice bits of an EO DAC: the net change since the previous boundary (R83). -/
def noticeBits (was now : Nat) : Nat :=
  if was = now then 0 else if was = 1 ∧ now = 2 then 1 else if was = 2 ∧ now = 1 then 2 else 3

/-- Word i of the notice. -/
def Tile.noticeWord (x : Tile) (i : Nat) : Word :=
  word ((List.range 16).foldl (fun w k =>
    let j := 16 * i + k
    if j < eoDacs then w + noticeBits (x.seen.get (fun _ => 0) j) (x.noticed j) * 4 ^ k else w) 0)

/-- An entry of the frame: the word converted in the window, or the previous entry marked STALE (Table 04.3; log 8). -/
def Tile.entry (x : Tile) (key : Nat) : Word :=
  let w := x.samples.get (fun _ => 0) key
  if x.fresh.contains key then w else w ||| word bStale

/-- Word 4 of the frame (Table 04.4): the mould in force, zero-hold, held pours, pours made and the latest pour's offset. -/
def State.pourWord (s : State) (t f : Nat) : Word :=
  let inside := fun (u : Nat) => decide (f ≤ u + 6400 ∧ u < f)
  let ps := s.moulds.pours.filter inside
  let n := clampNat 0 7 ps.length
  let off := match ps with
    | [] => 0
    | p :: _ => (p + 6400 - f) / 5
  word (s.fld F.mldInForceMould + b2n (s.zeroHeld t) * 2 ^ 13 + b2n (s.moulds.helds.any inside) * 2 ^ 14 + n * 2 ^ 15
    + off * 2 ^ 18)

/-- The frame of tile t at boundary f, as 1,500 words (Table 04.4). -/
def State.frameWords (s : State) (t f : Nat) : List Word :=
  let x := s.tile t
  let head := [word (f % second), word (f / second), word (x.seq % 65536 + t * 65536), word (s.fld (F.tileVhtrMv t)), s.pourWord t f,
    0, 0, 0]
  head ++ (List.range 41).map x.noticeWord ++ List.replicate 15 0 ++ (List.range (2 * monitors)).map x.entry

/-- The cell-state code of a local cell (R254): zero-hold 2, retired 3, BAR 0, CROSS 1. -/
def State.cellCode (s : State) (t c : Nat) : Nat :=
  if s.zeroHeld t then 2
  else
    let n := (s.tile t).shown.get (fun _ => 0) (2 * c)
    if n = 2 then 0 else if n = 3 then 3 else 1

/-- The 24 words of the cell-state window of tile t (R254). -/
def State.cellWords (s : State) (t : Nat) : List Word :=
  (List.range 24).map (fun i => word ((List.range 16).foldl (fun w k =>
    if 16 * i + k < 322 then w + s.cellCode t (16 * i + k) * 4 ^ k else w) 0))

/-- The states of a handover (Table 05.25). -/
abbrev hoIdle : Nat := 0
abbrev hoCopy : Nat := 1
abbrev hoShadow : Nat := 2

/-- The loop cores that a flask's frames go to: its owner, and the new core in a handover's SHADOW (R82, R91). -/
def State.flaskCores (s : State) (f : Nat) : List Nat :=
  s.fld (F.loopFlaskMapCore f) ::
    (if s.fld (F.loopFlaskMapState f) = hoShadow then (s.loops.handing.find? f).toList else [])

/-- The cores of both dies that take tile t's frames, each with its flask. -/
def State.frameCores (s : State) (t : Nat) : List (Nat × Nat) :=
  ([0, 1, 2, 3].flatMap (fun k => (s.flaskCores (4 * t + k)).map (fun c => (c, 4 * t + k)))).flatMap
    (fun p => [p, (p.1 + 128, p.2)])

/-- First local loop and number of loops of flask k of a tile (R90). -/
def flaskFirst (f : Nat) : Nat := [0, 171, 341, 511].getD (f % 4) 0
def flaskCount (f : Nat) : Nat := [171, 170, 170, 170].getD (f % 4) 0

/-- The index of the inner loop at local index l of tile t (R90). -/
def loopIndex (t l : Nat) : Nat := if l ≤ 643 then 644 * t + l else 10304 + 37 * t + (l - 644)

/-- Six bitmap words over the positions of a flask, by a test of the loops (Table 11.15a). -/
def flaskBits (f : Nat) (p : Nat → Bool) : List Word :=
  (List.range 6).map (fun i => word ((List.range 32).foldl (fun w b =>
    let pos := 32 * i + b
    if pos < flaskCount f ∧ p (loopIndex (f / 4) (flaskFirst f + pos)) then w + 2 ^ b else w) 0))

/-- Causes of the engine hold, and of the host hold (R107). -/
def State.engineHold (s : State) (l : Nat) : Bool := s.loops.holds.get (fun _ => 0) l &&& 7 != 0
def State.hostHold (s : State) (l : Nat) : Bool := s.loops.holds.get (fun _ => 0) l &&& 8 != 0

/-- The hold bitmaps of a flask written into a core's flask data memory (Table 11.15a). -/
def State.putHolds (s : State) (id f : Nat) : State :=
  let c := s.core id
  let m1 := putWords c.mem 0x1600 (flaskBits f s.engineHold)
  s.setCore id { c with mem := putWords m1 0x1620 (flaskBits f s.hostHold) }

/-- A core made to serve frame `seq` of boundary f (R249): FSEQ, CYCLE and NETF set, `skip` frames passed over. -/
def Core.serve (c : Core) (seq skip f : Nat) : Core :=
  { c with asleep := false, cycle := 0, netNs := word (f % second), netSec := word (f / second),
           fseq := word (seq % 65536 + seq % 2 * 65536 + clampNat 0 255 skip * 2 ^ 24) }

/-- A frame delivered to one core: bank, cell states, holds and LCTRL; a core asleep in WAITF wakes (R82, R249). -/
def State.deliverTo (s : State) (seq f : Nat) (ws cs : List Word) (p : Nat × Nat) : State :=
  let s1 := s.putHolds p.1 p.2
  let c := s1.core p.1
  let c1 := if seq % 2 = 0 then { c with bank0 := ws, cells0 := cs } else { c with bank1 := ws, cells1 := cs }
  let c2 := { c1 with lctrl := s1.reg R.loopCtrl }
  s1.setCore p.1 (if c2.asleep && !c2.halted then c2.serve seq 0 f else c2)

/-- At a frame boundary F tile t writes its frame, compares the dies' outputs, and begins the next window (R82, R83, R88). -/
def State.frameDelivery (s : State) (t f : Nat) : State :=
  let x := s.tile t
  let s1 := (s.frameCores t).foldl (fun u p => u.deliverTo x.seq f (s.frameWords t f) (s.cellWords t) p) s
  let y := { x with
    seq := (x.seq + 1) % 65536
    frameAt := f
    fresh := []
    samples := x.samples.map (fun (p : Nat × Word) => (p.1, x.entry p.1))
    seen := (List.range eoDacs).foldl (fun m j => m.set (fun _ => 0) j (x.noticed j)) x.seen }
  s1.setTile t (if s1.standbyReady then y.compare else { y with differ := [] })

/-! ## VHTR -/

/-- Whether an average lies outside 11.4 V to 12.6 V (R85). -/
def vhtrOut (mv : Nat) : Bool := decide (mv < 11400 ∨ 12600 < mv)

/-- VHTR_WINDOW: the window that ends at the next frame boundary instant, in every device state: its average reported, and the
windows out of range counted (R85). -/
def State.vhtrWindow (s : State) (t mv : Nat) : State :=
  let s0 := s.untilNet (s.nextPeriod (s.tile t).vhtrAt 0)
  let s1 := ((s0.setTile t { s0.tile t with vhtrAt := s0.time.net }).setFld (F.tileVhtrMv t) mv).setFld (F.tileVhtrOut t) (b2n (vhtrOut mv))
  let s2 := { s1 with faults := { s1.faults with
    vhtrBad := if vhtrOut mv then s1.faults.vhtrBad.modify (fun _ => 0) t (· + 1) else s1.faults.vhtrBad.erase t } }
  if vhtrOut mv then s2 else s2.endStanding (0x1000 + t)

def execVhtrWindow (t : Fin 16) (mv : BitVec 16) (s : State) : Out := .next (s.vhtrWindow t.val mv.toNat)

/-- VHTR_FAULT: eight consecutive windows out of range, once while the condition stands (R85, R335). -/
def execVhtrFault (t : Fin 16) (s : State) : Out :=
  .next (if 8 ≤ s.faults.vhtrBad.get (fun _ => 0) t.val ∧ !s.faults.standing.any (fun c => c.source == 0x1000 + t.val) then
      s.raiseStanding (0x1000 + t.val) 2 0 (word (s.fld (F.tileVhtrMv t.val) + t.val * 65536))
    else s)

/-! ## Zero-hold (R67) -/

/-- A tile under zero-hold: every DAC and driver at zero past its limiter, and every span sequence ended at once (R20,
R65). -/
def Tile.zeroed (x : Tile) : Tile :=
  { x with live := [], act := [], lag := [], pend := [], heatFrom := [], shown := [], staging := []
           span12 := x.span.foldl (fun (m : SMap Bool) (p : Nat × SpanSeq) => m.set (fun _ => false) p.1 p.2.to12) x.span12
           span := [] }

/-- The span sequences of a tile that zero-hold completes at once give their loops back (R65). -/
def State.endSpans (s : State) (t : Nat) : State :=
  (s.tile t).span.foldl (fun (s : State) p => s.setHold (644 * t + p.1) 1 false) s

/-- The keeper's zero-hold asserted in all 16 tiles: MLD_IN_FORCE.ZERO and TILE_STATUS.ZERO (R20, R67). -/
def State.assertZero (s : State) (since : Nat) : State :=
  let s1 := (List.range 16).foldl (fun (s : State) t =>
    ((((s.endSpans t).setTile t (s.tile t).zeroed).setFld (F.tileStatusZero t) 1).setFld (F.tileStatusSealed t) 0).setFld (F.tileStatusSealAll t) 0) s
  let s2 := s1.setFld F.mldInForceZero 1
  { s2 with moulds := { s2.moulds with ditherOff := false, zeroSince := if s2.moulds.zeroSince.isSome then s2.moulds.zeroSince else some since } }

/-- Zero-hold released at the transition from KEEP to HOLD: every value zero, every span 6 V, frame sequence from 0 (R67,
R82). A takeover or return of a spare written meanwhile begins with the conversions (R79). What of an urgent request that waits, and
of a SETTLE count, when the fast clocks stop, is not stated: both stay for the conversions that resume (DESIGN CHOICE, log 110). -/
def State.releaseZero (s : State) : State :=
  let s1 := (List.range 16).foldl (fun (s : State) t =>
    let x := s.tile t
    let s1 := (List.range 21).foldl (fun (s : State) n => s.setReg (R.tileEoSpan t n) 0) s
    (s1.setTile t { x.zeroed with span12 := [], written := [], samples := [], fresh := [], seen := [], seq := 0, copeVal := [], dragVal := [],
                                  differ := [], spareAt := x.spareAt.map (fun p => (p.1, s.time.net)) }).setFld (F.tileStatusZero t) 0) s
  s1.setFld F.mldInForceZero 0

end Sys2Proof.Machine
end

