-- ==== Sys2Proof/Machine/LoopOps.lean ====
section
/-!
DEFINITION. The record of an inner loop as eight words, its fields (R96, R97, Tables 05.3, 05.4), and the operations of the
loop group on it (R243, R244, R245, R248), shared by LOOP_PASS and by the Cloby loop group.
-/
namespace Sys2Proof.Machine

/-- A loop record, or its image in g8-g15: words 0x00-0x1C in order. -/
abbrev Image := List Word

/-- A field of an image: the word's index and the bits [hi:lo]. -/
def Image.get (m : Image) (i hi lo : Nat) : Nat := bitsOf (m.getD i 0) hi lo
def Image.put (m : Image) (i hi lo v : Nat) : Image := m.set i (withBits (m.getD i 0) hi lo v)

/-- A signed field. -/
def Image.sget (m : Image) (i hi lo : Nat) : Int := signed (hi + 1 - lo) (m.get i hi lo)
def Image.sput (m : Image) (i hi lo : Nat) (v : Int) : Image := m.put i hi lo (unsigned (hi + 1 - lo) v)

/-- Record states (Table 05.3). -/
abbrev lOpen : Nat := 0
abbrev lLocking : Nat := 1
abbrev lLocked : Nat := 2
abbrev lHeld : Nat := 3
abbrev lRetired : Nat := 4
abbrev lFault : Nat := 5

/-- Fields of Table 05.3. -/
def Image.state (m : Image) : Nat := m.get 0 2 0
def Image.lockCnt (m : Image) : Nat := m.get 0 8 3
def Image.nb (m : Image) : Nat := m.get 0 10 9
def Image.ffRail (m : Image) : Bool := m.get 0 11 11 == 1
def Image.ffStep (m : Image) : Bool := m.get 0 12 12 == 1
def Image.ffXt (m : Image) : Bool := m.get 0 13 13 == 1
def Image.bleedSh (m : Image) : Nat := m.get 0 16 14
def Image.pin (m : Image) : Nat := m.get 0 20 17
def Image.low (m : Image) : Bool := m.get 0 21 21 == 1
def Image.dark (m : Image) : Bool := m.get 0 22 22 == 1
def Image.cur (m : Image) : Nat := m.get 0 23 23
def Image.bad (m : Image) : Nat := m.get 0 31 24
def Image.kp (m : Image) : Nat := m.get 1 15 0
def Image.ki (m : Image) : Nat := m.get 1 31 16
def Image.lockWin (m : Image) : Nat := m.get 3 7 0
def Image.trimLim (m : Image) : Nat := m.get 3 19 8
def Image.kxt (m : Image) : Int := m.sget 3 31 20
def Image.hbias (m : Image) : Nat := m.get 5 15 0
def Image.hmax (m : Image) : Nat := m.get 5 31 16
def Image.escale (m : Image) : Nat := m.get 6 15 0
def Image.hconv (m : Image) : Nat := m.get 6 31 16
def Image.trimOut (m : Image) : Int := m.sget 7 11 0
def Image.lt (m : Image) : Nat := m.get 7 15 12
def Image.htrOut (m : Image) : Nat := m.get 7 31 16

/-- Set-point and integrator of the state CUR (R243). -/
def Image.spCur (m : Image) : Int := m.sget 2 (16 * m.cur + 15) (16 * m.cur)
def Image.intCur (m : Image) : Int := m.sget 4 (16 * m.cur + 15) (16 * m.cur)

/-- L = 16 x TRIM_LIM (R243). -/
def Image.limit (m : Image) : Int := 16 * (m.trimLim : Int)

/-- A value held in 32 signed bits, and in 16. -/
def sat32 (v : Int) : Int := clampInt (-2147483648) 2147483647 v
def sat16 (v : Int) : Int := clampInt (-32768) 32767 v

/-- ERRS: the error in Q12.4 of a usable sample, 0 otherwise (Table 11.8). -/
def Image.errs (m : Image) (usable : Bool) (v : Int) : Int :=
  if usable then sat32 (roundDiv ((v - m.spCur) * m.escale) 1024) else 0

/-- PIA and PIP (Table 11.8). -/
def Image.pia (m : Image) (e : Int) : Int := m.intCur + roundDiv (e * m.ki) 65536
def Image.pip (m : Image) (e i : Int) : Int := i + roundDiv (e * m.kp) 4096 + (if m.ffXt then 16 * m.kxt * (m.nb : Int) else 0)

/-- LIMT: the value held in plus or minus L (Table 11.8). -/
def Image.limt (m : Image) (u : Int) : Int := clampInt (-m.limit) m.limit u

/-- AWR: no integration into the limit in the error's direction (Table 11.8). -/
def Image.awr (m : Image) (sat neg : Bool) (e i : Int) : Int :=
  if sat && e != 0 && (decide (e < 0) == neg) then m.intCur else i

/-- IPUT: the integrator of CUR (Table 11.8). -/
def Image.iput (m : Image) (i : Int) : Image := m.sput 4 (16 * m.cur + 15) (16 * m.cur) (m.limt i)

/-- BLD: the part of the integrator that moves to the heater, rounded towards zero (Table 11.8). -/
def Image.bld (m : Image) : Int := truncDiv m.intCur (2 ^ m.bleedSh)

/-- BAPP: moved, unless HBIAS would leave 0 to HMAX (R104, Table 11.8). -/
def Image.bapp (m : Image) (b h : Int) : Image :=
  if 0 ≤ h ∧ h ≤ (m.hmax : Int) then
    ((m.sput 4 15 0 (sat16 (m.sget 4 15 0 - b))).sput 4 31 16 (sat16 (m.sget 4 31 16 - b))).put 5 15 0 h.toNat
  else m

/-- RAIL: the heater code with the rail feed-forward (R103, Table 11.8). -/
def Image.rail (m : Image) (rf : Int) : Int :=
  clampInt 0 m.hmax (if m.ffRail then roundDiv ((m.hbias : Int) * rf) 65536 else m.hbias)

/-- CELLX: CUR and NB from the cell states of the tile (R248); `bar c` says whether local cell c is BAR. -/
def Image.cellx (m : Image) (j : Nat) (bar : Nat → Bool) : Image :=
  let c := j / 2
  let lo := m.get 0 21 21 == 1 && decide (1 ≤ c) && bar (c - 1)
  let hi := m.get 0 22 22 == 1 && decide (c + 1 < 322) && bar (c + 1)
  (m.put 0 23 23 (b2n (m.ffStep && bar c))).put 0 10 9 (b2n lo + b2n hi)

/-- LIVE: whether the loop is not to be computed (R245). -/
def Image.dead (m : Image) (held : Bool) : Bool := !(m.state == lLocking || m.state == lLocked) || held

/-- Whether a sample word is usable: none of OVR, SETTLE, DOFF and STALE (R99). -/
def usable (w : Word) : Bool := bitsOf w 19 16 == 0

/-- The corrected sample of a sample word (Table 04.3). -/
def sampleValue (w : Word) : Int := (w.extractLsb' 0 16).toInt

/-- The causes of R111. -/
abbrev cLockLoss : Nat := 1
abbrev cLockTimeout : Nat := 2
abbrev cPinned : Nat := 3
abbrev cStarved : Nat := 4
abbrev cLow : Nat := 5

/-- The part of LOCK on a sample that is usable: LOCK_CNT, the transitions between LOCKING and LOCKED, and PIN (R244). The
flag says that a LOCKED loop has lost its lock. -/
def Image.lockSample (m : Image) (e : Int) : Image × Bool :=
  let inwin := decide (e.natAbs ≤ 16 * m.lockWin)
  let m0 := m.put 0 31 24 0
  let (m1, loss) :=
    if m.state = lLocking then
      let n := if inwin then m.lockCnt + 1 else 0
      if n = 32 then ((m0.put 0 2 0 lLocked).put 0 8 3 0, false) else (m0.put 0 8 3 n, false)
    else if m.state = lLocked then
      let n := if inwin then 0 else m.lockCnt + 1
      if n = 4 then (((m0.put 0 2 0 lLocking).put 0 8 3 0).put 7 15 12 0, true) else (m0.put 0 8 3 n, false)
    else (m0, false)
  let at_ := e != 0 && m.trimOut == e.sign * (m.trimLim : Int) && decide (m.htrOut = if 0 < e then m.hmax else 0)
  (m1.put 0 20 17 (if at_ then clampNat 0 15 (m.pin + 1) else 0), loss)

/-- LOCK (R244): the image after the bookkeeping, and the cause reported, 0 for none. The lock word gives STARVE, TICK and
LOCK_TO. -/
def Image.lock (m : Image) (usable : Bool) (e : Int) (word : Word) : Image × Nat :=
  let starve := bitsOf word 7 0
  let tick := bitOf word 8
  let lockTo := bitsOf word 15 12
  let bad := clampNat 0 255 (m.bad + 1)
  let starved := !usable && starve != 0 && decide (m.bad < starve) && bad == starve
  let (m1, loss) := if usable then m.lockSample e else (m.put 0 31 24 bad, false)
  let pinned := usable && m1.pin == 15
  let m2 := if pinned then m1.put 0 2 0 lFault else m1
  let (m3, timeout) :=
    if tick && m2.state == lLocking then
      let n := clampNat 0 15 (m2.lt + 1)
      let m3 := m2.put 7 15 12 n
      if lockTo ≠ 0 ∧ n = lockTo then (m3.put 0 2 0 lFault, true) else (m3, false)
    else (m2, false)
  (m3, if pinned then cPinned else if timeout then cLockTimeout else if loss then cLockLoss else if starved then cStarved else 0)

end Sys2Proof.Machine
end

