-- ==== Sys2Proof/Machine/Pilot.lean ====
section
/-!
DEFINITION. Connectivity verification by pilot tones (R42-R46).
-/
namespace Sys2Proof.Machine

/-- The windows in progress discarded (Table 02.8). -/
def State.dropWindows (s : State) : State := { s with moulds := { s.moulds with pilot := [] } }

/-- A write of MLD_PILOT_CTRL: EN = 0 stops contributions and discards windows in progress (Table 02.8). -/
def State.pilotCtrl (s : State) (v : Word) : State :=
  let s1 := (((s.setFld F.mldPilotCtrlEn (bitsOf v 0 0)).setFld F.mldPilotCtrlHoldChk (bitsOf v 1 1)).setFld F.mldPilotCtrlEvWeak
    (bitsOf v 2 2)).markDirty R.mldPilotCtrl
  if bitOf v 0 then s1 else s1.dropWindows

def execPilotCtrlWrite (m : Master) (v : Word) (s : State) : Out := .next (s.atReg m R.mldPilotCtrl (fun s => s.pilotCtrl v))

/-- The frequency in Hz of the tone on a core input; each tone begins every whole second at phase zero (R42). -/
def toneFrequency (i : Nat) : Nat := 100000 + 250 * i

/-- What R42 promises of the chips of a family of inputs: for two distinct inputs and any 64 consecutive chips the sum of the
products of corresponding chips has a magnitude of at most 16. The family itself is not stated (log 103). -/
def ChipFamily (chip : Nat → Nat → Bool) : Prop :=
  ∀ i j n, i < ports → j < ports → i ≠ j →
    (((List.range 64).map (fun k => if chip i (n + k) = chip j (n + k) then (1 : Int) else -1)).sum).natAbs ≤ 16

/-- The chip period of the present: in RUN one for each pour, in HOLD one for each whole millisecond (R42). -/
def State.chipPeriod (s : State) : Nat := if s.dev = 1 then s.time.net / 1000000 else s.moulds.chips

/-- The chip of an input in the present period; the sequences of RUN and HOLD are two of the module's own (R42). -/
def State.chip (s : State) (i : Nat) : Bool := Config.chip (b2n (s.dev == 1)) i s.chipPeriod

/-- What the front end of an output correlates against: the tone frequency and the chip of the input that the mould in force
connects to it (R42, R45, R73). -/
def State.reference (s : State) (out : Nat) : Nat × Bool :=
  let i := s.moulds.perm.getD out 0
  (toneFrequency i, s.chip i)

/-- Whether the slot or chip period contributes (R45): in RUN a flagged slot of at least 12.8 us, in HOLD as HOLD_CHK says;
with the tone of the intended input present, verification on, and the fabric not in SURVEY. -/
def State.contributes (s : State) (out : Nat) (tone : Bool) : Bool :=
  let period :=
    if s.dev = 2 then
      match s.heats.cur with
      | some j => slotPchk (bankAt s.heats.live j) && decide (2560 ≤ slotDur (bankAt s.heats.live j))
      | none => false
    else s.dev == 1 && s.flag F.mldPilotCtrlHoldChk
  s.flag F.mldPilotCtrlEn && period && tone && s.fabric != 3 && decide (out < s.moulds.perm.length)

/-- The pilot window of an output. -/
def State.window (s : State) (out : Nat) : Nat × Int × Nat := s.moulds.pilot.get (fun _ => (0, 0, 0)) out

/-- A contribution added to an output's window: the correlation, with the chip of the input that the mould in force connects
to it, and the mean power (R45). -/
def State.contribute (s : State) (out : Nat) (corr : Int) (power : Nat) : State :=
  let (n, sum, p) := s.window out
  let c := if (s.reference out).2 then corr else -corr
  { s with moulds := { s.moulds with pilot := s.moulds.pilot.put out (n + 1, sum + c, p + power) } }

/-- The verdict of a window: 0 PASS, 1 WEAK, 2 FAIL, by rho = |sum| / (0.005 * power) (R46). -/
def verdictOf (sum : Int) (power : Nat) : Nat :=
  if 85 * power ≤ 20000 * sum.natAbs then 0 else if 50 * power ≤ 20000 * sum.natAbs then 1 else 2

/-- rho * 256, saturating (Table 02.14); rounded down, which the spec does not state (log 104). -/
def rho256 (sum : Int) (power : Nat) : Nat :=
  let r := 51200 * sum.natAbs / power
  if 255 < r then 255 else r

/-- Verdict and rho of a window; with no power at all rho is not stated, and so free (R46; log 55). -/
def State.judge (s : State) (sum : Int) (power : Nat) : (Nat × Nat) × State :=
  if power = 0 then
    let (x, s1) := s.freeNat
    ((x % 3, x / 3 % 256), s1)
  else ((verdictOf sum power, rho256 sum power), s)

/-- MLD_PILOT_LAST takes a WEAK or FAIL verdict; of two issued at one edge it keeps the FAIL, and of one kind the lower
output (Table 02.14). -/
def State.recordVerdict (s : State) (out v rho : Nat) : State :=
  let same := s.moulds.lastVerdict == some s.time.now
  let oldV := s.fld F.mldPilotLastVerdict
  let oldOut := s.fld F.mldPilotLastOutput
  if same && (decide (v < oldV) || (v == oldV && decide (oldOut < out))) then s
  else
    let s1 := s.setReg R.mldPilotLast (word (rho * 2 ^ 24 + v * 1024 + out))
    { s1 with moulds := { s1.moulds with lastVerdict := some s.time.now } }

/-- PILOT_VERDICT: after 64 contributions the output's verdict is counted, recorded and reported, and its next window
begins (R45, R46). -/
def State.verdict (s : State) (out : Nat) : State :=
  let (n, sum, power) := s.window out
  if n < 64 then s
  else
    let ((v, rho), s0) := s.judge sum power
    let s1 := ({ s0 with moulds := { s0.moulds with pilot := s0.moulds.pilot.erase out } }).count F.mldPilotVerdictsCount 1
    let data := word (rho * 2 ^ 24 + v * 1024 + out)
    if v = 0 then s1
    else if v = 1 then
      let s2 := s1.recordVerdict out v rho
      if s2.flag F.mldPilotCtrlEvWeak then s2.raise 0x802 0 0 data else s2
    else ((s1.count F.mldPilotFailsCount 1).recordVerdict out v rho).raise 0x802 2 0 data

/-- PILOT_VERDICT. -/
def execPilotVerdict (out : Fin 592) (s : State) : Out := .next (s.verdict out.val)

end Sys2Proof.Machine
end

