-- ==== Sys2Proof/Machine/Loops.lean ====
section
/-!
DEFINITION. Inner loops, path loops, flask handovers and loop commands (R90-R116), and the contribution of a slot to
connectivity verification, which needs the state of an input's port loop (R45).
-/
namespace Sys2Proof.Machine

/-! ## Loops and records -/

/-- Inner loops (R90). -/
abbrev innerLoops : Nat := 10896

/-- The tile and the local index of an inner loop (R90). -/
def loopTile (l : Nat) : Nat := if l < 10304 then l / 644 else (l - 10304) / 37
def loopLocal (l : Nat) : Nat := if l < 10304 then l % 644 else 644 + (l - 10304) % 37

/-- The flask of an inner loop, and its position in it (R90). -/
def loopFlask (l : Nat) : Nat :=
  let x := loopLocal l
  4 * loopTile l + (if x < 171 then 0 else if x < 341 then 1 else if x < 511 then 2 else 3)
def loopPos (l : Nat) : Nat := loopLocal l - flaskFirst (loopFlask l)

/-- Whether an inner loop is a port loop (R90). -/
def portLoop (l : Nat) : Bool := decide (10304 ≤ l)

/-- The core that serves a flask on both dies (R91). -/
def State.flaskCore (s : State) (f : Nat) : Nat := s.fld (F.loopFlaskMapCore f)

/-- A record in a core's flask data memory, by position (R96). -/
def State.image (s : State) (core : Nat) (d : Die) (p : Nat) : Image :=
  (List.range 8).map (fun i => s.getWord core d (32 * p + 4 * i))

/-- The words of a record that changed, stored (R98). -/
def State.storeImage (s : State) (core : Nat) (d : Die) (p : Nat) (m : Image) : State :=
  (List.range 8).foldl (fun (s : State) i =>
    if m.getD i 0 = s.getWord core d (32 * p + 4 * i) then s else s.storeWord core d (32 * p + 4 * i) (m.getD i 0)) s

/-- The record of an inner loop on a die. -/
def State.loopImage (s : State) (d : Die) (l : Nat) : Image := s.image (s.flaskCore (loopFlask l)) d (loopPos l)

/-- The dies whose records the engine's own changes reach: both while the standby is ready, else the active one (R91,
R116). -/
def State.recordDies (s : State) : List Die := if s.standbyReady then [s.activeDie, s.standbyDie] else [s.activeDie]

/-- A record changed by the loop engine on both dies, at every core that serves its flask: in SHADOW the new core's copy changes
with the owner's (R91, R116). -/
def State.changeLoop (s : State) (l : Nat) (f : Image → Image) : State :=
  (s.flaskCores (loopFlask l)).foldl (fun (s : State) c =>
    s.recordDies.foldl (fun (s : State) d => s.storeImage c d (loopPos l) (f (s.image c d (loopPos l)))) s) s

/-- Whether a loop is held: by the engine, by the host, or, a port loop, by DARK (R107). -/
def State.loopHeld (s : State) (d : Die) (l : Nat) : Bool :=
  s.engineHold l || s.hostHold l || (portLoop l && (s.loopImage d l).dark)

/-- The state a loop reports on the active die (R107). -/
def State.loopState (s : State) (l : Nat) : Nat :=
  if s.loopHeld s.activeDie l then lHeld else (s.loopImage s.activeDie l).state

/-- Whether both elements' cell of an element loop is retired (R109). -/
def State.loopRetired (s : State) (l : Nat) : Bool :=
  if portLoop l then s.moulds.retiredPorts.contains (l - 10304) else s.moulds.retired.contains (l / 2)

/-- Whether a loop counts as settled for ALL_LOCKED (R109). -/
def State.settled (s : State) (l : Nat) : Bool :=
  let m := s.loopImage s.activeDie l
  let st := s.loopState l
  if portLoop l then
    st == lLocked || st == lRetired || (st == lHeld && m.dark && !s.engineHold l && !s.hostHold l) || (st == lLocking && m.low)
  else st == lLocked || s.loopRetired l

/-- ALL_LOCKED (R109). -/
def State.allLocked (s : State) : Bool := (List.range innerLoops).all s.settled

/-- The data word of a loop event (R111). -/
def loopData (l st cause : Nat) : Word := word (l + st * 65536 + cause * 1048576)

/-- A loop event of the active die: class, cause as kind, loop, new reported state (R111, R301). -/
def State.loopEvent (s : State) (cls cause l : Nat) : State := s.raise 0xA00 cls cause (loopData l (s.loopState l) cause)

/-! ## One pass (R93, R99-R107) -/

/-- The rail factor of a VHTR average, Q16.16, of the nearest entry of the table (R103; log 66). -/
def railFactor (mv : Nat) : Int :=
  let v := clampNat 11000 13000 mv
  roundDiv (65536 * 144000000) (v * v)

/-- What the frame header gives a pass: the bank's words, the cell states, the tick, the rail factor. -/
structure PassFrame where
  words : List Word
  cellStates : List Word
  seq : Nat
  rf : Int

/-- The frame bank and cell-state window selected by FSEQ (R249). -/
def Core.bank (c : Core) : List Word := if bitOf c.fseq 16 then c.bank1 else c.bank0
def Core.cellBank (c : Core) : List Word := if bitOf c.fseq 16 then c.cells1 else c.cells0

/-- Whether local cell c is BAR in a cell-state window (R254). -/
def cellBar (cs : List Word) (c : Nat) : Bool := decide (c < 322) && ((cs.getD (c / 16) 0).toNat / 4 ^ (c % 16)) % 4 == 0

/-- The header of a pass on a core (R93). -/
def Core.passFrame (c : Core) : PassFrame :=
  { words := c.bank, cellStates := c.cellBank, seq := bitsOf c.fseq 15 0, rf := railFactor (bitsOf (c.bank.getD 3 0) 15 0) }

/-- Sample words of a frame bank (Table 04.4). -/
def errWord (ws : List Word) (m : Nat) : Word := ws.getD (64 + 2 * m) 0
def dcWord (ws : List Word) (m : Nat) : Word := ws.getD (65 + 2 * m) 0

/-- The time a loop has spent in LOCKING, counted at a tick (Table 05.6); it stays at its limit until the loop leaves
LOCKING (log 64). -/
def Image.tickLt (m : Image) (tick : Bool) (ok : Bool) : Image :=
  if tick && m.state == lLocking && ok then m.put 7 15 12 (clampNat 0 15 (m.lt + 1)) else m

/-- LOCK_CNT after a usable sample; a count at its threshold stays there until the transition it causes (R108; log 64). -/
def Image.countLock (m : Image) (inwin : Bool) : Image :=
  if m.state = lLocking then
    (if m.lockCnt = 32 then m else m.put 0 8 3 (if inwin then m.lockCnt + 1 else 0))
  else if m.state = lLocked then
    (if m.lockCnt = 4 then m else m.put 0 8 3 (if inwin then 0 else m.lockCnt + 1))
  else m

/-- BAD after a frame with or without a usable sample (R99). -/
def Image.countBad (m : Image) (ok : Bool) : Image := m.put 0 31 24 (if ok then 0 else clampNat 0 255 (m.bad + 1))

/-- PIN after a usable sample of an element loop: both actuators at a limit in the direction of e (R108). -/
def Image.countPin (m : Image) (e : Int) : Image :=
  let at_ := e != 0 && m.trimOut == e.sign * (m.trimLim : Int) && decide (m.htrOut = if 0 < e then m.hmax else 0)
  m.put 0 20 17 (if at_ then clampNat 0 15 (m.pin + 1) else 0)

/-- The element law's first pass (R100, Table 11.20). -/
def Image.firstPass (m0 : Image) (f : PassFrame) (j : Nat) : Image :=
  let m := m0.cellx j (cellBar f.cellStates)
  let w := errWord f.words j
  let e := m.errs (usable w) (sampleValue w)
  let i := m.pia e
  let u := m.pip e i
  let ul := m.limt u
  let i1 := m.awr (ul != u) (decide (ul < 0)) e i
  let m1 := m.iput i1
  m1.sput 7 11 0 (roundDiv ul 16)

/-- INT_BAR is left as it was with FF_STEP = 0 (R100). -/
def Image.keepBar (was m : Image) : Image := if was.ffStep then m else m.sput 4 31 16 (was.sget 4 31 16)

/-- The element law's second pass (R100, R104, Table 11.21), with the counters of R108. -/
def Image.secondPass (m : Image) (f : PassFrame) (j : Nat) : Image :=
  let w := errWord f.words j
  let ok := usable w
  let e := m.errs ok (sampleValue w)
  let b := m.bld
  let h := sat32 ((m.hbias : Int) + roundDiv (b * m.hconv) 4096)
  let m1 := m.keepBar (m.bapp b h)
  let m2 := m1.put 7 31 16 (m1.rail f.rf).toNat
  let m3 := m2.countBad ok
  let m4 := if ok then (m3.countLock (decide (e.natAbs ≤ 16 * m3.lockWin))).countPin e else m3
  m4.tickLt (decide (f.seq % 256 = 0)) true

/-- The port law (R106): the record after it, and whether it writes its VOA. -/
def Image.portPass (m : Image) (f : PassFrame) (mon dark : Nat) : Image × Bool :=
  let w := dcWord f.words mon
  let v := sampleValue w
  if !usable w then ((m.countBad false).tickLt (decide (f.seq % 256 = 0)) (!m.low && !m.dark), false)
  else if v < (dark : Int) then ((m.countBad true).put 0 22 22 1, false)
  else
    let m0 := (m.countBad true).put 0 22 22 0
    let e : Int := v - (m0.get 2 15 0 : Int)
    let i := clampInt 0 m0.hmax ((m0.get 4 15 0 : Int) + roundDiv (e * m0.ki) 65536)
    let h := clampInt 0 m0.hmax (roundDiv (e * m0.kp) 4096 + i)
    let low := decide (h = 0 ∧ e < -(m0.lockWin : Int))
    let out := clampInt 0 m0.hmax (if m0.ffRail then roundDiv (h * f.rf) 65536 else h)
    let m1 := ((m0.put 4 15 0 i.toNat).put 0 21 21 (b2n low)).put 7 31 16 out.toNat
    let m2 := if m.low && !low then m1.put 7 15 12 0 else m1
    ((m2.countLock (decide (e.natAbs ≤ m0.lockWin))).tickLt (decide (f.seq % 256 = 0)) (!low), true)

/-- A usable sample ends a loop's run of STARVED (R110). -/
def State.endStarved (s : State) (l : Nat) (ok : Bool) : State :=
  if ok then { s with loops := { s.loops with starved := s.loops.starved.filter (· ≠ l) } } else s

/-- Whether a core's writes are discarded: it is not the owner of the flask it serves (R91). -/
def State.discards (s : State) (core f : Nat) : Bool := s.flaskCore f != core

/-- The first pass of one loop on a core: element loops write their trim, port loops their VOA code (R93). -/
def State.passOne (s : State) (d : Die) (core f : Nat) (h : PassFrame) (l : Nat) : State :=
  let p := loopPos l
  let t := loopTile l
  let x := loopLocal l
  let m := s.image core d p
  let held := s.engineHold l || s.hostHold l
  if m.dead held then s
  else if portLoop l then
    let (m1, out) := m.portPass h x (s.fld F.loopCtrlDarkLvl)
    let s1 := (s.storeImage core d p m1).endStarved l (usable (dcWord h.words x) && d == s.activeDie)
    let s2 := if out && !s1.discards core f then s1.actuatorWrite d t (1000 + x) (m1.htrOut : Int) else s1
    if d = s.activeDie ∧ !s.discards core f ∧ m1.low ∧ !m.low then s2.loopEvent 0 cLow l else s2
  else
    let m1 := m.firstPass h x
    let s1 := s.storeImage core d p m1
    if s1.discards core f then s1 else s1.actuatorWrite d t x m1.trimOut

/-- The second pass of an element loop: heater code and bookkeeping (R93). -/
def State.passTwo (s : State) (d : Die) (core f : Nat) (h : PassFrame) (l : Nat) : State :=
  let p := loopPos l
  let x := loopLocal l
  let m := s.image core d p
  if portLoop l || m.dead (s.engineHold l || s.hostHold l) then s
  else
    let m1 := m.secondPass h x
    let s1 := (s.storeImage core d p m1).endStarved l (usable (errWord h.words x) && d == s.activeDie)
    if s1.discards core f then s1 else s1.actuatorWrite d (loopTile l) (1000 + x) (m1.htrOut : Int)

/-- The inner loops of a flask in position order (R90). -/
def flaskLoops (f : Nat) : List Nat := (List.range (flaskCount f)).map (fun p => loopIndex (f / 4) (flaskFirst f + p))

/-! ## Path loops (R112-R115) -/

/-- A path loop that has not run yet: it probes from the first cell upwards (log 10). -/
def PathLoop.start : PathLoop := { step := .probe, place := 0, levelPlace := 0, up := true, probe := none }

/-- The row positions of a column through which a path may pass beside the retired cells: the router routes no connection
through a retired cell of C1 to C18, and straight positions are open (R26, R27). -/
def openRows (gone : List Nat) (k : Nat) : List Nat :=
  (List.range rows).filter (fun r => match cellAt k r with
    | some c => !gone.contains c
    | none => true)

/-- The cells retired when a record was compiled. -/
def Mould.goneCells (m : Mould) : List Nat :=
  match m.layers with
  | (_, gone) :: _ => gone
  | [] => []

/-- The cell that the path to an output crosses in a column of a mould, if the column has one there: in C0 and C19 the cell
that its ports are attached to, retired or not; between them one of the row positions open to it, which the router chose
(R26, R27, R114, R375; log 15). -/
def pathCellOf (m : Mould) (out col : Nat) : Option Nat :=
  if col = 0 then cellAt 0 (m.perm.getD out 0 / 2)
  else if col = 19 then cellAt 19 (out / 2)
  else
    let rs := openRows m.goneCells col
    cellAt col (rs.getD (Config.pathRow m.layers out col % rs.length) 0)

/-- Whether the path loop of an output adjusts a cell: no lower output's path crosses it (R115). -/
def adjusts (m : Mould) (out col : Nat) : Bool :=
  (List.range out).all (fun o => pathCellOf m o col != pathCellOf m out col)

/-- The target of a port in 0.01 dBm (Table 05.29). -/
def State.portTarget (s : State) (i : Nat) : Int := clampInt (-800) 200 (signed 16 (s.fld (F.loopPortTgtTarget i)))

/-! ### The port set-point (R38, R106) -/

/-- The loss along a path, in 0.01 dB: the factory's facets and the cells crossed (R121). -/
def State.pathLoss (s : State) (i o : Nat) (cells : List Nat) : Int :=
  Config.facetLoss i + Config.facetLoss (ports + o) + (cells.map (fun c => s.calValue qLoss c)).sum

/-- The path of an input with the largest loss in the per-path loss map: an output and the cells up to it. Which cells paths cross
between C0 and C19 is not specified (R375; log 111). -/
def State.worstPath (s : State) (i : Nat) : Nat × List Nat :=
  let (o, mid) := Config.worstPath s.cal.values i
  let o := o % ports
  (o, (cellAt 0 (i / 2)).toList ++ mid ++ (cellAt 19 (o / 2)).toList)

/-- The levelling reference loss of an input, in 0.01 dB: the largest among its paths (R106). -/
def State.levelLoss (s : State) (i : Nat) : Int := s.pathLoss i (s.worstPath i).1 (s.worstPath i).2

/-- Whether a DC level and a half more exceeds c hundredths of a dB above the level of +15.0 dBm, 32,767 (Table 04.2). -/
def dcPast (n : Nat) (c : Int) : Bool :=
  if 0 ≤ c then decide (65534 ^ 1000 * 10 ^ c.toNat < (2 * n + 1) ^ 1000)
  else decide (65534 ^ 1000 < (2 * n + 1) ^ 1000 * 10 ^ (-c).toNat)

/-- The least level past which it does, between two levels, within n steps of halving. -/
def dcSearch (c : Int) : Nat → Nat → Nat → Nat
  | 0, _, hi => hi
  | n + 1, lo, hi => let mid := (lo + hi) / 2; if dcPast mid c then dcSearch c n lo mid else dcSearch c n (mid + 1) hi

/-- The nearest DC level of an input monitor to a power in 0.01 dBm (Table 04.2; log 111). -/
def dcLevel (c : Int) : Nat := dcSearch (c - 1500) 16 0 65535

/-- PSET of a core input: the DC level of its port target plus its levelling reference loss, as its monitor's responsivity in force
reads it (R71, R106; log 111). -/
def State.pset (s : State) (i : Nat) : Nat :=
  dcLevel (clampInt (-800) 200 (signed 16 (s.fld (F.loopPortTgtTarget i))) + s.levelLoss i + s.calValue qResp (10304 + i))

/-- PSET written by management firmware, once the parameters have been loaded (R97, R106). -/
def State.setPset (s : State) (i : Nat) : State :=
  if s.loops.loaded then s.changeLoop (10304 + i) (fun m => m.put 2 15 0 (s.pset i)) else s

/-- Every PSET written after a change of a loss or a responsivity (R106). -/
def State.setPsets (s : State) : State := (List.range ports).foldl State.setPset s

/-- Whether 10 log10 of a power in nW over 1 mW exceeds c hundredths of a dB. -/
def dbAbove (a : Nat) (c : Int) : Bool := if 0 ≤ c then decide (10 ^ 6000 * 10 ^ c.toNat < a ^ 1000) else decide (10 ^ 6000 < a ^ 1000 * 10 ^ (-c).toNat)

/-- Whether it lies below c hundredths of a dB. -/
def dbBelow (a : Nat) (c : Int) : Bool := if 0 ≤ c then decide (a ^ 1000 < 10 ^ 6000 * 10 ^ c.toNat) else decide (a ^ 1000 * 10 ^ (-c).toNat < 10 ^ 6000)

/-- The greatest c at or above lo, within n steps of halving, for which the power exceeds or equals c hundredths of a dBm. -/
def dbSearch (a : Nat) : Nat → Int → Int → Int
  | 0, lo, _ => lo
  | n + 1, lo, hi =>
    let mid := (lo + hi) / 2
    if dbBelow a mid then dbSearch a n lo mid else dbSearch a n mid hi

/-- Power in nW as hundredths of a dBm, in the range of a signed halfword. -/
def centiDbm (a : Nat) : Int := dbSearch a 16 (-32768) 32767

/-- The set-point field of a state in word 0x08. -/
def Image.setPoint (m : Image) (bar : Bool) : Int := if bar then m.sget 2 31 16 else m.sget 2 15 0
def Image.withSetPoint (m : Image) (bar : Bool) (v : Int) : Image := if bar then m.sput 2 31 16 v else m.sput 2 15 0 v

/-- Whether the path loop may write to an element's loop (R114). -/
def State.pathWrites (s : State) (e : Nat) : Bool := s.loopState e == lLocking || s.loopState e == lLocked

/-- A set-point of an element moved by the path loop, within plus or minus SPLIM, by a write of its word 0x08; nothing is
written to a loop that is HELD, OPEN, RETIRED or FAULT (R114). -/
def State.movePoint (s : State) (e : Nat) (bar : Bool) (v : Int) : State :=
  if !s.pathWrites e then s
  else
    let lim : Int := clampNat 0 2047 (s.fld F.loopPathCtrlSplim)
    let m := (s.loopImage s.activeDie e).withSetPoint bar (clampInt (-lim) lim v)
    s.recordDies.foldl (fun (s : State) d => s.storeWord (s.flaskCore (loopFlask e)) d (32 * loopPos e + 8) (m.getD 2 0)) s

/-- Whether path loops run (R112). -/
def State.pathOn (s : State) : Bool := s.flag F.loopCtrlPathEn && (s.dev == 1 || s.dev == 2) && s.fabric != 3

/-- The state of output o's path loop. -/
def State.pathLoop (s : State) (o : Nat) : PathLoop := s.loops.path.get (fun _ => PathLoop.start) o
def State.setPathLoop (s : State) (o : Nat) (x : PathLoop) : State :=
  { s with loops := { s.loops with path := s.loops.path.set (fun _ => PathLoop.start) o x } }

/-- A probe in progress reverted: its set-point returns to what it was. Where WAIT reverts it, the output's next step is a probe
with the next cell, which the spec does not state (R113, R114; log 106). -/
def State.revertProbe (s : State) (o : Nat) : State :=
  let x := s.pathLoop o
  let s1 := match x.probe with
    | some p => s.movePoint p.element p.bar p.was
    | none => s
  s1.setPathLoop o { x with probe := none, step := .probe }

/-- Purity in units of 2^-16 from A and P, rounded down; 0 for P = 0 (log 106). -/
def purity (a p : Nat) : Nat := if p = 0 then 0 else 65536 * a / p

/-- The cell of an output's path in a column, if the path loop of that output adjusts it (R114, R115). -/
def pathCell (m : Mould) (o col : Nat) : Option Nat := if adjusts m o col then pathCellOf m o col else none

/-- The probe step (R114). A cell that is skipped uses up its update (log 106). -/
def State.pathProbe (s : State) (o mould rho : Nat) : State :=
  let x := s.pathLoop o
  let m := s.mould mould
  let next := { x with place := (x.place + 1) % 20, step := PathStep.decide, probe := none }
  match pathCell m o x.place with
  | none => s.setPathLoop o next
  | some c =>
    let e := 2 * c
    let bar := m.cell c == CellState.bar.code
    if !s.pathWrites e then s.setPathLoop o next
    else
      let was := (s.loopImage s.activeDie e).setPoint bar
      let d : Int := s.fld F.loopPathCtrlDelta
      (s.movePoint e bar (was + (if x.up then d else -d))).setPathLoop o
        { next with probe := some { element := e, bar := bar, was := was, rho := rho, mould := mould } }

/-- The decide step: the probe is kept if purity has risen; otherwise the set-point returns and the direction turns; under
another mould the probe is reverted (R114). -/
def State.pathDecide (s : State) (o mould rho : Nat) : State :=
  let x := s.pathLoop o
  match x.probe with
  | none => s.setPathLoop o { x with step := .level }
  | some p =>
    if p.mould = mould ∧ p.rho < rho then s.setPathLoop o { x with probe := none, step := .level }
    else
      let s1 := s.revertProbe o
      s1.setPathLoop o { s1.pathLoop o with step := .level, up := if p.mould = mould then !x.up else x.up }

/-- A set-point moved d further from zero; from zero itself it moves upwards, which the spec does not state (log 106). -/
def further (v d : Int) : Int := if v < 0 then v - d else v + d

/-- A set-point moved at most d towards zero, never past it. -/
def nearer (v d : Int) : Int := if v < 0 then min 0 (v + d) else max 0 (v - d)

/-- The level step on the trail element of the next cell (R114). -/
def State.pathLevel (s : State) (o mould : Nat) (tooMuch tooLittle : Bool) : State :=
  let x := s.pathLoop o
  let m := s.mould mould
  let s1 := s.setPathLoop o { x with levelPlace := (x.levelPlace + 1) % 20, step := .probe }
  match pathCell m o x.levelPlace with
  | none => s1
  | some c =>
    let e := 2 * c + 1
    let bar := m.cell c == CellState.bar.code
    let v := (s.loopImage s.activeDie e).setPoint bar
    let d : Int := s.fld F.loopPathCtrlDelta
    if tooMuch then s1.movePoint e bar (further v d)
    else if tooLittle then s1.movePoint e bar (nearer v d)
    else s1

/-- The figures of LOOP_PATH_STAT: rho x 256 and the power error in 0.01 dB; the direction of their rounding is not stated
(Table 05.31; log 63). -/
def State.pathFigures (s : State) (o input a p : Nat) : State :=
  let rho := clampNat 0 255 ((if p = 0 then 0 else 256 * a / p) + b2n (Config.roundUp a p))
  let r := clampInt (-32768) 32767 (centiDbm a + (b2n (Config.roundUp a 1000000) : Int) - s.portTarget input)
  (s.setFld (F.loopPathStatRho o) rho).setFld (F.loopPathStatPwr o) (unsigned 16 r)

/-- An update of path loop o on the qualifying frames of its latest mould among those since its previous update, whose figures
are the means rounded down (R112-R114; log 106). -/
def State.pathUpdate (s : State) (o : Nat) : State :=
  let frames := s.loops.good.get (fun _ => []) o
  let s0 := { s with loops := { s.loops with good := s.loops.good.set (fun _ => []) o [] } }
  if !s.pathOn then s0.setFld (F.loopPathStatState o) 0
  else
    let mould := (frames.head?.map (·.1)).getD 0
    let same := frames.filter (fun f => f.1 == mould)
    if same.length < clampNat 1 8 (s.fld F.loopPathCtrlMinq) then
      (if (s0.pathLoop o).probe.isSome then s0.revertProbe o else s0).setFld (F.loopPathStatState o) 2
    else
      let a := (same.map (·.2.1)).sum / same.length
      let p := (same.map (·.2.2)).sum / same.length
      let input := ((s.mould mould).perm).getD o 0
      let tol : Int := s.fld F.loopPathCtrlTol
      let tgt := s.portTarget input
      let s1 := (s0.setFld (F.loopPathStatState o) 1).pathFigures o input a p
      match (s1.pathLoop o).step with
      | .probe => s1.pathProbe o mould (purity a p)
      | .decide => s1.pathDecide o mould (purity a p)
      | .level => s1.pathLevel o mould (dbAbove a (tgt + tol)) (dbBelow a (tgt - tol))

/-- Whether a frame qualifies for an output, and what it then contributes (R113). -/
def State.qualify (s : State) (f : PassFrame) (o : Nat) : Option (Nat × Nat × Nat) :=
  let head := f.words.getD 4 0
  let m := 681 + o % 37
  let e := errWord f.words m
  let dc := dcWord f.words m
  if bitsOf head 17 13 = 0 ∧ usable e ∧ usable dc then
    let resp := s.calValue qResp (10896 + o)
    some (bitsOf head 12 0, Config.tonePower (sampleValue e) resp, Config.totalPower (sampleValue dc) resp)
  else none

/-- The outputs of a flask's path loops (R112). -/
def flaskOutputs (f : Nat) : List Nat := ((List.range 37).filter (fun k => k % 4 = f % 4)).map (fun k => 37 * (f / 4) + k)

/-- The path loops of a flask in a pass: each takes the frame if it qualifies, and those due update (R112, R113). -/
def State.passPaths (s : State) (f : Nat) (h : PassFrame) : State :=
  (flaskOutputs f).foldl (fun (s : State) o =>
    let s1 := match s.qualify h o with
      | some g => { s with loops := { s.loops with good := s.loops.good.modify (fun _ => []) o (fun gs => (g :: gs).take 8) } }
      | none => s
    if h.seq % 8 = (o % 37 / 4) % 8 then s1.pathUpdate o else s1) s

/-! ## LOOP_PASS and what it finds -/

/-- The flask a core serves: as its owner, or as the new core in a handover's SHADOW (R91, R249). -/
def State.servedFlask (s : State) (core : Nat) : Option Nat := (List.range 64).find? (fun f => (s.flaskCores f).contains core)

/-- LOOP_QUERY_RES of a loop as it stands (Table 05.15). -/
def State.queryOf (s : State) (l : Nat) : Word :=
  let m := s.loopImage s.activeDie l
  let out := if portLoop l then m.htrOut else unsigned 16 m.trimOut
  word (s.loopState l * 2 ^ 29 + b2n (s.hostHold l) * 2 ^ 28 + b2n (s.engineHold l) * 2 ^ 27 + b2n (portLoop l && m.low) * 2 ^ 26
    + b2n (portLoop l && m.dark) * 2 ^ 25 + m.lockCnt * 2 ^ 19 + out)

/-- How long an element loop has been LOCKED, and since when its cell has been CROSS and BAR, after one frame more (R123). -/
def State.countLocked (s : State) (l : Nat) : Nat × Nat × Nat :=
  let (n, c, b) := s.loops.locked.get (fun _ => (0, 256, 256)) l
  let shown := (s.tile (loopTile l)).shown.get (fun _ => 0) (l % 644)
  let on := s.loopState l == lLocked
  (if on then min 256 (n + 1) else 0, if on && shown == 1 then 0 else min 256 (c + 1), if on && shown == 2 then 0 else min 256 (b + 1))

/-- The end of a pass of a flask on the active die: what LOOP_QUERY_RES shows of its loops until the next (Table 05.15), and
the pass's cycle count (R95, Table 05.27). -/
def State.passEnds (s : State) (core f cycles : Nat) : State :=
  let n := clampNat 0 8191 cycles
  let s1 := if s.discards core f then s
    else { s with loops := { s.loops with
      passed := (flaskLoops f).foldl (fun (m : SMap Word) l => m.set (fun _ => 0) l (s.queryOf l)) s.loops.passed
      locked := ((flaskLoops f).filter (fun l => !portLoop l)).foldl (fun (m : SMap (Nat × Nat × Nat)) l =>
        m.set (fun _ => (0, 256, 256)) l (s.countLocked l)) s.loops.locked } }
  let s2 := s1.setFld (F.loopPassLast core) n
  if s2.fld (F.loopPassMax core) < n then s2.setFld (F.loopPassMax core) n else s2

/-- LOOP_PASS: the firmware runtime of a core serves the newest frame of its tile: header, first pass, second pass, path
loops, and WAITF (R93). The cycle count of the pass is reported for the active die (Table 05.27). -/
def State.loopPass (s : State) (d : Die) (core cycles : Nat) : State :=
  match s.servedFlask core with
  | none => s
  | some f =>
    let id := core + 128 * d.code
    let x := s.tile (f / 4)
    let c := s.core id
    let new := c.netNs != word (x.frameAt % second) || c.netSec != word (x.frameAt / second)
    if !s.power.fastClocks || x.frameAt == 0 || c.halted || (c.asleep && !new) then s
    else
      let s1 := if s.time.net < x.frameAt then s else s.untilNet (x.frameAt + 200)
      let c1 := c.serve ((x.seq + 65535) % 65536) 0 x.frameAt
      let s2 := s1.setCore id c1
      let h := c1.passFrame
      let s3 := (flaskLoops f).foldl (fun (s : State) l => s.passOne d core f h l) s2
      let s4 := (flaskLoops f).foldl (fun (s : State) l => s.passTwo d core f h l) s3
      let s5 := if d = s4.activeDie ∧ !s4.discards core f then s4.passPaths f h else s4
      let s6 := s5.setCore id { s5.core id with asleep := true, cycle := cycles }
      if d = s6.activeDie then s6.passEnds core f cycles else s6

def execLoopPass (d : Die) (k : Fin 72) (cycles : Nat) (s : State) : Out := .next (s.loopPass d k.val cycles)

/-- The state of a loop as LOOP_QUERY_RES shows it. -/
def State.passedState (s : State) (l : Nat) : Nat := bitsOf (s.loops.passed.get (fun _ => 0) l) 31 29

/-- Whether a loop counts as settled in its latest completed pass (R109). -/
def State.passedSettled (s : State) (l : Nat) : Bool :=
  let w := s.loops.passed.get (fun _ => 0) l
  let st := s.passedState l
  if portLoop l then
    st == lLocked || st == lRetired || (st == lHeld && bitOf w 25 && !bitOf w 27 && !bitOf w 28) || (st == lLocking && bitOf w 26)
  else st == lLocked || s.loopRetired l

/-- LOOP_COUNTS_A and LOOP_COUNTS_B at a frame boundary, from the latest completed passes (Tables 05.17, 05.19). -/
def State.countLoops (s : State) : State :=
  let sts := (List.range innerLoops).map s.passedState
  let n := fun (st : Nat) => (sts.filter (fun x => x == st)).length
  (s.setReg R.loopCountsA (word (b2n ((List.range innerLoops).all s.passedSettled) * 2 ^ 31 + n lLocking * 2 ^ 16 + n lLocked))).setReg
    R.loopCountsB (word (n lFault * 2 ^ 16 + n lHeld))

/-- LOOP_LOCK_ACQUIRED: LOCK_CNT has reached 32 (Table 05.6). -/
def execLoopLockAcquired (loop : Fin 10896) (s : State) : Out :=
  .next (let m := s.loopImage s.activeDie loop.val
    if m.state = lLocking ∧ 32 ≤ m.lockCnt then s.changeLoop loop.val (fun m => (m.put 0 2 0 lLocked).put 0 8 3 0) else s)

/-- LOCK_LOSS: four consecutive usable samples outside LOCK_WIN (Table 05.6). -/
def execLockLoss (loop : Fin 10896) (s : State) : Out :=
  .next (let m := s.loopImage s.activeDie loop.val
    if m.state = lLocked ∧ 4 ≤ m.lockCnt then
      (s.changeLoop loop.val (fun m => ((m.put 0 2 0 lLocking).put 0 8 3 0).put 7 15 12 0)).loopEvent 1 cLockLoss loop.val
    else s)

/-- LOCK_TIMEOUT: LT has reached LOOP_CTRL.LOCK_TO, which is not 0; never for a LOW port loop (Table 05.6, R106). -/
def execLockTimeout (loop : Fin 10896) (s : State) : Out :=
  .next (let m := s.loopImage s.activeDie loop.val
    let to_ := s.fld F.loopCtrlLockTo
    if m.state = lLocking ∧ to_ ≠ 0 ∧ to_ ≤ m.lt ∧ !(portLoop loop.val && m.low) then
      (s.changeLoop loop.val (fun m => m.put 0 2 0 lFault)).loopEvent 2 cLockTimeout loop.val
    else s)

/-- PINNED: PIN has reached 15 (Table 05.6). -/
def execPinned (loop : Fin 10896) (s : State) : Out :=
  .next (let m := s.loopImage s.activeDie loop.val
    if (m.state = lLocking ∨ m.state = lLocked) ∧ m.pin = 15 then
      (s.changeLoop loop.val (fun m => m.put 0 2 0 lFault)).loopEvent 2 cPinned loop.val
    else s)

/-- STARVED: BAD has reached LOOP_CTRL.STARVE, once until a usable sample arrives (R110). -/
def execStarved (loop : Fin 10896) (s : State) : Out :=
  .next (let m := s.loopImage s.activeDie loop.val
    let st := s.fld F.loopCtrlStarve
    if st ≠ 0 ∧ st ≤ m.bad ∧ !s.loops.starved.contains loop.val then
      ({ s with loops := { s.loops with starved := loop.val :: s.loops.starved } }).loopEvent 1 cStarved loop.val
    else s)

/-- LOOP_OVERRUN (R95). -/
def execLoopOverrun (k : Fin 72) (s : State) : Out :=
  .next ((s.count F.loopOverrunCount 1).raise 0xA01 2 0 (word k.val))

/-! ## Handovers (R91, R92) -/

/-- Whether a core serves a flask or is the target of a handover in progress (R92). -/
def State.coreTaken (s : State) (n : Nat) : Bool :=
  (List.range 64).any (fun f => s.flaskCore f == n || s.loops.handing.find? f == some n)

/-- A handover begun to a core (R91). -/
def State.beginHandover (s : State) (f next : Nat) : State :=
  let s1 := (s.setFld (F.loopFlaskMapNext f) next).setFld (F.loopFlaskMapState f) hoCopy
  { s1 with loops := { s1.loops with handing := s1.loops.handing.put f next } }

/-- A handover asked for: STATE becomes COPY; discarded by R92; without effect when NEXT is the owner. -/
def State.handover (s : State) (m : Master) (f next shadow : Nat) : State :=
  let fields := fun (s : State) => (s.setFld (F.loopFlaskMapNext f) next).setFld (F.loopFlaskMapShadow f) shadow
  if s.fld (F.loopFlaskMapState f) ≠ hoIdle ∨ 71 < next then s.refuseReg m (R.loopFlaskMap f)
  else if next = s.flaskCore f then fields s
  else if s.coreTaken next then s.refuseReg m (R.loopFlaskMap f)
  else (fields s).beginHandover f next

def execFlaskHandover (m : Master) (f : Fin 64) (next : Fin 128) (shadow : Fin 16) (s : State) : Out :=
  .next (s.atReg m (R.loopFlaskMap f.val) (fun s => s.handover m f.val next.val shadow.val))

/-- HANDOVER_COPY: records and hold bitmaps copied on both dies; the swap falls SHADOW periods after the first frame that
the new core serves (R91; 0 acts as 1, Table 05.25). -/
def State.handoverCopy (s : State) (f : Nat) : State :=
  if s.fld (F.loopFlaskMapState f) ≠ hoCopy then s
  else
    let old := s.flaskCore f
    let new := (s.loops.handing.find? f).getD old
    let s1 := [Die.cope, Die.drag].foldl (fun (s : State) d =>
      let src := s.core (old + 128 * d.code)
      let dst := s.core (new + 128 * d.code)
      let kept := dst.mem.filter (fun p => 0x1638 ≤ p.1)
      s.setCore (new + 128 * d.code) { dst with mem := src.mem.filter (fun p => p.1 < 0x1638) ++ kept }) s
    let base := s1.time.net / 6400 * 6400
    let first := if s1.time.net < base + 200 then base else base + 6400
    let n := clampNat 1 15 (s1.fld (F.loopFlaskMapShadow f))
    let s2 := s1.setFld (F.loopFlaskMapState f) hoShadow
    { s2 with loops := { s2.loops with shadow := s2.loops.shadow.put f (first + 6400 * n) } }

def execHandoverCopy (f : Fin 64) (s : State) : Out := .next (s.handoverCopy f.val)

/-- HANDOVER_SWAP: at the frame boundary after the shadow periods CORE takes NEXT and STATE returns to IDLE (R91). -/
def State.handoverSwap (s : State) (f : Nat) : State :=
  if s.fld (F.loopFlaskMapState f) ≠ hoShadow then s
  else
    let s1 := s.untilNet (s.loops.shadow.get (fun _ => 0) f)
    let new := (s1.loops.handing.find? f).getD (s1.flaskCore f)
    let s2 := (s1.setFld (F.loopFlaskMapCore f) new).setFld (F.loopFlaskMapState f) hoIdle
    { s2 with loops := { s2.loops with shadow := s2.loops.shadow.erase f, handing := s2.loops.handing.erase f } }

def execHandoverSwap (f : Fin 64) (s : State) : Out := .next (s.handoverSwap f.val)

/-! ## Loop commands (R116) -/

/-- The command codes of LOOP_CMD (Table 05.11). -/
abbrev lcOpen : Nat := 1
abbrev lcClose : Nat := 2
abbrev lcHold : Nat := 3
abbrev lcRelease : Nat := 4

/-- A command written to LOOP_CMD: queued for the frame boundary, or discarded and logged (R116, Table 05.11). -/
def State.loopCmd (s : State) (m : Master) (cmd l : Nat) : State :=
  if innerLoops ≤ l ∨ cmd < 1 ∨ 4 < cmd then s.refuseReg m R.loopCmd
  else if s.fld (F.loopFlaskMapState (loopFlask l)) = hoCopy ∨ (cmd = lcClose ∧ (s.loopImage s.activeDie l).state = lRetired) then
    s.refuseReg m R.loopCmd
  else { s with loops := { s.loops with cmds := s.loops.cmds ++ [(cmd, l, s.time.net)] } }

def execLoopCmdOpen (m : Master) (index : Fin 16384) (s : State) : Out :=
  .next (s.atReg m R.loopCmd (fun s => s.loopCmd m lcOpen index.val))
def execLoopCmdClose (m : Master) (index : Fin 16384) (s : State) : Out :=
  .next (s.atReg m R.loopCmd (fun s => s.loopCmd m lcClose index.val))
def execLoopCmdHold (m : Master) (index : Fin 16384) (s : State) : Out :=
  .next (s.atReg m R.loopCmd (fun s => s.loopCmd m lcHold index.val))
def execLoopCmdRelease (m : Master) (index : Fin 16384) (s : State) : Out :=
  .next (s.atReg m R.loopCmd (fun s => s.loopCmd m lcRelease index.val))

/-- A record entering LOCKING: its counts start again (Table 05.6; log 64). -/
def Image.relock (m : Image) : Image := (((m.put 0 2 0 lLocking).put 0 8 3 0).put 0 20 17 0).put 7 15 12 0

/-- One loop command taking effect (R116, Table 05.6). -/
def State.loopEffect (s : State) (cmd l : Nat) : State :=
  if cmd = lcOpen then s.changeLoop l (fun m => if m.state = lRetired then m else m.put 0 2 0 lOpen)
  else if cmd = lcClose then s.changeLoop l (fun m => if m.state = lRetired then m else m.relock)
  else
    let s1 := s.setHold l 8 (decide (cmd = lcHold))
    [Die.cope, Die.drag].foldl (fun (s : State) d => s.putHolds (s.flaskCore (loopFlask l) + 128 * d.code) (loopFlask l)) s1

/-- LOOP_CMD_EFFECT: at the first frame boundary after the write, commands written before it take effect in issue order
(R116). -/
def State.loopEffects (s : State) : State :=
  match s.loops.cmds with
  | [] => s
  | (_, _, at_) :: _ =>
    let s1 := s.untilNet (s.nextPeriod at_ 0)
    let now := s1.loops.cmds.filter (fun c => decide (c.2.2 < s1.time.net))
    let later := s1.loops.cmds.filter (fun c => !decide (c.2.2 < s1.time.net))
    now.foldl (fun (s : State) c => s.loopEffect c.1 c.2.1) { s1 with loops := { s1.loops with cmds := later } }

def execLoopCmdEffect (s : State) : Out := .next s.loopEffects

/-- Every loop that is not retired entering LOCKING at entry to HOLD from KEEP, its shakeout hold cleared (Table 05.6,
R107). -/
def State.lockAll (s : State) : State :=
  (List.range innerLoops).foldl (fun (s : State) l =>
    (s.setHold l 2 false).changeLoop l (fun m =>
      if m.state = lRetired then m else if m.state = lLocking ∨ m.state = lLocked then m else m.relock)) s

/-- Every loop that is not retired OPEN: a POWER_UP pass closes none (R128). -/
def State.openAll (s : State) : State :=
  (List.range innerLoops).foldl (fun (s : State) l => s.changeLoop l (fun m => if m.state = lRetired then m else m.put 0 2 0 lOpen)) s

/-- Every loop HELD by a shakeout (R20, R107). -/
def State.holdAll (s : State) : State := (List.range innerLoops).foldl (fun (s : State) l => s.setHold l 2 true) s

/-! ## The contribution of a slot to connectivity verification (R45) -/

/-- Whether the tone of the input intended for an output is present: in HOLD and RUN, out of the rest ring, on every input whose
port loop is neither OPEN nor RETIRED, and on S0 while no calibration measures through REF_IN (R43). -/
def State.tonePresent (s : State) (out : Nat) : Bool :=
  let i := s.moulds.perm.getD out 0
  let st := (s.loopImage s.activeDie (10304 + i)).state
  s.dev != 0 && !s.flag F.mldInForceZero && st != lOpen && st != lRetired && !(i == 580 && s.cal.viaRef)

/-- PILOT_CONTRIBUTION: a window that has its 64 contributions is judged first, and this one opens the next (R45). -/
def execPilotContribution (out : Fin 592) (corr : Int) (power : Nat) (s : State) : Out :=
  .next (if s.contributes out.val (s.tonePresent out.val) then (s.verdict out.val).contribute out.val corr power else s)

end Sys2Proof.Machine
end

