-- ==== Sys2Proof/Machine/Coefficients.lean ====
section
/-!
DEFINITION. Calibrated coefficients (R117-R124, R131-R139): what a measurement gives of each quantity, its limits, quality entries
and the reference chain, the instants at which results come into force, and the SM2560 coefficient window.
-/
namespace Sys2Proof.Machine

/-! ## Quantities and objects (Table 06.2) -/

/-- Whether an object of a quantity exists. -/
def objectOk (q o : Nat) : Bool :=
  if q = qTref then decide (o < 16)
  else if q = qOfs ∨ q = qGain then decide (o < 768)
  else if q = qResp then decide (o < 11488)
  else if q = qCode ∨ q = qHeff ∨ q = qDither ∨ q = qKxt then decide (o < 10304)
  else if q = qLoss then decide (o < cells ∨ (lossPort ≤ o ∧ o < lossPort + ports))
  else false

/-- The object index in a data word: the element, monitor, tile, ADC channel, cell or core port (R124). -/
def objectIndex (q o : Nat) : Nat := if q = qLoss ∧ lossPort ≤ o then o - lossPort else o

/-- The object of a result, apart from its quantity: an element, monitor, tile, ADC channel, cell or core port (R124). -/
def objectKey (q o : Nat) : Nat :=
  if q = qTref then 60000 + o
  else if q = qOfs ∨ q = qGain then 30000 + o
  else if q = qResp then 40000 + o
  else if q = qLoss then 70000 + o
  else o

/-- The tile of an object. -/
def objectTile (q o : Nat) : Nat :=
  if q = qTref then o
  else if q = qOfs ∨ q = qGain then o / 48
  else if q = qResp then (if o < 10304 then o / 644 else if o < 10896 then (o - 10304) / 37 else (o - 10896) / 37)
  else if q = qLoss then (if o < lossPort then o / 322 else (o - lossPort) / 37)
  else o / 644

/-- The factory codes of an element. -/
def factoryCodes (e : Nat) : Codes :=
  { cross6 := Config.factoryCode e 0, bar6 := Config.factoryCode e 1, cross12 := Config.factoryCode e 2, bar12 := Config.factoryCode e 3 }

/-! ## What a measurement gives (R121, R122) -/

/-- A fraction rounded half away from zero. -/
def roundRat (x : Rat) : Int := roundDiv x.num x.den

/-- The codes of an element measured last: those that wait to come into force, else those in force. -/
def State.latestCodes (s : State) (e : Nat) : Codes :=
  match s.cal.waiting.find? (calKey qCode e) with
  | some w => w.result.codes
  | none => s.codes e

/-- A value measured last, waiting or in force. -/
def State.latest (s : State) (q o : Nat) : Int :=
  match s.cal.waiting.find? (calKey q o) with
  | some w => w.result.value
  | none => s.calValue q o

/-- The parabola fitted by least squares to 64 tap powers at successive codes, of which the 33rd is the expected one: the code of its
vertex and its power there (R122). A fit without curvature has no vertex: its code is then a free one (log 12). -/
structure Fit where
  vertex : Rat
  least : Rat

/-- The sum of tap powers over the codes' places x = 2 i - 63 to the k-th power. -/
def powerSum (k : Nat) (ys : List Nat) : Rat :=
  ((List.range 64).map (fun i => ((2 * Int.ofNat i - 63) ^ k * Int.ofNat (ys.getD i 0) : Int))).sum

def fitSweep (expected free : Int) (ys : List Nat) : Fit :=
  let n : Rat := powerSum 0 (List.replicate 64 1)
  let x2 := powerSum 2 (List.replicate 64 1)
  let x4 := powerSum 4 (List.replicate 64 1)
  let slope := powerSum 1 ys / x2
  let curve := (n * powerSum 2 ys - x2 * powerSum 0 ys) / (n * x4 - x2 * x2)
  let base := (powerSum 0 ys - curve * x2) / n
  if curve = 0 then { vertex := free, least := base }
  else { vertex := expected + (-slope / (2 * curve) - 1) / 2, least := base - slope * slope / (4 * curve) }

/-- The greatest extinction from lo up, within n steps of halving, that the ratio of a power to a fitted minimum p / q reaches to the
nearest 0.1 dB. -/
def extSearch (a p q : Nat) : Nat → Nat → Nat → Nat
  | 0, lo, _ => lo
  | n + 1, lo, hi =>
    let mid := (lo + hi) / 2
    if mid ≠ 0 ∧ (a * q) ^ 200 < p ^ 200 * 10 ^ (2 * mid - 1) then extSearch a p q n lo mid else extSearch a p q n mid hi

/-- Extinction in 0.1 dB: the largest tap power of a sweep against its fitted minimum; 1,023 where that is not above zero (R122). -/
def extinction (ys : List Nat) (least : Rat) : Nat :=
  if least ≤ 0 then 1023 else extSearch (ys.foldl max 0) least.num.toNat least.den 10 0 1024

/-- The phase between a rounded code and its vertex, in 0.1 mrad: the codes of cross and bar lie pi apart (R122). -/
def phaseError (vertex : Rat) (apart : Int) : Nat :=
  if apart = 0 then 4095
  else (roundRat (max (vertex - roundRat vertex) (roundRat vertex - vertex) * 314159265 / (10000 * apart.natAbs))).toNat

/-- EO_CODE by a sweep: the rounded vertices, the least extinction and the greatest residual phase error among its fits (R122;
log 12). -/
def State.sweepResult (s : State) (e : Nat) (sweeps : List (List Nat)) (free : Int) (factory : Bool) : Codes × Nat × Nat :=
  let was := if factory then factoryCodes e else s.codes e
  let ys := fun i => sweeps.getD i []
  let fits := [fitSweep was.cross6 free (ys 0), fitSweep was.bar6 free (ys 1), fitSweep was.cross12 free (ys 2), fitSweep was.bar12 free (ys 3)]
  let fit := fun i => fits.getD i { vertex := 0, least := 0 }
  let code := fun i => roundRat (fit i).vertex
  let c : Codes := { cross6 := code 0, bar6 := code 1, cross12 := code 2, bar12 := code 3 }
  let ext := fun i => extinction (ys (2 * (i / 2)) ++ ys (2 * (i / 2) + 1)) (fit i).least
  let err := fun i => phaseError (fit i).vertex (code (2 * (i / 2) + 1) - code (2 * (i / 2)))
  (c, [0, 1, 2, 3].foldl (fun n i => min n (ext i)) 1023, [0, 1, 2, 3].foldl (fun n i => max n (err i)) 0)

/-- Whether a DC level stands at or above x twohundredths of a dB over the level of +15.0 dBm, 32,767 (Table 04.2). -/
def dcReaches (n : Nat) (x : Int) : Bool :=
  if 0 ≤ x then decide (32767 ^ 2000 * 10 ^ x.toNat ≤ n ^ 2000) else decide (32767 ^ 2000 ≤ n ^ 2000 * 10 ^ (-x).toNat)

/-- The greatest hundredth of a dB from lo up, within n steps of halving, that a DC level reaches to the nearest. -/
def dcCentiSearch (n : Nat) : Nat → Int → Int → Int
  | 0, lo, _ => lo
  | k + 1, lo, hi =>
    let mid := (lo + hi) / 2
    if dcReaches n (2 * mid - 1) then dcCentiSearch n k mid hi else dcCentiSearch n k lo mid

/-- A DC level as power in 0.01 dBm at the monitor's design responsivity (Table 04.2). -/
def dcCenti (n : Nat) : Int := 1500 + dcCentiSearch n 13 (-8192) 1

/-- The unknowns of a reading, as keys of values: its monitor's responsivity, and the losses of the cells on its path (R121). -/
def readingUnknowns (r : Reading) : List Nat := calKey qResp r.monitor :: r.cells.map (calKey qLoss)

/-- How a reading rests on an unknown: once on the responsivity, and less each time its path crosses the cell. -/
def readingWeight (r : Reading) (k : Nat) : Int :=
  if k = calKey qResp r.monitor then 1 else -(((r.cells.map (calKey qLoss)).filter (· == k)).length : Int)

/-- How far a reading, less its monitor's zero, lies from what the values in force make of REF_IN's -3.00 dBm, in 0.01 dB (R121). -/
def State.residual (s : State) (r : Reading) : Int :=
  dcCenti (r.dc - r.dark).toNat + 300 - s.calValue qResp r.monitor + (r.cells.map (s.calValue qLoss)).sum

/-- The solution of linear equations, each a row of coefficients followed by its right side; an unknown that they leave undetermined
is 0 (log 12). -/
def solveRows : Nat → List (List Rat) → List Rat
  | 0, _ => []
  | n + 1, rows =>
    match rows.find? (fun r => r.headD 0 != 0) with
    | none => 0 :: solveRows n (rows.map List.tail)
    | some p =>
      let xs := solveRows n (rows.map (fun r => List.zipWith (fun a b => a - r.headD 0 / p.headD 0 * b) r.tail p.tail))
      (p.tail.getLastD 0 - (List.zipWith (· * ·) p.tail.dropLast xs).sum) / p.headD 0 :: xs

/-- The value of an unknown that solves the readings by least squares, among the unknowns that are free; every other keeps its value in
force (R121). -/
def State.leastSquares (s : State) (rs : List Reading) (unknown : Nat → Bool) (k : Nat) : Int :=
  let ks := ((rs.flatMap readingUnknowns).filter unknown).eraseDups
  let rows := ks.map (fun i =>
    (ks.map (fun j => (((rs.map (fun r => readingWeight r i * readingWeight r j)).sum : Int) : Rat)))
      ++ [(((rs.map (fun r => readingWeight r i * s.residual r)).sum : Int) : Rat)])
  let x := (solveRows ks.length rows).getD (ks.idxOf k) 0
  s.cal.values.get factoryAt k + roundRat x

/-- The losses measured last taken as the loss map. -/
def State.withLosses (s : State) : State :=
  s.cal.waiting.foldl (fun (s : State) p =>
    if p.2.result.quantity = qLoss then { s with cal := { s.cal with values := s.cal.values.set factoryAt p.1 p.2.result.value } } else s) s

/-- A quotient, or a free number where there is none (log 12). -/
def quotient (n : Int) (d : Int) (free : Int) : Int := if d = 0 then free else roundRat ((n : Rat) / d)

/-- What a measurement gives: TREF in uV, ADC_OFS in corrected LSB, ADC_GAIN a GAIN code, RESP in 0.01 dB from its design value, HEFF
an HCONV code, DITHER an ESCALE code, KXT in trim LSB, LOSS in 0.01 dB (Table 06.2, R121, R122). In fettling a responsivity alone is
unknown (R127). -/
def State.measure (s : State) (r : Measured) (factory fettling : Bool) : Result × State :=
  let (n, s1) := s.freeNat
  let free : Int := n
  let q := r.quantity.val
  let o := r.object
  let (c, ext, pherr) := if q = qCode then s.sweepResult o r.sweeps free factory else (s.codes o, 0, 0)
  let v : Int :=
    if q = qTref then quotient (2500000 * r.a) r.b free
    else if q = qOfs then roundDiv r.a 256
    else if q = qGain then
      quotient (16384 * Config.refCode * s.latest qTref (o / 48) * 256) (1250000 * (r.a - 256 * s.latest qOfs o)) free
    else if q = qResp then
      (if o < 10304 then r.a else s.leastSquares r.readings (fun k => !fettling || k == calKey qResp o) (calKey qResp o))
    else if q = qHeff then quotient (256 * (Config.heaterStep : Int)) ((r.a - (s.latestCodes o).cross6).natAbs : Int) free
    else if q = qKxt then quotient r.a (16 * r.b) free
    else if q = qLoss then
      (if lossPort ≤ o then s.withLosses.levelLoss (o - lossPort) else s.leastSquares r.readings (fun _ => true) (calKey qLoss o))
    else r.a
  ({ quantity := q, object := o, value := v, codes := c, ext := ext, pherr := pherr, gain := r.b, amp := r.c }, s1)

/-! ## Limits (R120, Table 06.2) -/

/-- The fixed limits of codes: both spans, those of 12 V at twice their value. -/
def Codes.inFixed (c : Codes) : Bool :=
  let ok := fun (cross bar : Int) => decide (cross.natAbs ≤ 410 ∧ 956 ≤ bar - cross ∧ bar - cross ≤ 1707)
  ok c.cross6 c.bar6 && ok (2 * c.cross12) (2 * c.bar12)

/-- The drift of codes against earlier ones. -/
def Codes.inDrift (c p : Codes) (lim : Nat) : Bool :=
  decide ((c.cross6 - p.cross6).natAbs ≤ lim ∧ (c.bar6 - p.bar6).natAbs ≤ lim ∧ (2 * (c.cross12 - p.cross12)).natAbs ≤ lim
    ∧ (2 * (c.bar12 - p.bar12)).natAbs ≤ lim)

/-- The resistance of an element's heater: 64 mW within 10 % at 12 V (R84; log 12). -/
def heaterOhm (e : Nat) : Nat := 2046 + Config.heaterOhms e % 455

/-- Whether HCONV x (bar - cross) heater codes, which turn by pi, take 15 to 32 mW at the measured VHTR (R84, R120). -/
def State.heffInFixed (s : State) (e : Nat) (hconv apart : Int) : Bool :=
  let mv : Int := s.fld (F.tileVhtrMv (e / 644))
  let power := hconv * apart * mv * mv
  let unit : Int := 1000 * 65536 * 256 * (heaterOhm e : Int)
  decide (15 * unit ≤ power ∧ power ≤ 32 * unit)

/-- The fixed limits of a result; a path's total is at most the 8.5 dB of Table 02.6. -/
def State.inFixed (s : State) (r : Result) : Bool :=
  let q := r.quantity
  if q = qTref then decide (1243750 ≤ r.value ∧ r.value ≤ 1256250)
  else if q = qOfs then decide (r.value.natAbs ≤ 512)
  else if q = qGain then decide (0x3800 ≤ r.value ∧ r.value ≤ 0x4800)
  else if q = qResp then decide (r.value.natAbs ≤ 300)
  else if q = qCode then r.codes.inFixed && decide (200 ≤ r.ext)
  else if q = qHeff then
    let c := s.latestCodes r.object
    s.heffInFixed r.object r.value (c.bar6 - c.cross6)
  else if q = qDither then decide (500 ≤ r.gain ∧ r.gain ≤ 2000 ∧ 400 ≤ r.amp ∧ r.amp ≤ 600)
  else if q = qKxt then decide (r.value.natAbs ≤ 64)
  else if lossPort ≤ r.object then decide (r.value ≤ 850)
  else decide (0 ≤ r.value ∧ r.value ≤ 50)

/-- The drift limit of a quantity, in service or at power-up: absolute, or relative in 0.01 %. -/
def driftAbs (q : Nat) (up : Bool) : Option Nat :=
  if q = qOfs then some (if up then 256 else 64)
  else if q = qResp then some (if up then 100 else 20)
  else if q = qKxt then some (if up then 32 else 8)
  else if q = qLoss then some (if up then 30 else 10)
  else none
def driftRel (q : Nat) (up : Bool) : Nat :=
  if q = qTref then (if up then 20 else 5)
  else if q = qGain then (if up then 200 else 50)
  else if q = qHeff then (if up then 1500 else 500)
  else (if up then 3000 else 1000)

/-- Whether a value lies within the drift limit of its previous value. -/
def driftOk (q : Nat) (up : Bool) (v prev : Int) : Bool :=
  match driftAbs q up with
  | some lim => decide ((v - prev).natAbs ≤ lim)
  | none => decide (10000 * (v - prev).natAbs ≤ driftRel q up * prev.natAbs)

/-- Whether a result keeps its drift limit: against the value in force, in a POWER_UP pass against the factory value; both values of
DITHER keep it. -/
def State.inDrift (s : State) (r : Result) (up : Bool) : Bool :=
  let q := r.quantity
  let prev := fun (o : Nat) => if up then Config.factoryValue q o else s.calValue q o
  if q = qCode then r.codes.inDrift (if up then factoryCodes r.object else s.codes r.object) (if up then 96 else 24)
  else driftOk q up r.value (prev r.object) && (q != qDither || driftOk q up r.gain (prev (20000 + r.object)))

/-- Why a result fails: 0 none, 1 FIXED, 2 DRIFT (R124). -/
def State.calFailure (s : State) (r : Result) (up : Bool) : Nat := if !s.inFixed r then 1 else if !s.inDrift r up then 2 else 0

/-! ## Events, the reference chain and quality entries (R118, R124, R137, R138) -/

/-- A note or fault of source CAL whose data word the spec does not state (R118, R351; log 12). -/
def State.calRaise (s : State) (cls : Nat) : State :=
  let (w, s1) := s.freeWord
  s1.raise 0xC00 cls 0 w

/-- An accepted calibration entered in the reference chain (R138). -/
def State.chainEntry (s : State) (n : Nat) : State :=
  let (c, _) := s.cal.chain.get (fun _ => (0, 0)) n
  { s with cal := { s.cal with chain := s.cal.chain.put n ((c + 1) % 2 ^ 32, s.time.net) } }

/-- The key of an object's quality entry, if it has one. -/
def qualityKey (q o : Nat) : Option Nat :=
  if q = qOfs ∨ q = qGain then some (30000 + o)
  else if q = qCode ∨ q = qHeff ∨ q = qDither ∨ q = qKxt then some o
  else if q = qLoss ∧ lossPort ≤ o then some (20000 + (o - lossPort))
  else none

/-- A quality entry. -/
def State.qualityAt (s : State) (k : Nat) : Word := s.cal.quality.get (fun _ => 0) k

/-- The figures of an entry after a result. How LEVRES and the residual figures of ADC channels follow from a result is not stated:
they are free (log 12). -/
def State.figures (s : State) (r : Result) (old : Word) : Word × State :=
  let q := r.quantity
  if q = qCode then
    (withBits (withBits old 11 0 (clampNat 0 4095 r.pherr)) 21 12 (clampNat 0 1023 r.ext), s)
  else if q = qHeff ∨ q = qDither ∨ q = qKxt then (old, s)
  else
    let (w, s1) := s.freeWord
    if q = qOfs then (withBits old 11 0 (bitsOf w 11 0), s1)
    else if q = qGain then (withBits old 23 12 (bitsOf w 11 0), s1)
    else (withBits (withBits old 11 0 (clampInt 0 4095 r.value).toNat) 21 12 (bitsOf w 21 12), s1)

/-- An object's quality entry changed, if it has one. -/
def State.setQuality (s : State) (q o : Nat) (f : Word → Word) : State :=
  match qualityKey q o with
  | none => s
  | some k => { s with cal := { s.cal with quality := s.cal.quality.modify (fun _ => 0) k f } }

/-- An object's quality entry updated when a result is accepted or fails: its figures, UNTRACED, FLAG (R137). An accepted result
calibrates its object; that one that fails does not is the model's choice: VALID then stays (log 112). -/
def State.updateQuality (s : State) (r : Result) (untraced fail : Bool) : State :=
  match qualityKey r.quantity r.object with
  | none => s
  | some k =>
    let old := s.qualityAt k
    let (w, s1) := s.figures r old
    let w1 := withBits (withBits (withBits w 29 29 (b2n untraced)) 30 30 (b2n fail)) 31 31 (if fail then bitsOf old 31 31 else 1)
    { s1 with cal := { s1.cal with quality := s1.cal.quality.set (fun _ => 0) k w1 } }

/-! ## Coming into force -/

/-- CAL_STATUS.PENDING counts the results waiting (R134). -/
def State.countWaiting (s : State) : State := s.setFld F.calStatusPending (clampNat 0 65535 s.cal.waiting.length)

/-- The codes of an element in force, with the integrator adjustment they owe (R133). -/
def State.setCodes (s : State) (e : Nat) (new : Codes) (adjust : Bool) : State :=
  let old := s.codes e
  let sp := (s.tile (e / 644)).span12.get (fun _ => false) (e % 644)
  let (a, b) := s.cal.adjust.get (fun _ => (0, 0)) e
  let dc := (new.forCell CellState.cross.code sp) - (old.forCell CellState.cross.code sp)
  let db := (new.forCell CellState.bar.code sp) - (old.forCell CellState.bar.code sp)
  { s with cal := { s.cal with
      codes := s.cal.codes.set factoryCodes e new
      adjust := if adjust then s.cal.adjust.set (fun _ => (0, 0)) e (a + dc, b + db) else s.cal.adjust } }

/-- Step mode: the live code of an element whose cell is BAR or CROSS is replaced at once (R135). -/
def State.reload (s : State) (e : Nat) : State :=
  let t := e / 644
  let j := e % 644
  let x := s.tile t
  let n := x.shown.get (fun _ => 0) j
  if n = 1 ∨ n = 2 then
    let v := (s.codes e).forCell (cellShown n) (x.span12.get (fun _ => false) j)
    s.setTile t (Tile.follow x { x with live := x.live.set (fun _ => 0) j v } (s.limited t false) [j])
  else s

/-- HCONV in force in an element's record; HBIAS is seeded where the loop is not LOCKED, with a value the spec does not
state: free within HMAX (R133; log 12). -/
def State.applyHeff (s : State) (e : Nat) (v : Int) : State :=
  let (n, s1) := s.freeNat
  let m := s1.loopImage s1.activeDie e
  s1.changeLoop e (fun i =>
    let i1 := i.put 6 31 16 (unsigned 16 v)
    if m.state = lLocked then i1 else i1.put 5 15 0 (n % (m.hmax + 1)))

/-- An ADC correction in force: its field of TILE_ADC_COR (R128). -/
def State.applyAdc (s : State) (q o : Nat) (v : Int) : State :=
  if q = qGain then s.setFld (F.tileAdcCorGain (o / 48) (o % 48)) (unsigned 16 v)
  else s.setFld (F.tileAdcCorOfs (o / 48) (o % 48)) (unsigned 16 v)

/-- A result in force on both dies (R133, R135). A new loss or responsivity of an input monitor brings new port set-points (R106). -/
def State.inForceNow (s : State) (r : Result) (step : Bool) : State :=
  let q := r.quantity
  let o := r.object
  let put := fun (s : State) (o : Nat) (v : Int) => { s with cal := { s.cal with values := s.cal.values.set factoryAt (calKey q o) v } }
  if q = qCode then
    let s1 := s.setCodes o r.codes (!step)
    if step then s1.reload o else s1
  else
    let s1 := put s o r.value
    if q = qHeff then s1.applyHeff o r.value
    else if q = qDither then (put s1 (20000 + o) r.gain).changeLoop o (fun m => m.put 6 15 0 (unsigned 16 r.value))
    else if q = qKxt then s1.changeLoop o (fun m => m.sput 3 31 20 r.value)
    else if q = qOfs ∨ q = qGain then s1.applyAdc q o r.value
    else if q = qLoss then s1.setPsets
    else if q = qResp ∧ 10304 ≤ o ∧ o < 10896 then s1.setPset (o - 10304)
    else s1

/-- Whether a quantity's results follow R128 in either mode. -/
def adcQuantity (q : Nat) : Bool := q == qOfs || q == qGain

/-- Whether a quantity is a coefficient of an element (Table 06.4). -/
def elementQuantity (q : Nat) : Bool := q == qCode || q == qHeff || q == qDither || q == qKxt

/-- A committed result: waiting for its apply instant, in the place of an older one; in step mode in force at the next slot
clock edge (R132, R134, R135). -/
def State.commitResult (s : State) (r : Result) : State :=
  let key := calKey r.quantity r.object
  if s.flag F.calApplyModeStep && !adcQuantity r.quantity then
    (({ s with cal := { s.cal with waiting := s.cal.waiting.erase key } }).countWaiting).inForceNow r true
  else
    ({ s with cal := { s.cal with waiting := s.cal.waiting.put key { result := r, step := false } } }).countWaiting

/-- The chain entries of an accepted result: a tile reference counts for its tile and the VREF path, the input monitor of S0
for the REF path (R138; log 12). -/
def State.chainResult (s : State) (r : Result) : State :=
  if r.quantity = qTref then (s.chainEntry (2 + r.object)).chainEntry 1
  else if r.quantity = qResp ∧ r.object = 10884 then s.chainEntry 0
  else s

/-- An object's count of consecutive POWER_UP or FULL passes that flagged it, after a result in pass number `num`: three raise a C2
fault (R124). A pass counts once, whichever of its quantities fail. -/
def State.countFails (s : State) (num key : Nat) (fail : Bool) (data : Word) : State :=
  let (n, last, seen) := s.cal.fails.get (fun _ => (0, 0, 0)) key
  let n0 := if seen = num ∨ last = seen then n else 0
  let again := fail && last != num
  let n1 := if again then n0 + 1 else n0
  let s1 := { s with cal := { s.cal with fails := s.cal.fails.put key (n1, if fail then num else last, num) } }
  if again ∧ 3 ≤ n1 then s1.raise 0xC00 2 0 data else s1

/-- A result checked by R120 and R124: committed, or discarded with its object flagged. `num` is the number of the POWER_UP or FULL
pass it comes from, 0 for none; `up` says that it is a POWER_UP pass. -/
def State.checkResult (s : State) (r : Result) (num : Nat) (up untraced : Bool) : State :=
  let why := s.calFailure r up
  let data := word (objectIndex r.quantity r.object % 2 ^ 14 + r.quantity * 2 ^ 16 + why * 2 ^ 20)
  let s1 := s.updateQuality r untraced (decide (why ≠ 0))
  let s2 := if why = 0 then (s1.commitResult r).chainResult r else (s1.count F.calFlaggedCount 1).raise 0xC00 1 0 data
  if num = 0 then s2 else s2.countFails num (objectKey r.quantity r.object) (decide (why ≠ 0)) data

/-! ## Apply instants (R131-R133, Table 06.4) -/

/-- Whether a mould uses a cell: it is not RETIRED there, and one of the connections that cross it joins ports of E0-E511 or
L0-L67 (R131; log 15). -/
def State.usesCell (s : State) (mould c : Nat) : Bool :=
  let m := s.mould mould
  m.cell c != CellState.retired.code &&
    (List.range 580).any (fun o => pathCellOf m o (columnOf c) == c && decide (m.perm.getD o 0 < 580))

/-- The next frame boundary. -/
def State.nextFrame (s : State) : State := s.untilNet (s.nextPeriod s.time.net 0)

/-- The coming pour, before its staging has begun: its mould, the network time of its staging start, and whether its
boundary is a heat boundary (R131). -/
def State.comingPour (s : State) : Option (Nat × Nat × Bool) :=
  if s.moulds.staged.isSome then none
  else s.nextPour.map (fun p => (p.1, p.2 - s.stageLead, s.heats.slot == 0 || s.heats.waitingRun.isSome))

/-- The mould poured in HOLD: the one GLB_HOLD_MOULD names (R11). -/
def State.holdIndex (s : State) : Nat :=
  let m := s.fld F.glbHoldMouldMould
  if (s.mould m).valid then m else 0

/-- Where time stands when a waiting result comes into force, if its instant is the next one to come (Table 06.4). -/
def State.applyInstant (s : State) (q o : Nat) : Option State :=
  let run := s.dev == 2
  let quiet := s.dev == 1 && s.svc == 0
  if elementQuantity q && run then
    match s.comingPour with
    | some (m, at_, boundary) => if !s.usesCell m (o / 2) || boundary then some (s.untilNet at_) else none
    | none => none
  else if elementQuantity q && quiet then
    if !s.usesCell s.holdIndex (o / 2) then some s.nextFrame
    else s.comingPour.map (fun p => s.untilNet p.2.1)
  else if run && (q == qLoss || (q == qResp && decide (10304 ≤ o))) then
    if s.heats.slot = 0 then some (s.untilNet s.heats.boundary) else none
  else if adcQuantity q then
    let t := o / 48
    let a := o % 48
    let serving := a < 45 && s.spareStateOf t a == spServing
    let idle := 45 ≤ a && s.fld (F.tileSpareState t (a - 45)) == spIdle
    if serving || idle || s.cal.passes.any (·.powerUp) then some s else none
  else some s.nextFrame

/-- One waiting result taken from among those that wait and put in force. -/
def State.applyKey (s : State) (k : Nat) : State :=
  match s.cal.waiting.find? k with
  | none => s
  | some w => (({ s with cal := { s.cal with waiting := s.cal.waiting.erase k } }).countWaiting).inForceNow w.result w.step

/-- The waiting results that come into force with one: a cell's covers all coefficients of both its elements (R132). -/
def State.together (s : State) (q o : Nat) : List Nat :=
  if elementQuantity q then
    (s.cal.waiting.map (·.1)).filter (fun k => elementQuantity (k / 100000) && k % 100000 / 2 == o / 2)
  else [calKey q o]

/-- CAL_APPLY: a waiting result comes into force at its apply instant. -/
def State.calApply (s : State) (q o : Nat) : State :=
  match s.cal.waiting.find? (calKey q o) with
  | none => s
  | some _ =>
    match s.applyInstant q o with
    | none => s
    | some s1 => (s.together q o).foldl State.applyKey s1

def execCalApply (quantity : Fin 16) (object : Nat) (s : State) : Out := .next (s.calApply quantity.val object)

/-- The corrections of an ADC channel that wait, written while its spare serves it (R128). -/
def State.applyServed (s : State) (t a : Nat) : State :=
  (s.applyKey (calKey qOfs (48 * t + a))).applyKey (calKey qGain (48 * t + a))

/-- Waiting results of a cell that is retired are discarded (R134). -/
def State.dropCell (s : State) (c : Nat) : State :=
  let gone := fun (k : Nat) =>
    let q := k / 100000
    let o := k % 100000
    (elementQuantity q && o / 2 == c) || (q == qLoss && o == c)
  ({ s with cal := { s.cal with waiting := s.cal.waiting.filter (fun p => !gone p.1) } }).countWaiting

/-- CAL_INTEGRATOR_ADJUST: at the first frame boundary after the pour that loaded a new code, 16 x the code's change comes
off the integrator of its state, held within the trim limit (R133). -/
def State.integratorAdjust (s : State) (e : Nat) : State :=
  let x := s.tile (e / 644)
  let j := e % 644
  let n := x.shown.get (fun _ => 0) j
  let (dc, db) := s.cal.adjust.get (fun _ => (0, 0)) e
  let loaded := x.live.get (fun _ => 0) j == (s.codes e).forCell (cellShown n) (x.span12.get (fun _ => false) j)
  let d := if n = 2 then db else if n = 1 then dc else 0
  if d = 0 ∨ !loaded then s
  else
    let s1 := s.nextFrame
    let left := if n = 2 then (dc, 0) else (0, db)
    let s2 := { s1 with cal := { s1.cal with adjust := s1.cal.adjust.set (fun _ => (0, 0)) e left } }
    let hi := if n = 2 then 31 else 15
    let lo := if n = 2 then 16 else 0
    s2.changeLoop e (fun m => m.sput 4 hi lo (m.limt (m.sget 4 hi lo - 16 * d)))

def execCalIntegratorAdjust (element : Fin 10304) (s : State) : Out := .next (s.integratorAdjust element.val)

/-! ## Transfers (R123) -/

/-- The codes that a transfer gives an element: the code of each state that the cell has held while its loop was LOCKED for the last 256
frames, on the span in use, plus that state's integrator over 16 (R123). -/
def State.transferCodes (s : State) (e : Nat) : Codes :=
  let c := s.codes e
  let m := s.loopImage s.activeDie e
  let (locked, cross, bar) := s.loops.locked.get (fun _ => (0, 256, 256)) e
  let dc := if 256 ≤ locked ∧ cross < 256 then roundDiv (m.sget 4 15 0) 16 else 0
  let db := if 256 ≤ locked ∧ bar < 256 then roundDiv (m.sget 4 31 16) 16 else 0
  if (s.tile (e / 644)).span12.get (fun _ => false) (e % 644) then { c with cross12 := c.cross12 + dc, bar12 := c.bar12 + db }
  else { c with cross6 := c.cross6 + dc, bar6 := c.bar6 + db }

/-- EO_CODE of an element with other codes: extinction and residual phase error repeat those of the latest sweep; one never measured
does not fail (R123, R139; log 12). -/
def State.codeResult (s : State) (e : Nat) (c : Codes) : Result :=
  let w := s.qualityAt e
  { quantity := qCode, object := e, value := 0, codes := c, ext := if bitOf w 31 then bitsOf w 21 12 else 200, pherr := bitsOf w 11 0,
    gain := 0, amp := 0 }

/-- One element of a transfer; none of a retired cell. -/
def State.transfer (s : State) (e : Nat) : State :=
  if s.moulds.retired.contains (e / 2) then s
  else s.checkResult (s.codeResult e (s.transferCodes e)) 0 false (bitOf (s.qualityAt e) 29)

/-- The elements of a transfer over tiles, from one count of elements done to another (R123, R130). -/
def State.transferFrom (s : State) (tiles : List Nat) (lo hi : Nat) : State :=
  (List.range (hi - lo)).foldl (fun (s : State) i =>
    match tiles[(lo + i) / 644]? with
    | some t => s.transfer (644 * t + (lo + i) % 644)
    | none => s) s

/-! ## The SM2560 coefficient window (R139) -/

/-- The element that CAL_LEG_INDEX names, unless it does not exist. -/
def State.legElement (s : State) : Option Nat :=
  let e := s.fld F.calLegIndexElem
  if e < 10304 then some e else none

/-- CAL_LEG_DATA0 and CAL_LEG_DATA1 as they read: the values in force for the element on its current span; zero for an
element that does not exist, and before the coefficients are loaded at power-up. -/
def State.legData0 (s : State) : Word :=
  match s.legElement with
  | none => 0
  | some e =>
    if !s.cal.loaded then 0
    else
      let sp := (s.tile (e / 644)).span12.get (fun _ => false) (e % 644)
      let c := s.codes e
      word (unsigned 16 (c.forCell CellState.bar.code sp) * 65536 + unsigned 16 (c.forCell CellState.cross.code sp))
def State.legData1 (s : State) : Word :=
  match s.legElement with
  | none => 0
  | some e => word (unsigned 16 (s.calValue qHeff e))

/-- A write of CAL_LEG_DATA0 or CAL_LEG_DATA1 for the element of CAL_LEG_INDEX; discarded and logged when it does not exist
or its cell is retired (R139, Table 06.19). -/
def State.legWrite (s : State) (m : Master) (off : Nat) (f : Nat → Result) : State :=
  match s.legElement with
  | none => s.refuseReg m off
  | some e =>
    if s.moulds.retired.contains (e / 2) then s.refuseReg m off else s.checkResult (f e) 0 false (bitOf (s.qualityAt e) 29)

/-- The codes of an element with those of its current span replaced. -/
def State.legCodes (s : State) (e : Nat) (v : Word) : Codes :=
  let cross := (v.extractLsb' 0 16).toInt
  let bar := (v.extractLsb' 16 16).toInt
  let c := s.codes e
  if (s.tile (e / 644)).span12.get (fun _ => false) (e % 644) then { c with cross12 := cross, bar12 := bar }
  else { c with cross6 := cross, bar6 := bar }

/-- A write of CAL_LEG_DATA0: both codes of the element on its current span (R139). -/
def State.legWrite0 (s : State) (m : Master) (v : Word) : State :=
  s.legWrite m R.calLegData0 (fun e => s.codeResult e (s.legCodes e v))

def execCalLegData0Write (m : Master) (v : Word) (s : State) : Out :=
  .next (s.atReg m R.calLegData0 (fun s => s.legWrite0 m v))

/-- A write of CAL_LEG_DATA1: HCONV of the element (R139). -/
def State.legWrite1 (s : State) (m : Master) (v : Word) : State :=
  s.legWrite m R.calLegData1 (fun e => { s.codeResult e (s.codes e) with quantity := qHeff, value := bitsOf v 15 0 })

def execCalLegData1Write (m : Master) (v : Word) (s : State) : Out :=
  .next (s.atReg m R.calLegData1 (fun s => s.legWrite1 m v))

end Sys2Proof.Machine
end

