-- ==== Sys2Proof/Machine/Claims.lean ====
section
/-!
DEFINITION. Claims on spares, the REF_IN path and the service ports (R272-R274, Table 12.5), and what a calibration pass gives back
when it leaves a step, is suspended or ends (R128-R130).
-/
namespace Sys2Proof.Machine

/-! ## What a pass takes and gives back (R122, R128-R130) -/

/-- The management core that calibration runs on (R127). -/
def State.calMaster (s : State) : Master := BitVec.ofNat 8 (s.activeId 81)

/-- A spare that has taken over a channel for calibration given back: the corrections that wait are written while it serves (R79,
R128). -/
def State.returnSpare (s : State) (t sp : Nat) : State :=
  let s1 := s.spareSwitch t sp
  let a := s1.fld (F.tileSpareSrc t sp)
  let s2 := if s1.fld (F.tileSpareState t sp) = spServing then s1.applyServed t a else s1
  (s2.spareWrite s2.calMaster t sp false a).spareSwitch t sp

/-- A channel taken over by one of the spares held in its tile, which first gives back the channel it has served (R128). -/
def State.takeSpare (s : State) (used : List (Nat × Nat)) (held : List Nat) (t a : Nat) : List (Nat × Nat) × State :=
  let sp := held.getD (a % held.length) 0
  let mine := used.contains (t, sp)
  if mine && s.fld (F.tileSpareSrc t sp) == a then (used, s.spareSwitch t sp)
  else
    let s1 := if mine then s.returnSpare t sp else s
    (if mine then used else (t, sp) :: used, (s1.spareWrite s1.calMaster t sp true a).spareSwitch t sp)

/-- A flask handed to a core, its shadow periods included; with the fast clocks stopped there are none to wait for (R91). -/
def State.handFlask (s : State) (f core : Nat) : State :=
  let s1 := (s.beginHandover f core).handoverCopy f
  (if s.power.fastClocks then s1 else { s1 with loops := { s1.loops with shadow := s1.loops.shadow.put f 0 } }).handoverSwap f

/-- Whether a flask can be handed to a core (R91, R92). -/
def State.canHand (s : State) (f core : Nat) : Bool := s.fld (F.loopFlaskMapState f) == hoIdle && !s.coreTaken core

/-- A flask handed to a spare core and, its own core's code renewed there, handed back (R91, Table 12.8). -/
def State.renewFlask (s : State) (spare f : Nat) : State :=
  let own := s.flaskCore f
  if s.canHand f spare then
    let s1 := s.handFlask f spare
    if s1.canHand f own then s1.handFlask f own else s1
  else s

/-- The live code of an element set, and what it stands for. -/
def State.setLive (s : State) (e : Nat) (v : Int) (shown : Nat) : State :=
  let t := e / 644
  let j := e % 644
  let x := s.tile t
  let y := { x with live := x.live.set (fun _ => 0) j v, shown := x.shown.set (fun _ => 0) j shown }
  s.setTile t (Tile.follow x y (s.limited t false) [j])

/-- A cell partner HELD by calibration at its cross code (R107, R122). -/
def State.holdPartner (s : State) (e : Nat) : State :=
  (s.setHold e 4 true).setLive e ((s.codes e).forCell CellState.cross.code ((s.tile (e / 644)).span12.get (fun _ => false) (e % 644))) 1

/-- The partner's code and loop given back. -/
def State.freePartner (s : State) (p : CalPass) : State :=
  match p.partner with
  | none => s
  | some (e, v, n) =>
    let s1 := s.setHold e 4 false
    if s1.zeroHeld (e / 644) then s1 else s1.setLive e v n

/-- What a pass holds of a tile given back: the cell partner, the flask and its swept loops, CLOSED again, the channels, and the tone
of S0 (R43, R79, R91, R122, R128-R130). -/
def State.undoPass (s : State) (p : CalPass) : State :=
  let s1 := s.freePartner p
  let s2 := p.swept.foldl (fun (s : State) l => s.changeLoop l (fun m => if m.state = lRetired then m else m.relock)) s1
  let s3 := match p.own with
    | some (f, core) => if s2.canHand f core then s2.handFlask f core else s2
    | none => s2
  let s4 := p.spares.foldl (fun (s : State) x => s.returnSpare x.1 x.2) s3
  { s4 with cal := { s4.cal with viaRef := false } }

/-- The pass of a job, or of the engine itself (0). -/
def State.passOf (s : State) (job : Nat) : Option CalPass := s.cal.passes.find? (fun p => p.job == job)

/-- The pass of a job put in the place of what it was. -/
def State.setPass (s : State) (p : CalPass) : State :=
  { s with cal := { s.cal with passes := s.cal.passes.map (fun q => if q.job = p.job then p else q) } }

/-- A pass that holds nothing. -/
def CalPass.bare (p : CalPass) : CalPass := { p with spares := [], own := none, swept := [], partner := none }

/-- A pass made to give back what it holds, the object in progress abandoned (R130). -/
def State.settlePass (s : State) (job : Nat) : State :=
  match s.passOf job with
  | none => s
  | some p => (s.undoPass p).setPass p.bare

/-! ## Fettling's place (R127) -/

/-- The objects of a tile's cycle: the tile reference, 45 ADC channels, 74 input and output monitors, 644 element taps. -/
abbrev fettleRef : Nat := 46
abbrev fettleTap : Nat := 120
abbrev fettleAll : Nat := 764

/-- One object done; after the last the next tile, and after tile 15 a pass is counted. -/
def State.fettleNext (s : State) (n : Nat) : State :=
  if n < fettleAll then { s with cal := { s.cal with fettled := n } }
  else
    let t := s.fld F.calFettleTile
    let s1 := s.setFld F.calFettleTile ((t + 1) % 16)
    let s2 := if t = 15 then s1.setFld F.calFettlePasses (s1.fld F.calFettlePasses + 1) else s1
    { s2 with cal := { s2.cal with fettled := 0 } }

/-- The channels that spares have taken over for fettling given back (R128). -/
def State.fettleReturn (s : State) : State :=
  let s1 := s.cal.fettleSpares.foldl (fun (s : State) x => s.returnSpare x.1 x.2) s
  { s1 with cal := { s1.cal with fettleSpares := [] } }

/-! ## Needs and claims (R272-R274, Table 12.5) -/

/-- The objects of a FULL pass over one tile, in the order of Table 06.7: the tile reference, offset and gain of 48 channels,
four quantities of 644 elements, and from here on the responsivities and losses (log 89). -/
abbrev fullRespAt : Nat := 1 + 96 + 4 * 644
abbrev fullPerTile : Nat := fullRespAt + 718 + 359

/-- The tiles of a mask. -/
def maskTiles (mask : Nat) : List Nat := (List.range 16).filter (fun t => mask.testBit t)

/-- The tile a FULL pass is at, and whether it is at its RESP and LOSS step. -/
def Job.tileNow (j : Job) : Option Nat :=
  match j.kind with
  | .calFull mask => (maskTiles mask)[j.progress / fullPerTile]?
  | _ => none
def Job.atResp (j : Job) : Bool := decide (fullRespAt ≤ j.progress % fullPerTile)

/-- A need: one of these resources; or as many of them as are free, but one at least. -/
structure Need where
  any : List Nat
  all : Bool
deriving DecidableEq, Repr

/-- One resource. -/
def one (r : Nat) : Need := { any := [r], all := false }

/-- The spare loop cores, and the spare ADC channels of a tile (Table 12.7). -/
def spareCores : List Nat := List.range 8
def spareAdc (t : Nat) : List Nat := [8 + 3 * t, 9 + 3 * t, 10 + 3 * t]

/-- The claims of a FULL pass over a tile: its spare ADC channels, a spare loop core, and at the RESP and LOSS step the REF_IN path
and S2-S7 (R130, Table 12.5). -/
def fullNeeds (t : Nat) (atResp : Bool) : List Need :=
  [{ any := spareAdc t, all := true }, { any := spareCores, all := false }]
    ++ (if atResp then ((List.range 7).map (fun i => one (56 + i))) else [])

/-- The minimum claims of a job where it stands (Table 12.5). -/
def Job.needs (j : Job) : List Need :=
  match j.kind with
  | .calFull _ =>
    match j.tileNow with
    | some t => fullNeeds t j.atResp
    | none => []
  | .fwActivate k _ => if k = 2 then [{ any := spareCores, all := false }] else []
  | .survey _ => (List.range 11).map (fun i => one (56 + i))
  | .flaskMove _ c => if 64 ≤ c ∧ c < 72 then [one (c - 64)] else []
  | .adcTakeover t _ ret => if ret then [] else [{ any := spareAdc t, all := false }]
  | .calTransfer _ | .heatLoad _ | .mouldLib _ | .riserScrub _ | .elemRetire _ _ _ | .bankRetire _ | .regionRetire _
  | .coreRestart _ | .imageLoad _ _ => []

/-- Whether a claimant holds a resource. -/
def State.holdsAs (s : State) (w : Claimant) (r : Nat) : Bool :=
  match (s.jobs.claim r).holder, w with
  | some (.job i _), .job id _ => i == id
  | some .host, .host => true
  | some .engine, .engine => true
  | _, _ => false

/-- Whether a job holds a resource. -/
def State.holds (s : State) (id r : Nat) : Bool := s.holdsAs (.job id false) r

/-- Whether every need of a job is met. -/
def State.met (s : State) (j : Job) : Bool := j.needs.all (fun n => n.any.any (s.holds j.id))

/-- A resource nobody holds or waits for. -/
def Claim.open' (c : Claim) : Bool := c.holder.isNone && c.fifo.isEmpty

/-- A claimant of class RECOVERY. -/
def isRecovery : Claimant → Bool
  | .job _ r => r
  | _ => false

/-- A claimant joining a FIFO: at the end, or, in RECOVERY or when preempted, before every waiter that is not RECOVERY
(R272, R274). -/
def joinFifo (q : List Claimant) (w : Claimant) (front : Bool) : List Claimant :=
  if q.contains w then q
  else if front then q.takeWhile isRecovery ++ [w] ++ q.dropWhile isRecovery
  else q ++ [w]

/-- A job changed in the table. -/
def State.changeJob (s : State) (id : Nat) (f : Job → Job) : State :=
  { s with jobs := { s.jobs with table := Machine.changeJob s.jobs.table id f } }

/-- A resource given a claim. -/
def State.setClaim (s : State) (r : Nat) (c : Claim) : State := { s with jobs := s.jobs.setClaim r c }

/-- A resource released by its holder: free, for the head of its FIFO to take (R273). -/
def State.freeClaim (s : State) (r : Nat) : State := s.setClaim r { s.jobs.claim r with holder := none, standing := false }

/-- A suspended job whose PREEMPT cause has cleared, since it holds its minimum claims; without a cause it is QUEUED again
(R266, R274). -/
def State.requeue (s : State) (id : Nat) : State :=
  match findJob s.jobs.table id with
  | none => s
  | some j =>
    if j.state ≠ .suspended then s
    else
      let pre := j.preempted && !s.met j
      s.changeJob id (fun j => { j with preempted := pre, state := if pre || j.hostSusp then .suspended else .queued })

/-- A job suspended: a calibration pass gives back what it has taken over, and a preempted job gives up what preempted it and waits for
it at the head of the waiters that are not RECOVERY (R130, R274). -/
def State.giveUp (s : State) (j : Job) : State :=
  let s1 := j.lost.foldl (fun (s : State) r =>
    let s1 := if s.holds j.id r then s.freeClaim r else s
    let c := s1.jobs.claim r
    s1.setClaim r { c with fifo := joinFifo c.fifo (.job j.id j.recovery) true }) (s.settlePass j.id)
  (s1.changeJob j.id (fun j => { j with lost := [] })).requeue j.id

/-- Jobs that a RECOVERY claim preempts (R274). -/
def Job.preemptible (j : Job) : Bool :=
  !j.state.terminal && j.state != .cancelling &&
    match j.kind with
    | .calFull _ | .calTransfer _ | .survey _ => true
    | _ => false

/-- A job preempted on a resource: SUSPENDING if it runs; one that is not running gives the resource up at once (R274; log
88). -/
def State.preempt (s : State) (j : Job) (r : Nat) : State :=
  let s1 := s.changeJob j.id (fun j => { j with
    preempted := true
    lost := if j.lost.contains r then j.lost else j.lost ++ [r]
    state := if j.state = .running then .suspending else if j.state = .queued then .suspended else j.state })
  match findJob s1.jobs.table j.id with
  | some j1 => if j1.state = .suspended then s1.giveUp j1 else s1
  | none => s1

/-- The job that holds a resource, if a RECOVERY claim can preempt it. -/
def State.preemptibleHolder (s : State) (r : Nat) : Option Job :=
  match (s.jobs.claim r).holder with
  | some (.job i _) => (findJob s.jobs.table i).filter Job.preemptible
  | _ => none

/-- Whether a resource is already being given up. -/
def State.givenUp (s : State) (r : Nat) : Bool := s.jobs.table.any (fun j => j.lost.contains r)

/-- The engine's own calibration made to give up a resource to a RECOVERY job: a temperature-delta pass waits for it at the head of
the waiters that are not RECOVERY, and fettling skips to its next object (R130, R274). It has no safe point to wait for (log 88). -/
def State.engineYields (s : State) (r : Nat) : State :=
  let s1 := (s.settlePass 0).fettleReturn
  let s2 := if s1.cal.fettleBusy then s1.fettleNext (s1.cal.fettled + 1) else s1
  let s3 := s2.freeClaim r
  let c := s3.jobs.claim r
  s3.setClaim r { c with fifo := joinFifo c.fifo .engine true }

/-- One claim made: the lowest free member, or all of them; with none free the claimant joins the FIFO of every member (R272). -/
def State.claimFor (s : State) (w : Claimant) (n : Need) : State :=
  let free := n.any.filter (fun r => (s.jobs.claim r).open')
  let take := if n.any.any (s.holdsAs w) then [] else if n.all then free else free.take 1
  let s1 := take.foldl (fun (s : State) r => s.setClaim r { s.jobs.claim r with holder := some w }) s
  if n.any.any (s1.holdsAs w) then s1
  else n.any.foldl (fun (s : State) r => let c := s.jobs.claim r; s.setClaim r { c with fifo := joinFifo c.fifo w (isRecovery w) }) s1

/-- A job makes one claim; where it must wait, in class RECOVERY it preempts a holder that can be (R272, R274). -/
def State.claimNeed (s : State) (j : Job) (n : Need) : State :=
  let s2 := s.claimFor (.job j.id j.recovery) n
  if n.any.any (s2.holds j.id) || !j.recovery || n.any.any s2.givenUp then s2
  else
    match n.any.find? (fun r => (s2.preemptibleHolder r).isSome || s2.holdsAs .engine r && decide (r < 67)) with
    | some r => match s2.preemptibleHolder r with
      | some h => s2.preempt h r
      | none => s2.engineYields r
    | none => s2

/-- A job makes its claims where it stands. -/
def State.claimAll (s : State) (j : Job) : State := j.needs.foldl (fun (s : State) n => s.claimNeed j n) s

/-- Whether a claimant is another, whatever its class. -/
def sameClaimant : Claimant → Claimant → Bool
  | .job i _, .job j _ => i == j
  | .host, .host => true
  | .engine, .engine => true
  | _, _ => false

/-- What a claimant no longer needs where it stands is released: the spares of other tiles, the REF_IN path outside its step. -/
def State.trimTo (s : State) (w : Claimant) (keep : List Nat) (below : Nat) : State :=
  (List.range below).foldl (fun (s : State) r =>
    if keep.contains r then s
    else
      let s1 := if s.holdsAs w r then s.freeClaim r else s
      let c := s1.jobs.claim r
      if c.fifo.any (sameClaimant w) then s1.setClaim r { c with fifo := c.fifo.filter (fun x => !sameClaimant w x) } else s1) s

/-- The same for a FULL job. -/
def State.trim (s : State) (j : Job) : State := s.trimTo (.job j.id j.recovery) (j.needs.flatMap Need.any) resources

/-- The engine's claims of calibration ended; those on spare ladle ports are the swap's (R199). -/
def State.engineReleases (s : State) : State := s.trimTo .engine [] 67

/-- The resources among which one is taken, for a claim on one of the engine's (R272). -/
def siblings (r : Nat) : List Nat := if r < 8 then spareCores else if r < 56 then spareAdc ((r - 8) / 3) else []

/-- CLAIM_GRANT: a free resource goes to the head of its FIFO; a job leaves the FIFOs of the other members of that need; a
host claim granted later is noted (R272, R273). -/
def State.grant (s : State) (r : Nat) : State :=
  let c := s.jobs.claim r
  match c.holder, c.fifo with
  | none, w :: rest =>
    let s1 := s.setClaim r { c with holder := some w, fifo := rest }
    match w with
    | .host => s1.raise 0x500 0 0 (word (0xFFFF + r * 65536))
    | .engine => (siblings r).foldl (fun (s : State) x =>
        if x = r then s else let c := s.jobs.claim x; s.setClaim x { c with fifo := c.fifo.filter (fun w => !sameClaimant .engine w) }) s1
    | .job id _ =>
      match findJob s1.jobs.table id with
      | none => s1.freeClaim r
      | some j =>
        if j.state.terminal then s1.freeClaim r
        else
          let others := ((j.needs.filter (fun n => n.any.contains r)).flatMap Need.any).filter (· ≠ r)
          let s2 := others.foldl (fun (s : State) x =>
            let c := s.jobs.claim x
            s.setClaim x { c with fifo := c.fifo.filter (fun w => jobOf w ≠ id) }) s1
          s2.requeue id
  | _, _ => s

def execClaimGrant (resource : Fin 71) (s : State) : Out := .next (s.grant resource.val)

end Sys2Proof.Machine
end

