-- ==== Sys2Proof/Machine/Calibration.lean ====
section
/-!
DEFINITION. Calibration passes (R117-R130): the checks of the references, what a result means in the pass it belongs to, the tiles a
pass has done, temperature-delta passes, and fettling.
-/
namespace Sys2Proof.Machine

/-! ## References (R118, R119) -/

/-- What the input monitor of S0 reads of REF_IN, with its responsivity in force: 0 accepted, within 0.5 dB of -3.0 dBm; 1 absent,
below -13.0 dBm; 2 out of range (R118). -/
def State.refReads (s : State) : Nat :=
  let n := (sampleValue ((s.tile 15).samples.get (fun _ => 0) (2 * 669 + 1))).toNat
  let resp := s.calValue qResp 10884
  if !dcReaches n (2 * (-2800 + resp)) then 1
  else if dcReaches n (2 * (-1850 + resp)) && !dcReaches n (2 * (-1750 + resp)) then 0
  else 2

/-- REF_IN checked: CAL_STATUS.REF_OK, and where it is not accepted a note, absent at power-up, or a fault (R118). -/
def State.refCheck (s : State) (up : Bool) : State :=
  let n := s.refReads
  let s1 := s.setFld F.calStatusRefOk (b2n (decide (n = 0)))
  if n = 0 then s1 else s1.calRaise (if up && n == 1 then 0 else 2)

/-- A pass's check of REF_IN, once (R118). -/
def State.passRef (s : State) (job : Nat) : State :=
  match s.passOf job with
  | none => s
  | some p =>
    if p.refOk.isSome then s
    else
      let n := s.refReads
      (s.refCheck p.powerUp).setPass { p with refOk := some (n == 0), refused := p.refused || n == 2 || (n == 1 && !p.powerUp) }

/-- The check of VREF_EXT by the tile that converts it, at that tile's own reference: within 0.5 % of 2.5 V (R117, R118; log 113). -/
def vrefOk (uv : Int) : Bool := decide ((uv - 2500000).natAbs ≤ 12500)
def State.vrefCheck (s : State) (uv : Int) : State :=
  let s1 := s.setFld F.calStatusVrefOk (b2n (vrefOk uv))
  if vrefOk uv then s1 else s1.calRaise 2

/-- The tiles left untraced, and GLB_STATE.CAL_UNTRACED (R119). -/
def State.setUntraced (s : State) (ts : List Nat) : State :=
  let s1 := s.setFld F.glbStateCalUntraced (b2n !ts.isEmpty)
  { s1 with cal := { s1.cal with untraced := ts } }

/-- Whether a coefficient derives from REF_IN, and whether from VREF_EXT (R117, R118). -/
def fromRef (q : Nat) : Bool := q == qResp || q == qLoss
def fromVref (q : Nat) : Bool := q == qTref

/-- The readings of temperature channels 0-11; a channel in fault has none (R342). -/
def State.temps (s : State) : List (Option Int) :=
  (List.range 12).map (fun k => let w := s.fld (F.thmChTemp k); if w = 0x8000 then none else some (signed 16 w))

/-- The readings recorded for tiles at the end of a pass over them (R126). -/
def State.recordTemps (s : State) (ts : List Nat) : State :=
  { s with faults := { s.faults with tempsAt := ts.foldl (fun (m : SMap (List (Option Int))) t => m.put t s.temps) s.faults.tempsAt } }

/-- Whether calibration or a survey moves elements at will (R13). -/
def State.surveying (s : State) : Bool :=
  s.cal.passes.any (fun p => p.job == 0) ||
    s.jobs.table.any (fun j => (j.state == .running || j.state == .suspending || j.state == .cancelling) &&
      match j.kind with
      | .calFull _ | .survey _ => true
      | _ => false)

/-- FABRIC in HOLD: SURVEY while elements are moved at will, else the hold mould, with the note of a change (R13, R23). -/
def State.surveyFabric (s : State) : State :=
  if s.dev = 1 then s.withNotes (fun s => s.setFld F.glbStateFabric (if s.surveying then 3 else 1)) else s

/-! ## HOLD pours (R68) -/

/-- The hold mould to pour: GLB_HOLD_MOULD, or mould 0 with a C2 fault of source MOULD when that one is not compiled
(Table 01.19). Mould 0 is compiled by the engine itself at entry to HOLD (R51). -/
def State.holdMould (s : State) : Nat × State :=
  let m := s.fld F.glbHoldMouldMould
  if m = 0 ∨ (s.mould m).valid then (m, s) else (0, s.raise 0x800 2 1 (word m))

/-- The hold mould asked to be poured (R68). -/
def State.askHold (s : State) : State :=
  let (m, s1) := s.holdMould
  { s1 with moulds := { s1.moulds with holdPour := some m, calPour := false } }

/-- A pour asked for by calibration, of the mould it measures through next: which of the compiled ones is its own choice, a free one
(R68, R121; log 113). -/
def State.askCalPour (s : State) : State :=
  if s.moulds.calPour then s
  else
    let (n, s1) := s.freeNat
    let valid := (s1.moulds.store.filter (fun p => p.2.valid)).map (·.1)
    { s1 with moulds := { s1.moulds with holdPour := some (valid.getD (n % valid.length) 0), calPour := true } }

/-! ## A pass and its place -/

/-- The place of an object among a tile's objects, in the order of Table 06.7 (log 89). -/
def fullIndex (q o : Nat) : Nat :=
  if q = qTref then 0
  else if q = qOfs ∨ q = qGain then q - 1 + 2 * (o % 48)
  else if q = qKxt then 2029 + o % 644
  else if q = qResp then
    2673 + (if o < 10304 then o % 644 else if o < 10896 then 644 + (o - 10304) % 37 else 681 + (o - 10896) % 37)
  else if q = qLoss then (if o < lossPort then 3391 + o % 322 else 3713 + (o - lossPort) % 37)
  else 92 + q + 3 * (o % 644)

/-- The step of a FULL pass that a place belongs to: 0 the tile reference, 1 the channels, 2 to 5 the sweeps of the tile's flasks, 6
KXT, 7 RESP and LOSS (Table 06.7). -/
def fullStep (i : Nat) : Nat :=
  let n := i % fullPerTile
  if n = 0 then 0
  else if n ≤ 96 then 1
  else if n < 2029 then (let j := (n - 97) / 3; if j < 171 then 2 else if j < 341 then 3 else if j < 511 then 4 else 5)
  else if n < fullRespAt then 6
  else 7

/-- The keys of the responsivities and losses of a tile in service (R119). -/
def State.tileNeeds (s : State) (t : Nat) : List Nat :=
  let up := fun c => !s.moulds.retired.contains c
  (((List.range 644).map (fun j => 644 * t + j)).filter (fun e => up (e / 2))).map (calKey qResp)
    ++ (List.range 37).flatMap (fun k => [calKey qResp (10304 + 37 * t + k), calKey qResp (10896 + 37 * t + k), calKey qLoss (lossPort + 37 * t + k)])
    ++ (((List.range 322).map (fun c => 322 * t + c)).filter up).map (calKey qLoss)

/-- A tile done by a POWER_UP or FULL pass: its temperatures are recorded; its untraced bit is set where REF_IN was not accepted, and
cleared where the pass has replaced all its responsivities and losses (R119, R126). -/
def State.tileDone (s : State) (p : CalPass) (t : Nat) : State :=
  let s1 := s.recordTemps [t]
  if p.refOk != some true then s1.setUntraced (if s1.cal.untraced.contains t then s1.cal.untraced else t :: s1.cal.untraced)
  else if (s1.tileNeeds t).all p.replaced.contains then s1.setUntraced (s1.cal.untraced.filter (· ≠ t))
  else s1

/-- A pass brought forward to a place: the step it leaves is given back, and the tiles before it are done. -/
def State.passTo (s : State) (job n : Nat) : State :=
  match s.passOf job with
  | none => s
  | some p =>
    if n ≤ p.pos then s
    else
      let moves := fullStep p.pos != fullStep n || p.pos / fullPerTile != n / fullPerTile
      let s1 := if moves && !p.powerUp then s.settlePass job else s
      let p1 := if moves && !p.powerUp then p.bare else p
      let done := (p.tiles.take (n / fullPerTile)).drop (p.pos / fullPerTile)
      let s2 := done.foldl (fun (s : State) t => s.tileDone p t) (s1.setPass { p1 with pos := n })
      s2.changeJob job (fun j => { j with progress := max j.progress n })

/-- A pass begun: it checks REF_IN first, a POWER_UP pass when it comes to measure (R118). -/
def State.startPass (s : State) (job : Nat) (up : Bool) (tiles : List Nat) : State :=
  let p : CalPass := { job := job, num := s.cal.passNum + 1, powerUp := up, tiles := tiles, pos := 0, refOk := none, refused := false,
                       replaced := [], spares := [], own := none, swept := [], partner := none }
  let s1 := { s with cal := { s.cal with passes := s.cal.passes.filter (fun q => q.job != job) ++ [p], passNum := s.cal.passNum + 1 } }
  if up then s1 else s1.passRef job

/-- A pass ended, whether complete or not: what it holds is given back, and after a pour of its own the hold mould is asked for
again (R68). -/
def State.dropPass (s : State) (job : Nat) : State :=
  let s1 := s.settlePass job
  let s2 := { s1 with cal := { s1.cal with passes := s1.cal.passes.filter (fun p => p.job != job) } }
  let s3 := if job = 0 then s2.engineReleases else s2
  if s3.moulds.calPour && s3.dev == 1 then s3.askHold else s3

/-- A pass complete: every tile it had not left is done (R119, R126). -/
def State.endPass (s : State) (job : Nat) : State :=
  match s.passOf job with
  | none => s
  | some p => (s.passTo job (fullPerTile * p.tiles.length)).dropPass job

/-! ## Steps of a FULL pass -/

/-- The claimant that a pass holds its claims as. -/
def passClaimant (job : Nat) : Claimant := if job = 0 then .engine else .job job false

/-- The claims of a pass made where it stands, others released (R130). -/
def State.passClaims (s : State) (job n : Nat) : State :=
  match s.passOf job with
  | none => s
  | some p =>
    let needs := match p.tiles[n / fullPerTile]? with
      | some t => fullNeeds t (fullStep n == 7)
      | none => []
    if job = 0 then needs.foldl (fun (s : State) n => s.claimFor .engine n) (s.trimTo .engine (needs.flatMap Need.any) 67)
    else match findJob s.jobs.table job with
      | some j => needs.foldl (fun (s : State) n => s.claimNeed j n) (s.trim j)
      | none => s

/-- Whether a pass holds what the place it stands at needs. -/
def State.passMet (s : State) (p : CalPass) (n : Nat) : Bool :=
  match p.tiles[n / fullPerTile]? with
  | some t => (fullNeeds t (fullStep n == 7)).all (fun x => x.any.any (s.holdsAs (passClaimant p.job)))
  | none => false

/-- The spares of a tile, as their numbers in it, that a claimant holds. -/
def State.heldSpares (s : State) (w : Claimant) (t : Nat) : List Nat := [0, 1, 2].filter (fun i => s.holdsAs w (8 + 3 * t + i))

/-- A channel made ready: taken over by a spare; a spare itself is measured idle, so all go back first (R128). -/
def State.enterChannel (s : State) (p : CalPass) (t a : Nat) : State :=
  if a < 45 then
    let (used, s1) := s.takeSpare p.spares (s.heldSpares (passClaimant p.job) t) t a
    s1.setPass { p with spares := used }
  else (p.spares.foldl (fun (s : State) x => s.returnSpare x.1 x.2) s).setPass { p with spares := [] }

/-- The flask of an element handed to a spare loop core, its own core left to the sweeps; nothing more where that has been done, and
nothing where a handover is in progress (R129). -/
def State.enterFlask (s : State) (p : CalPass) (f : Nat) : State :=
  if p.own.isSome then s
  else
    match spareCores.find? (s.holdsAs (passClaimant p.job)) with
    | none => s
    | some r =>
      let own := s.flaskCore f
      if s.canHand f (64 + r) then (s.handFlask f (64 + r)).setPass { p with own := some (f, own) } else s

/-- An element's loop opened for its sweep, and its cell partner held at its cross code; the partner of the element before it is given
back (R108, R122). -/
def State.enterElement (s : State) (p : CalPass) (e : Nat) : State :=
  let other := if e % 2 = 0 then e + 1 else e - 1
  let held := match p.partner with
    | some (x, _, _) => x == other
    | none => false
  if held then s
  else
    let s1 := s.freePartner p
    let x := s1.tile (other / 644)
    let was := (x.live.get (fun _ => 0) (other % 644), x.shown.get (fun _ => 0) (other % 644))
    let s2 := (s1.changeLoop e (fun m => if m.state = lRetired then m else m.put 0 2 0 lOpen)).holdPartner other
    s2.setPass { p with partner := some (other, was), swept := if p.powerUp || p.swept.contains e then p.swept else e :: p.swept }

/-- Whether the step of a result is ready: a FULL pass has its channel served by a spare, its flask on a spare core. -/
def State.stepReady (s : State) (p : CalPass) (q o : Nat) : Bool :=
  if p.powerUp then true
  else if adcQuantity q then (if o % 48 < 45 then s.spareStateOf (o / 48) (o % 48) == spServing else true)
  else if q == qCode || q == qHeff || q == qDither then
    match p.own with
    | some (f, _) => f == loopFlask o
    | none => false
  else true

/-- The step of a result entered (R121, R122, R128, R129). In POWER_UP nothing is taken over or handed over. -/
def State.enterStep (s : State) (job q o : Nat) : State :=
  match s.passOf job with
  | none => s
  | some p =>
    if adcQuantity q then (if p.powerUp then s else s.enterChannel p (o / 48) (o % 48))
    else if q == qCode || q == qHeff || q == qDither then
      let s1 := if p.powerUp then s else s.enterFlask p (loopFlask o)
      match s1.passOf job with
      | some p1 => if s1.stepReady p1 q o then s1.enterElement p1 o else s1
      | none => s1
    else if q == qKxt then s.askCalPour
    else if fromRef q then
      let s1 := s.askCalPour
      { s1 with cal := { s1.cal with viaRef := true } }
    else s

/-! ## CAL_RESULT -/

/-- Whether an object lies in a retired cell: it is not calibrated (R122). -/
def State.objectRetired (s : State) (q o : Nat) : Bool :=
  (elementQuantity q || (q == qResp && decide (o < 10304))) && s.moulds.retired.contains (o / 2)
    || q == qLoss && decide (o < lossPort) && s.moulds.retired.contains o

/-- What a result does once its step is entered. A reference that is not accepted leaves its coefficient as it is, marked UNTRACED where
its object has an entry (R118, R137); every other result is checked by R120 and R124. -/
def State.takeResult (s : State) (p : CalPass) (r : Measured) : State :=
  let q := r.quantity.val
  let o := r.object
  if fromRef q && p.refOk != some true then s.setQuality q o (fun w => withBits w 29 29 1)
  else
    let s1 := if fromVref q then s.vrefCheck r.c else s
    if fromVref q && !vrefOk r.c then s1.setPass { p with refused := true }
    else
      let (x, s2) := s1.measure r p.powerUp false
      let untraced := if adcQuantity q then !s2.flag F.calStatusVrefOk else p.refOk != some true
      let good := s2.calFailure x p.powerUp == 0
      let s3 := s2.checkResult x p.num p.powerUp untraced
      if fromRef q && good then s3.setPass { p with replaced := calKey q o :: p.replaced } else s3

/-- A result in a pass: in POWER_UP in any order; in a FULL pass never for an object it has left, and only when the pass holds its
claims, which it makes (R128-R130). After the last object of the last tile a temperature-delta pass ends (R126; log 12). -/
def State.passResult (s : State) (job : Nat) (r : Measured) : State :=
  match s.passOf job with
  | none => s
  | some p0 =>
    let q := r.quantity.val
    let o := r.object
    let n := fullPerTile * p0.tiles.idxOf (objectTile q o) + fullIndex q o
    if !p0.powerUp && decide (n < p0.pos) then s
    else
      let s1 := if p0.powerUp then s.passRef job else (s.passTo job n).passClaims job n
      match s1.passOf job with
      | none => s1
      | some p =>
        if !p.powerUp && !s1.passMet p n then s1
        else
          let s2 := s1.enterStep job q o
          match s2.passOf job with
          | none => s2
          | some p2 =>
            if !s2.stepReady p2 q o then s2
            else
              let s3 := s2.takeResult p2 r
              let s4 := if p2.powerUp then s3 else s3.passTo job (n + 1)
              if job = 0 ∧ !p2.powerUp ∧ n + 1 = fullPerTile * p2.tiles.length then ((s4.endPass 0).calBusy).surveyFabric else s4

/-- Whether a POWER_UP pass still measures: the pour of the hold mould that follows it has not been asked for (Table 01.9). -/
def State.powerUpMeasures (s : State) : Bool :=
  s.power.holdDue && (s.moulds.calPour || s.moulds.holdPour.isNone && s.moulds.staged.isNone)

/-- The pass that measures a tile now: the engine's own, or that of a job that runs (R125). -/
def State.measuring (s : State) (t : Nat) : Option Nat :=
  (s.cal.passes.find? (fun p => p.tiles.contains t && (p.job == 0 && (!p.powerUp || s.powerUpMeasures) || p.job != 0 &&
    match findJob s.jobs.table p.job with
    | some j => j.state == .running || j.state == .suspending || j.state == .cancelling
    | none => false))).map (·.job)

/-! ### Fettling's results (R127) -/

/-- The object of a tile's cycle at a place: one of its quantities, and the object. -/
def fettleObject (t n q : Nat) : Option (Nat × Nat) :=
  if n = 0 then some (qTref, t)
  else if n < fettleRef then (if adcQuantity q then some (q, 48 * t + n - 1) else none)
  else if n < fettleTap then some (qResp, if n - fettleRef < 37 then 10304 + 37 * t + (n - fettleRef) else 10896 + 37 * t + (n - fettleRef - 37))
  else if q = qResp ∨ q = qDither then some (q, 644 * t + n - fettleTap)
  else none

/-- A result of the object that fettling has in hand: a channel is taken over first by a spare that fettling holds; taps of LOCKED loops
only (R127, R128). -/
def State.fettleResult (s : State) (r : Measured) : State :=
  let t := s.fld F.calFettleTile
  let n := s.cal.fettled
  let q := r.quantity.val
  let o := r.object
  if !s.cal.fettleBusy || fettleObject t n q != some (q, o) || s.objectRetired q o then s
  else if n = 0 then
    let s1 := s.vrefCheck r.c
    if vrefOk r.c then
      let (x, s2) := s1.measure r false true
      s2.checkResult x 0 false false
    else s1
  else if n < fettleRef then
    let held := s.heldSpares .engine t
    if held.isEmpty then s
    else
      let (used, s1) := s.takeSpare s.cal.fettleSpares held t (n - 1)
      let s2 := { s1 with cal := { s1.cal with fettleSpares := used } }
      if s2.spareStateOf t (n - 1) = spServing then
        let (x, s3) := s2.measure r false true
        s3.checkResult x 0 false !s3.flag F.calStatusVrefOk
      else s2
  else if fettleTap ≤ n ∧ s.loopState o ≠ lLocked then s
  else
    let (x, s1) := s.measure r false true
    s1.checkResult x 0 false !s1.flag F.calStatusRefOk

/-- CAL_RESULT: a result of a pass in progress over its tile, or in RUN with service NORMAL of fettling; none is measured otherwise, nor
during a shakeout (R125). -/
def State.calResult (s : State) (r : Measured) : State :=
  let q := r.quantity.val
  if !objectOk q r.object || s.objectRetired q r.object || s.power.shake.isSome then s
  else match s.measuring (objectTile q r.object) with
    | some job => s.passResult job r
    | none => if s.dev = 2 ∧ s.svc = 0 then s.fettleResult r else s

def execCalResult (r : Measured) (s : State) : Out := .next (s.calResult r)

/-! ## Temperature-delta passes (R126) -/

/-- CAL_DELTA_T in 0.1 degC; none when it disables R126 (Table 06.11). -/
def State.deltaT (s : State) : Option Nat :=
  let d := s.fld F.calDeltaTDt
  if d = 0 then none else some (clampNat 5 200 d)

/-- Whether any of the 12 channels has moved by more than CAL_DELTA_T from the readings recorded for a tile. -/
def moved (dt : Nat) : List (Option Int) → List (Option Int) → Bool
  | some a :: as, some b :: bs => decide (16 * dt < 10 * (a - b).natAbs) || moved dt as bs
  | _ :: as, _ :: bs => moved dt as bs
  | _, _ => false

/-- The tiles over which a FULL pass is due: none that is being calibrated or waits. -/
def State.deltaDue (s : State) : List Nat :=
  match s.deltaT with
  | none => []
  | some dt =>
    (List.range 16).filter (fun t =>
      !s.cal.deltaWaiting.contains t && !s.cal.passes.any (fun p => p.tiles.contains t) &&
      !s.jobs.table.any (fun j => !j.state.terminal &&
        match j.kind with
        | .calFull m => m.testBit t
        | _ => false) &&
      match s.faults.tempsAt.find? t with
      | some old => moved dt old s.temps
      | none => false)

/-- Passes started over tiles in HOLD: further tiles of the engine's pass in progress, or a pass. -/
def State.startDelta (s : State) (ts : List Nat) : State :=
  if ts.isEmpty then s
  else
    let s1 := match s.passOf 0 with
      | some p => s.setPass { p with tiles := p.tiles ++ ts }
      | none => s.startPass 0 false ts
    s1.calBusy.surveyFabric

/-- The trigger of R126: in START, TEST or RECOVER a pass starts in HOLD, and waits for HOLD in KEEP. -/
def State.deltaTrigger (s : State) : State :=
  if s.svc = 0 then s
  else
    let ts := s.deltaDue
    if s.dev = 1 then s.startDelta ts
    else if s.dev = 0 ∧ !ts.isEmpty then
      let s1 := s.setFld F.calStatusPendDt 1
      { s1 with cal := { s1.cal with deltaWaiting := s1.cal.deltaWaiting ++ ts } }
    else s

/-- The waiting passes started at entry to HOLD; in service state NORMAL no FULL pass may run, and they go on waiting
(R125, R126; log 12). -/
def State.startWaitingDelta (s : State) : State :=
  if s.svc = 0 then s
  else
    let ts := s.cal.deltaWaiting
    let s1 := s.setFld F.calStatusPendDt 0
    ({ s1 with cal := { s1.cal with deltaWaiting := [] } }).startDelta ts

/-! ## Fettling (R127) -/

/-- Fettling stops: its channels and claims are given back; the object it had in hand is the next when it goes on. -/
def State.fettleStop (s : State) : State :=
  if s.cal.fettleBusy then
    let s1 := s.fettleReturn.engineReleases
    { s1 with cal := { s1.cal with fettleBusy := false } }
  else s

/-- The object at fettling's place taken in hand: the channels' spares are claimed when they begin and given back when they end; REF_IN
is checked before the monitors, which are skipped without it (R118, R127, R128, R272). -/
def State.fettleEnter (s : State) : State :=
  let t := s.fld F.calFettleTile
  let n := s.cal.fettled
  let s0 := { s with cal := { s.cal with fettleBusy := true } }
  if 1 ≤ n ∧ n < fettleRef then s0.claimFor .engine { any := spareAdc t, all := true }
  else if n = fettleRef then
    let s1 := (s0.fettleReturn.engineReleases).refCheck false
    if s1.flag F.calStatusRefOk then s1 else s1.fettleNext fettleTap
  else s0

/-- FETTLE_OBJECT: in RUN with service NORMAL the object in hand is done, and while EN = 1 the next is taken in hand. An ADC channel
waits for a spare of its tile (R127, R128, R130). -/
def State.fettle (s : State) : State :=
  if s.dev ≠ 2 ∨ s.svc ≠ 0 then s
  else
    let n := s.cal.fettled
    let t := s.fld F.calFettleTile
    let en := s.flag F.calFettleEn
    if !s.cal.fettleBusy then (if en then s.fettleEnter else s)
    else if 1 ≤ n ∧ n < fettleRef ∧ (s.heldSpares .engine t).isEmpty ∧ en then s.fettleEnter
    else
      let s1 := s.fettleNext (n + 1)
      if en then s1.fettleEnter else s1.fettleStop

def execFettleObject (s : State) : Out := .next s.fettle

/-! ## POWER_UP -/

/-- A POWER_UP pass begun over every tile; a temperature-delta pass that waits is covered by it (R125, R126). -/
def State.beginPass (s : State) : State :=
  let s1 := ({ s with cal := { s.cal with deltaWaiting := [] } }).setFld F.calStatusPendDt 0
  s1.startPass 0 true (List.range 16)

/-- The POWER_UP pass in progress. -/
def State.powerUpPass (s : State) : Option CalPass := s.cal.passes.find? (·.powerUp)

/-- Everything measured in an entry to HOLD: the tone of S0 returns, and partners are given back (R43, Table 01.9). -/
def State.endMeasuring (s : State) : State := s.settlePass 0

end Sys2Proof.Machine
end

