-- ==== Sys2Proof/Machine/Flags.lean ====
section
/-!
DEFINITION. The flag computations of the Cloby instruction set (R238, R239, Tables 11.3 to 11.6).
-/
namespace Sys2Proof.Machine

/-- The flags Z, N, C and V after a computation. -/
structure Flags where
  z : Bool
  n : Bool
  c : Bool
  v : Bool
deriving DecidableEq, Repr

/-- The flags of a - b (Table 11.5): C = 1 when a >= b unsigned; V when the signed difference leaves the range. -/
def subFlags {w : Nat} (a b : BitVec w) : Flags :=
  { z := a - b == 0, n := (a - b).msb, c := decide (b.toNat ≤ a.toNat), v := decide ((a - b).toInt ≠ a.toInt - b.toInt) }

/-- The flags of a + b on pairs (Table 11.11): C is the carry out; V when the signed sum leaves the range. -/
def addFlags {w : Nat} (a b : BitVec w) : Flags :=
  { z := a + b == 0, n := (a + b).msb, c := decide (2 ^ w ≤ a.toNat + b.toNat), v := decide ((a + b).toInt ≠ a.toInt + b.toInt) }

/-- A core with the flags Z, N, C and V. -/
def Core.setFlags (c : Core) (f : Flags) : Core := { c with z := f.z, n := f.n, c := f.c, v := f.v }

/-- A core with SAT set by an instruction marked SAT; SATS stays set once it is (R239). -/
def Core.setSat (c : Core) (b : Bool) : Core := { c with sat := b, sats := c.sats || b }

/-- The short conditions (Table 11.3). -/
def Core.cond3 (c : Core) (k : Nat) : Bool :=
  match k with
  | 0 => true
  | 1 => !c.z
  | 2 => c.z
  | 3 => c.c
  | 4 => !c.c
  | 5 => c.v
  | 6 => c.n
  | _ => c.sat

/-- The branch conditions (Table 11.4); none for a code that is ILLEGAL. -/
def Core.cond5 (c : Core) (k : Nat) : Option Bool :=
  match k with
  | 0x00 => some true
  | 0x01 => some c.z
  | 0x02 => some !c.z
  | 0x03 => some c.c
  | 0x04 => some !c.c
  | 0x05 => some c.n
  | 0x06 => some !c.n
  | 0x07 => some c.v
  | 0x08 => some !c.v
  | 0x09 => some (c.c && !c.z)
  | 0x0A => some !(c.c && !c.z)
  | 0x0B => some (c.n == c.v)
  | 0x0C => some (c.n != c.v)
  | 0x0D => some (!c.z && c.n == c.v)
  | 0x0E => some !(!c.z && c.n == c.v)
  | 0x0F => some c.sat
  | 0x10 => some !c.sat
  | _ => none

/-- The word of FLAGS (Table 11.12), and a core with FLAGS written. -/
def Core.flagWord (c : Core) : Word :=
  word (b2n c.z + 2 * b2n c.n + 4 * b2n c.c + 8 * b2n c.v + 16 * b2n c.sat + 256 * b2n c.sats)
def Core.withFlagWord (c : Core) (w : Word) : Core :=
  { c with z := bitOf w 0, n := bitOf w 1, c := bitOf w 2, v := bitOf w 3, sat := bitOf w 4, sats := bitOf w 8 }

end Sys2Proof.Machine
end

