-- ==== Sys2Proof/Machine/Operands.lean ====
section
/-!
DEFINITION. Operand forms of the Cloby instruction set (R238, R240, R241, R250), cycles (R237), and the taking of a trap
(R253). A command names the core that executes it; the instruction runs at the core's pc, whatever its code memory holds
there (log 9).
-/
namespace Sys2Proof.Machine

/-! ## Registers -/

/-- A general register; g0 reads as zero (R238). -/
def Core.r (c : Core) (i : Nat) : Word := if i = 0 then 0 else c.g.get (fun _ => 0) i

/-- A general register written; a write to g0 is discarded (R238). -/
def Core.w (c : Core) (i : Nat) (v : Word) : Core := if i = 0 then c else { c with g := c.g.set (fun _ => 0) i v }

/-- A register pair read, its low word in the register named; g0 reads as zero (R250). -/
def Core.pair (c : Core) (i : Nat) : BitVec 64 := if i = 0 then 0 else c.r (i + 1) ++ c.r i

/-- A register pair written. -/
def Core.putPair (c : Core) (i : Nat) (v : BitVec 64) : Core := (c.w i (v.extractLsb' 0 32)).w (i + 1) (v.extractLsb' 32 32)

/-- An accumulator (R238). -/
def Core.a (c : Core) (i : Nat) : BitVec 64 := c.acc.get (fun _ => 0) (i % 4)
def Core.putA (c : Core) (i : Nat) (v : BitVec 64) : Core := { c with acc := c.acc.set (fun _ => 0) (i % 4) v }

/-- The record image, registers g8-g15 (R243). -/
def Core.image (c : Core) : Image := (List.range 8).map (fun i => c.r (8 + i))
def Core.putImage (c : Core) (m : Image) : Core := (List.range 8).foldl (fun c i => c.w (8 + i) (m.getD i 0)) c

/-- A signed number as a register word. -/
def wordOfInt (v : Int) : Word := BitVec.ofInt 32 v

/-! ## Encodings, for TVAL of ILLEGAL (R240, Table 11.15) -/

/-- The word of an instruction in each form (Table 11.2). -/
def encA (f : FormA) (major func : Nat) : Word :=
  word (major * 2 ^ 26 + f.rd.toNat * 2 ^ 21 + f.rs.toNat * 2 ^ 16 + f.rt.toNat * 2 ^ 11 + func * 2 ^ 5 + f.sh.toNat)
def encB (f : FormB) (major : Nat) : Word :=
  word (major * 2 ^ 26 + f.rd.toNat * 2 ^ 21 + f.rs.toNat * 2 ^ 16 + f.imm.toNat)
def encC (f : FormC) (major : Nat) : Word := word (major * 2 ^ 26 + f.cond.toNat * 2 ^ 21 + f.off.toNat)
def encD (f : FormD) (major sub : Nat) : Word :=
  word (major * 2 ^ 26 + f.rd.toNat * 2 ^ 21 + f.rs.toNat * 2 ^ 16 + f.cond.toNat * 2 ^ 13 + sub * 2 ^ 10 + f.index.toNat)

/-! ## Traps -/

/-- The trap causes (Table 11.15). -/
abbrev tIllegal : Nat := 1
abbrev tPriv : Nat := 2
abbrev tAlign : Nat := 3
abbrev tWindow : Nat := 4
abbrev tChannel : Nat := 5
abbrev tTrap : Nat := 6
abbrev tSvc : Nat := 7
abbrev tAtomic : Nat := 8

/-- A core after a trap's entry (R253): EPC, CAUSE and TVAL, the mode left in PU, TH set, firmware mode at 0x20, or at 0x30
for SVC. -/
def Core.enter (c : Core) (cause code : Nat) (tval : Word) : Core :=
  { c with epc := c.pc, cause := word (cause + code % 65536 * 65536), tval := tval, prevUser := c.user, inTrap := true,
           user := false, pc := if cause = tSvc then 0x30 else 0x20 }

/-- What the library's handler does for a trap of a schedule core beside what its instructions do: the running decomposition is
abandoned; the standby die runs no policy (R253, R320; log 17). -/
def State.handlerAbandons (s : State) (id : CoreId) (cause : Nat) : State :=
  if id.kind = .schedule ∧ id.die = s.activeDie ∧ cause ≠ tSvc then s.abandonDecomposition else s

/-- Taking a trap (R253). One taken in a trap handler halts the core and raises a C2 fault of its own source, with the core
number and the cause; a core of the standby die raises no event (R320). -/
def State.trap (s : State) (id : CoreId) (cause code : Nat) (tval : Word) : State :=
  let c := s.core id.master
  if c.inTrap then
    let s1 := s.setCore id.master { c with halted := true }
    if id.die = s.activeDie then s1.raise (0x4000 + id.master) 2 0 (word (id.index + cause * 256)) else s1
  else (s.setCore id.master (c.enter cause code tval)).handlerAbandons id cause

/-- The return from a trap (Table 11.10): pc from EPC plus an offset, the mode from PU, TH clear. -/
def Core.leave (c : Core) (off : Nat) : Core := { c with pc := c.epc + word off, user := c.prevUser, inTrap := false }

/-! ## Cycles (R237) -/

/-- CYCLE advanced: since the latest wake and saturating on a loop core, free-running on the others (Table 11.12). -/
def Core.count (c : Core) (id : CoreId) (n : Nat) : Core :=
  { c with cycle := if id.kind = .loop then satAdd 0xFFFFFFFF c.cycle n else (c.cycle + n) % 2 ^ 32 }

/-- An instruction retired: pc moved past it and its cycles counted. -/
def Core.retire (c : Core) (id : CoreId) (n : Nat) : Core := ({ c with pc := c.pc + 4 } : Core).count id n

/-- Whether a core executes instructions: neither halted nor asleep (R249, R253, R258). -/
def Core.runs (c : Core) : Bool := !c.halted && !c.asleep

/-! ## The shape of an instruction -/

/-- Whether a core's clock runs: the core clock in HOLD and RUN; a management core runs on the housekeeping clock in KEEP
(Table 01.5). -/
def State.clocked (s : State) (id : CoreId) : Bool := s.power.fastClocks || id.kind == .management

/-- Whether a form D instruction or a store is suppressed by its condition: it then raises no trap for its operands (R241). -/
def State.suppressed (s : State) (id : CoreId) (cond : Nat) : Bool := !(s.core id.master).cond3 cond

/-- An instruction of a core: ILLEGAL with its word as TVAL when its checks fail, otherwise its effect; nothing on a core
that is halted or asleep, or whose clock is stopped. -/
def State.onCore (s : State) (id : CoreId) (legal : Bool) (enc : Word) (effect : Core → State → State) : State :=
  let c := s.core id.master
  if !c.runs || !s.clocked id then s
  else if !legal then s.trap id tIllegal 0 enc
  else effect c s

/-- An instruction that changes only its core, in a number of cycles. -/
def State.pure (s : State) (id : CoreId) (legal : Bool) (enc : Word) (cycles : Nat) (f : Core → Core) : State :=
  s.onCore id legal enc (fun c s => s.setCore id.master ((f c).retire id cycles))

/-- Whether a core has the Cloby-L or the Cloby-S profile (R236). -/
def isLoop (id : CoreId) : Bool := id.kind == .loop
def isS (id : CoreId) : Bool := id.kind != .loop

/-- The signed and unsigned halfwords of a register named in the tables: .LU, .HU, .LS, .HS (R242). -/
def halfLU (w : Word) : Int := (bitsOf w 15 0 : Int)
def halfHU (w : Word) : Int := (bitsOf w 31 16 : Int)
def halfLS (w : Word) : Int := (w.extractLsb' 0 16).toInt
def halfHS (w : Word) : Int := (w.extractLsb' 16 16).toInt

/-- The effective index of form D: rs + index (R240). -/
def Core.index (c : Core) (f : FormD) : Nat := (c.r f.rs.toNat + word f.index.toNat).toNat

/-- A form D instruction: one whose condition is false does nothing and takes its cycles (R241). -/
def State.formD (s : State) (id : CoreId) (legal : Bool) (f : FormD) (major sub cycles : Nat) (effect : Core → State → State) :
    State :=
  s.onCore id legal (encD f major sub) (fun c s =>
    if c.cond3 f.cond.toNat then effect c s else s.setCore id.master (c.retire id cycles))

end Sys2Proof.Machine
end

