-- ==== Sys2Proof/Machine/ClobyInt.lean ====
section
/-!
DEFINITION. The integer group and the multiply and accumulate group of the Cloby instruction set (R242, Tables 11.5, 11.6).
-/
namespace Sys2Proof.Machine

/-- An instruction of form A that writes rd from rs and rt (Table 11.5). -/
def State.alu (s : State) (id : CoreId) (f : FormA) (func : Nat) (g : Word → Word → Word) : State :=
  s.pure id true (encA f 0 func) 1 (fun c => c.w f.rd.toNat (g (c.r f.rs.toNat) (c.r f.rt.toNat)))

/-- The same with a signed result held in 32 bits; SAT says whether it was (R239). -/
def State.aluSat (s : State) (id : CoreId) (f : FormA) (major func : Nat) (g : Core → Int) : State :=
  s.pure id true (encA f major func) 1 (fun c =>
    let v := g c
    (c.w f.rd.toNat (wordOfInt (sat32 v))).setSat (decide (sat32 v ≠ v)))

/-- An instruction of form B that writes rd from rs and the immediate (Table 11.5). -/
def State.aluImm (s : State) (id : CoreId) (f : FormB) (major : Nat) (legal : Bool) (g : Word → BitVec 16 → Word) : State :=
  s.pure id legal (encB f major) 1 (fun c => c.w f.rd.toNat (g (c.r f.rs.toNat) f.imm))

/-- rs or rt by a flag. -/
def State.sel (s : State) (id : CoreId) (f : FormA) (func : Nat) (p : Core → Bool) : State :=
  s.pure id true (encA f 0 func) 1 (fun c => c.w f.rd.toNat (if p c then c.r f.rs.toNat else c.r f.rt.toNat))

/-- A signed operand. -/
def Core.ri (c : Core) (i : BitVec 5) : Int := (c.r i.toNat).toInt

/-- A field of a word: position imm[9:5], width imm[4:0] + 1; one that runs past bit 31 is not stated, so free (log 69). -/
def fieldPos (imm : BitVec 16) : Nat := (imm.extractLsb' 5 5).toNat
def fieldWidth (imm : BitVec 16) : Nat := (imm.extractLsb' 0 5).toNat + 1
def fieldZero (imm : BitVec 16) : Bool := imm.extractLsb' 10 6 == 0#6
def fieldFits (imm : BitVec 16) : Bool := decide (fieldPos imm + fieldWidth imm ≤ 32)

/-- A field instruction: its result where the field lies in the word, a free word otherwise. -/
def State.fieldOp (s : State) (id : CoreId) (f : FormB) (major : Nat) (g : Core → Word) : State :=
  s.onCore id (fieldZero f.imm) (encB f major) (fun c s =>
    if fieldFits f.imm then s.setCore id.master ((c.w f.rd.toNat (g c)).retire id 1)
    else
      let (x, s1) := s.freeWord
      s1.setCore id.master ((c.w f.rd.toNat x).retire id 1))

/-- Whether the field of a register that should name g0 does, and one that names an accumulator has its upper bits zero. -/
def isG0 (r : BitVec 5) : Bool := r == 0#5
def isAcc (r : BitVec 5) : Bool := r.toNat < 4


/-! ## Integer group -/

def execAdd (c : CoreId) (f : FormA) (s : State) : Out := .next (s.alu c f 0x00 (fun a b => a + b))
def execSub (c : CoreId) (f : FormA) (s : State) : Out := .next (s.alu c f 0x01 (fun a b => a - b))
def execAnd (c : CoreId) (f : FormA) (s : State) : Out := .next (s.alu c f 0x02 (fun a b => a &&& b))
def execOr (c : CoreId) (f : FormA) (s : State) : Out := .next (s.alu c f 0x03 (fun a b => a ||| b))
def execXor (c : CoreId) (f : FormA) (s : State) : Out := .next (s.alu c f 0x04 (fun a b => a ^^^ b))
def execAndn (c : CoreId) (f : FormA) (s : State) : Out := .next (s.alu c f 0x05 (fun a b => a &&& ~~~b))

def execAdds (c : CoreId) (f : FormA) (s : State) : Out := .next (s.aluSat c f 0 0x06 (fun c => c.ri f.rs + c.ri f.rt))
def execSubs (c : CoreId) (f : FormA) (s : State) : Out := .next (s.aluSat c f 0 0x07 (fun c => c.ri f.rs - c.ri f.rt))

def execSll (c : CoreId) (f : FormA) (s : State) : Out := .next (s.alu c f 0x08 (fun a _ => a <<< f.sh.toNat))
def execSrl (c : CoreId) (f : FormA) (s : State) : Out := .next (s.alu c f 0x09 (fun a _ => a >>> f.sh.toNat))
def execSra (c : CoreId) (f : FormA) (s : State) : Out := .next (s.alu c f 0x0A (fun a _ => a.sshiftRight f.sh.toNat))
def execSrar (c : CoreId) (f : FormA) (s : State) : Out := .next (s.alu c f 0x0B (fun a _ => wordOfInt (roundDiv a.toInt (2 ^ f.sh.toNat))))
def execSllv (c : CoreId) (f : FormA) (s : State) : Out := .next (s.alu c f 0x0C (fun a b => a <<< bitsOf b 4 0))
def execSrlv (c : CoreId) (f : FormA) (s : State) : Out := .next (s.alu c f 0x0D (fun a b => a >>> bitsOf b 4 0))
def execSrav (c : CoreId) (f : FormA) (s : State) : Out := .next (s.alu c f 0x0E (fun a b => a.sshiftRight (bitsOf b 4 0)))
def execMin (c : CoreId) (f : FormA) (s : State) : Out := .next (s.alu c f 0x10 (fun a b => if a.toInt ≤ b.toInt then a else b))
def execMax (c : CoreId) (f : FormA) (s : State) : Out := .next (s.alu c f 0x11 (fun a b => if a.toInt ≤ b.toInt then b else a))

def execAbs (c : CoreId) (f : FormA) (s : State) : Out := .next (s.aluSat c f 0 0x12 (fun c => ((c.ri f.rs).natAbs : Int)))

def execSelz (c : CoreId) (f : FormA) (s : State) : Out := .next (s.sel c f 0x14 (fun c => c.z))
def execSelc (c : CoreId) (f : FormA) (s : State) : Out := .next (s.sel c f 0x15 (fun c => c.c))
def execSeln (c : CoreId) (f : FormA) (s : State) : Out := .next (s.sel c f 0x16 (fun c => c.n))
def execSels (c : CoreId) (f : FormA) (s : State) : Out := .next (s.sel c f 0x17 (fun c => c.sat))

/-- CMP: the flags of rs - rt; rd must be g0 (Table 11.5). -/
def execCmp (c : CoreId) (f : FormA) (s : State) : Out :=
  .next (s.pure c (isG0 f.rd) (encA f 0 0x18) 1 (fun c => c.setFlags (subFlags (c.r f.rs.toNat) (c.r f.rt.toNat))))

/-- TST: Z and N of rs & rt; rd must be g0 (Table 11.5). -/
def execTst (c : CoreId) (f : FormA) (s : State) : Out :=
  .next (s.pure c (isG0 f.rd) (encA f 0 0x19) 1 (fun c =>
    let v := c.r f.rs.toNat &&& c.r f.rt.toNat
    { c with z := v == 0, n := v.msb }))

/-- EXH: the halfword of rs that bit sh of rt selects, sign-extended (Table 11.5). -/
def execExh (c : CoreId) (f : FormA) (s : State) : Out :=
  .next (s.alu c f 0x1A (fun a b => wordOfInt (if bitOf b f.sh.toNat then halfHS a else halfLS a)))

/-- INSH: the halfword of rd that bit sh of rt selects becomes rs[15:0] (Table 11.5). -/
def execInsh (c : CoreId) (f : FormA) (s : State) : Out :=
  .next (s.pure c true (encA f 0 0x1B) 1 (fun c =>
    let h := bitsOf (c.r f.rs.toNat) 15 0
    c.w f.rd.toNat (if bitOf (c.r f.rt.toNat) f.sh.toNat then withBits (c.r f.rd.toNat) 31 16 h else withBits (c.r f.rd.toNat) 15 0 h)))

def execAddi (c : CoreId) (f : FormB) (s : State) : Out := .next (s.aluImm c f 0x04 true (fun a i => a + i.signExtend 32))
def execAndi (c : CoreId) (f : FormB) (s : State) : Out := .next (s.aluImm c f 0x05 true (fun a i => a &&& i.setWidth 32))
def execOri (c : CoreId) (f : FormB) (s : State) : Out := .next (s.aluImm c f 0x06 true (fun a i => a ||| i.setWidth 32))
def execXori (c : CoreId) (f : FormB) (s : State) : Out := .next (s.aluImm c f 0x07 true (fun a i => a ^^^ i.setWidth 32))
def execLui (c : CoreId) (f : FormB) (s : State) : Out := .next (s.aluImm c f 0x08 (isG0 f.rs) (fun _ i => i.setWidth 32 <<< 16))

/-- CMPI: the flags of rs - sign-extended imm; rd must be g0 (Table 11.5). -/
def execCmpi (c : CoreId) (f : FormB) (s : State) : Out :=
  .next (s.pure c (isG0 f.rd) (encB f 0x09) 1 (fun c => c.setFlags (subFlags (c.r f.rs.toNat) (f.imm.signExtend 32))))

/-- EXTU and EXTS: a field of rs, zero- or sign-extended (Table 11.5). -/
def execExtu (c : CoreId) (f : FormB) (s : State) : Out :=
  .next (s.fieldOp c f 0x0A (fun c => word ((c.r f.rs.toNat).toNat / 2 ^ fieldPos f.imm % 2 ^ fieldWidth f.imm)))
def execExts (c : CoreId) (f : FormB) (s : State) : Out :=
  .next (s.fieldOp c f 0x0B (fun c => wordOfInt (signed (fieldWidth f.imm) ((c.r f.rs.toNat).toNat / 2 ^ fieldPos f.imm))))

/-- INS: that field of rd becomes the low bits of rs (Table 11.5). -/
def execIns (c : CoreId) (f : FormB) (s : State) : Out :=
  .next (s.fieldOp c f 0x0C (fun c =>
    withBits (c.r f.rd.toNat) (fieldPos f.imm + fieldWidth f.imm - 1) (fieldPos f.imm) (c.r f.rs.toNat).toNat))

/-! ## Multiply and accumulate group -/

/-- A signed number held in 64 bits. -/
def sat64 (v : Int) : Int := clampInt (-9223372036854775808) 9223372036854775807 v

/-- MULA: an accumulator becomes rs x rt, formed exactly (Table 11.6). -/
def execMula (c : CoreId) (f : FormA) (s : State) : Out :=
  .next (s.pure c (isAcc f.rd) (encA f 1 0x00) 1 (fun c => c.putA f.rd.toNat (BitVec.ofInt 64 (c.ri f.rs * c.ri f.rt))))

/-- An accumulator with a signed amount added, saturating (Table 11.6). -/
def State.accumulate (s : State) (id : CoreId) (f : FormA) (func : Nat) (g : Core → Int) : State :=
  s.pure id (isAcc f.rd) (encA f 1 func) 1 (fun c =>
    let v := (c.a f.rd.toNat).toInt + g c
    (c.putA f.rd.toNat (BitVec.ofInt 64 (sat64 v))).setSat (decide (sat64 v ≠ v)))

def execMaca (c : CoreId) (f : FormA) (s : State) : Out := .next (s.accumulate c f 0x01 (fun c => c.ri f.rs * c.ri f.rt))
def execMsua (c : CoreId) (f : FormA) (s : State) : Out := .next (s.accumulate c f 0x02 (fun c => -(c.ri f.rs * c.ri f.rt)))

/-- ACCR: an accumulator scaled and rounded into rd (Table 11.6). -/
def execAccr (c : CoreId) (f : FormA) (s : State) : Out :=
  .next (s.aluSat c f 1 0x03 (fun c => roundDiv (c.a f.rt.toNat).toInt (2 ^ f.sh.toNat)))

def execAccw (c : CoreId) (f : FormA) (s : State) : Out :=
  .next (s.pure c (isAcc f.rd) (encA f 1 0x04) 1 (fun c => c.putA f.rd.toNat (BitVec.ofInt 64 (c.ri f.rs * 2 ^ f.sh.toNat))))

def execAccz (c : CoreId) (f : FormA) (s : State) : Out :=
  .next (s.pure c (isAcc f.rd) (encA f 1 0x05) 1 (fun c => c.putA f.rd.toNat 0))

/-- rs times a halfword of rt, scaled by sh and rounded (Table 11.6). -/
def mulHalf (f : FormA) (h : Word → Int) (c : Core) : Int := roundDiv (c.ri f.rs * h (c.r f.rt.toNat)) (2 ^ f.sh.toNat)

def execMulsLu (c : CoreId) (f : FormA) (s : State) : Out := .next (s.aluSat c f 1 0x08 (mulHalf f halfLU))
def execMulsHu (c : CoreId) (f : FormA) (s : State) : Out := .next (s.aluSat c f 1 0x09 (mulHalf f halfHU))
def execMulsLs (c : CoreId) (f : FormA) (s : State) : Out := .next (s.aluSat c f 1 0x0A (mulHalf f halfLS))
def execMulsHs (c : CoreId) (f : FormA) (s : State) : Out := .next (s.aluSat c f 1 0x0B (mulHalf f halfHS))

def execMadLu (c : CoreId) (f : FormA) (s : State) : Out :=
  .next (s.aluSat c f 1 0x0C (fun c => c.ri f.rd + mulHalf f halfLU c))
def execMadHu (c : CoreId) (f : FormA) (s : State) : Out :=
  .next (s.aluSat c f 1 0x0D (fun c => c.ri f.rd + mulHalf f halfHU c))
def execMadLs (c : CoreId) (f : FormA) (s : State) : Out :=
  .next (s.aluSat c f 1 0x0E (fun c => c.ri f.rd + mulHalf f halfLS c))
def execMadHs (c : CoreId) (f : FormA) (s : State) : Out :=
  .next (s.aluSat c f 1 0x0F (fun c => c.ri f.rd + mulHalf f halfHS c))

def execMulw (c : CoreId) (f : FormA) (s : State) : Out :=
  .next (s.aluSat c f 1 0x10 (fun c => roundDiv (c.ri f.rs * c.ri f.rt) (2 ^ f.sh.toNat)))

/-- The limit max(rt, 0) (Table 11.6). -/
def Core.bound (c : Core) (r : BitVec 5) : Int := if c.ri r < 0 then 0 else c.ri r

/-- LIM: rs held in plus or minus the limit; N is the sign of the result (Table 11.6; log 70). -/
def execLim (c : CoreId) (f : FormA) (s : State) : Out :=
  .next (s.pure c true (encA f 1 0x14) 1 (fun c =>
    let v := clampInt (-c.bound f.rt) (c.bound f.rt) (c.ri f.rs)
    { (c.w f.rd.toNat (wordOfInt v)).setSat (decide (v ≠ c.ri f.rs)) with n := decide (v < 0) }))

/-- LIMU: rs held in 0 to the limit (Table 11.6). -/
def execLimu (c : CoreId) (f : FormA) (s : State) : Out :=
  .next (s.pure c true (encA f 1 0x15) 1 (fun c =>
    let v := clampInt 0 (c.bound f.rt) (c.ri f.rs)
    (c.w f.rd.toNat (wordOfInt v)).setSat (decide (v ≠ c.ri f.rs))))

end Sys2Proof.Machine
end

