-- ==== Sys2Proof/Machine/ClobyLoop.lean ====
section
/-!
DEFINITION. The loop group and LIVE of the Cloby instruction set (R243-R245, Table 11.8), over the record image.
-/
namespace Sys2Proof.Machine

/-- A loop group instruction: Cloby-L only (R236, Table 11.8). -/
def State.loopOp (s : State) (id : CoreId) (f : FormA) (func : Nat) (legal : Bool) (g : Core → Core) : State :=
  s.pure id (isLoop id && legal) (encA f 2 func) 1 g

def execErrs (c : CoreId) (f : FormA) (s : State) : Out :=
  .next (s.loopOp c f 0x00 true (fun c => c.w f.rd.toNat (wordOfInt (c.image.errs c.c (c.ri f.rs)))))
def execPia (c : CoreId) (f : FormA) (s : State) : Out :=
  .next (s.loopOp c f 0x01 true (fun c => c.w f.rd.toNat (wordOfInt (c.image.pia (c.ri f.rs)))))
def execPip (c : CoreId) (f : FormA) (s : State) : Out :=
  .next (s.loopOp c f 0x02 true (fun c => c.w f.rd.toNat (wordOfInt (c.image.pip (c.ri f.rs) (c.ri f.rt)))))

/-- LIMT: SAT says whether it clamped, N is the sign of the result (log 70). -/
def execLimt (c : CoreId) (f : FormA) (s : State) : Out :=
  .next (s.loopOp c f 0x03 true (fun c =>
    let v := c.image.limt (c.ri f.rs)
    { (c.w f.rd.toNat (wordOfInt v)).setSat (decide (v ≠ c.ri f.rs)) with n := decide (v < 0) }))

/-- AWR: rd becomes INT[CUR] when the output is at its limit in the error's direction; else it keeps its value. -/
def execAwr (c : CoreId) (f : FormA) (s : State) : Out :=
  .next (s.loopOp c f 0x04 true (fun c => c.w f.rd.toNat (wordOfInt (c.image.awr c.sat c.n (c.ri f.rs) (c.ri f.rd)))))

def execIput (c : CoreId) (f : FormA) (s : State) : Out :=
  .next (s.loopOp c f 0x05 (isG0 f.rd) (fun c => c.putImage (c.image.iput (c.ri f.rs))))
def execBld (c : CoreId) (f : FormA) (s : State) : Out :=
  .next (s.loopOp c f 0x06 true (fun c => c.w f.rd.toNat (wordOfInt c.image.bld)))
def execBapp (c : CoreId) (f : FormA) (s : State) : Out :=
  .next (s.loopOp c f 0x07 true (fun c => c.putImage (c.image.bapp (c.ri f.rs) (c.ri f.rt))))
def execRail (c : CoreId) (f : FormA) (s : State) : Out :=
  .next (s.loopOp c f 0x08 true (fun c => c.w f.rd.toNat (wordOfInt (c.image.rail (c.ri f.rs)))))

/-- LOCK (R244): nothing but V = N = 0 when Z = 1. -/
def Core.lock (c : Core) (f : FormA) : Core :=
  if c.z then { c with v := false, n := false }
  else
    let (m, cause) := c.image.lock c.c (c.ri f.rs) (c.r f.rt.toNat)
    let rd := if cause = 0 then 0 else word (m.state * 65536 + cause * 1048576)
    { (c.putImage m).w f.rd.toNat rd with v := cause == cLockLoss || cause == cStarved, n := cause == cPinned || cause == cLockTimeout }

def execLock (c : CoreId) (f : FormA) (s : State) : Out := .next (s.loopOp c f 0x09 true (fun c => c.lock f))

/-- LIVE: Z says that the loop is not to be computed (R245). -/
def execLive (c : CoreId) (f : FormB) (s : State) : Out :=
  .next (s.pure c (isLoop c && f.imm.extractLsb' 5 11 == 0#11) (encB f 0x0D) 1 (fun c =>
    { c with z := c.image.dead (bitOf (c.r f.rs.toNat) (bitsOf (f.imm.setWidth 32) 4 0)) }))

end Sys2Proof.Machine
end

