-- ==== Sys2Proof/Machine/Link.lean ====
section
/-!
DEFINITION. The fabric link (R173-R181): frame headers, control payloads, bursts on the four lanes, codewords and their scrambler
and code, and what a receiver finds in a burst.
-/
namespace Sys2Proof.Machine

/-! ## Frames (R179-R181) -/

/-- The n bytes of a number, most significant first (R179). -/
def beBytes (n v : Nat) : List Byte := (List.range n).map (fun i => BitVec.ofNat 8 (v / 256 ^ (n - 1 - i)))

/-- The fields of a frame header (Table 08.6). -/
structure Header where
  type : Nat
  dst : Nat
  src : Nat
  cls : Nat
  flow : Nat
  seq : Nat
  flags : Nat
  len : Nat
  tag : Nat
deriving DecidableEq, Repr

/-- Byte i of a header, the first byte being the most significant (R179). -/
def headerByte (h : BitVec 128) (i : Nat) : Byte := h.extractLsb' (120 - 8 * i) 8

/-- The CRC of a header over bytes 0 to 13 (Table 08.6). -/
def headerCrc (h : BitVec 128) : BitVec 16 := crc16 ((List.range 14).map (headerByte h))

/-- A header as sent: VER 0b01, its fields, and HCRC (Table 08.6). -/
def Header.bits (h : Header) : BitVec 128 :=
  let v : BitVec 128 := BitVec.ofNat 128 (2 ^ 126 + h.type * 2 ^ 122 + h.dst * 2 ^ 112 + h.src * 2 ^ 102 + h.cls * 2 ^ 99 + h.flow * 2 ^ 78
    + h.seq * 2 ^ 62 + h.flags * 2 ^ 54 + h.len * 2 ^ 40 + h.tag * 2 ^ 24)
  v ||| (headerCrc v).setWidth 128

/-- Whether a header's HCRC is right (Table 08.6). -/
def hcrcOk (h : BitVec 128) : Bool := headerCrc h == h.extractLsb' 0 16

/-- The fields of a header (Tables 08.6, 08.7). -/
def hdrVer (h : BitVec 128) : Nat := (h.extractLsb' 126 2).toNat
def hdrType (h : BitVec 128) : Nat := (h.extractLsb' 122 4).toNat
def hdrDst (h : BitVec 128) : Nat := (h.extractLsb' 112 10).toNat
def hdrSrc (h : BitVec 128) : Nat := (h.extractLsb' 102 10).toNat
def hdrClass (h : BitVec 128) : Nat := (h.extractLsb' 99 3).toNat
def hdrFlow (h : BitVec 128) : Nat := (h.extractLsb' 78 21).toNat
def hdrSeq (h : BitVec 128) : Nat := (h.extractLsb' 62 16).toNat
def hdrFlag (h : BitVec 128) (b : Nat) : Bool := h.getLsbD (54 + b)
def hdrLen (h : BitVec 128) : Nat := (h.extractLsb' 40 14).toNat
def hdrTag (h : BitVec 128) : Nat := (h.extractLsb' 24 16).toNat

/-- The types of Table 08.8 that the engine sends. -/
abbrev tData : Nat := 0x0
abbrev tHello : Nat := 0x8
abbrev tNotice : Nat := 0xA
abbrev tXoff : Nat := 0xB
abbrev tXon : Nat := 0xC
abbrev tMark : Nat := 0xD
abbrev tTime : Nat := 0xE
abbrev tError : Nat := 0xF

/-- The engine as a source or a destination, and a multicast group as one (Table 08.6). -/
abbrev engineId : Nat := 0x3FE
abbrev groupId : Nat := 0x3FD

/-- A payload padded with zeros to 64 bytes (R183). -/
def padded (p : List Byte) : List Byte := p ++ List.replicate (64 - p.length) 0

/-- A network time in a payload: its nanoseconds in 4 bytes, its seconds in 6 (Tables 08.11, 08.15, 08.16). -/
def timeBytes (t : Nat) : List Byte := beBytes 4 (t % second) ++ beBytes 6 (t / second)

/-- The type of a control frame (Table 08.8). -/
def Ctl.type : Ctl → Nat
  | .flow stop _ _ => if stop then tXoff else tXon
  | .notice _ => tNotice
  | .hello => tHello
  | .timeCheck _ _ _ _ _ => tTime
  | .error _ _ _ _ _ _ => tError

/-- The payload of a notice (Table 08.11). -/
def Notice.payload (n : Notice) : List Byte :=
  beBytes 4 n.serial.toNat ++ beBytes 1 (if n.cancelled then 2 else 1) ++ beBytes 1 n.part ++ beBytes 1 n.parts ++ beBytes 1 n.dclass
    ++ timeBytes n.a ++ beBytes 2 n.guard ++ beBytes 4 n.cycle ++ beBytes 2 n.ctrl ++ beBytes 2 n.slots ++ beBytes 2 n.first
    ++ beBytes 2 n.entries.length ++ n.entries.flatMap (fun e => beBytes 8 e.toNat)

/-- The payload of a control frame to a line card's port, with the serial of the heat the engine follows (Tables 08.9, 08.11, 08.13,
08.15, 08.16). -/
def Ctl.payload (c : Ctl) (port : Nat) (serial : Word) : List Byte :=
  padded (match c with
    | .flow _ mask all => beBytes 1 mask ++ beBytes 1 (b2n all) ++ beBytes 2 0
    | .notice n => n.payload
    | .hello => beBytes 2 port ++ beBytes 1 1 ++ beBytes 1 0 ++ beBytes 2 0 ++ beBytes 2 0 ++ beBytes 4 serial.toNat
        ++ beBytes 4 (Config.serial.extractLsb' 0 32).toNat
    | .timeCheck n mean lo hi t => beBytes 2 n ++ beBytes 2 0 ++ beBytes 4 (unsigned 32 mean) ++ beBytes 4 (unsigned 32 lo)
        ++ beBytes 4 (unsigned 32 hi) ++ timeBytes t
    | .error code n serial slot peer t => beBytes 1 code ++ beBytes 3 0 ++ beBytes 4 n ++ beBytes 4 serial.toNat ++ beBytes 2 slot
        ++ beBytes 2 peer ++ timeBytes t)

/-- The payload of a lane mark (Table 08.14). -/
def markPayload (serial : Word) : List Byte := padded (beBytes 4 serial.toNat ++ beBytes 1 1)

/-- A control frame as sent in a burst: SRC the engine, DST the line card's port, CTRL = 1 (R183, Table 08.6). -/
def Ctl.sent (c : Ctl) (port : Nat) (serial : Word) (seq tag pos : Nat) : Sent :=
  let p := c.payload port serial
  let h : Header := { type := c.type, dst := port, src := engineId, cls := 0, flow := 0, seq := seq, flags := 0x80, len := p.length, tag := tag }
  { header := h.bits, payload := p, trailer := crc32 p, pos := pos, frame := none, ctl := some c, cut := false }

/-- A lane mark as forwarded: it carries the lane, and CTRL and LANE_MARK are 1 (R183, R229). -/
def markSent (src dst cls : Nat) (serial : Word) (seq tag pos : Nat) : Sent :=
  let p := markPayload serial
  let h : Header := { type := tMark, dst := dst, src := src, cls := cls, flow := 0, seq := seq, flags := 0xA0, len := p.length, tag := tag }
  { header := h.bits, payload := p, trailer := crc32 p, pos := pos, frame := none, ctl := none, cut := false }

/-- The header of a data frame towards a destination, in the slot of a tag (R181, Table 08.6): FLAGS have MCAST alone. -/
def Frame.header (f : Frame) (dst tag : Nat) : BitVec 128 :=
  ({ type := tData, dst := dst, src := f.src, cls := f.cls, flow := f.flow, seq := f.seq, flags := 0x40 * b2n f.mcast, len := f.len,
     tag := tag } : Header).bits

/-- A data frame, or a copy of one, as sent: HTAG of its slot and a copy's own DST, payload and trailer unchanged (R181). -/
def Frame.sent (f : Frame) (id dst tag pos : Nat) : Sent :=
  { header := f.header dst tag, payload := f.payload, trailer := f.trailer, pos := pos, frame := some (id, f), ctl := none, cut := false }

/-- The bytes of a frame in a burst: header, payload, trailer least significant byte first (R179, R180). -/
def Sent.bytes (x : Sent) : List Byte := (List.range 16).map (headerByte x.header) ++ x.payload ++ bytesOf x.trailer

/-- The size of a frame in a burst. -/
def Sent.size (x : Sent) : Nat := 20 + x.payload.length

/-- The frame with the complemented trailer (R180). -/
def Sent.stomped (x : Sent) : Sent := { x with trailer := ~~~(crc32 x.payload) }

/-! ## Codewords (R174, R176, R178) -/

/-- N of R174: the codewords of a lane in a slot of d ns with a guard of g ns. -/
def laneWords (d g : Nat) : Nat := (425 * (d - g - 40) - 256) / 10880

/-- The payload bytes a burst of a slot carries: 2,560 for each codeword of a lane (R176). -/
def burstBytes (d g : Nat) : Nat := 2560 * laneWords d g

/-- A codeword's header and its 640 payload bytes as one number (R176, Table 08.5). -/
structure Codeword where
  kind : Nat
  fptr : Nat
  seq : Nat
  body : Nat
deriving DecidableEq, Repr

/-- A payload byte of a codeword. -/
def Codeword.byte (c : Codeword) (off : Nat) : Nat := c.body / 256 ^ (639 - off) % 256

/-- The message bits of a codeword, the header first (R176). -/
def Codeword.message (c : Codeword) : BitVec 5140 := BitVec.ofNat 5140 ((c.kind * 2 ^ 18 + c.fptr * 256 + c.seq) * 2 ^ 5120 + c.body)

/-- The codeword of a message. -/
def codeOf (m : Nat) : Codeword :=
  { kind := m / 2 ^ 5138 % 4, fptr := m / 2 ^ 5128 % 1024, seq := m / 2 ^ 5120 % 256, body := m % 2 ^ 5120 }

/-- The byte stream of a burst's frames as pieces: position and bytes. -/
def streamByte (xs : List Sent) (p : Nat) : Option Byte :=
  xs.findSome? (fun x => if x.pos ≤ p ∧ p < x.pos + x.size then x.bytes[p - x.pos]? else none)

/-- Codeword k of a burst (R176, R178, Table 08.5): DATA where a frame byte falls in it, FPTR of the first header that begins in it,
and fill of zeros. -/
def codeAt (xs : List Sent) (k : Nat) : Codeword :=
  let base := 640 * k
  let mine := xs.filter (fun x => decide (x.pos < base + 640 ∧ base < x.pos + x.size))
  let first := (mine.filter (fun x => decide (base ≤ x.pos))).map (fun x => x.pos - base)
  { kind := if mine.isEmpty then 0 else 1
    fptr := first.foldl (fun n p => if p < n then p else n) 0x3FF
    seq := k % 256
    body := (List.range 640).foldl (fun n i => 256 * n + ((streamByte mine (base + i)).getD 0).toNat) 0 }

/-- The state of a lane's scrambler at the first message bit of its codeword 0 (R176). -/
def scramblerSeed (lane : Nat) : Nat := 0x7FFFFFFC + lane

/-- The next k outputs, at most 28, of the generator x^31 + x^28 + 1, first output high, and its state after them: output i is the
sum of outputs i - 31 and i - 28, and the state holds the latest 31 (R176). -/
def scramblerBits (s k : Nat) : Nat × Nat :=
  let b := ((s / 8) ^^^ s) % 2 ^ 28 / 2 ^ (28 - k)
  (b, (s * 2 ^ k + b) % 2 ^ 31)

/-- A number of blocks of 28 outputs, after those gathered. -/
def scramblerRun : Nat → Nat → Nat → Nat × Nat
  | 0, s, acc => (acc, s)
  | n + 1, s, acc =>
    let (b, s1) := scramblerBits s 28
    scramblerRun n s1 (acc * 2 ^ 28 + b)

/-- The 5,140 outputs that scramble a codeword's message, and the state after them. -/
def scrambler (s : Nat) : Nat × Nat :=
  let (a, s1) := scramblerRun 183 s 0
  let (b, s2) := scramblerBits s1 16
  (a * 2 ^ 16 + b, s2)

/-- A lane's messages scrambled, or recovered: the generator runs on across its codewords (R176). -/
def scrambled : Nat → List Nat → List Nat
  | _, [] => []
  | s, m :: ms =>
    let (o, s1) := scrambler s
    (m ^^^ o) :: scrambled s1 ms

/-! ### RS(544,514) (R176; log 116) -/

/-- A symbol times x in the field of clause 91: ten bits, x^10 + x^3 + 1. -/
def gfDouble (a : Nat) : Nat := if a < 512 then 2 * a else (2 * a - 1024) ^^^ 9

/-- The product of two symbols. -/
def gfMul (a b : Nat) : Nat :=
  ((List.range 10).foldl (fun (p : Nat × Nat) i => (if b.testBit i then p.1 ^^^ p.2 else p.1, gfDouble p.2)) (0, a)).1

/-- A polynomial, highest coefficient first, times x + r. -/
def gfTimes (p : List Nat) (r : Nat) : List Nat := List.zipWith (· ^^^ ·) (p ++ [0]) (0 :: p.map (gfMul r))

/-- The generator polynomial: the product of x + 2^j for j = 0 to 29, without its leading 1. -/
def rsGenerator : List Nat := ((List.range 30).foldl (fun (a : List Nat × Nat) _ => (gfTimes a.1 a.2, gfDouble a.2)) ([1], 1)).1.tail

/-- The 30 parity symbols of a message's symbols, first symbol highest. -/
def rsParity (ms : List Nat) : List Nat :=
  ms.foldl (fun r m =>
    let f := m ^^^ r.headD 0
    List.zipWith (· ^^^ ·) (r.tail ++ [0]) (rsGenerator.map (gfMul f))) (List.replicate 30 0)

/-- The 544 symbols of a codeword, from its scrambled message bits, first bit high. -/
def rsSymbols (m : Nat) : List Nat :=
  let ms := (List.range 514).map (fun i => m / 1024 ^ (513 - i) % 1024)
  ms ++ rsParity ms

/-! ### Lanes (R167, R173, R175) -/

/-- The start delimiters of the lanes (Table 08.4). -/
def delimiterOf (lane : Nat) : BitVec 128 :=
  if lane = 0 then 0x1B7E4C29D58A06F39E21B4D7630CA85F
  else if lane = 1 then 0x2D94F06B3AC7158EE47309B2CD567A1E
  else if lane = 2 then 0x4E3A9B16C2F58D077169E4AC530BD8F2
  else 0x87C15E29A64D0FB33D9872E61AC5B04F

/-- A level from a pair of bits, Gray coded (Table 08.1). -/
def grayLevel (pair : Nat) : Nat := if pair = 3 then 2 else if pair = 2 then 3 else pair

/-- The levels of n pairs of bits, first bit high. -/
def levelsOf (n v : Nat) : List Nat := (List.range n).map (fun i => grayLevel (v / 4 ^ (n - 1 - i) % 4))

/-- What a lane sends from T + 120 ns on: levels of the fields of Table 08.3 one after another. -/
structure LaneBurst where
  preamble : List Nat
  start : List Nat
  words : List Nat
  finish : List Nat
deriving DecidableEq, Repr

/-- The preamble of a slot with a guard of g ns: levels 3 and 0 by turns for 20 ns, then PRBS13Q from its seed to the start delimiter
(Table 08.3); 106.25 symbols a ns. -/
def preamble (g : Nat) : List Nat :=
  (List.range 2125).map (fun i => if i % 2 = 0 then 3 else 0)
    ++ (List.range (425 * (g - 140) / 4 - 64)).map Config.prbs13q

/-- One lane of a burst of 4n codewords with these frames: codeword k travels on lane k mod 4 (R173, R176). -/
def laneBurst (g n lane : Nat) (xs : List Sent) : LaneBurst :=
  let ms := (List.range n).map (fun i => (codeAt xs (4 * i + lane)).message.toNat)
  { preamble := preamble g
    start := levelsOf 64 (delimiterOf lane).toNat
    words := (scrambled (scramblerSeed lane) ms).flatMap (fun m => (rsSymbols m).flatMap (levelsOf 5))
    finish := levelsOf 64 (~~~(delimiterOf lane)).toNat }

/-! ## Receiving (R175-R180) -/

/-- The lane that carries the delimiter of a number: lanes are reordered by their delimiters (R175). -/
def laneFor (ls : List RxLane) (lane : Nat) : Option RxLane := ls.find? (fun l => l.delimiter == delimiterOf lane)

/-- A lane's codewords: corrected up to 15 symbol errors, and descrambled; none for one that is uncorrectable (R176, R177). -/
def rxCodes (l : RxLane) (lane : Nat) : List (Option Codeword) :=
  List.zipWith (fun w m => if 15 < w.errors then none else some (codeOf m)) l.words
    (scrambled (scramblerSeed lane) (l.words.map (fun w => w.bits.toNat)))

/-- The codewords of a burst in order of k, and none where a delimiter is not found (R175, R176; log 117). -/
def burstCodes (ls : List RxLane) : Option (List (Option Codeword)) :=
  match laneFor ls 0, laneFor ls 1, laneFor ls 2, laneFor ls 3 with
  | some a, some b, some c, some d =>
    let xs := [rxCodes a 0, rxCodes b 1, rxCodes c 2, rxCodes d 3]
    some ((List.range d.words.length).flatMap (fun i => xs.map (fun x => (x[i]?).getD none)))
  | _, _, _, _ => none

/-- A frame found in a burst: its header if one was read, whether it overlaps an uncorrectable codeword, whether the burst's end cut it
short, its payload and its trailer. -/
structure RxFrame where
  header : Option (BitVec 128)
  overlaps : Bool
  cut : Bool
  payload : List Byte
  trailer : Word
deriving DecidableEq, Repr

/-- A frame that no more is known of. -/
def RxFrame.lost (h : Option (BitVec 128)) (cut : Bool) : RxFrame := { header := h, overlaps := !cut, cut := cut, payload := [], trailer := 0 }

/-- Where reading goes on from codeword k: the next FPTR other than 0x3FF (R177, R180). -/
def resumeAt (ws : List (Option Codeword)) (k : Nat) : Option Nat :=
  (ws.zipIdx.drop k).findSome? (fun p => match p.1 with
    | some c => if c.kind = 1 ∧ c.fptr < 640 then some (640 * p.2 + c.fptr) else none
    | none => none)

/-- The first uncorrectable codeword from k up to l. -/
def badWord (ws : List (Option Codeword)) (k l : Nat) : Option Nat := ((List.range (l + 1)).drop k).find? (fun i => ws[i]? == some none)

/-- The number of n bytes of the stream from a position on. -/
def streamNumber (ws : List (Option Codeword)) (p n : Nat) : Nat :=
  (List.range n).foldl (fun a i => 256 * a + (match ws[(p + i) / 640]? with
    | some (some c) => c.byte ((p + i) % 640)
    | _ => 0)) 0

/-- Whether the first codeword after an uncorrectable one shows that a frame begun in it goes on (log 117). -/
def runsOn (ws : List (Option Codeword)) (k : Nat) : Bool :=
  match (ws.drop k).find? Option.isSome with
  | some (some c) => c.kind == 1 && c.fptr != 0
  | _ => false

/-- The frames of a burst in order, read from a position at which a header could begin (R177, R178, R180); the first argument
bounds the steps. -/
def rxRead (ws : List (Option Codeword)) : Nat → Option Nat → List RxFrame
  | 0, _ => []
  | _, none => []
  | n + 1, some p =>
    let k := p / 640
    let total := 640 * ws.length
    if total ≤ p then []
    else match (ws[k]?).getD none with
      | none => (if runsOn ws k then [RxFrame.lost none false] else []) ++ rxRead ws n (resumeAt ws (k + 1))
      | some c =>
        if c.kind ≠ 1 ∨ c.byte (p % 640) < 64 then rxRead ws n (some (640 * (k + 1)))
        else if total < p + 16 then [RxFrame.lost none true]
        else match badWord ws k ((p + 15) / 640) with
          | some b => RxFrame.lost none false :: rxRead ws n (resumeAt ws (b + 1))
          | none =>
            let h : BitVec 128 := BitVec.ofNat 128 (streamNumber ws p 16)
            let e := p + 20 + hdrLen h
            if !hcrcOk h then { RxFrame.lost (some h) false with overlaps := false } :: rxRead ws n (resumeAt ws (k + 1))
            else if total < e then [RxFrame.lost (some h) true]
            else match badWord ws k ((e - 1) / 640) with
              | some b => RxFrame.lost (some h) false :: rxRead ws n (resumeAt ws (b + 1))
              | none =>
                let pay := beBytes (hdrLen h) (streamNumber ws (p + 16) (hdrLen h))
                let t := (beBytes 4 (streamNumber ws (e - 4) 4)).reverse
                { header := some h, overlaps := false, cut := false, payload := pay
                  trailer := BitVec.ofNat 32 (t.foldl (fun a b => 256 * a + b.toNat) 0) } :: rxRead ws n (some e)

/-- The frames of a burst. -/
def rxFramesOf (ws : List (Option Codeword)) : List RxFrame := rxRead ws (9 * (ws.length + 1)) (some 0)

end Sys2Proof.Machine
end

