-- ==== Sys2Proof/Machine/Ladle.lean ====
section
/-!
DEFINITION. The ladle plane's buffering and tables (R192-R218): ladle ports and spare swaps, frames and their cells, queues
and the riser, back-pressure, multicast groups and copies.
-/
namespace Sys2Proof.Machine

/-! ## Events, counters and ports -/

/-- An event of source LADLE: the object in [20:0], the code in [27:24] (R218). -/
def State.ladleEvent (s : State) (cls code obj : Nat) : State := s.raise 0x2000 cls code (word (obj + code * 2 ^ 24))

/-- A counter LAD_CNTn or LSV_CNTn advanced (Tables 09.37, 10.12). -/
def State.ladCount (s : State) (n k : Nat) : State := s.count (F.ladCntCount n) k
def State.lsvCount (s : State) (n k : Nat) : State := s.count (F.lsvCntCount n) k

/-- The codes of LAD_PORTn.STATE (Table 09.33). -/
abbrev inService : Nat := 0
abbrev standbyPort : Nat := 1
abbrev failedPort : Nat := 2
abbrev swappedOut : Nat := 3

/-- The registers of ladle port p: L0 to L63 and L64 to L67 stand in two maps. -/
def F.portState (p : Nat) : Fld := if p < 64 then F.ladPortAState p else F.ladPortSState (p - 64)
def F.portParked (p : Nat) : Fld := if p < 64 then F.ladPortAParked p else F.ladPortSParked (p - 64)
def F.portMisdel (p : Nat) : Fld := if p < 64 then F.ladPortAMisdel p else F.ladPortSMisdel (p - 64)
def F.portUncorr (p : Nat) : Fld := if p < 64 then F.ladPortAUncorr p else F.ladPortSUncorr (p - 64)
def F.portSubst (p : Nat) : Fld := if p < 64 then F.ladPortASubst p else F.ladPortSSubst (p - 64)

/-- A port that carries traffic: in RUN, IN_SERVICE and not parked (R193, R224). -/
def State.portOpen (s : State) (p : Nat) : Bool :=
  decide (s.dev = 2) && s.fld (F.portState p) == inService && !s.flag (F.portParked p)

/-- A port parked; an entry to parking is counted (R224). -/
def State.park (s : State) (p : Nat) : State :=
  if s.flag (F.portParked p) then s else (s.setFld (F.portParked p) 1).lsvCount 6 1

/-- Every ladle port is parked outside RUN (R224). -/
def State.parkAll (s : State) : State := (List.range 68).foldl State.park s

/-! ## The slot in progress -/

/-- The record of the slot in progress in RUN. -/
def State.slotRec (s : State) : Option (BitVec 64) := if s.dev = 2 then s.heats.cur.map (bankAt s.heats.live) else none

/-- The permutation of the slot in progress by the heat: the input of each output. -/
def State.slotPerm (s : State) : List Nat :=
  match s.slotRec with
  | some r => (s.mould (slotMould r)).perm
  | none => []

/-- Whether the slot in progress carries LADLE = 1. -/
def State.ladleSlot (s : State) : Bool :=
  match s.slotRec with
  | some r => slotLadle r
  | none => false

/-! ## Frames, queues, flows and groups -/

/-- The cells of a frame (R200). -/
def cellsOf (len : Nat) : Nat := ceilDiv (len + 20) 256

/-- A queue with nothing in it, of profile 0 (Table 09.3). -/
def Queue.zero : Queue := { entries := [], profile := 0, inForce := 0 }

/-- A queue, and a queue given contents. -/
def State.queue (s : State) (q : Nat) : Queue := s.ladle.queues.get (fun _ => Queue.zero) q
def State.setQueue (s : State) (q : Nat) (x : Queue) : State :=
  { s with ladle := { s.ladle with queues := s.ladle.queues.set (fun _ => Queue.zero) q x } }

/-- A frame stored under its number. -/
def State.putFrame (s : State) (id : Nat) (f : Frame) : State := { s with ladle := { s.ladle with frames := s.ladle.frames.put id f } }

/-- A flow table entry nobody has written (Table 09.5; log 16). -/
def Flow.zero : Flow :=
  { src := 0, dst := 0, cls := 0, valid := false, reseq := false, heavy := false, pin := false, lmode := false,
    learnExp := false, wasDirect := false, exp := 0, holdNs := 0, lser := 0, skips := 0, epoch := 0, bytes := 0, prev := 0,
    frames := 0, held := [] }

/-- A flow table entry, and an entry given contents. -/
def State.flow (s : State) (f : Nat) : Flow := s.ladle.flows.get (fun _ => Flow.zero) f
def State.setFlow (s : State) (f : Nat) (x : Flow) : State :=
  { s with ladle := { s.ladle with flows := s.ladle.flows.set (fun _ => Flow.zero) f x } }

/-- A group table entry nobody has written (Table 09.4; log 16). -/
def Group.zero : Group := { dests := 0, valid := false, self := false, drops := 0 }

/-- A group table entry, and an entry given contents. -/
def State.group (s : State) (g : Nat) : Group := s.ladle.groups.get (fun _ => Group.zero) g
def State.setGroup (s : State) (g : Nat) (x : Group) : State :=
  { s with ladle := { s.ladle with groups := s.ladle.groups.set (fun _ => Group.zero) g x } }

/-- The flow IDs of multicast groups begin here (R181). -/
abbrev groupFlow : Nat := 0x1FC000

/-- The first multicast queue (R202). -/
abbrev mcQueue : Nat := 16384

/-- The queue of class k and flow f towards Ed (R202). -/
def State.classQueue (s : State) (d k f : Nat) : Nat :=
  let w := s.reg (R.ladClassMap0 + 4 * (k / 4))
  let b := 8 * (k % 4)
  32 * d + (bitsOf w (b + 4) b + f % 2 ^ clampNat 0 5 (bitsOf w (b + 7) (b + 5))) % 32

/-- Whether an entry is a given frame. -/
def QEntry.isFrame (id : Nat) : QEntry → Bool
  | .frame i => i == id
  | .mark _ _ _ _ => false

/-- The frame numbers of a queue, in order. -/
def Queue.frameIds (x : Queue) : List Nat :=
  x.entries.filterMap (fun e => match e with
    | .frame i => some i
    | .mark _ _ _ _ => none)

/-! ## Cells (R200, R204, R209) -/

/-- Cells of the on-chip buffer in use: the frames' and one for each lane mark that waits (R200, R228). -/
def State.onchipCells (s : State) : Nat :=
  (s.ladle.frames.map (fun p => p.2.onchip)).sum + (s.service.marks.map (fun p => p.2.length)).sum

/-- Riser cells in use. -/
def State.riserCells (s : State) : Nat := (s.ladle.frames.map (fun p => p.2.riser)).sum

/-- The link entry of an on-chip cell that a frame holds (Table 09.2): its next cell, or its own index at the end of the chain; in the
first cell the frame's fields. Place i of the frame's cells holds cell x. -/
def Frame.link (f : Frame) (i x : Nat) : BitVec 64 :=
  let next := f.cells.getD (i + 1) x
  if i ≠ 0 then BitVec.ofNat 64 next
  else BitVec.ofNat 64 (next + 2 ^ 20 + b2n (decide (0 < f.riser)) * 2 ^ 21 + f.refs * 2 ^ 22 + b2n (f.coming.isSome && decide (0 < f.started)) * 2 ^ 32
    + f.queue * 2 ^ 33 + (f.onchip + f.riser - 1) * 2 ^ 48 + f.src * 2 ^ 54)

/-- The link entry of cell x, if a frame holds it (R200). -/
def State.cellLink (s : State) (x : Nat) : Option (BitVec 64) :=
  s.ladle.frames.findSome? (fun p => if p.2.cells.contains x then some (p.2.link (p.2.cells.idxOf x) x) else none)

/-- The cells in use: the frames' and one for each lane mark that waits (R200, R228). -/
def State.usedCells (s : State) : List Nat :=
  s.ladle.frames.flatMap (fun p => p.2.cells) ++ s.service.marks.flatMap (fun p => p.2.map Mark.cell)

/-- The n lowest cells from c on that are neither in use nor in a retired bank, cell x lying in bank x div 16,384 (R200, R201;
log 115). The first argument bounds the cells looked at. -/
def cellsFrom (used retired : List Nat) : Nat → Nat → Nat → List Nat
  | 0, _, _ => []
  | k + 1, c, n =>
    if n = 0 ∨ 1048576 ≤ c then []
    else if retired.contains (c / 16384) then cellsFrom used retired k ((c / 16384 + 1) * 16384) n
    else if used.contains c then cellsFrom used retired k (c + 1) n
    else c :: cellsFrom used retired k (c + 1) (n - 1)

/-- The banks that receive no allocation and the regions that receive no writes: those retired, and those being retired (R201, R208). -/
def State.goneBanks (s : State) : List Nat := s.ladle.retiredBanks ++ s.ladle.retiringBanks.filter (fun b => !s.ladle.retiredBanks.contains b)
def State.goneRegions (s : State) : List Nat :=
  s.ladle.retiredRegions ++ s.ladle.retiringRegions.filter (fun r => !s.ladle.retiredRegions.contains r)

/-- The cells that an allocation of n takes. -/
def State.allocate (s : State) (n : Nat) : List Nat :=
  cellsFrom s.usedCells s.goneBanks (s.usedCells.length + s.goneBanks.length + n + 1) 0 n

/-- On-chip and riser cells that exist for new frames: 16,384 for a bank and 4,194,304 for a region that is not retired (R200, R205). -/
def State.onchipSize (s : State) : Nat := 16384 * (64 - s.goneBanks.length)
def State.riserSize (s : State) : Nat := 4194304 * (128 - s.goneRegions.length)

/-- The frames with a cell in a bank, first stored first. -/
def State.inBank (s : State) (b : Nat) : List Nat :=
  (s.ladle.frames.filter (fun p => p.2.cells.any (fun c => c / 16384 == b))).map Prod.fst

/-- A frame's cells in a bank copied to other banks, where cells are free for them; its place in its queue stays (R201). -/
def State.migrate (s : State) (b id : Nat) : State :=
  match s.ladle.frames.find? id with
  | none => s
  | some f =>
    let n := (f.cells.filter (fun c => c / 16384 == b)).length
    let new := s.allocate n
    if new.length < n then s
    else
      let go := f.cells.foldl (fun (a : List Nat × List Nat) c =>
        if c / 16384 = b then (a.1 ++ [a.2.headD 0], a.2.tail) else (a.1 ++ [c], a.2)) ([], new)
      s.putFrame id { f with cells := go.1 }

/-- A cell of a waiting lane mark moved. -/
def State.moveMark (s : State) (c : Nat) : State :=
  match s.allocate 1 with
  | [] => s
  | n :: _ => { s with service := { s.service with
      marks := s.service.marks.map (fun p => (p.1, p.2.map (fun m => if m.cell = c then { m with cell := n } else m))) } }

/-- The cells of waiting lane marks moved out of a bank in the same way. -/
def State.migrateMarks (s : State) (b : Nat) : State :=
  ((s.service.marks.flatMap (fun p => p.2.map Mark.cell)).filter (fun c => c / 16384 == b)).foldl State.moveMark s

/-- A queue's ONCHIP: the cells on chip of its own frames, and its marks' (Table 09.3; log 83). -/
def State.queueOnchip (s : State) (q : Nat) : Nat :=
  ((s.queue q).entries.map (fun e => match e with
    | .frame i => (match s.ladle.frames.find? i with
      | some f => if f.queue = q then f.onchip else 0
      | none => 0)
    | .mark _ _ _ _ => 1)).sum

/-- Whether a queue has a riser segment: some frame placed by it has cells in the riser (R206). -/
def State.queueSeg (s : State) (q : Nat) : Bool := s.ladle.frames.any (fun p => p.2.queue == q && decide (0 < p.2.riser))

/-- A queue's RISER cells (Table 09.3). -/
def State.queueRiser (s : State) (q : Nat) : Nat :=
  (s.ladle.frames.map (fun p => if p.2.queue = q then p.2.riser else 0)).sum

/-- The cells a queue holds in all, copies included: its depth (R161, R213). -/
def State.queueDepth (s : State) (q : Nat) : Nat :=
  ((s.queue q).entries.map (fun e => match e with
    | .frame i => (match s.ladle.frames.find? i with
      | some f => f.onchip + f.riser
      | none => 0)
    | .mark _ _ _ _ => 1)).sum

/-! ## Back-pressure (R209) -/

/-- Global XOFF: by occupancy, held by a drain, or by throttling (R209, R345). -/
def State.globalXoff (s : State) : Bool := s.ladle.xoffOcc || s.ladle.xoffDrain || s.ladle.xoffThermal

/-- The classes of a source that are stopped, as a mask (Table 08.13). -/
def State.stoppedMask (s : State) (src : Nat) : Nat :=
  ((List.range 8).filter (fun k => s.ladle.stopped.get (fun _ => false) (8 * src + k))).foldl (fun a k => a + 2 ^ k) 0

/-- Whether a control frame is an XOFF or XON. -/
def Ctl.isFlow : Ctl → Bool
  | .flow _ _ _ => true
  | _ => false

/-- The control frames waiting for a line card, and a frame more. -/
def State.ctlOf (s : State) (d : Nat) : List Ctl := s.service.ctl.get (fun _ => []) d
def State.setCtl (s : State) (d : Nat) (l : List Ctl) : State :=
  { s with service := { s.service with ctl := s.service.ctl.set (fun _ => []) d l } }
def State.queueCtl (s : State) (d : Nat) (c : Ctl) : State := s.setCtl d (s.ctlOf d ++ [c])

/-- The complete back-pressure state sent to a line card, as an XOFF at a stop and an XON at a release; it takes the place of one that
still waits (R187). -/
def State.sendFlow (s : State) (stop : Bool) (d : Nat) : State :=
  s.setCtl d ((s.ctlOf d).filter (fun c => !c.isFlow) ++ [.flow stop (s.stoppedMask d) s.globalXoff])

/-- A change that may turn global XOFF: a turn is counted, shown and sent to every line card (R209). -/
def State.withGlobal (s : State) (f : State → State) : State :=
  let s1 := f s
  if s1.globalXoff = s.globalXoff then s1
  else (List.range 512).foldl (fun s d => s.sendFlow s1.globalXoff d) ((s1.ladCount 12 1).setFld F.ladOccGxoff (b2n s1.globalXoff))

/-- Cells held for source external port and class, key 8 s + k: each frame until its cells are freed (R209). -/
def State.sourceCells (s : State) (key : Nat) : Nat :=
  (s.ladle.frames.map (fun p => if 8 * p.2.src + p.2.cls = key then p.2.onchip + p.2.riser else 0)).sum

/-- One pair's stop or release (R209, Table 09.15). -/
def State.balancePair (s : State) (key : Nat) : State :=
  let k := key % 8
  let off := if s.fld (F.ladBpClassXoff k) = 0 then 1 else s.fld (F.ladBpClassXoff k)
  let on := if off ≤ s.fld (F.ladBpClassXon k) then off - 1 else s.fld (F.ladBpClassXon k)
  let n := s.sourceCells key
  let was := s.ladle.stopped.get (fun _ => false) key
  let now := if was then decide (1024 * on < n) else decide (1024 * off ≤ n)
  if now = was then s
  else
    let s1 := { s with ladle := { s.ladle with stopped := s.ladle.stopped.set (fun _ => false) key now } }
    (s1.ladCount 12 1).sendFlow now (key / 8)

/-- Global XOFF by occupancy, percent of the whole buffer and the whole riser (R209, Table 09.17). -/
def State.occupancyXoff (s : State) : Bool :=
  let rOff := clampNat 50 99 (s.fld F.ladBpGlobalRiserOff)
  let cOff := clampNat 10 99 (s.fld F.ladBpGlobalOnchipOff)
  let rOn := if rOff ≤ s.fld F.ladBpGlobalRiserOn then rOff - 1 else s.fld F.ladBpGlobalRiserOn
  let cOn := if cOff ≤ s.fld F.ladBpGlobalOnchipOn then cOff - 1 else s.fld F.ladBpGlobalOnchipOn
  let r := 100 * s.riserCells
  let c := 100 * s.onchipCells
  if s.ladle.xoffOcc then !decide (r ≤ rOn * 536870912 ∧ c ≤ cOn * 1048576)
  else decide (rOff * 536870912 ≤ r ∨ cOff * 1048576 ≤ c)

/-- Occupancy brought up to date: the registers, the stopped classes and global XOFF (R209, Tables 09.27, 09.29). -/
def State.balance (s : State) : State :=
  let keys := (s.ladle.stopped.map Prod.fst ++ s.ladle.frames.map (fun (p : Nat × Frame) => 8 * p.2.src + p.2.cls)).eraseDups
  let s1 := (s.setFld F.ladOccCells s.onchipCells).setFld F.ladRiserOccCells s.riserCells
  (keys.foldl State.balancePair s1).withGlobal (fun s => { s with ladle := { s.ladle with xoffOcc := s.occupancyXoff } })

/-! ## Frames entering and leaving the buffer -/

/-- A queue marked STRICT (Table 10.16). -/
def State.strict (s : State) (q : Nat) : Bool := s.flag (F.lsvQcfgStrict q)

/-- The active list of a destination, and a list given (R221). -/
def State.activeOf (s : State) (d : Nat) : List Nat := s.service.active.get (fun _ => []) d
def State.setActive (s : State) (d : Nat) (l : List Nat) : State :=
  { s with service := { s.service with active := s.service.active.set (fun _ => []) d l } }
def State.setDeficit (s : State) (q : Nat) (v : Int) : State :=
  { s with service := { s.service with deficit := s.service.deficit.set (fun _ => 0) q v } }

/-- A queue put at the tail of an active list, in ascending order among those that joined at the same slot clock edge (R221). -/
def joinTail (q : Nat) (same : Nat → Bool) (l : List Nat) : List Nat :=
  let late := l.reverse.takeWhile (fun x => same x && decide (q < x))
  l.take (l.length - late.length) ++ q :: late.reverse

/-- A non-strict unicast queue that holds something joins the tail of its destination's active list, its deficit zero
(R221). -/
def State.joinActive (s : State) (q : Nat) : State :=
  let d := q / 32
  let edge := ceilDiv s.time.net 5
  if mcQueue ≤ q ∨ s.strict q ∨ (s.activeOf d).contains q ∨ (s.queue q).entries.isEmpty then s
  else
    let s1 := (s.setActive d (joinTail q (fun x => s.service.joined.find? x == some edge) (s.activeOf d))).setDeficit q 0
    { s1 with service := { s1.service with joined := s1.service.joined.put q edge } }

/-- The queue after one in a list, the list's first after its last. -/
def nextAfter (l : List Nat) (q : Nat) : Nat := l.getD ((l.idxOf q + 1) % l.length) q

/-- The queue that a destination's round robin visits next (R221). -/
def State.visitOf (s : State) (d : Nat) : Option Nat :=
  match s.service.visit.find? d with
  | some q => if (s.activeOf d).contains q then some q else (s.activeOf d).head?
  | none => (s.activeOf d).head?

/-- The place of a destination's round robin moved to the queue after one. -/
def State.passVisit (s : State) (d q : Nat) : State :=
  { s with service := { s.service with visit := s.service.visit.put d (nextAfter (s.activeOf d) q) } }

/-- A queue off its destination's active list, its deficit discarded; if it was to be visited next, the queue after it is (R221). -/
def State.leaveActive (s : State) (q : Nat) : State :=
  let d := q / 32
  if (s.activeOf d).contains q then
    let s1 := if s.visitOf d = some q then s.passVisit d q else s
    (s1.setActive d ((s1.activeOf d).filter (· ≠ q))).setDeficit q 0
  else s

/-- An entry put at the tail of a queue, from when on its PROFILE as written is in force (R204). -/
def State.enqueue (s : State) (q : Nat) (e : QEntry) : State :=
  (s.setQueue q { s.queue q with entries := (s.queue q).entries ++ [e], inForce := (s.queue q).profile }).joinActive q

/-- An entry taken off the head of a queue. -/
def State.dequeue (s : State) (q : Nat) : State := s.setQueue q { s.queue q with entries := (s.queue q).entries.tail }

/-- A frame's number taken out of every queue, the multicast hold, the released frames and its flow's hold; queues left
empty leave their active lists. -/
def State.unlink (s : State) (id : Nat) : State :=
  let had := (s.ladle.queues.filter (fun p => p.2.entries.any (QEntry.isFrame id))).map (·.1)
  let s1 := { s with
    ladle := { s.ladle with
      queues := s.ladle.queues.mapAll (fun _ => Queue.zero) (fun _ x => { x with entries := x.entries.filter (fun e => !QEntry.isFrame id e) })
      hold := s.ladle.hold.filter (fun c => c.frame ≠ id)
      flows := s.ladle.flows.mapAll (fun _ => Flow.zero) (fun _ x => { x with held := x.held.filter (fun p => p.2.1 ≠ id) }) }
    service := { s.service with released := s.service.released.mapAll (fun _ => []) (fun _ l => l.filter (· ≠ id)) } }
  had.foldl (fun (s : State) q => if (s.queue q).entries.isEmpty then s.leaveActive q else s) s1

/-- A frame's cells freed. -/
def State.freeFrame (s : State) (id : Nat) : State := { s with ladle := { s.ladle with frames := s.ladle.frames.erase id } }

/-- A frame discarded with every copy of it. -/
def State.discardFrame (s : State) (id : Nat) : State := (s.unlink id).freeFrame id

/-- One copy of a frame has left or been dropped: its cells are freed when REFS reaches zero, once it has come in (R200). -/
def State.copyGone (s : State) (id : Nat) : State :=
  match s.ladle.frames.find? id with
  | some f =>
    let g := { f with refs := f.refs - 1 }
    if g.refs = 0 ∧ g.coming.isNone then s.freeFrame id else s.putFrame id g
  | none => s

/-- A frame that was still coming in has been received whole. -/
def State.arrived (s : State) (id : Nat) : State :=
  match s.ladle.frames.find? id with
  | some f => if f.refs = 0 then s.freeFrame id else s.putFrame id { f with coming := none }
  | none => s

/-- The frames whose slot has ended, or whose source has begun another frame, have been received whole. -/
def State.closeArrived (s : State) (src : Option Nat) : State :=
  let done := fun (f : Frame) => match f.coming with
    | some t => decide (t ≤ s.time.net) || src == some f.src
    | none => false
  let ids := (s.ladle.frames.filter (fun p => done p.2)).map (·.1)
  if ids.isEmpty then s else (ids.foldl State.arrived s).balance

/-- Everything in the ladle plane empty, lane marks included (R19). -/
def State.ladleEmpty (s : State) : Bool := s.ladle.frames.isEmpty && s.service.marks.isEmpty

/-- Every frame, copy, mark and control frame discarded (R19). -/
def State.discardAll (s : State) : State :=
  let s1 := { s with
    ladle := { s.ladle with
      frames := [], hold := [], reading := []
      queues := s.ladle.queues.mapAll (fun _ => Queue.zero) (fun _ x => { x with entries := [] })
      flows := s.ladle.flows.mapAll (fun _ => Flow.zero) (fun _ x => { x with held := [], holdNs := 0 }) }
    service := { s.service with active := [], visit := [], deficit := [], released := [], marks := [], laneHeld := [], ctl := [] } }
  s1.balance

/-! ## Where a frame is written (R206, R210) -/

/-- Whether the riser has what it needs: VHBM and the ladle clock (Table 01.2). -/
def State.riserUp (s : State) : Bool := !s.power.badRails.contains 2 && s.power.ladleClock

/-- Whether an arriving frame of a queue goes to the riser: overflow stops without the riser (R6, R206, Tables 09.13, 09.19). -/
def State.toRiser (s : State) (q : Nat) : Bool :=
  let p := (s.queue q).profile
  let pct := clampNat 5 100 (s.fld F.ladSpillPct)
  s.flag (F.ladProfRiserEn p) && s.riserUp && decide (0 < s.riserSize) &&
    (s.queueSeg q || decide (64 * s.fld (F.ladProfLim p) ≤ s.queueOnchip q)
      || (decide (pct < 100) && decide (pct * 1048576 ≤ 100 * s.onchipCells)))

/-- The cells of a frame on chip and in the riser: with the riser, all but the first (R206). -/
def State.placement (s : State) (q n : Nat) : Nat × Nat := if s.toRiser q then (1, n - 1) else (n, 0)

/-- Whether a placement finds its cells free (R210). -/
def State.fits (s : State) (p : Nat × Nat) : Bool :=
  decide ((s.allocate p.1).length = p.1 ∧ s.riserCells + p.2 ≤ s.riserSize)

/-! ## The riser (R207, R208) -/

/-- The first frame of a queue's riser segment, in queue order. -/
def State.segHead (s : State) (q : Nat) : Option (Nat × Frame) :=
  List.find? (fun (p : Nat × Frame) => p.2.queue == q && decide (0 < p.2.riser)) s.ladle.frames

/-- RISER_PREFETCH: a queue with a segment whose cells on chip number fewer than PF of its profile is read (R207). -/
def execRiserPrefetch (q : Fin 17408) (s : State) : Out :=
  .next (if s.riserUp && s.queueSeg q.val && decide (s.queueOnchip q.val < 64 * s.fld (F.ladProfPf (s.queue q.val).inForce))
      && (s.ladle.reading.find? q.val).isNone then
    { s with ladle := { s.ladle with reading := s.ladle.reading.put q.val 3 } }
  else s)

/-- An ECC_CORR event, at most once a second for a bank or region (R201, R208). -/
def State.eccNote (s : State) (obj : Nat) : State :=
  let due := match s.ladle.eccEvent.find? obj with
    | some t => decide (t + second ≤ s.time.now)
    | none => true
  if due then ({ s with ladle := { s.ladle with eccEvent := s.ladle.eccEvent.put obj s.time.now } }).ladleEvent 1 8 obj else s

/-- RISER_READ_DONE: the segment's first frame comes back on chip, into cells that are free; an uncorrectable read is retried twice,
and after the third failure the frame is discarded (R207, R208). -/
def State.riserRead (s : State) (q : Nat) (corrected uncorrectable : Bool) (region : Nat) : State :=
  match s.ladle.reading.find? q, s.segHead q with
  | some tries, some (id, f) =>
    if uncorrectable then
      if 1 < tries then { s with ladle := { s.ladle with reading := s.ladle.reading.put q (tries - 1) } }
      else
        let s1 := { s with ladle := { s.ladle with reading := s.ladle.reading.erase q } }
        (((s1.discardFrame id).ladCount 10 1).balance).ladleEvent 2 6 region
    else if (s.allocate f.riser).length < f.riser then s
    else
      let s1 := { s with ladle := { s.ladle with reading := s.ladle.reading.erase q } }
      let s2 := (s1.putFrame id { f with cells := f.cells ++ s1.allocate f.riser, riser := 0 }).balance
      if corrected then (s2.ladCount 9 1).eccNote (0x100 + region) else s2
  | _, _ => s

def execRiserReadDone (q : Fin 17408) (corrected uncorrectable : Bool) (region : Fin 128) (s : State) : Out :=
  .next (s.riserRead q.val corrected uncorrectable region.val)

/-- The copies of a frame that have left in the bursts of the slot in progress end with the complemented trailer (R180, R201, R215). -/
def State.complement (s : State) (id : Nat) : State :=
  let one := fun (x : Sent) => if x.frame.any (fun p => p.1 == id) then x.stomped else x
  { s with service := { s.service with
      burst := s.service.burst.map (fun p => (p.1, (p.2.1, if p.2.1 = s.heats.boundary then p.2.2.map one else p.2.2))) } }

/-- SRAM_ECC_ERROR in a bank, on a frame that holds a cell in it, or whose header has left (R201). -/
def State.sramError (s : State) (bank frame : Nat) (correctable headerLeft : Bool) : State :=
  if correctable then (s.ladCount 9 1).eccNote bank
  else if headerLeft then ((s.complement frame).ladCount 0 1).ladleEvent 2 7 bank
  else if (s.ladle.frames.find? frame).any (fun f => f.cells.any (fun c => c / 16384 == bank)) then
    (((s.discardFrame frame).ladCount 11 1).balance).ladleEvent 2 7 bank
  else s

def execSramEccError (bank : Fin 64) (frame : Nat) (correctable headerLeft : Bool) (s : State) : Out :=
  .next (s.sramError bank.val frame correctable headerLeft)

/-! ## Multicast (R212, R213) -/

/-- LAD_GRP_COMMIT: DESTS, VALID and SELF of the shadow entry go into the group, its DROPS stays (R212). -/
def State.grpCommit (s : State) (v : Word) : State :=
  if !bitOf v 31 then s
  else
    let w := fun i => s.ladle.shadow.get (fun _ => (0 : Word)) i
    let g := bitsOf v 13 0
    let dests := (List.range 16).foldl (fun a i => a + (w i).toNat * 2 ^ (32 * i)) 0
    s.setGroup g { s.group g with dests := dests, valid := bitOf (w 16) 0, self := bitOf (w 16) 1 }

def execLadGrpCommit (m : Master) (v : Word) (s : State) : Out := .next (s.atReg m R.ladGrpCommit (fun s => s.grpCommit v))

/-- The admission limit of copies, in cells (Table 09.21). -/
def State.admitCells (s : State) : Nat := 64 * s.fld F.ladMcCtrlAdmit

/-- A copy dropped: counted for its group and in LAD_CNT8, with the first drop of a group in any 1 ms reported (R213). -/
def State.dropCopy (s : State) (g id : Nat) : State :=
  let s1 := (s.setGroup g { s.group g with drops := satAdd 0xFFFFFFFF (s.group g).drops 1 }).ladCount 8 1
  let due := match s1.ladle.dropEvent.find? g with
    | some t => decide (t + 1000000 ≤ s1.time.now)
    | none => true
  let s2 := if due then ({ s1 with ladle := { s1.ladle with dropEvent := s1.ladle.dropEvent.put g s1.time.now } }).ladleEvent 1 4 g else s1
  s2.copyGone id

/-- One copy made towards d: into its queue, into the hold behind earlier copies of the group, or dropped when the hold is
full (R213). -/
def State.makeCopy (s : State) (g k id d : Nat) : State :=
  let q := s.classQueue d k (groupFlow + g)
  if s.queueDepth q < s.admitCells ∧ !s.ladle.hold.any (fun c => c.group == g && c.dst == d) then s.enqueue q (.frame id)
  else if s.ladle.hold.length < 65536 then
    { s with ladle := { s.ladle with hold := s.ladle.hold ++ [{ group := g, dst := d, frame := id, since := s.time.now }] } }
  else s.dropCopy g id

/-- The listed destinations of a frame's copies, in ascending order; its own source only with SELF (R213, Table 09.4). -/
def Group.copies (g : Group) (src : Nat) : List Nat := (List.range 512).filter (fun d => g.dests.testBit d && (g.self || d != src))

/-- The head of a group's line for a destination (R213). -/
def State.holdHead (s : State) (g d : Nat) : Option HeldCopy := s.ladle.hold.find? (fun c => c.group == g && c.dst == d)

/-- The hold without one copy. -/
def dropHeld (c : HeldCopy) : List HeldCopy → List HeldCopy
  | [] => []
  | x :: xs => if x = c then xs else x :: dropHeld c xs

/-- MC_HOLD in ns (Table 09.21). -/
def State.mcHold (s : State) : Nat := 1000 * clampNat 10 10000 (s.fld F.ladMcCtrlHold)

/-- MC_DROP: a copy still held MC_HOLD after it was made is dropped (R213). -/
def execMcDrop (group : Fin 16384) (dst : Fin 512) (s : State) : Out :=
  .next (match s.holdHead group.val dst.val with
    | some c =>
      let s1 := s.untilNow (c.since + s.mcHold)
      let s2 := { s1 with ladle := { s1.ladle with hold := dropHeld c s1.ladle.hold } }
      (s2.dropCopy group.val c.frame).balance
    | none => s)

/-! ## Spare swaps and port failures (R197-R199) -/

/-- Whether a swap other than sp names Lj (R197). -/
def State.namedElsewhere (s : State) (sp j : Nat) : Bool :=
  (List.range 4).any (fun t => t != sp && s.fld (F.ladSwapState t) != 0 && s.fld (F.ladSwapFrom t) == j)

/-- The conditions on which a swap is armed (R197). -/
def State.mayArm (s : State) (sp j : Nat) : Bool :=
  s.fld (F.portState (64 + sp)) == standbyPort && !s.ladle.dark.contains 16
    && (s.fld (F.portState j) == inService || s.fld (F.portState j) == failedPort) && s.fld (F.portSubst j) == j
    && !s.namedElsewhere sp j

/-- A swap or a return armed: the exchange of later compiles changes, and the reserved moulds are recompiled (R197, R198). -/
def State.armSwap (s : State) (sp j : Nat) (en : Bool) : State :=
  (((s.setFld (F.ladSwapEn sp) (b2n en)).setFld (F.ladSwapFrom sp) j).setFld (F.ladSwapState sp) 1).recompileReserved

/-- A write of LAD_SWAPs with GO = 1 and EN = 1, and with EN = 0 (R197, R198). -/
def State.swapOn (s : State) (m : Master) (sp src : Nat) : State :=
  if s.mayArm sp src then s.armSwap sp src true else s.refuseReg m (R.ladSwap sp)
def State.swapOff (s : State) (m : Master) (sp src : Nat) : State :=
  if s.fld (F.ladSwapState sp) = 2 ∧ s.fld (F.ladSwapFrom sp) = src ∧ s.fld (F.portState src) = swappedOut then
    s.armSwap sp src false
  else s.refuseReg m (R.ladSwap sp)

/-- SWAP_ARM. -/
def execSwapArm (m : Master) (sp : Fin 4) (src : Fin 64) (s : State) : Out :=
  .next (s.atReg m (R.ladSwap sp.val) (fun s => s.swapOn m sp.val src.val))

/-- SWAP_RETURN. -/
def execSwapReturn (m : Master) (sp : Fin 4) (src : Fin 64) (s : State) : Out :=
  .next (s.atReg m (R.ladSwap sp.val) (fun s => s.swapOff m sp.val src.val))

/-- A swap armed at the commit of the heat that now activates takes effect. An Lj that is FAILED then stays so, by a return as by a
swap, since a return is the same sequence (R197, R198). -/
def State.swapTakes (s : State) (sp : Nat) : State :=
  let j := s.fld (F.ladSwapFrom sp)
  let spare := 64 + sp
  if s.fld (F.ladSwapState sp) ≠ 1 then s
  else if s.flag (F.ladSwapEn sp) then
    let s1 := ((s.setFld (F.portState spare) inService).setFld (F.portSubst spare) j).setFld (F.ladSwapState sp) 2
    let s2 := if s1.fld (F.portState j) = failedPort then s1 else s1.setFld (F.portState j) swappedOut
    (s2.park j).ladleEvent 0 2 j
  else
    let s1 := s.setFld (F.portState spare) standbyPort
    let s2 := (s1.setFld (F.portSubst spare) spare).setFld (F.ladSwapState sp) 0
    let s2 := if s2.fld (F.portState j) = failedPort then s2 else s2.setFld (F.portState j) inService
    let c := s2.jobs.claim (67 + sp)
    let s3 := if c.holder = some .engine then { s2 with jobs := s2.jobs.setClaim (67 + sp) { c with holder := none } } else s2
    (s3.park spare).ladleEvent 0 2 j

/-- Whether a spare's resource is free for the engine (R199, R273). -/
def State.spareFree (s : State) (sp : Nat) : Bool := (s.jobs.claim (67 + sp)).holder.isNone

/-- The lowest spare the engine may arm for a failed port (R199). -/
def State.autoSpare (s : State) (j : Nat) : Option Nat :=
  (List.range 4).find? (fun sp => s.fld (F.ladSwapState sp) == 0 && s.spareFree sp && s.mayArm sp j)

/-- One automatic swap for a failed port L0 to L63 that no swap names; the engine claims the spare (R199, R272). -/
def State.autoSwap (s : State) (j : Nat) : State :=
  if s.fld (F.portState j) = failedPort ∧ !s.namedElsewhere 4 j then
    match s.autoSpare j with
    | some sp =>
      let c := s.jobs.claim (67 + sp)
      ({ s with jobs := s.jobs.setClaim (67 + sp) { c with holder := some .engine } }).armSwap sp j true
    | none => s
  else s

/-- The ports a supply or an engine serves: supply k lights L4k to L4k + 3 (R199). -/
def affected (supply : Bool) (i : Nat) : List Nat :=
  if supply then (if i < 17 then [4 * i, 4 * i + 1, 4 * i + 2, 4 * i + 3] else []) else [i]

/-- A FAILED port whose supply and engine are good again (R199). -/
def State.recoverPort (s : State) (p : Nat) : State :=
  if s.fld (F.portState p) ≠ failedPort ∨ s.ladle.dark.contains (p / 4) ∨ s.ladle.badEngines.contains p then s
  else
    let serving := fun sp => s.fld (F.ladSwapState sp) == 2
    if p < 64 then
      if (List.range 4).any (fun sp => serving sp && s.fld (F.ladSwapFrom sp) == p) then
        (s.setFld (F.portState p) swappedOut).ladleEvent 0 2 p
      else (s.setFld (F.portState p) inService).ladleEvent 0 2 p
    else if serving (p - 64) then (s.setFld (F.portState p) inService).ladleEvent 0 2 p
    else (s.setFld (F.portState p) standbyPort).ladleEvent 0 2 p

/-- LADLE_PORT_RECOVER (R199). -/
def State.portRecover (s : State) (supply : Bool) (i : Nat) : State :=
  let s1 := if supply then { s with ladle := { s.ladle with dark := s.ladle.dark.filter (· ≠ i) } }
    else { s with ladle := { s.ladle with badEngines := s.ladle.badEngines.filter (· ≠ i) } }
  (affected supply i).foldl State.recoverPort s1

def execLadlePortRecover (supply : Bool) (index : Fin 68) (s : State) : Out := .next (s.portRecover supply index.val)

/-! ## Table words (Tables 09.3, 09.4, 09.5) -/

/-- A queue table entry's four words. -/
def State.queueWord (s : State) (q i : Nat) : Word :=
  if i = 0 then word (s.queueOnchip q + (s.queue q).profile * 2 ^ 24 + b2n (s.queueSeg q) * 2 ^ 28)
  else if i = 1 then word (s.queueRiser q)
  else if i = 2 then word (clampNat 0 0xFFFFFF (s.queue q).frameIds.length)
  else word (clampNat 0 0xFFFF (s.ladle.hold.filter (fun c => match s.ladle.frames.find? c.frame with
    | some f => s.classQueue c.dst f.cls f.flow == q
    | none => false)).length)

/-- A group table entry's twenty words. -/
def Group.word (g : Group) (i : Nat) : Word :=
  if i < 16 then BitVec.ofNat 32 (g.dests / 2 ^ (32 * i))
  else if i = 16 then BitVec.ofNat 32 (b2n g.valid + 2 * b2n g.self)
  else if i = 17 then BitVec.ofNat 32 g.drops
  else 0

/-- What a flow's hold timer has run since its oldest held frame was set aside, or since the latest skip (R214). -/
def Flow.timer (f : Flow) : Nat :=
  match f.held with
  | [] => 0
  | (_, _, at_) :: _ => f.holdNs - at_

/-- A flow table entry's eight words. -/
def Flow.word (f : Flow) (i : Nat) : Word :=
  BitVec.ofNat 32 (
    if i = 0 then f.src + f.dst * 2 ^ 10 + f.cls * 2 ^ 20 + b2n f.valid * 2 ^ 23 + b2n f.reseq * 2 ^ 24 + b2n f.heavy * 2 ^ 25
      + b2n f.pin * 2 ^ 26 + b2n f.lmode * 2 ^ 27
    else if i = 1 then f.exp + f.held.length * 2 ^ 16
    else if i = 2 then f.timer
    else if i = 3 then f.lser + f.skips * 2 ^ 16
    else if i = 4 then f.epoch
    else if i = 5 then f.bytes
    else if i = 6 then f.prev
    else f.frames)

end Sys2Proof.Machine
end

