-- ==== Sys2Proof/Machine/LadleService.lean ====
section
/-!
DEFINITION. The ladle plane's service (R182-R189, R194-R196, R202-R206, R213-R217, R219-R233): lanes and marks, frames
coming in, the resequencer, bursts and their filling, shapers, parking, and control frames.
-/
namespace Sys2Proof.Machine

/-! ## Lanes (R164, R225-R232) -/

/-- Whether a lane is DIRECT in a heat (R164). -/
def Heat.isDirect (h : Heat) (src dst cls : Nat) : Bool := src != dst && h.dclass.testBit cls && h.direct.contains (src, dst)

/-- Whether a lane is DIRECT in a heat, if there is one. -/
def directIn (h : Option Heat) (src dst cls : Nat) : Bool :=
  match h with
  | some h => h.isDirect src dst cls
  | none => false

/-- The key of a lane. -/
def laneKey (src dst cls : Nat) : Nat := (512 * src + dst) * 8 + cls

/-- The ns of a cycle after the last slot that connects input i to output j (R231). -/
def State.afterLast (s : State) (rs : List (BitVec 64)) (i j : Nat) : Nat :=
  5 * ((rs.reverse.takeWhile (fun r => (s.mould (slotMould r)).perm.getD j unassigned != i)).map slotDur).sum

/-- The end of the last slot of the live heat that connects a lane, for a lane that is DIRECT in it and LADLE in the armed
heat (R231). -/
def State.holdUntil (s : State) (src dst cls : Nat) : Option Nat :=
  match s.heats.now, s.heats.armed with
  | some h, some n =>
    if h.isDirect src dst cls && !n.isDirect src dst cls then
      some (n.a - s.afterLast ((heatRecords s.heats.live).getD []) src dst)
    else none
  | _, _ => none

/-- Whether R231 holds a lane's ladle frames at the present instant. -/
def State.holdsLane (s : State) (src dst cls : Nat) : Bool :=
  match s.holdUntil src dst cls with
  | some t => decide (s.time.net < t)
  | none => false

/-- Whether R231 holds the ladle frames of a lane that were sent against it, or has held them and not released them. -/
def State.laneBlocked (s : State) (src dst cls : Nat) : Bool :=
  s.service.laneHeld.contains (laneKey src dst cls) || s.holdsLane src dst cls

/-- DIRECT_HOLD_RELEASE: the lane's held frames may go from that instant on (R231); at once if its heat was cancelled. -/
def execDirectHoldRelease (src dst : Fin 512) (cls : Fin 8) (s : State) : Out :=
  .next (
    let key := laneKey src.val dst.val cls.val
    if s.service.laneHeld.contains key then
      let s1 := match s.holdUntil src.val dst.val cls.val with
        | some t => s.untilNet t
        | none => s
      { s1 with service := { s1.service with laneHeld := s1.service.laneHeld.filter (· ≠ key) } }
    else s)

/-- The marks of a lane that wait, and marks given to a lane. -/
def State.marksOf (s : State) (key : Nat) : List Mark := s.service.marks.get (fun _ => []) key
def State.setMarks (s : State) (key : Nat) (l : List Mark) : State :=
  { s with service := { s.service with marks := s.service.marks.set (fun _ => []) key l } }

/-- Whether a unicast frame of a lane waits: it was sent against R231, which holds it, or a mark of its lane that came before it waits
(R229, R231, R232). -/
def State.laneWaits (s : State) (id : Nat) (f : Frame) : Bool :=
  !f.mcast && ((f.against && s.laneBlocked f.src f.dst f.cls)
    || (s.marksOf (laneKey f.src f.dst f.cls)).any (fun m => decide (m.upTo ≤ id)))

/-- The serials of a lane's accepted marks (R227). -/
def State.acceptedOf (s : State) (key : Nat) : List Word := s.service.accepted.get (fun _ => []) key

/-- The lane's unicast frames held in the ladle plane that count against a mark (R228). -/
def State.markCount (s : State) (src dst cls : Nat) (m : Mark) : Nat :=
  (s.ladle.frames.filter (fun (p : Nat × Frame) => decide (p.1 < m.upTo) && !p.2.mcast && p.2.src == src && p.2.dst == dst
    && p.2.cls == cls && decide (0 < p.2.refs))).length

/-- Whether a serial names a heat, live or armed, in which the lane is DIRECT (R227). -/
def State.markFits (s : State) (src dst cls : Nat) (serial : Word) : Bool :=
  let one := fun (h : Option Heat) => match h with
    | some h => h.serial == serial && h.isDirect src dst cls
    | none => false
  one s.heats.now || one s.heats.armed

/-- LANE_MARK: one accepted takes one cell of the queue of its class and f = 0; with no cell free it is discarded as a frame
is (R183, R210, R227, R228; log 127). -/
def State.laneMark (s : State) (src dst cls : Nat) (serial : Word) (ladle : Bool) : State :=
  let key := laneKey src dst cls
  let q := s.classQueue dst cls 0
  if s.dev ≠ 2 then s
  else if !ladle then s.ladCount 2 1
  else if !s.markFits src dst cls serial || (s.acceptedOf key).contains serial then s.lsvCount 2 1
  else
    let s1 := ({ s with service := { s.service with
      accepted := s.service.accepted.put key (serial :: s.acceptedOf key)
      marked := s.service.marked.put key serial } }).lsvCount 0 1
    match s.allocate 1 with
    | [] => (s1.ladCount 5 1).ladleEvent 3 5 q
    | c :: _ =>
      let mark : Mark := { serial := serial, upTo := s.ladle.nextFrame, cell := c, aside := false }
      ((s1.setMarks key (s.marksOf key ++ [mark])).enqueue q (.mark src dst cls serial)).balance

def execLaneMark (src dst : Fin 512) (cls : Fin 8) (serial : BitVec 32) (ladleSlot : Bool) (s : State) : Out :=
  .next (s.laneMark src.val dst.val cls.val serial ladleSlot)

/-- A cancelled heat's marks no longer say that their lane is DIRECT (R156, R230); that they were accepted stays (R227). -/
def State.forgetSerial (s : State) (serial : Word) : State :=
  { s with service := { s.service with
      marked := s.service.marked.filter (fun p => p.2 ≠ serial || directIn s.heats.now (p.1 / 4096) (p.1 / 8 % 512) (p.1 % 8)) } }

/-- What an activation changes in the ladle plane: R231's holds have ended, lanes that are LADLE are marked no more, and the flows of
lanes now DIRECT take their sequence afresh when they return (R214, R230, R231). -/
def State.ladleActivate (s : State) (h : Heat) : State :=
  { s with
    service := { s.service with
      laneHeld := []
      marked := s.service.marked.filter (fun p => h.isDirect (p.1 / 4096) (p.1 / 8 % 512) (p.1 % 8)) }
    ladle := { s.ladle with
      flows := s.ladle.flows.mapAll (fun _ => Flow.zero)
        (fun _ x => { x with wasDirect := x.wasDirect || h.isDirect x.src x.dst x.cls }) } }

/-- At a return to RUN every flow's first frame sets its sequence (R214). -/
def State.ladleEnterRun (s : State) : State :=
  { s with ladle := { s.ladle with
      flows := s.ladle.flows.mapAll (fun _ => Flow.zero) (fun _ x => if x.valid then { x with learnExp := true } else x) } }

/-- LSV_LANE_RES for the lane in LSV_LANE_Q (Table 10.10). -/
def State.laneRes (s : State) : Word :=
  let i := s.fld F.lsvLaneQSrc
  let j := s.fld F.lsvLaneQDst
  let k := s.fld F.lsvLaneQClass
  let ms := s.marksOf (laneKey i j k)
  let some' := s.ladle.frames.any (fun (p : Nat × Frame) => p.2.against && p.2.src == i && p.2.dst == j && p.2.cls == k)
  let n := match ms with
    | m :: _ => s.markCount i j k m
    | [] => 0
  word (b2n (directIn s.heats.now i j k) * 2 ^ 31 + b2n (!ms.isEmpty) * 2 ^ 30 + b2n (s.laneBlocked i j k && some') * 2 ^ 29 + n)

/-! ## Shapers (R222, R223) -/

/-- The key of a destination's bucket. -/
abbrev destBucket : Nat := 100000

/-- The register of a bucket, by its key. -/
def shaperReg (key : Nat) : Nat := if key < destBucket then R.lsvQshp key else R.lsvDshp (key - destBucket)

/-- RATE and BURST in force (R223). -/
def State.rateOf (s : State) (key : Nat) : Nat := bitsOf (s.service.inForce.get (fun _ => 0) key) 31 16

/-- Whether a bucket lets a frame go (R222). -/
def State.bucketOpen (s : State) (key : Nat) : Bool := s.rateOf key == 0 || decide (0 ≤ s.service.bucket.get (fun _ => 0) key)

/-- Whether a frame of queue q towards d is shaper-eligible (R222). -/
def State.eligible (s : State) (q d : Nat) : Bool :=
  !s.flag F.lsvCtrlShapeEn || (s.bucketOpen q && s.bucketOpen (destBucket + d))

/-- Tokens taken from a bucket that is on. -/
def State.charge (s : State) (key size : Nat) : State :=
  if s.rateOf key = 0 then s
  else { s with service := { s.service with bucket := s.service.bucket.modify (fun _ => 0) key (· - size) } }

/-- One bucket at a refill instant: the register comes into force, a bucket just switched on starts at zero, one that is on
gains RATE x 16 bytes, and its content is capped at BURST x 256 (R222, R223). -/
def State.refill (s : State) (key : Nat) : State :=
  let w := s.reg (shaperReg key)
  let rate := bitsOf w 31 16
  let was := s.rateOf key
  let content := s.service.bucket.get (fun _ => (0 : Int)) key
  let gained := if rate = 0 ∨ was = 0 then 0 else content + 16 * rate
  let cap : Int := 256 * bitsOf w 15 0
  { s with service := { s.service with
      inForce := s.service.inForce.set (fun _ => 0) key w
      bucket := s.service.bucket.set (fun _ => 0) key (if gained < cap then gained else cap) } }

/-- The buckets with a register in force or written. -/
def State.shapers (s : State) : List Nat :=
  let key := fun (off : Nat) =>
    if R.lsvDshp 0 ≤ off ∧ off < R.lsvDshp 512 then some (destBucket + (off - R.lsvDshp 0) / 4)
    else if R.lsvQcfg 0 ≤ off ∧ off < R.lsvQcfg 16384 ∧ off % 8 = 4 then some ((off - R.lsvQcfg 0) / 8)
    else none
  (s.service.inForce.map Prod.fst ++ s.regs.filterMap (fun p => key p.1)).eraseDups

/-- The admission meter as global XOFF sees it (R345). -/
def State.meterXoff (s : State) : State :=
  s.withGlobal (fun s => { s with ladle := { s.ladle with xoffThermal := match s.service.meter with
    | some v => decide (v < 0)
    | none => false } })

/-- What one refill adds to the meter: admit percent of 8,192,000 bytes (R345). -/
def State.meterGain (s : State) : Int := 81920 * s.fld F.thmStatusAdmit

/-- SHAPER_REFILL: at the next multiple of 1,280 ns of network time (R222, R345). -/
def execShaperRefill (s : State) : Out :=
  .next (
    let s1 := s.untilNet ((s.time.net / 1280 + 1) * 1280)
    let s2 := s1.shapers.foldl State.refill s1
    match s2.service.meter with
    | some v =>
      let w := v + s2.meterGain
      let cap := 4 * s2.meterGain
      ({ s2 with service := { s2.service with meter := some (if w < cap then w else cap) } }).meterXoff
    | none => s2)

/-! ## Filling a burst (R219-R222, R229) -/

/-- A burst being filled: the state, the destination, the room left in bytes and the place in the byte stream, the slot's LADLE flag
and tag, and what has gone into it, latest first. -/
structure Fill where
  s : State
  d : Nat
  room : Nat
  pos : Nat
  ladle : Bool
  tag : Nat
  out : List Sent

/-- The bytes of a control frame, padded to 64 payload bytes (R183, Table 08.11). -/
def ctlSize : Ctl → Nat
  | .notice n => 20 + (if 32 + 8 * n.entries.length < 64 then 64 else 32 + 8 * n.entries.length)
  | _ => 84

/-- Something put into the burst. -/
def Fill.put (b : Fill) (size : Nat) (x : Sent) : Fill := { b with room := b.room - size, pos := b.pos + size, out := x :: b.out }

/-- The SEQ of the next control frame to the line card, counted (Table 08.6). -/
def Fill.nextSeq (b : Fill) : Nat × Fill :=
  let n := b.s.service.ctlSeq.get (fun _ => 0) b.d
  (n, { b with s := { b.s with service := { b.s.service with ctlSeq := b.s.service.ctlSeq.set (fun _ => 0) b.d ((n + 1) % 65536) } } })

/-- A control frame put into the burst (R183). -/
def Fill.putOne (b : Fill) (c : Ctl) : Fill :=
  let (n, b1) := b.nextSeq
  b1.put (ctlSize c) (c.sent b.d (b.s.reg R.heatLiveSerial) n b.tag b.pos)

/-- The rank of a control frame in step 1 of Table 10.1. -/
def ctlRank : Ctl → Nat
  | .flow _ _ _ => 0
  | .notice _ => 1
  | .hello => 2
  | .timeCheck _ _ _ _ _ => 3
  | .error _ _ _ _ _ _ => 4

/-- Control frames put in their order until the next does not fit; the rest go on waiting. -/
def Fill.putCtl (b : Fill) : List Ctl → Fill × List Ctl
  | [] => (b, [])
  | c :: cs => if ctlSize c ≤ b.room then (b.putOne c).putCtl cs else (b, c :: cs)

/-- Step 1: the control frames waiting for the line card, with the back-pressure state repeated while any class is stopped
(R187, Table 10.1). -/
def Fill.control (b : Fill) : Fill :=
  if !b.ladle then b
  else
    let own := b.s.ctlOf b.d
    let stop := decide (b.s.stoppedMask b.d ≠ 0) || b.s.globalXoff
    let all := if stop && !own.any Ctl.isFlow then Ctl.flow true (b.s.stoppedMask b.d) b.s.globalXoff :: own else own
    let (b1, rest) := b.putCtl ([0, 1, 2, 3, 4].flatMap (fun r => all.filter (fun c => ctlRank c == r)))
    { b1 with s := b1.s.setCtl b.d (rest.filter (fun c => !c.isFlow || own.any Ctl.isFlow)) }

/-- A waiting mark forwarded (R229). -/
def Fill.sendMark (b : Fill) (src dst cls : Nat) (serial : Word) : Fill :=
  let key := laneKey src dst cls
  let rest := ((b.s.marksOf key).filter (fun m => m.serial ≠ serial))
  let (n, b1) := ({ b with s := (b.s.setMarks key rest).lsvCount 1 1 } : Fill).nextSeq
  b1.put 84 (markSent src dst cls serial n b.tag b.pos)

/-- A mark that heads its queue taken off it. -/
def State.takeMark (s : State) (src dst cls : Nat) (serial : Word) : State :=
  match (List.range 32).find? (fun i => (s.queue (32 * dst + i)).entries.head? == some (.mark src dst cls serial)) with
  | some i => s.dequeue (32 * dst + i)
  | none => s

/-- Whether a mark heads its queue. -/
def State.headsQueue (s : State) (src dst cls : Nat) (serial : Word) : Bool :=
  (List.range 32).any (fun i => (s.queue (32 * dst + i)).entries.head? == some (.mark src dst cls serial))

/-- The marks towards the destination that head their queue or are set aside, and whose count is zero, leave in a slot with LADLE = 1
and room: next after the counted frames, and ahead of steps 3 and 4 (R229). -/
def Fill.flush (b : Fill) : Fill :=
  if !b.ladle then b
  else
    let ready := b.s.service.marks.flatMap (fun p =>
      let src := p.1 / 4096
      let dst := p.1 / 8 % 512
      let cls := p.1 % 8
      if dst = b.d then
        (p.2.filter (fun m => (m.aside || b.s.headsQueue src dst cls m.serial) && b.s.markCount src dst cls m == 0)).map
          (fun m => (src, dst, cls, m.serial))
      else [])
    ready.foldl (fun (b : Fill) m => if 84 ≤ b.room then
        ({ b with s := b.s.takeMark m.1 m.2.1 m.2.2.1 m.2.2.2 } : Fill).sendMark m.1 m.2.1 m.2.2.1 m.2.2.2 else b) b

/-- A frame, or a copy of one, leaves: its shapers are charged, its cells are freed with the last copy, and a frame still
coming in streams as it arrives (R181, R215, R222). -/
def Fill.sendFrame (b : Fill) (id : Nat) (f : Frame) (q : Nat) : Fill :=
  let size := f.len + 20
  let s1 := (b.s.charge q size).charge (destBucket + b.d) size
  let s2 := if f.coming.isSome then (s1.putFrame id { f with started := f.started + 1, refs := f.refs - 1 }).ladCount 13 1
    else s1.copyGone id
  ({ b with s := s2 }.put size (f.sent id b.d b.tag b.pos)).flush

/-- Released frames sent in their order while they fit; a flow whose frame does not fit waits (R214). -/
def Fill.releaseGo (b : Fill) (blocked kept : List Nat) : List Nat → Fill × List Nat
  | [] => (b, kept.reverse)
  | id :: ids =>
    match b.s.ladle.frames.find? id with
    | none => b.releaseGo blocked kept ids
    | some f =>
      if !blocked.contains f.flow && decide (f.len + 20 ≤ b.room) && !b.s.laneWaits id f then
        (b.sendFrame id f f.queue).releaseGo blocked kept ids
      else b.releaseGo (f.flow :: blocked) (id :: kept) ids

/-- The frames released and waiting for a destination, and a list given. -/
def State.releasedOf (s : State) (d : Nat) : List Nat := s.service.released.get (fun _ => []) d
def State.setReleased (s : State) (d : Nat) (l : List Nat) : State :=
  { s with service := { s.service with released := s.service.released.set (fun _ => []) d l } }

/-- Step 2: frames released by the resequencer and still waiting (Table 10.1). -/
def Fill.release (b : Fill) : Fill :=
  let (b1, rest) := b.releaseGo [] [] (b.s.releasedOf b.d)
  { b1 with s := b1.s.setReleased b.d rest }

/-! ### The resequencer (R214) -/

/-- DEPTH and TIMEOUT within their ranges (Table 09.23). -/
def State.reseqDepth (s : State) : Nat := clampNat 1 64 (s.fld F.ladReseqDepth)
def State.reseqTimeout (s : State) : Nat := 1000 * clampNat 1 1000 (s.fld F.ladReseqTimeout)

/-- The held frames that now follow EXP in order: the flow without them, and their numbers (R214). -/
def follow : Nat → Flow → Flow × List Nat
  | 0, x => (x, [])
  | n + 1, x =>
    match x.held.find? (fun p => p.1 == x.exp) with
    | some p =>
      let (y, ids) := follow n { x with exp := (x.exp + 1) % 65536, held := x.held.filter (fun h => h.2.1 ≠ p.2.1) }
      (y, p.2.1 :: ids)
    | none => (x, [])

/-- EXP set, and the held frames that follow released. A frame held a second time under a SEQ that EXP has passed is a duplicate, and
is discarded and counted (R214; log 85). The timer goes on for the oldest frame still held. -/
def State.advance (s : State) (flow exp : Nat) : State :=
  let x := s.flow flow
  let (y, ids) := follow (x.held.length) { x with exp := exp % 65536 }
  let passed := fun (h : Nat × Nat × Nat) => decide (32768 ≤ (h.1 + 65536 - y.exp) % 65536)
  let kept := y.held.filter (fun h => !passed h)
  let s1 := s.setFlow flow { y with held := kept, holdNs := if kept.isEmpty then 0 else y.holdNs }
  let s2 := if ids.isEmpty then s1 else s1.setReleased x.dst (s1.releasedOf x.dst ++ ids)
  (y.held.filter passed).foldl (fun (s : State) h => (s.freeFrame h.2.1).ladCount 7 1) s2

/-- What happened to the head of a queue. -/
inductive Served where
  | sent (size : Nat)
  | moved
  | shaper
  | stop
deriving DecidableEq, Repr

/-- A mark at the head of its queue: forwarded with its count zero in a slot with LADLE = 1, set aside otherwise (R229). -/
def Fill.serveMark (b : Fill) (q src dst cls : Nat) (serial : Word) : Fill × Served :=
  let key := laneKey src dst cls
  let n := match List.find? (fun (m : Mark) => m.serial == serial) (b.s.marksOf key) with
    | some m => b.s.markCount src dst cls m
    | none => 0
  if b.ladle && n == 0 then
    if 84 ≤ b.room then ({ b with s := b.s.dequeue q }.sendMark src dst cls serial, .sent 0) else (b, .stop)
  else
    let ms := (b.s.marksOf key).map (fun m => if m.serial = serial then { m with aside := true } else m)
    ({ b with s := (b.s.dequeue q).setMarks key ms }, .moved)

/-- A frame of a flow that is resequenced, at the head of its queue (R214). -/
def Fill.serveReseq (b : Fill) (q id : Nat) (f : Frame) : Fill × Served :=
  let x := b.s.flow f.flow
  let exp := if f.setsExp then f.seq else x.exp
  let delta := (f.seq + 65536 - exp) % 65536
  if delta = 0 then
    let waiting := (b.s.releasedOf b.d).any (fun i => match b.s.ladle.frames.find? i with
      | some g => g.flow == f.flow
      | none => false)
    if waiting then
      if f.coming.isSome then (b, .stop)
      else
        let s1 := b.s.dequeue q
        ({ b with s := (s1.setReleased b.d (s1.releasedOf b.d ++ [id])).advance f.flow (f.seq + 1) }, .moved)
    else
      let b1 := { b with s := b.s.dequeue q }.sendFrame id f q
      let b2 := { b1 with s := b1.s.advance f.flow (f.seq + 1) }
      (b2.release, .sent (f.len + 20))
  else if f.coming.isSome then (b, .stop)
  else if 32768 ≤ delta then
    ({ b with s := ((b.s.dequeue q).freeFrame id).ladCount 7 1 }.flush, .moved)
  else if b.s.reseqDepth ≤ x.held.length then (b, .stop)
  else
    let y := { x with exp := exp, held := x.held ++ [(f.seq, id, if x.held.isEmpty then 0 else x.holdNs)], holdNs := if x.held.isEmpty then 0 else x.holdNs }
    ({ b with s := (b.s.dequeue q).setFlow f.flow y }, .moved)

/-- The head of a queue served, within a deficit if one is given: it waits if R231 holds its lane, its cells are still in
the riser, it is still coming in and may not be cut through, or it does not fit (R207, R215, R219, R222, R231). -/
def Fill.serveHead (b : Fill) (q : Nat) (deficit : Option Int) : Fill × Served :=
  match (b.s.queue q).entries with
  | [] => (b, .stop)
  | .mark src dst cls serial :: _ => b.serveMark q src dst cls serial
  | .frame id :: rest =>
    match b.s.ladle.frames.find? id with
    | none => ({ b with s := b.s.dequeue q }, .moved)
    | some f =>
      let size := f.len + 20
      let affordable := match deficit with
        | some v => decide ((size : Int) ≤ v)
        | none => true
      let others := rest.any (fun e => match e with
        | .frame _ => true
        | .mark _ _ _ _ => false)
      if b.s.laneWaits id f then (b, .stop)
      else if 0 < f.riser then (b, .stop)
      else if f.coming.isSome && !(b.s.flag F.ladCtrlCutEn && !others && !b.s.queueSeg q) then (b, .stop)
      else if b.room < size ∨ !affordable then (b, .stop)
      else if !b.s.eligible q b.d then (b, .shaper)
      else if f.mcast || !(b.s.flow f.flow).reseq then
        ({ b with s := b.s.dequeue q }.sendFrame id f q, .sent size)
      else b.serveReseq q id f

/-- Step 3: a strict queue served until it is empty or blocked (Table 10.1). -/
def Fill.strictQueue (q : Nat) : Nat → Fill → Fill
  | 0, b => b
  | n + 1, b =>
    match b.serveHead q none with
    | (b1, .sent _) => Fill.strictQueue q n b1
    | (b1, .moved) => Fill.strictQueue q n b1
    | (b1, _) => b1

/-- One visit of a queue: heads are sent while they fit, are eligible and stay within the deficit; a visit that ends only
because of a shaper is counted (R221, R222). -/
def Fill.visit (q : Nat) : Nat → Bool → Fill → Fill × Bool
  | 0, any, b => (b, any)
  | n + 1, any, b =>
    let v := b.s.service.deficit.get (fun _ => (0 : Int)) q
    match b.serveHead q (some v) with
    | (b1, .sent size) => Fill.visit q n true { b1 with s := b1.s.setDeficit q (v - size) }
    | (b1, .moved) => Fill.visit q n any b1
    | (b1, .shaper) => ({ b1 with s := b1.s.lsvCount 5 1 }, any)
    | (b1, .stop) => (b1, any)

/-- QUANTUM; 0 acts as 1 (Table 10.16). -/
def State.quantum (s : State) (q : Nat) : Nat := if s.fld (F.lsvQcfgQuantum q) = 0 then 1 else s.fld (F.lsvQcfgQuantum q)

/-- Step 4: deficit round robin until a full pass has sent nothing; the first argument bounds the visits, the second counts
those since one that sent a frame (R221). -/
def Fill.roundRobin : Nat → Nat → Fill → Fill
  | 0, _, b => b
  | n + 1, idle, b =>
    match b.s.visitOf b.d with
    | none => b
    | some q =>
      if (b.s.activeOf b.d).length ≤ idle then b
      else
        let gain : Int := b.s.quantum q
        let v := b.s.service.deficit.get (fun _ => (0 : Int)) q + gain
        let v1 := if gain + 16340 < v then gain + 16340 else v
        let (b1, any) := Fill.visit q ((b.s.queue q).entries.length + 1) false { b with s := b.s.setDeficit q v1 }
        let s1 := b1.s.passVisit b.d q
        let s2 := if (s1.queue q).entries.isEmpty then s1.leaveActive q else s1
        Fill.roundRobin n (if any then 0 else idle + 1) { b1 with s := s2 }

/-- A burst filled in the order of Table 10.1. -/
def Fill.fill (b : Fill) : Fill :=
  let b1 := b.control.release.flush
  let qs := (List.range 32).map (fun i => 32 * b.d + i)
  let n := (qs.map (fun q => (b1.s.queue q).entries.length)).sum
  let b2 := (qs.filter b1.s.strict).foldl (fun (b : Fill) q => Fill.strictQueue q ((b.s.queue q).entries.length + 1) b) b1
  Fill.roundRobin ((n + 2) * 33) 0 b2

/-- The latest burst of a port, if it belongs to the slot in progress. -/
def State.burstNow (s : State) (p : Nat) : Option (List Sent) :=
  match s.service.burst.find? p with
  | some (t, out) => if t = s.heats.boundary then some out else none
  | none => none

/-- The start of the slot in progress, and its T + G (Tables 07.5, 08.2). -/
def State.slotStart (s : State) : Nat :=
  match s.slotRec with
  | some r => s.heats.boundary - 5 * slotDur r
  | none => s.heats.boundary
def State.slotData (s : State) : Nat :=
  match s.heats.now with
  | some h => s.slotStart + 5 * h.guard
  | none => s.slotStart

/-- The data window of the slot in progress, in ns (Table 08.2). -/
def State.slotWindow (s : State) : Nat :=
  match s.slotRec, s.heats.now with
  | some r, some h => 5 * slotDur r - 5 * h.guard - 40
  | _, _ => 0

/-- The bytes a burst of the slot in progress carries. -/
def State.slotBytes (s : State) : Nat :=
  match s.slotRec, s.heats.now with
  | some r, some h => burstBytes (5 * slotDur r) (5 * h.guard)
  | _, _ => 0

/-- Whether the slot in progress connects port p to Ed, the port carries traffic, and the slot's pour was made (R219,
R220). -/
def State.outOpen (s : State) (p d : Nat) : Bool :=
  s.portOpen p && s.slotRec.isSome && s.slotPerm.getD d unassigned == 512 + p && !s.heats.slotHeld

/-- The hold timers of the flows towards d that held frames before a slot: they ran through its data window (R214). -/
def State.runTimers (s : State) (flows : List Nat) (w : Nat) : State :=
  flows.foldl (fun (s : State) f => if (s.flow f).held.isEmpty then s else s.setFlow f { s.flow f with holdNs := (s.flow f).holdNs + w }) s

/-- A burst of a port in the slot in progress, its frames in their order. -/
def State.setBurst (s : State) (p : Nat) (out : List Sent) : State :=
  { s with service := { s.service with burst := s.service.burst.put p (s.heats.boundary, out) } }

/-- LADLE_BURST_SEND: one burst a slot; in one that connects the port to an output that is neither an external port's nor its own, a
burst of IDLE codewords (R173, R219). -/
def State.burstSend (s : State) (p d : Nat) : State :=
  let s1 := s.closeArrived none
  if !s1.outOpen p d || (s1.burstNow p).isSome || d == 512 + p then s1
  else if 512 ≤ d then s1.setBurst p []
  else
    let held := (s1.ladle.flows.filter (fun (x : Nat × Flow) => x.2.dst == d && !x.2.held.isEmpty)).map Prod.fst
    let b := Fill.fill { s := s1, d := d, room := s1.slotBytes, pos := 0, ladle := s1.ladleSlot, tag := s1.fld F.heatLiveTag, out := [] }
    let s2 := b.s.runTimers held s1.slotWindow
    (s2.setBurst p b.out.reverse).balance

def execLadleBurstSend (port : Fin 68) (output : Fin 592) (s : State) : Out := .next (s.burstSend port.val output.val)

/-- What a ladle port sends on a lane in the slot in progress, from T + 120 ns on, where it sends a burst (R173, Table 08.3). -/
def State.lightOf (s : State) (p lane : Nat) : Option LaneBurst :=
  match s.burstNow p, s.heats.now with
  | some out, some h => some (laneBurst (5 * h.guard) (s.slotBytes / 2560) lane out)
  | _, _ => none

/-- RESEQ_SKIP: the gap before the lowest held SEQ is skipped (R214). -/
def State.reseqSkip (s : State) (f : Nat) : State :=
  let x := s.flow f
  let dist := fun (p : Nat × Nat × Nat) => (p.1 + 65536 - x.exp) % 65536
  match x.held with
  | [] => s
  | h :: hs =>
    if x.timer < s.reseqTimeout ∧ x.held.length < s.reseqDepth then s
    else
      let low := hs.foldl (fun a p => if dist p < dist a then p else a) h
      let s1 := s.setFlow f { x with skips := satAdd 0xFFFF x.skips 1, holdNs := 0, held := x.held.map (fun p => (p.1, p.2.1, 0)) }
      ((s1.advance f low.1).ladCount 6 1).ladleEvent 1 3 f

def execReseqSkip (flow : Fin 2097152) (s : State) : Out := .next (s.reseqSkip flow.val)

/-! ## Frames coming in (R195-R196, R206, R213-R217) -/

/-- The flow counts rolled to an epoch (R217). -/
def Flow.rolled (x : Flow) (e : Nat) : Flow :=
  if x.epoch = e then x
  else { x with prev := if (x.epoch + 1) % 65536 = e then x.bytes else 0, bytes := 0, epoch := e, heavy := false }

/-- A frame counted in its flow entry; a unicast entry that reaches UNITS, or is pinned, becomes heavy (R216, R217). -/
def State.countFlow (s : State) (flow len : Nat) (mcast : Bool) : State :=
  let x := (s.flow flow).rolled (s.heats.epochs % 65536)
  let n := satAdd 0xFFFFFFFF x.bytes (ceilDiv (len + 20) 64)
  let units := s.fld F.ladHeavyUnits
  let turns := !mcast && !x.heavy && ((x.pin && x.bytes == 0) || (decide (0 < units) && decide (units ≤ n)))
  let y := { x with bytes := n, frames := if mcast then x.frames else (x.frames + 1) % 2 ^ 32, heavy := x.heavy || turns }
  let s1 := s.setFlow flow y
  if turns ∧ s1.heats.heavy.length < 4096 ∧ !s1.heats.heavy.contains flow then
    { s1 with heats := { s1.heats with heavy := s1.heats.heavy ++ [flow] } }
  else s1

/-- A unicast frame's flow entry: learned if it is not VALID, its lane mode refreshed, and whether its EXP_SEQ is to be set
from this frame (R214, R216, R217). -/
def State.learnFlow (s : State) (f : DataFrame) : State × Bool :=
  let x := s.flow f.flow.val
  let direct := directIn s.heats.now f.src.val f.dst.val f.cls.val
  let serial := (s.fld F.heatLiveSerialSerial) % 65536
  let back := x.wasDirect && !direct
  let y := { x with
    learnExp := false
    wasDirect := x.wasDirect && direct
    lmode := if x.lser = serial then x.lmode else direct
    lser := serial }
  if x.valid then (s.setFlow f.flow.val y, x.learnExp || back)
  else
    let z := { y with src := f.src.val, dst := f.dst.val, cls := f.cls.val, valid := true,
                      reseq := s.flag F.ladCtrlReseqDef, exp := f.seq.toNat }
    ((s.setFlow f.flow.val z).ladCount 14 1, true)

/-- A frame that came through a port stored as received and queued, or discarded for want of a free cell (R200, R206, R210); the
admission meter is charged (R345). -/
def State.storeFrame (s : State) (q p' : Nat) (f : DataFrame) (setsExp against : Bool) : State :=
  let p := s.placement q (cellsOf f.len)
  if !s.fits p then (s.ladCount 5 1).ladleEvent 3 5 q
  else
    let x : Frame := { src := f.src.val, dst := f.dst.val, cls := f.cls.val, flow := f.flow.val, seq := f.seq.toNat,
                       mcast := f.mcast, tag := s.fld F.heatLiveTag, payload := f.payload, trailer := f.trailer,
                       cells := s.allocate p.1, riser := p.2, refs := 1, started := 0,
                       coming := if f.whole then none else some s.heats.boundary, port := p', against := against, queue := q,
                       setsExp := setsExp }
    let id := s.ladle.nextFrame
    let s1 := (s.putFrame id x).enqueue q (.frame id)
    let s2 := { s1 with
      ladle := { s1.ladle with nextFrame := id + 1 }
      service := { s1.service with meter := s1.service.meter.map (fun v => v - (f.len + 20)) } }
    s2.balance.meterXoff

/-- A frame still coming in that heads its queue is cut through into a burst of the slot in progress, if that has room for
the whole of it (R215). -/
def State.cutInto (s : State) (q d : Nat) : State :=
  match (List.range 68).find? (fun p => s.outOpen p d && (s.burstNow p).isSome) with
  | none => s
  | some p =>
    let out := (s.burstNow p).getD []
    let used := out.foldl (fun n x => if n < x.pos + x.size then x.pos + x.size else n) 0
    let sent := 100 * (s.time.net - s.slotData)
    let pos := if sent ≤ used then used else ceilDiv sent 640 * 640
    let b : Fill := { s := s, d := d, room := s.slotBytes - pos, pos := pos, ladle := s.ladleSlot, tag := s.fld F.heatLiveTag,
                      out := out.reverse }
    match b.serveHead q none with
    | (b1, .sent _) =>
      let s1 := if (b1.s.queue q).entries.isEmpty then b1.s.leaveActive q else b1.s
      (s1.setBurst p b1.out.reverse).balance
    | _ => s

/-- A unicast frame (R195, R202, R214-R217, R230, R231). -/
def State.ingressUnicast (s : State) (p : Nat) (f : DataFrame) : State :=
  let i := f.src.val
  let j := f.dst.val
  let k := f.cls.val
  let key := laneKey i j k
  let (s1, setsExp) := s.learnFlow f
  let s2 := s1.countFlow f.flow.val f.len false
  let s3 := if (s2.service.marked.find? key).isSome then s2.lsvCount 3 1 else s2
  let against := s3.holdsLane i j k
  let s4 := if against then
      let held := if s3.service.laneHeld.contains key then s3.service.laneHeld else key :: s3.service.laneHeld
      ({ s3 with service := { s3.service with laneHeld := held } }).lsvCount 4 1
    else s3
  let q := s4.classQueue j k f.flow.val
  let s5 := s4.storeFrame q p f setsExp against
  if f.whole then s5 else s5.cutInto q j

/-- A multicast frame: for a group with VALID = 0 it is discarded (R195, R202, R212). -/
def State.ingressMulticast (s : State) (p : Nat) (f : DataFrame) : State :=
  let g := f.flow.val - groupFlow
  if f.dst.val ≠ groupId ∨ f.flow.val < groupFlow ∨ !(s.group g).valid then s.ladCount 2 1
  else (s.countFlow f.flow.val f.len true).storeFrame (mcQueue + 128 * f.cls.val + g % 128) p f false false

/-- DATA_FRAME_INGRESS: DATA is sorted by DST and MCAST; any other combination is discarded (R193, R195). -/
def State.ingress (s : State) (p : Nat) (f : DataFrame) : State :=
  if !s.portOpen p then s
  else
    let s1 := s.closeArrived (some f.src.val)
    if f.mcast then s1.ingressMulticast p f
    else if f.dst.val < 512 then s1.ingressUnicast p f
    else s1.ladCount 2 1

def execDataFrameIngress (port : Fin 68) (f : DataFrame) (s : State) : Out := .next (s.ingress port.val f)

/-- MC_REPLICATE: the head of a multicast queue is copied once it has come in, or, with cut-through and no riser cells, as
soon as its head has; a copy made before the tail has arrived joins a burst in progress where it can (R213, R215). -/
def State.replicate (s : State) (q : Nat) : State :=
  match (s.queue q).entries with
  | .frame id :: _ =>
    match s.ladle.frames.find? id with
    | some f =>
      if f.coming.isSome ∧ !(s.flag F.ladCtrlCutEn && f.riser == 0) then s
      else
        let g := f.flow - groupFlow
        let s1 := s.dequeue q
        if !(s.group g).valid then ((s1.discardFrame id).ladCount 2 1).balance
        else
          let ds := (s.group g).copies f.src
          let s2 := s1.putFrame id { f with refs := ds.length }
          if ds.isEmpty then (if f.coming.isNone then (s2.freeFrame id).balance else s2)
          else
            let s3 := (ds.foldl (fun (s : State) d => s.makeCopy g f.cls id d) s2).balance
            if f.coming.isSome then ds.foldl (fun (s : State) d => s.cutInto (s.classQueue d f.cls f.flow) d) s3 else s3
    | none => s.dequeue q
  | _ => s

def execMcReplicate (q : Fin 1024) (s : State) : Out := .next ((s.closeArrived none).replicate (mcQueue + q.val))

/-- MC_HOLD_ADMIT: the copy that heads its line enters its queue when that is below ADMIT (R213). -/
def execMcHoldAdmit (group : Fin 16384) (dst : Fin 512) (s : State) : Out :=
  .next (match s.holdHead group.val dst.val with
    | some c =>
      match s.ladle.frames.find? c.frame with
      | some f =>
        let q := s.classQueue dst.val f.cls (groupFlow + group.val)
        if s.queueDepth q < s.admitCells then
          let s1 := ({ s with ladle := { s.ladle with hold := dropHeld c s.ladle.hold } }).enqueue q (.frame c.frame)
          if f.coming.isSome then s1.cutInto q dst.val else s1
        else s
      | none => s
    | none => s)

/-- CUT_THROUGH_STOMP: a frame still coming in proves bad: the copies begun end with the complemented trailer, those not
begun are withdrawn, and its cells are freed (R215). -/
def State.stomp (s : State) (id : Nat) : State :=
  match s.ladle.frames.find? id with
  | some f => if f.coming.isSome then (((s.complement id).discardFrame id).ladCount 0 f.started).balance else s
  | none => s

def execCutThroughStomp (frame : Nat) (s : State) : Out := .next (s.stomp frame)

/-! ## Bursts received (R180, R182, R188, R194) -/

/-- The heat-tag check of a ladle port (R182). -/
def tagOk (h : BitVec 128) (tag src : Nat) : Bool :=
  hdrTag h == tag && hdrSrc h == src && !hdrFlag h 3
    && (hdrDst h == engineId || decide (hdrDst h < 512) || (hdrDst h == groupId && hdrFlag h 6))

/-- Whether a frame is stomped: STOMP set, the complemented trailer, or cut short (R180). -/
def stomped (h : BitVec 128) (x : RxFrame) : Bool := hdrFlag h 4 || x.cut || x.trailer == ~~~(crc32 x.payload)

/-- Whether a frame is errored by its own fields (R180). -/
def errored (h : BitVec 128) (x : RxFrame) : Bool :=
  decide (hdrLen h < 64 ∨ 16320 < hdrLen h) || decide (1 ≤ hdrType h ∧ hdrType h ≤ 7) || hdrFlag h 7 != decide (8 ≤ hdrType h)
    || hdrFlag h 5 != decide (hdrType h = 13) || x.trailer != crc32 x.payload

/-- The frames of a burst checked in order; the first that fails the heat-tag check ends it (R180, R182, R183, R194). A
LANE_MARK outside a LADLE slot is counted by its own command. -/
def State.rxFrames (s : State) (p tag src : Nat) (ladle : Bool) : List RxFrame → State
  | [] => s
  | x :: xs =>
    match x.header with
    | none => (s.ladCount (if x.cut then 1 else 2) 1).rxFrames p tag src ladle xs
    | some h =>
      if x.overlaps || !hcrcOk h || hdrVer h != 1 then (s.ladCount 2 1).rxFrames p tag src ladle xs
      else if !tagOk h tag src then (s.count (F.portMisdel p) 1).ladCount 3 1
      else if stomped h x then (s.ladCount 1 1).rxFrames p tag src ladle xs
      else if errored h x then (s.ladCount 2 1).rxFrames p tag src ladle xs
      else if !ladle && decide (8 ≤ hdrType h) && hdrType h != 13 then (s.ladCount 2 1).rxFrames p tag src ladle xs
      else s.rxFrames p tag src ladle xs

/-- The offset of a burst from a line card, in ps, taken with those measured since the latest TIME_CHECK (R188). -/
def State.measureOffset (s : State) (src : Nat) (ofs : Int) : State :=
  let (n, sum, lo, hi, _) := s.service.timing.get (fun _ => (0, 0, 0, 0, 0)) src
  let t : Nat × Int × Int × Int × Nat := if n = 0 then (1, ofs, ofs, ofs, s.slotData)
    else (n + 1, sum + ofs, if ofs < lo then ofs else lo, if hi < ofs then ofs else hi, s.slotData)
  { s with service := { s.service with timing := s.service.timing.put src t } }

/-- LADLE_BURST_RECEIVE: a burst in a slot that connects an external port to this ladle port, its delimiter's end measured in steps
of 0.1 ns (R175-R182, R188, R193, R194). -/
def State.burstReceive (s : State) (p src : Nat) (offset : Int) (lanes : List RxLane) : State :=
  let expected := s.slotPerm.getD (512 + p) unassigned
  if !s.portOpen p || s.slotRec.isNone || decide (512 ≤ expected) then s
  else match burstCodes lanes with
    | none => s
    | some ws =>
      let bad := (ws.filter Option.isNone).length
      let s1 := ((s.measureOffset src (100 * offset)).count (F.portUncorr p) bad).ladCount 4 bad
      s1.rxFrames p (s.fld F.heatLiveTag) expected s.ladleSlot (rxFramesOf ws)

def execLadleBurstReceive (port : Fin 68) (src : Fin 512) (offset : Int) (lanes : List RxLane) (s : State) : Out :=
  .next (s.burstReceive port.val src.val offset lanes)

/-! ## Control frames (R184-R189) -/

/-- An event of source LINK: the external port in [9:0], the CODE in [23:16] (R189). -/
def State.linkEvent (s : State) (cls code port : Nat) : State := s.raise 0x2800 cls code (word (port + code * 65536))

/-- The entry of a slot for the addressed port (Table 08.12): DUR, the core output that its input reaches, the core input that reaches
its output, and the flags LADLE, PCHK and END. -/
def State.noticeEntry (s : State) (port : Nat) (r : BitVec 64) : BitVec 64 :=
  let perm := (s.mould (slotMould r)).perm
  BitVec.ofNat 64 (slotDur r * 2 ^ 40 + perm.idxOf port * 2 ^ 30 + perm.getD port unassigned * 2 ^ 20 + b2n (r.getLsbD 40) * 2 ^ 19
    + b2n (r.getLsbD 41) * 2 ^ 18 + b2n (r.getLsbD 42) * 2 ^ 17)

/-- The parts of a heat's notice for one line card: up to 2,036 entries each; a cancellation has no entries (R165, R186, Tables 08.11,
08.12). -/
def State.noticeParts (s : State) (h : Heat) (rs : List (BitVec 64)) (cancelled : Bool) (port : Nat) : List Ctl :=
  let parts := if cancelled then 1 else ceilDiv rs.length 2036
  (List.range parts).map (fun k =>
    .notice { serial := h.serial, cancelled := cancelled, part := k, parts := parts, dclass := h.dclass, a := h.a, guard := h.guard,
              cycle := h.cycle, ctrl := h.ctrl, slots := h.n, first := 2036 * k
              entries := if cancelled then [] else ((rs.drop (2036 * k)).take 2036).map (s.noticeEntry port) })

/-- A heat's notice handed to one line card. -/
def State.notifyOne (s : State) (h : Heat) (rs : List (BitVec 64)) (cancelled : Bool) (d : Nat) : State :=
  s.setCtl d (s.ctlOf d ++ s.noticeParts h rs cancelled d)

/-- A heat's notice handed over for every line card (R165). -/
def State.notifyAll (s : State) (h : Heat) (rs : List (BitVec 64)) (cancelled : Bool) : State :=
  (List.range 512).foldl (fun (s : State) d => s.notifyOne h rs cancelled d) s

/-- The codes of Table 08.16 the engine uses. -/
abbrev linkPort : Nat := 3
abbrev linkTime : Nat := 4
abbrev linkGuard : Nat := 7

/-- The engine's ERROR_NOTE of one occurrence now: the live heat's serial, the slot in progress, and the SRC of the offending frame, or
0x3FF for none (Table 08.16; log 118). -/
def State.errorNote (s : State) (code peer : Nat) : Ctl :=
  .error code 1 (s.reg R.heatLiveSerial) (s.heats.cur.getD 0) peer s.time.net

/-- HELLO from the line card on a port (R184). -/
def State.helloFrom (s : State) (port claimed : Nat) (need : Bool) (minGuard : Nat) : State :=
  match s.heats.now with
  | none => s
  | some h =>
    let s1 := if need then s.notifyOne h ((heatRecords s.heats.live).getD []) false port else s
    let s2 := if claimed = port then s1 else (s1.linkEvent 2 linkPort port).queueCtl port (s1.errorNote linkPort port)
    if h.guard < minGuard then s2.linkEvent 1 linkGuard port else s2

def execHello (port : Fin 512) (claimed : BitVec 16) (needNotice : Bool) (minGuard : BitVec 16) (s : State) : Out :=
  .next (if s.dev = 2 then s.helloFrom port.val claimed.toNat needNotice minGuard.toNat else s)

/-- The key of a demand entry (R161). -/
def demandKey (i j : Nat) : Nat := 592 * i + j

/-- DEMAND: the latest report of the epoch replaces the port's backlog, in bytes (R161, R185). -/
def execDemand (port : Fin 512) (entries : List (Fin 512 × BitVec 22)) (s : State) : Out :=
  .next (if s.dev ≠ 2 then s
    else
      let others := s.heats.gather.filter (fun p => p.1 / 592 ≠ port.val)
      let all := entries.foldl (fun (g : SMap Nat) e => SMap.set (fun _ => 0) g (demandKey port.val e.1.val) (64 * e.2.toNat)) others
      { s with heats := { s.heats with gather := all } })

/-- ERROR_NOTE from a line card: a note of source LINK (R189). -/
def execErrorNote (port : Fin 512) (code : Byte) (s : State) : Out :=
  .next (if s.dev = 2 then s.linkEvent 0 code.toNat port.val else s)

/-- HELLO_SEND: a HELLO to every line card that has none waiting (R184). -/
def execHelloSend (s : State) : Out :=
  .next (if s.dev = 2 then
      (List.range 512).foldl (fun (s : State) d => if (s.ctlOf d).contains .hello then s else s.queueCtl d .hello) s
    else s)

/-- TIME_CHECK_SEND: the offsets measured since the previous one; a mean beyond 20 ns is reported to both sides (R188,
R189). The mean's rounding, and every figure when no burst was measured, are free (log 86). -/
def State.timeCheck (s : State) (port : Nat) : State :=
  let (n, sum, lo, hi, t) := s.service.timing.get (fun _ => (0, 0, 0, 0, 0)) port
  let s1 := { s with service := { s.service with timing := s.service.timing.erase port } }
  if n = 0 then
    let (a, s2) := s1.freeNat
    let (b, s3) := s2.freeNat
    let (c, s4) := s3.freeNat
    let (at_, s5) := s4.freeNat
    s5.queueCtl port (.timeCheck 0 (signed 32 a) (signed 32 b) (signed 32 c) at_)
  else
    let (r, s2) := s1.freeNat
    let mean := sum / n + (if sum % n ≠ 0 ∧ r % 2 = 1 then 1 else 0)
    let s3 := s2.queueCtl port (.timeCheck n mean lo hi t)
    if sum.natAbs ≤ 20000 * n then s3 else (s3.linkEvent 1 linkTime port).queueCtl port (s3.errorNote linkTime 0x3FF)

def execTimeCheckSend (port : Fin 512) (s : State) : Out := .next (if s.dev = 2 then s.timeCheck port.val else s)

/-! ## Port failures (R199, R235) -/

/-- The tokens that a frame took given back. -/
def State.uncharge (s : State) (key size : Nat) : State :=
  if s.rateOf key = 0 then s
  else { s with service := { s.service with bucket := s.service.bucket.modify (fun _ => 0) key (· + size) } }

/-- The cells of a frame that is taken back: those it held, or others where some have been taken since (log 119). -/
def State.reclaim (s : State) (cs : List Nat) : List Nat := if cs.all (fun c => !s.usedCells.contains c) then cs else s.allocate cs.length

/-- A frame or copy that had not begun in a burst that is cut waits again, before the other frames released towards its destination:
it is still queued (R199; log 119). -/
def State.takeBack (s : State) (d id : Nat) (f : Frame) : State :=
  let size := f.len + 20
  let g := match s.ladle.frames.find? id with
    | some g => { g with refs := g.refs + 1, started := if g.coming.isSome then g.started - 1 else g.started }
    | none => { f with refs := 1, cells := s.reclaim f.cells }
  let s1 := ((s.putFrame id g).uncharge f.queue size).uncharge (destBucket + d) size
  s1.setReleased d (id :: s1.releasedOf d)

/-- The SEQ of a control frame that was not sent after all, for the next one to the line card (Table 08.6; log 119). -/
def State.uncountSeq (s : State) (d : Nat) (h : BitVec 128) : State :=
  { s with service := { s.service with ctlSeq := s.service.ctlSeq.set (fun _ => 0) d (hdrSeq h) } }

/-- What had not begun in a burst that is cut goes back to where it waited; a copy of a frame found bad since is withdrawn. -/
def State.unsend (s : State) (x : Sent) : State :=
  let d := hdrDst x.header
  match x.frame, x.ctl with
  | some (id, f), _ => if x.trailer = f.trailer then s.takeBack d id f else s
  | none, some c => (s.setCtl d (c :: s.ctlOf d)).uncountSeq d x.header
  | none, none =>
    let key := laneKey (hdrSrc x.header) d (hdrClass x.header)
    let serial := BitVec.ofNat 32 ((x.payload.take 4).foldl (fun a b => 256 * a + b.toNat) 0)
    let s1 := s.setMarks key (({ serial := serial, upTo := 0, cell := (s.allocate 1).headD 0, aside := true } : Mark) :: s.marksOf key)
    (s1.setFld (F.lsvCntCount 1) (s1.fld (F.lsvCntCount 1) - 1)).uncountSeq d x.header

/-- The burst of a port cut at the present instant: the frame in progress is cut short, and what had not begun stays queued (R199). -/
def State.cutBurst (s : State) (p : Nat) : State :=
  match s.burstNow p with
  | none => s
  | some out =>
    let now := 100 * (s.time.net - s.slotData)
    let begun := out.filter (fun x => decide (x.pos < now))
    let s1 := s.setBurst p (begun.map (fun x => if now < x.pos + x.size then { x with cut := true } else x))
    (out.filter (fun x => !decide (x.pos < now))).reverse.foldl State.unsend s1

/-- The frames coming in through a port that has failed, discarded and counted as stomped; copies begun end with the complemented
trailer (R199, R215). -/
def State.cutIngress (s : State) (p : Nat) : State :=
  let s1 := s.closeArrived none
  ((s1.ladle.frames.filter (fun x => x.2.coming.isSome && x.2.port == p)).map Prod.fst).foldl
    (fun (s : State) id => (s.stomp id).ladCount 1 1) s1

/-- A port that has failed: FAILED, parked, reported; what is in flight on it is cut (R199). -/
def State.failPort (s : State) (p : Nat) : State :=
  if s.fld (F.portState p) = failedPort then s
  else ((((s.cutIngress p).cutBurst p).setFld (F.portState p) failedPort).park p).ladleEvent 2 1 p

/-- The ports of a supply or an engine that fails, and the automatic swaps (R199). -/
def State.portFail (s : State) (supply : Bool) (i : Nat) : State :=
  let s1 := if supply then { s with ladle := { s.ladle with dark := i :: s.ladle.dark.filter (· ≠ i) } }
    else { s with ladle := { s.ladle with badEngines := i :: s.ladle.badEngines.filter (· ≠ i) } }
  let s2 := (affected supply i).foldl State.failPort s1
  if s2.flag F.ladCtrlAutoSwap then ((affected supply i).filter (· < 64)).foldl State.autoSwap s2 else s2

/-! ## Parking (R224) -/

/-- Whether a slot of a permutation is one of a ladle port's: its core input or output meets an external port (R224). -/
def usesPort (perm : List Nat) (p : Nat) : Bool :=
  decide (perm.getD (512 + p) unassigned < 512) || (perm.take 512).contains (512 + p)

/-- The start of the first of a port's slots among slots that begin one after another. -/
def State.firstSlot (s : State) (p : Nat) : Nat → List (BitVec 64) → Option Nat
  | _, [] => none
  | t, r :: rs => if usesPort (s.mould (slotMould r)).perm p then some t else s.firstSlot p (t + 5 * slotDur r) rs

/-- The start of a port's next slot: in the live heat or, across an activation, in the armed heat; before the base heat's
activation, in the base heat (R224). -/
def State.nextSlot (s : State) (p : Nat) : Option Nat :=
  let live := (heatRecords s.heats.live).getD []
  match s.heats.waitingRun with
  | some h => s.firstSlot p h.a live
  | none =>
    let own := s.firstSlot p s.heats.boundary (live.drop s.heats.slot ++ live)
    match s.heats.armed with
    | some h =>
      let new := s.firstSlot p h.a ((heatRecords s.heats.next).getD [])
      match own with
      | some t => if t < h.a then own else new
      | none => new
    | none => own

/-- PORT_PARK: outside its own slots, a port whose next slot begins more than 100 us later is parked (R224). -/
def State.portPark (s : State) (p : Nat) : State :=
  let far := match s.nextSlot p with
    | some t => decide (s.time.net + 100000 < t)
    | none => true
  if s.portOpen p && s.flag F.lsvCtrlParkEn && !usesPort s.slotPerm p && far then s.park p else s

def execPortPark (port : Fin 68) (s : State) : Out := .next (s.portPark port.val)

/-- Whether a port is unparked by R224: IN_SERVICE, or the spare of a swap that takes effect at the activation to come. -/
def State.unparks (s : State) (p : Nat) : Bool :=
  let sp := p - 64
  let coming := match s.heats.armed with
    | some h => h.swaps.contains sp
    | none => s.heats.waitingRun.isSome
  s.fld (F.portState p) == inService
    || (decide (64 ≤ p) && s.fld (F.portState p) == standbyPort && s.fld (F.ladSwapState sp) == 1 && s.flag (F.ladSwapEn sp) && coming)

/-- PORT_UNPARK: ready 20 us before its next slot; not ready when its slot begins, it stays parked, sends fill, and UNPARK is
raised (R224, R340). With PARK_EN = 0 an IN_SERVICE port is unparked at once in RUN. -/
def State.portUnpark (s : State) (p : Nat) (ready : Bool) : State :=
  if !s.unparks p ∨ !s.flag (F.portParked p) ∨ (s.dev ≠ 2 ∧ s.heats.waitingRun.isNone) then s
  else if !s.flag F.lsvCtrlParkEn && s.dev == 2 && ready then s.setFld (F.portParked p) 0
  else match s.nextSlot p with
    | some t =>
      if ready then (s.untilNet (t - 20000)).setFld (F.portParked p) 0
      else (s.untilNet t).raise 0x304 2 0 (word p)
    | none => s

def execPortUnpark (port : Fin 68) (ready : Bool) (s : State) : Out := .next (s.portUnpark port.val ready)

end Sys2Proof.Machine
end

