-- ==== Sys2Proof/Machine/Faults.lean ====
section
/-!
DEFINITION. Fault status and ERR_N (R333-R337), the collector's own sources (R340), and the thermal monitor: channels,
throttling and shutdown (R342-R346).
-/
namespace Sys2Proof.Machine

/-! ## ERR_N and status -/

/-- Whether some status bit is set in a class whose action in its group has ERR = 1 (R334). -/
def State.errStatus (s : State) : Bool :=
  (List.range 96).any (fun n => [1, 2, 3, 4].any (fun k => s.flag (F.fltStat n k) && (s.fld (F.fltAct n k)).testBit 0))

/-- Whether ERR_N stays low after a pulse (R334). -/
def State.errHeld (s : State) : Bool := s.flag F.fltErrHoldLow || (s.flag F.fltErrHoldAuto && s.errStatus)

/-- With no pulse running, ERR_N is released unless it is held (R334). -/
def State.errSettle (s : State) : State :=
  if s.faults.pulseEnd.isNone && s.faults.errLow && !s.errHeld then { s with faults := { s.faults with errLow := false } } else s

/-- ERR_PULSE_END: the pulse ends 10 us after the latest raise that asked for it (R334). -/
def execErrPulseEnd (s : State) : Out :=
  .next (match s.faults.pulseEnd with
    | some t =>
      let s1 := s.untilNow t
      ({ s1 with faults := { s1.faults with pulseEnd := none } }).errSettle
    | none => s)

/-- One status bit cleared: it no longer keeps RECOVER (R335, R337). -/
def State.clearStat (s : State) (n k : Nat) : State :=
  let s1 := s.setFld (F.fltStat n k) 0
  { s1 with power := { s1.power with recover := s1.power.recover.filter (· ≠ (n, k)) } }

/-- Status bits of a group cleared; those with a standing condition set again, with a new record and the actions (R335). -/
def State.clearStatus (s : State) (n : Nat) (bits : BitVec 4) : State :=
  let ks := [1, 2, 3, 4].filter (fun k => bits.getLsbD (k - 1))
  let s1 := ks.foldl (fun (s : State) k => s.clearStat n k) s
  let again := s1.faults.standing.filter (fun c => c.source / 256 == n && ks.contains c.cls)
  (again.foldl (fun (s : State) c => s.raise c.source c.cls c.kind c.data) s1).errSettle

/-- FAULT_STATUS_CLEAR: bits STAT1 to STAT4 written 1 (R335). A shutdown that still stands keeps RECOVER (R346). -/
def State.thermalKeeps (s : State) : State :=
  if s.faults.standing.any (fun c => c.source == 0x410) && !s.power.recover.contains (4, 4) then
    { s with power := { s.power with recover := (4, 4) :: s.power.recover } }
  else s

def execFaultStatusClear (m : Master) (n : Fin 96) (bits : BitVec 4) (s : State) : Out :=
  .next (s.atReg m (R.fltSrc n.val) (fun s => ((s.clearStatus n.val bits).thermalKeeps).markDirty (R.fltSrc n.val)))

/-- RAIL_FAULT: a monitored rail out of range, a standing condition (R340). -/
def execRailFault (rail : Fin 6) (s : State) : Out :=
  .next (
    let s1 := { s with power := { s.power with badRails := rail.val :: s.power.badRails.filter (· ≠ rail.val) } }
    s1.raiseStanding 0x301 3 0 (word rail.val))

/-! ## The thermal monitor -/

/-- A reading as its channel's register shows it: 0x8000 when disabled or in fault (R342). -/
def tempCode (r : Option Int) : Nat :=
  match r with
  | some v => unsigned 16 v
  | none => 0x8000

/-- Whether a channel converts: a user channel whose TYPE is a diode or an NTC, and every other (Table 16.16). -/
def State.channelOn (s : State) (ch : Nat) : Bool :=
  decide (ch < 12) || s.fld (F.thmExtType (ch - 12)) == 1 || s.fld (F.thmExtType (ch - 12)) == 2

/-- The valid reading of a channel: none when off, open or shorted, or outside -40 to +150 degC (R343). -/
def State.validReading (s : State) (ch : Nat) (r : Option Int) : Option Int :=
  if s.channelOn ch then r.filter (fun v => decide (-640 ≤ v ∧ v ≤ 2400)) else none

/-- The data word of a channel's faults: the reading in [15:0], the channel in [19:16] (R343). -/
def thermWord (ch : Nat) (r : Option Int) : Word := word (tempCode r + ch * 65536)

/-- A standing condition that begins, lasts with its data word kept up to date, or ends. -/
def State.stand (s : State) (holds : Bool) (src cls : Nat) (data : Word) : State :=
  let was := s.faults.standing.any (fun c => c.source == src)
  if holds then
    (if was then
      { s with faults := { s.faults with standing := s.faults.standing.map (fun c => if c.source = src then { c with data := data } else c) } }
    else s.raiseStanding src cls 0 data)
  else if was then s.endStanding src else s

/-- One channel converted: its reading, its fault and its limit (R342, R343). -/
def State.thermChannel (s : State) (ch : Nat) (r : Option Int) : State :=
  let v := s.validReading ch r
  let s1 := s.setFld (F.thmChTemp ch) (tempCode v)
  let s2 := s1.stand (s1.channelOn ch && v.isNone) (0x420 + ch) 2 (thermWord ch v)
  let hot := match v with
    | some t => decide (signed 16 (s2.fld (F.thmChLimit ch)) ≤ t)
    | none => false
  s2.stand hot (0x400 + ch) 1 (thermWord ch v)

/-- The highest of the readings, with its channel; the lowest channel of equals (Table 16.14; log 87). -/
def hottest : List (Nat × Option Int) → Option (Nat × Int)
  | [] => none
  | (ch, r) :: rest =>
    match r, hottest rest with
    | some v, some (c, w) => if w ≤ v then some (ch, v) else some (c, w)
    | some v, none => some (ch, v)
    | none, h => h

/-- The readings of all channels as the registers show them. -/
def State.thermReadings (s : State) : List (Nat × Option Int) :=
  (List.range 16).map (fun ch =>
    let c := s.fld (F.thmChTemp ch)
    (ch, if c = 0x8000 then none else some (signed 16 c)))

/-- The admission rate of R345: 100 % with no valid reading selected (log 87). -/
def State.admitRate (s : State) : Nat :=
  let sel := s.thermReadings.filter (fun p => (s.fld F.thmThrMaskMask).testBit p.1)
  let knee := clampInt 640 1680 (signed 16 (s.fld F.thmCtrlKnee))
  let slope : Int := clampNat 0 100 (s.fld F.thmCtrlSlope)
  let floor : Int := clampNat 1 100 (s.fld F.thmCtrlFloor)
  let excess := match hottest sel with
    | some (_, t) => if knee < t then t - knee else 0
    | none => 0
  let rate := truncDiv (1600 - slope * excess) 16
  (if rate < floor then floor else rate).toNat

/-- Throttling after a conversion: its start and end are noted, and the meter starts full (R345). -/
def State.throttle (s : State) : State :=
  let old := s.fld F.thmStatusAdmit
  let new := s.admitRate
  let s1 := s.setFld F.thmStatusAdmit new
  if new < 100 then
    if old < 100 then s1
    else
      let s2 := { s1 with service := { s1.service with meter := some (4 * s1.meterGain) } }
      s2.raise 0x411 0 0 (word new)
  else if old < 100 then
    (({ s1 with service := { s1.service with meter := none } }).meterXoff).raise 0x411 0 0 (word new)
  else s1

/-- Thermal shutdown: a shakeout, an ERR_N pulse, a C4 fault, every fast clock stopped, the channel recorded, and RECOVER
(R346). -/
def State.shutdown (s : State) (ch : Nat) (t : Int) : State :=
  let s1 := (s.setFld F.thmStatusShutCh ch).latch .thermal
  let s2 := { s1 with power := { s1.power with fastClocks := false, ladleClock := false } }
  (s2.raiseStanding 0x410 4 0 (thermWord ch (some t))).thermalKeeps

/-- The shutdown level, and the level below which its cause ends, in 1/16 degC (R346). -/
abbrev shutLevel : Int := 1760
abbrev coolLevel : Int := 1600

/-- The readings of channels 0-11 against the shutdown level (R346). -/
def State.shutCheck (s : State) : State :=
  let own := s.thermReadings.filter (fun p => decide (p.1 < 12))
  let standing := s.faults.standing.any (fun c => c.source == 0x410)
  match List.find? (fun (p : Nat × Option Int) => match p.2 with
    | some t => decide (shutLevel ≤ t)
    | none => false) own with
  | some (ch, some t) => if standing then s else s.shutdown ch t
  | _ =>
    if standing && own.all (fun p => match p.2 with
      | some t => decide (t < coolLevel)
      | none => true) then s.endStanding 0x410
    else s

/-- THERMAL_CONVERSION: once every 1 ms (R342-R346, R126). -/
def State.thermal (s : State) (readings : List (Option Int)) : State :=
  let s0 := s.untilNow ((s.time.now / 1000000 + 1) * 1000000)
  let s1 := (List.range 16).foldl (fun (s : State) ch => s.thermChannel ch (readings.getD ch none)) s0
  let s2 := match hottest (s1.thermReadings.filter (fun p => decide (p.1 < 12))) with
    | some (ch, t) => (s1.setFld F.thmStatusMax (unsigned 16 t)).setFld F.thmStatusMaxCh ch
    | none => (s1.setFld F.thmStatusMax 0x8000).setFld F.thmStatusMaxCh 0
  s2.throttle.shutCheck.deltaTrigger

def execThermalConversion (readings : List (Option Int)) (s : State) : Out := .next (s.thermal readings)

end Sys2Proof.Machine
end

