-- ==== Sys2Proof/Machine/Heats.lean ====
section
/-!
DEFINITION. Heats (R147-R159): the next bank and its writer, commits and their validation, activation, cancellation, the
base heat, and the pour at a boundary; the schedule engine's epochs, demand and matching (R160-R166).
-/
namespace Sys2Proof.Machine

/-! ## Notes, times and the writer -/

/-- A note of source HEAT: KIND in [3:0] and the rest above it (R154). -/
def State.heatNote (s : State) (kind rest : Nat) : State := s.raise 0x601 0 kind (word (kind + 16 * rest))

/-- A time held in three registers: nanoseconds, seconds [31:0], seconds [47:32] (Tables 07.30, 07.32). -/
def State.timeIn (s : State) (r : Nat → Nat) : Nat :=
  (s.reg (r 0)).toNat + second * ((s.reg (r 1)).toNat + 2 ^ 32 * bitsOf (s.reg (r 2)) 15 0)

/-- The one writer of the next bank: PF0 with HEAT_SCHED.HOST = 1, the schedule cores otherwise (R150). -/
def State.heatWriter (s : State) (m : Master) : Bool :=
  if s.flag F.heatSchedHost then decide (unitOf m = mPF0) else decide (72 ≤ unitOf m ∧ unitOf m ≤ 79)

/-- Whether the next bank may be written: STATE is EMPTY or REJECTED (R150). -/
def State.bankOpen (s : State) : Bool :=
  s.fld F.heatNextStatusState == heatEmpty || s.fld F.heatNextStatusState == heatRejected

/-- HEAT_LEAD and CTRL within their ranges, us; HEAT_MEET_MAX, ms (Tables 07.24, 07.28). -/
def State.leadUs (s : State) : Nat := clampNat 100 65535 (s.fld F.heatTimingLead)
def State.ctrlUs (s : State) : Nat := clampNat 90 10000 (s.fld F.heatTimingCtrl)
def State.meetMs (s : State) : Nat := clampNat 1 60000 (s.fld F.heatMeetMaxMs)

/-- The fields of a slot record; its RSVD bits read zero (R5, Table 07.4). -/
abbrev slotMask : BitVec 64 := 0x000007FFFFFF1FFF

/-- A slot record written into the next bank. -/
def State.putRecord (s : State) (i : Nat) (v : BitVec 64) : State :=
  { s with heats := { s.heats with next := s.heats.next.set (fun _ => 0) i (v &&& slotMask) } }

/-- A write of a record by a master, through BAR2 or by HWR (R150). -/
def State.bankWrite (s : State) (m : Master) (a : Access) (i : Nat) (v : BitVec 64) : State :=
  if s.heatWriter m && s.bankOpen then s.putRecord i v else s.refuse a kRefused

/-- A write to the next bank as an access: through BAR2, or at its core address (Tables 11.16, 13.3). -/
def bankAccess (m : Master) (i : Nat) : Access :=
  if unitOf m < 82 then { master := m, space := 3, addr := 0x28008000 + 8 * i, size := 8, write := true }
  else { master := m, space := 1, addr := 0x2108000 + 8 * i, size := 8, write := true }

/-- HEAT_BANK_WRITE (R150, R288): PF1 may write no window. -/
def execHeatBankWrite (m : Master) (rec : Fin 4096) (v : BitVec 64) (s : State) : Out :=
  .next (if !s.answers m then s
    else if unitOf m = mPF1 then (s.hostWaits m).refuse (bankAccess m rec.val) kPriv
    else (s.hostWaits m).bankWrite m (bankAccess m rec.val) rec.val v)

/-! ## Commit and validation (R151-R153) -/

/-- The reasons of Table 07.6. -/
abbrev vState : Nat := 1
abbrev vBusy : Nat := 2
abbrev vNoEnd : Nat := 3
abbrev vGuard : Nat := 4
abbrev vDuration : Nat := 5
abbrev vCycle : Nat := 6
abbrev vMould : Nat := 7
abbrev vAlign : Nat := 8
abbrev vLead : Nat := 9
abbrev vReach : Nat := 10
abbrev vNoMeet : Nat := 11

/-- The least duration of a slot under a guard, in 5 ns units (R148). -/
def leastDur (guard : Nat) : Nat := if guard + 256 < 320 then 320 else guard + 256

/-- Whether a ladle port is in service for a heat committed with these swaps ARMED: the spare of a swap is, the port it
replaces is not; a return the other way round (R192, R197, R198). -/
def State.servesFor (s : State) (swaps : List Nat) (p : Nat) : Bool :=
  let own := s.fld (F.portState p) == inService
  swaps.foldl (fun b sp =>
    if p = 64 + sp then s.flag (F.ladSwapEn sp) else if p = s.fld (F.ladSwapFrom sp) then !s.flag (F.ladSwapEn sp) else b) own

/-- The longest time round the cycle from the end of a qualifying slot to the start of the next, in 5 ns units: slots as
(qualifies, duration), the time before the first qualifying slot, and the time since the latest (R152). -/
def gapGo : List (Bool × Nat) → Option Nat → Nat → Nat → Option Nat
  | [], none, _, _ => none
  | [], some first, since, most => some (if most < first + since then first + since else most)
  | (true, _) :: xs, none, since, most => gapGo xs (some since) 0 most
  | (true, _) :: xs, some first, since, most => gapGo xs (some first) 0 (if most < since then since else most)
  | (false, d) :: xs, first, since, most => gapGo xs first (since + d) most

/-- Whether a direction of a port keeps control reach (R152). -/
def reaches (xs : List (Bool × Nat)) (ctrl : Nat) : Bool :=
  match gapGo xs none 0 0 with
  | some g => decide (5 * g ≤ 1000 * ctrl)
  | none => false

/-- The slots of a heat for a port and a direction: whether each qualifies, and its duration (R152). -/
def State.reachSlots (s : State) (ports : List Nat) (rs : List (BitVec 64)) (i : Nat) (out : Bool) : List (Bool × Nat) :=
  rs.map (fun r =>
    let perm := (s.mould (slotMould r)).perm
    let meets := if out then ports.any (fun p => perm.getD i unassigned == 512 + p)
      else ports.any (fun p => perm.getD (512 + p) unassigned == i)
    (slotLadle r && meets, slotDur r))

/-- The lowest external port that lacks control reach, and whether it is OUT that it lacks (R152). -/
def State.reachFails (s : State) (swaps : List Nat) (rs : List (BitVec 64)) (ctrl : Nat) : Option (Nat × Bool) :=
  let ports := (List.range 68).filter (s.servesFor swaps)
  (List.range 512).findSome? (fun i =>
    if !reaches (s.reachSlots ports rs i false) ctrl then some (i, false)
    else if !reaches (s.reachSlots ports rs i true) ctrl then some (i, true)
    else none)

/-- The least n from a start, within a number of tries, whose instant S + n C lies on a cycle boundary of the live heat
(R153). -/
def meetGo (base c p l : Nat) : Nat → Nat → Option Nat
  | 0, _ => none
  | k + 1, n => if (base + n * c - p) % l = 0 then some n else meetGo base c p l k (n + 1)

/-- The activation instant and n of R153: commit edge, cycle of the new heat and of the live one, all in ns. -/
def State.meet (s : State) (edge cnew p l : Nat) : Option (Nat × Nat) :=
  let earliest := edge + 1000 * s.leadUs
  if s.flag F.heatNextCfgAsap then some (p + ceilDiv (earliest - p) l * l, 0)
  else
    let base := s.timeIn R.heatNextBase
    let n0 := ceilDiv (earliest - base) cnew
    let last := edge + 1000000 * s.meetMs
    if last < base + n0 * cnew then none
    else (meetGo base cnew p l ((last - (base + n0 * cnew)) / cnew + 1) n0).map (fun n => (base + n * cnew, n))

/-- The pairs (i, j) of external ports, i /= j, that some slot connects (R164). -/
def State.directPairs (s : State) (rs : List (BitVec 64)) : List (Nat × Nat) :=
  (rs.flatMap (fun r =>
    let perm := (s.mould (slotMould r)).perm
    (List.range 512).filterMap (fun j =>
      let i := perm.getD j unassigned
      if i < 512 ∧ i ≠ j then some (i, j) else none))).eraseDups

/-- Why a committed heat is rejected, the first of Table 07.6 that applies, with INDEX and DIR; or its slots, activation
instant and n. -/
def State.validate (s : State) (c : Commit) : (Nat × Nat × Bool) ⊕ (List (BitVec 64) × Nat × Nat) :=
  let fail := fun (r : Nat) => Sum.inl (r, 0, false)
  let guard := s.fld F.heatNextCfgGuard
  if s.dev ≠ 2 ∨ s.power.drain.isSome then fail vState
  else match heatRecords s.heats.next, s.heats.now with
    | none, _ => fail vNoEnd
    | some _, none => fail vState
    | some rs, some live =>
      let cycle := (rs.map slotDur).sum
      let indexOf := fun (bad : BitVec 64 → Bool) => (rs.map bad).idxOf true
      let short := fun r => decide (slotDur r < leastDur guard)
      let void := fun r => !(s.mould (slotMould r)).valid
      let ns := (s.reg (R.heatNextBase 0)).toNat
      if guard < 40 ∨ 400 < guard then fail vGuard
      else if rs.any short then Sum.inl (vDuration, indexOf short, false)
      else if 200000000 < cycle then fail vCycle
      else if rs.any void then Sum.inl (vMould, indexOf void, false)
      else if !s.flag F.heatNextCfgAsap ∧ (second ≤ ns ∨ ns % 5 ≠ 0) then fail vAlign
      else if s.leadUs < c.ctrl + 100 then fail vLead
      else match s.reachFails c.swaps rs c.ctrl with
        | some (i, out) => Sum.inl (vReach, i, out)
        | none =>
          match s.meet c.edge (5 * cycle) live.a (5 * live.cycle) with
          | some (a, n) => Sum.inr (rs, a, n)
          | none => fail vNoMeet

/-- The state of HEAT_NEXT_STATUS set, its other fields cleared. -/
def State.nextState (s : State) (st : Nat) : State := (s.setReg R.heatNextStatus 0).setFld F.heatNextStatusState st

/-- Service HEAT_COMMIT returns to every core that waits in it: g1 = HEAT_NEXT_STATUS, C = 1 for a heat ARMED (R257). -/
def State.commitReturns (s : State) (ok : Bool) : State :=
  { s with cores := s.cores.mapAll (fun _ => Core.zero) (fun _ c =>
      if c.commits then
        { c with commits := false, c := ok, g := c.g.set (fun _ => 0) 1 (s.reg R.heatNextStatus),
                 pc := c.epc + 4, user := c.prevUser, inTrap := false }
      else c) }

/-- REJECTED, with its note (R151, R154). -/
def State.heatReject (s : State) (reason index : Nat) (out : Bool) : State :=
  let s1 := (((s.nextState heatRejected).setFld F.heatNextStatusReason reason).setFld F.heatNextStatusIndex index).setFld
    F.heatNextStatusDir (b2n out)
  (s1.commitReturns false).heatNote 2 (reason + index * 16 + b2n out * 2 ^ 17)

/-- ARMED: the activation instant stands in HEAT_ACTn, n in HEAT_LATE_N, and with ASAP the instant in HEAT_NEXT_BASEn; a late
start is noted, and a notice is handed over for every line card (R151, R153, R154, R164, R165). -/
def State.heatArm (s : State) (c : Commit) (rs : List (BitVec 64)) (a n : Nat) : State :=
  let h : Heat := { a := a, cycle := (rs.map slotDur).sum, guard := s.fld F.heatNextCfgGuard, dclass := s.fld F.heatNextCfgDclass,
                    ctrl := c.ctrl, serial := s.reg R.heatLiveSerial + 1, direct := s.directPairs rs, n := rs.length,
                    base := false, swaps := c.swaps }
  let s1 := (s.nextState heatArmed).setReg R.heatLateN (word n)
  let s2 := if s1.flag F.heatNextCfgAsap then s1.latchTime R.heatNextBase a else s1
  let s3 := { s2 with heats := { s2.heats with armed := some h } }
  let s4 := if n = 0 then s3 else s3.heatNote 3 (if 0x0FFFFFFF < n then 0x0FFFFFFF else n)
  (s4.notifyAll h rs false).commitReturns true

/-- HEAT_VALIDATED: the checks of Table 07.6 in order (R151). -/
def State.heatValidated (s : State) : State :=
  match s.heats.commit with
  | none => s
  | some c =>
    let s1 := { s with heats := { s.heats with commit := none } }
    match s1.validate c with
    | .inl (reason, index, out) => s1.heatReject reason index out
    | .inr (rs, a, n) => s1.heatArm c rs a n

def execHeatValidated (s : State) : Out := .next s.heatValidated

/-! ## Cancellation (R156, R157) -/

/-- An ARMED heat cancelled: its serial goes to the next heat, its acceptances lapse, and every line card is told (R156). -/
def State.cancelArmed (s : State) (cause : Nat) : State :=
  match s.heats.armed with
  | none => s
  | some h =>
    let s1 := s.nextState heatEmpty
    let s2 := { s1 with heats := { s1.heats with armed := none } }
    ((s2.forgetSerial h.serial).notifyAll h [] true).heatNote 4 cause

/-- Whether an ARMED heat can still be cancelled: before A - 10 us (R156). -/
def State.cancelInTime (s : State) : Bool :=
  match s.heats.armed with
  | some h => decide (s.time.net + 10000 < h.a)
  | none => false

/-- In time, an ARMED heat returns to EMPTY; too late, CANCEL is discarded and logged; in any other state it has no effect
(R150, R156). -/
def State.cancelBy (s : State) (m : Master) : State :=
  if !s.heatWriter m then s.refuseReg m R.heatCommit
  else if s.heats.armed.isNone then s
  else if s.cancelInTime then s.cancelArmed 1
  else s.refuseReg m R.heatCommit

/-- HEAT_CANCEL: a write of CANCEL. -/
def execHeatCancel (m : Master) (s : State) : Out :=
  .next (s.atReg m R.heatCommit (fun s => s.cancelBy m))

/-! ## Activation and the base heat (R155, R158, R159) -/

/-- The swaps of a heat take effect at its activation (R197, R198). -/
def State.takeSwaps (s : State) (sps : List Nat) : State := sps.foldl State.swapTakes s

/-- At A the next bank becomes live and the old live bank the next, with STATE EMPTY; serial, tags and lane modes change, and
ACTIVATED is noted (R149, R154, R155, R164). -/
def State.activate (s : State) (h : Heat) : State :=
  let s1 := (s.nextState heatEmpty).setReg R.heatLiveSerial h.serial
  let s2 := { s1 with heats := { s1.heats with
    live := s1.heats.next, next := s1.heats.live, armed := none, prev := s1.heats.now, now := some h, slot := 0,
    boundary := h.a, act := h.a } }
  ((s2.ladleActivate h).takeSwaps h.swaps).heatNote 1 (h.serial.toNat % 65536)

/-- HEAT_ACTIVATE: at A, which is a boundary of the live heat. -/
def execHeatActivate (s : State) : Out :=
  .next (match s.heats.armed with
    | some h => (s.untilNet h.a).activate h
    | none => s)

/-- The records of the base heat (Table 07.8). -/
def baseRecords : List (BitVec 64) :=
  (List.range 8).map (fun k =>
    BitVec.ofNat 64 (k + 1 + 2560 * 2 ^ 16 + 2 ^ 40 + 2 ^ 41 + (if k = 7 then 2 ^ 42 else 0)))

/-- The base heat at an instant: cycle 102.4 us, guard 320 ns, every lane LADLE (R158). -/
def baseHeat (a : Nat) (serial : Word) : Heat :=
  { a := a, cycle := 20480, guard := 64, dclass := 0, ctrl := 100, serial := serial, direct := [], n := 8, base := true, swaps := [] }

/-- The serial of the next base heat: 0 for the first since VKEEP rose (R149). -/
def State.baseSerial (s : State) : Word := if s.heats.fresh then 0 else s.reg R.heatLiveSerial + 1

/-- The start of the base heat planned at a request for RUN: the first instant S + n x 102.4 us at least 10 ms after edge q;
its records stand in the bank that becomes live (R159). -/
def State.planBase (s : State) (q : Nat) : State :=
  let base := s.timeIn R.heatRunBase
  let n := ceilDiv (q + 10000000 - base) 102400
  let a := base + n * 102400
  let s1 := s.setReg R.heatLateN (word n)
  let bank := (List.range 8).foldl (fun (b : SMap (BitVec 64)) i => b.set (fun _ => 0) i (baseRecords.getD i 0)) ([] : SMap (BitVec 64))
  let s2 := { s1 with heats := { s1.heats with live := bank, waitingRun := some (baseHeat a s.baseSerial) } }
  if n = 0 then s2 else s2.heatNote 3 (if 0x0FFFFFFF < n then 0x0FFFFFFF else n)

/-- At A the base heat is live: DEV becomes RUN, FABRIC HEAT, and HEAT_RUN_BASE2.SET clears; swaps armed in HOLD take effect
(R159, R197). -/
def State.startBase (s : State) (h : Heat) : State :=
  let armed := (List.range 4).filter (fun sp => s.fld (F.ladSwapState sp) == 1)
  let s1 := s.withNotes (fun s =>
    (((s.setFld F.glbStateDev 2).setFld F.glbStateFabric 2).setFld F.glbStateTrans 0).setFld F.glbStateTarget 0)
  let s2 := (s1.setFld F.heatRunBase2Set 0).setReg R.heatLiveSerial h.serial
  let s3 := { s2 with heats := { s2.heats with
    waitingRun := none, now := some h, prev := none, slot := 0, boundary := h.a, act := h.a, cur := none, baseWritten := [], fresh := false } }
  ((s3.ladleEnterRun).takeSwaps armed).heatNote 1 (h.serial.toNat % 65536)

/-- BASE_HEAT_START. -/
def execBaseHeatStart (s : State) : Out :=
  .next (match s.heats.waitingRun with
    | some h => if s.power.shake.isSome then s else (s.untilNet h.a).startBase h
    | none => s)

/-! ## A commit (R150, R151) and the pour at a boundary (R59, R155) -/

/-- A heat that activates at this boundary is live when its first slot is poured. -/
def State.activateDue (s : State) (t : Nat) : State :=
  match s.heats.waitingRun, s.heats.armed with
  | some h, _ => if h.a ≤ t then s.startBase h else s
  | none, some h => if h.a ≤ t then s.activate h else s
  | none, none => s

/-- A GO taken. At the edge of A it comes after the activation (Table 07.7). It is refused with BUSY while a heat is being
validated or armed, and a schedule core's decomposition is then abandoned (R166); otherwise STATE becomes VALIDATING, the swaps
ARMED now and CTRL count for this heat, and a schedule core's decomposition ends with its commit (R150, R151, R197, Table
07.24). -/
def State.heatGo (s0 : State) (host : Bool) : State :=
  let edge := ceilDiv s0.time.net 5 * 5
  let s := if s0.heats.armed.isSome then s0.activateDue edge else s0
  if s.fld F.heatNextStatusState = heatValidating ∨ s.fld F.heatNextStatusState = heatArmed then
    let s1 := s.heatNote 2 vBusy
    if host then s1 else s1.abandonDecomposition
  else
    let armed := (List.range 4).filter (fun sp => s.fld (F.ladSwapState sp) == 1)
    let s1 := (s.setReg R.heatNextStatus 0).setFld F.heatNextStatusState heatValidating
    { s1 with heats := { s1.heats with
        commit := some { edge := edge, host := host, swaps := armed, ctrl := s.ctrlUs }
        decomposing := s1.heats.decomposing && host, decomp := if host then s1.heats.decomp else none } }

/-- GO from the selected writer is taken in every state; from any other master it is discarded and logged (R150). -/
def State.commitBy (s : State) (m : Master) : State :=
  if s.heatWriter m then s.heatGo (unitOf m == mPF0) else s.refuseReg m R.heatCommit

/-- HEAT_COMMIT: a write of GO. -/
def execHeatCommit (m : Master) (s : State) : Out :=
  .next (s.atReg m R.heatCommit (fun s => s.commitBy m))

/-! ## The schedule engine (R160-R166) -/

/-- The next epoch boundary after the present instant, and whether it is a whole second (R160). -/
def State.nextEpoch (s : State) : Nat × Bool :=
  let len := 1000 * s.heats.epochLen
  let sec := s.time.net / second * second
  let t := sec + (s.time.net % second / len + 1) * len
  if sec + second ≤ t then (sec + second, true) else (t, false)

/-- The ladle unicast queues' depth towards each port, in bytes of cells (Table 07.9; log 21). -/
def State.ladleDemand (s : State) : List (Nat × Nat) :=
  (List.range 512).filterMap (fun j =>
    let n := ((s.ladle.queues.filter (fun (p : Nat × Queue) => p.1 / 32 == j)).map (fun p => s.queueDepth p.1)).sum
    if n = 0 then none else some (demandKey 512 j, 256 * n))

/-- The heavy flows' bytes by their ports (Table 07.9). -/
def State.heavyDemand (s : State) : List (Nat × Nat) :=
  s.heats.heavy.map (fun f => (demandKey (s.flow f).src (s.flow f).dst, 64 * (s.flow f).bytes))

/-- The demand of an epoch frozen, and a fresh gathering begun (R160, R161). -/
def State.freezeDemand (s : State) (t : Nat) (whole : Bool) : State :=
  let d := (s.ladleDemand ++ s.heavyDemand).foldl
    (fun (m : SMap Nat) p => m.modify (fun _ => 0) p.1 (· + p.2)) s.heats.gather
  { s with heats := { s.heats with
    epochs := s.heats.epochs + 1, epochAt := t
    epochLen := if whole then s.fld F.heatSchedEpoch else s.heats.epochLen
    frozen := d, gather := [], frozenHeavy := s.heats.heavy, heavy := []
    decomposing := decide (s.dev = 2) && !s.flag F.heatSchedHost && (s.fld F.glbBootOk).testBit 2 } }

/-- A policy bank that waited for an epoch boundary runs from here (Table 12.8). -/
def State.policyRuns (s : State) : State :=
  { s with cores := s.cores.mapAll (fun _ => Core.zero) (fun _ c => { c with policyWaits := false }) }

/-- A write of HEAT_SCHED whose EPOCH is none of 100 to 100,000 that divide 1,000,000 is discarded (Table 07.26). -/
def epochOk (e : Nat) : Bool := decide (100 ≤ e ∧ e ≤ 100000) && 1000000 % e == 0

/-! ### Matching (R162, R256) -/

/-- A possible match: input, output and weight. -/
structure Edge where
  i : Nat
  j : Nat
  w : Nat
deriving DecidableEq, Repr

/-- One of several candidates, by the unit's own choice. -/
def pickOne (k : Nat) (l : List Nat) : Option Nat := l[Config.matchPick k l.length % l.length]?

/-- One request-grant-accept round: every unmatched input requests its heaviest unmatched outputs, each output grants one
request, and each input accepts one grant (R162). -/
def matchRound (k : Nat) (edges : List Edge) (made : List (Nat × Nat)) : List (Nat × Nat) :=
  let open' := edges.filter (fun e => !made.any (fun p => p.1 == e.i || p.2 == e.j))
  let reqs := open'.filter (fun e => open'.all (fun x => x.i != e.i || decide (x.w ≤ e.w)))
  let grants := (reqs.map Edge.j).eraseDups.filterMap (fun j =>
    (pickOne (k + j) ((reqs.filter (fun e => e.j == j)).map Edge.i)).map (fun i => (i, j)))
  let accepts := (grants.map Prod.fst).eraseDups.filterMap (fun i =>
    (pickOne (k + 592 + i) ((grants.filter (fun g => g.1 == i)).map Prod.snd)).map (fun j => (i, j)))
  made ++ accepts

/-- A number of rounds. -/
def matchRounds (k : Nat) (edges : List Edge) : Nat → List (Nat × Nat) → List (Nat × Nat)
  | 0, made => made
  | n + 1, made => matchRounds (k + 1184) edges n (matchRound k edges made)

/-- The bytes of shared SRAM listed from an offset: their places there. -/
def sramSlice (m : SMap Byte) (base n : Nat) : List (Nat × Byte) :=
  m.filterMap (fun p => if base ≤ p.1 ∧ p.1 < base + n then some (p.1 - base, p.2) else none)

/-- The pairs of non-zero weight, a mask bit taking its input or output out (R162, Table 11.17). -/
def edgesFrom (weights : List (Nat × Byte)) (mask : List (Nat × Byte)) : List Edge :=
  let ws := weights.foldl (fun (m : SMap Nat) p => m.modify (fun _ => 0) (p.1 / 2) (· + p.2.toNat * 256 ^ (p.1 % 2))) ([] : SMap Nat)
  let out := fun (b : Nat) => mask.any (fun p => p.1 == b / 8 && p.2.getLsbD (b % 8))
  ws.filterMap (fun p =>
    let i := p.1 / ports
    let j := p.1 % ports
    if p.2 = 0 ∨ out i ∨ out (592 + j) then none else some { i := i, j := j, w := p.2 })

/-- A result in the format of a compile request: 592 ten-bit values and 28 bytes of zero (R50, R162). -/
def packRequest (as : List Nat) : List Word :=
  let n := as.foldr (fun a v => a + 1024 * v) 0
  (List.range 192).map (fun i => BitVec.ofNat 32 (n / 2 ^ (32 * i)))

/-- The offset in shared SRAM of an address whose n bytes lie there (Table 11.16). -/
def sramOffset (a : Word) (n : Nat) : Option Nat :=
  if 0x10000000 ≤ a.toNat ∧ a.toNat + n ≤ 0x11000000 then some (a.toNat - 0x10000000) else none

/-- MATCH_COMPLETE: the command that has waited longest: its result and status word are written and its core is told; an
address outside shared SRAM is ERR (R162, R256, Table 11.17). -/
def State.matchDone (s : State) (id desc : Nat) : State :=
  let d : Die := if id < 128 then .cope else .drag
  let w := fun k => s.getWord sramUnit d (desc + 4 * k)
  let finish := fun (s : State) (err : Nat) =>
    (s.storeWord sramUnit d (desc + 12) (w 3 ||| word (0x80000000 + err * 0x40000000))).accelDone id
  match sramOffset (w 0) 700928, sramOffset (w 1) 160, sramOffset (w 2) 768 with
  | some a, some b, some r =>
    let at' := fun (x : Nat) => x + 16777216 * d.code
    let edges := edgesFrom (sramSlice s.bus.sram (at' a) 700928) (sramSlice s.bus.sram (at' b) 160)
    let n := bitsOf (w 3) 3 0
    let (x, s1) := s.freeNat
    let made := matchRounds s.free edges (if 1 ≤ n ∧ n ≤ 8 then n else 1 + x % 8) []
    let result := (List.range ports).map (fun j => match List.find? (fun (p : Nat × Nat) => p.2 == j) made with
      | some p => p.1
      | none => unassigned)
    let ws := packRequest result
    let s2 := (List.range 192).foldl (fun (s : State) i => s.storeWord sramUnit d (r + 4 * i) (ws.getD i 0)) s1
    finish s2 0
  | _, _, _ => finish s 1

end Sys2Proof.Machine
end

