-- ==== Sys2Proof/Machine/Policy.lean ====
section
/-!
DEFINITION. The schedule engine at work (R160-R166): the epoch boundary, the firmware library's default policy, which builds a
heat slot by slot with the matching unit and the mould router (R163), and the completion of their commands.
-/
namespace Sys2Proof.Machine

/-! ## A decomposition begun -/

/-- The demand frozen at an epoch boundary, restricted to the external ports and scaled to 16 bits by the least unit that does it;
a demand that is not zero stays so (R163; log 114). -/
def beginWeights (d : SMap Nat) : SMap Nat × Nat :=
  let e := d.filter (fun p => decide (p.1 / ports < 512 ∧ p.1 % ports < 512 ∧ p.2 ≠ 0))
  let top := e.foldl (fun n p => if n < p.2 then p.2 else n) 0
  let unit := if top ≤ 65535 then 1 else ceilDiv top 65535
  (e.map (fun p => (p.1, ceilDiv p.2 unit)), unit)

/-- Whether the POLICY image in force is the default policy (R163, R352; log 114). -/
def State.defaultPolicy (s : State) : Bool := Config.defaultPolicy (s.fld (F.jobImgBState 2) == 2)

/-- The default policy's next command for the matching unit (R162, R163). -/
def State.askMatch (s : State) (d : Decomp) : State :=
  { s with heats := { s.heats with decomp := some d, matching := s.heats.matching ++ [.policy] } }

/-- The decomposition of an epoch begun, where the default policy runs (R163). -/
def State.decompose (s : State) : State :=
  if s.heats.decomposing && s.defaultPolicy then
    let (w, u) := beginWeights s.heats.frozen
    s.askMatch { weights := w, unit := u, slots := [], pairs := [], target := 0 }
  else s

/-- EPOCH_BOUNDARY: a decomposition not committed by then is abandoned; demand and the heavy list are frozen and gathered afresh, a
policy that waits is switched on, and the schedule cores are woken (R160, R161, R166, Table 12.8). The policy begins a
decomposition at each boundary in RUN while HOST = 0 and a POLICY image runs (R352; log 21). -/
def State.epoch (s : State) : State :=
  let e := s.nextEpoch
  let s1 := s.untilNet e.1
  let s2 := if s1.flag F.heatSchedHost then s1 else s1.abandonDecomposition
  let s3 := (s2.freezeDemand e.1 e.2).policyRuns
  ((List.range 8).foldl (fun (s : State) k => s.pend (s.activeId (72 + k)) 2) s3).decompose

def execEpochBoundary (s : State) : Out := .next s.epoch

/-! ## One slot (R163) -/

/-- The group of 64 ports that meets the ladle in the slot in hand. -/
def Decomp.group (d : Decomp) : Nat := d.slots.length % 8

/-- The pairs the matching unit may match: weights that are left, the slot's group out (R162, R163). -/
def Decomp.edges (d : Decomp) : List Edge :=
  d.weights.filterMap (fun p =>
    let i := p.1 / ports
    let j := p.1 % ports
    if p.2 = 0 ∨ i / 64 = d.group ∨ j / 64 = d.group then none else some { i := i, j := j, w := p.2 })

/-- The connections of a slot: those of the base slot of its group, and the pairs (Table 07.8). -/
def Decomp.assign (d : Decomp) : List Nat :=
  let base := reservedAssign (d.group + 1)
  (List.range ports).map (fun o =>
    if base.getD o unassigned ≠ unassigned then base.getD o unassigned
    else match d.pairs.find? (fun p => p.2 == o) with
      | some p => p.1
      | none => unassigned)

/-- The first mould of a number that is not in use and not of this heat, looked for round the indices 9 to 8,191. -/
def State.freeMould (s : State) (used : List Nat) (start : Nat) : Nat → Option Nat
  | 0 => none
  | n + 1 =>
    let m := 9 + start % 8183
    if s.inUse m ∨ used.contains m then s.freeMould used (start + 1) n else some m

/-- The moulds that the policy has taken for a decomposition or a repair in progress. -/
def State.policyTaken (s : State) : List Nat :=
  (match s.heats.decomp with
    | some d => d.target :: d.slots.map Prod.fst
    | none => []) ++
  (match s.heats.repair with
    | some r => r.target :: r.made.map Prod.snd
    | none => [])

/-- The matching unit's answer: four rounds make the pairs of the slot, and their mould is asked of the router (R163). -/
def State.policyMatched (s : State) : State :=
  match s.heats.decomp with
  | none => s
  | some d =>
    let (_, s1) := s.freeNat
    let d1 := { d with pairs := matchRounds s.free d.edges 4 [] }
    match s.freeMould s.policyTaken (Config.policyMould s.heats.epochs d.slots.length) 8183 with
    | none => s1
    | some m =>
      let (tag, s2) := s1.freeWord
      let d2 := { d1 with target := m }
      ({ s2 with heats := { s2.heats with decomp := some d2 } }).request
        { who := .policy, target := m, base := none, assign := d2.assign, tag := tag, desc := 0 }

/-- The smallest weight among the pairs of the slot in hand. -/
def Decomp.smallest (d : Decomp) : Nat :=
  let ws := d.pairs.map (fun p => d.weights.get (fun _ => 0) (demandKey p.1 p.2))
  ws.foldl (fun n w => if w < n then w else n) (ws.headD 0)

/-- The duration of the slot in hand, in 5 ns units: the time to move the smallest weight at 800 Gb/s, which is 500 bytes a unit,
within R148 (R163). -/
def Decomp.duration (d : Decomp) (guard : Nat) : Nat := clampNat (leastDur guard) 16777215 (ceilDiv (d.smallest * d.unit) 500)

/-- The slot in hand built: the bytes moved in its time leave the weights of its pairs (R163). -/
def Decomp.built (d : Decomp) (guard : Nat) : Decomp :=
  let t := d.duration guard
  let w := d.pairs.foldl (fun (w : SMap Nat) p => w.modify (fun _ => 0) (demandKey p.1 p.2) (· - 500 * t / d.unit)) d.weights
  { d with weights := w, slots := d.slots ++ [(d.target, t)], pairs := [] }

/-! ## The heat (R163) -/

/-- Whether durations keep control reach when slot s serves group s mod 8 in both directions (R152). -/
def keepsReach (ds : List Nat) (ctrl : Nat) : Bool :=
  (List.range 8).all (fun g => reaches (ds.zipIdx.map (fun p => (p.2 % 8 == g, p.1))) ctrl)

/-- The durations stretched or shortened so that R152 holds: as they are where it does, otherwise each at the policy's choice, but
none longer than a seventh of CTRL, the seven slots between two of a group (R163; log 114). -/
def fitted (ds : List Nat) (guard ctrl : Nat) : List Nat :=
  if keepsReach ds ctrl then ds
  else ds.zipIdx.map (fun p => clampNat (leastDur guard) (200 * ctrl / 7) (Config.policyDur p.2 p.1))

/-- The record of a slot: LADLE, PCHK where it was built for at least 12.8 us, END in the last (R163, Table 07.4). -/
def policyRecord (mould dur built : Nat) (last : Bool) : BitVec 64 :=
  BitVec.ofNat 64 (mould + dur * 2 ^ 16 + 2 ^ 40 + b2n (decide (2560 ≤ built)) * 2 ^ 41 + b2n last * 2 ^ 42)

/-- The heat written into the next bank, if that is open, and committed with ASAP by schedule core 0 (R150, R163; log 114). -/
def State.policyCommit (s : State) (d : Decomp) : State :=
  if s.flag F.heatSchedHost then s
  else if !s.bankOpen then s.heatGo false
  else
    let ts := fitted (d.slots.map Prod.snd) (s.fld F.heatNextCfgGuard) s.ctrlUs
    let s1 := d.slots.zipIdx.foldl (fun (s : State) p =>
      s.putRecord p.2 (policyRecord p.1.1 (ts.getD p.2 0) p.1.2 (p.2 + 1 == d.slots.length))) s
    (s1.setFld F.heatNextCfgAsap 1).heatGo false

/-- A mould of the policy's compiled: its slot is built, and the next is begun, or, after a slot with s mod 8 = 7 once the demand
is met or time runs short, and after 64 slots, the heat is committed. A decomposition whose mould is rejected goes no further,
and is abandoned at the next epoch boundary (R163, R166; log 114). -/
def State.policyCompiled (s : State) (target reason : Nat) : State :=
  match s.heats.decomp with
  | none => s
  | some d =>
    if d.target ≠ target ∨ reason ≠ 0 then s
    else
      let d1 := d.built (s.fld F.heatNextCfgGuard)
      let n := d1.slots.length
      if n % 8 = 0 ∧ (n = 64 ∨ d1.weights = [] ∨ Config.policyTimeShort s.heats.epochs n) then s.policyCommit d1 else s.askMatch d1

/-! ## The repair of the live heat (R199) -/

/-- Whether the policy repairs the live heat: in RUN with HOST = 0, where the default policy runs (R163, R199). -/
def State.policyRepairs (s : State) : Bool :=
  decide (s.dev = 2) && !s.flag F.heatSchedHost && (s.fld F.glbBootOk).testBit 2 && s.defaultPolicy && s.heats.now.isSome

/-- The FAILED ports that a swap ARMED replaces. -/
def State.swappedFailures (s : State) : List Nat :=
  (List.range 4).filterMap (fun sp =>
    let j := s.fld (F.ladSwapFrom sp)
    if s.fld (F.ladSwapState sp) = 1 ∧ s.flag (F.ladSwapEn sp) ∧ s.fld (F.portState j) = failedPort then some j else none)

/-- A core port before the exchanges of the swaps that serve, with which the moulds of the live heat were compiled (R197). -/
def State.unserved (s : State) (p : Nat) : Nat :=
  (List.range 4).foldl (fun p sp =>
    let j := 512 + s.fld (F.ladSwapFrom sp)
    let serves := s.fld (F.ladSwapState sp) == 2 || (s.fld (F.ladSwapState sp) == 1 && !s.flag (F.ladSwapEn sp))
    if serves then (if p = j then 576 + sp else if p = 576 + sp then j else p) else p) p

/-- The request that a mould of the live heat was compiled from, and its exchange of today comes on top of it (R197, R199). -/
def State.requestOf (s : State) (m : Nat) : List Nat :=
  (List.range ports).map (fun o => s.unserved ((s.mould m).perm.getD (s.unserved o) unassigned))

/-- The repaired heat written into the next bank, if that is open, and committed with ASAP (R150, R199). -/
def State.repairCommit (s0 : State) (r : Repair) : State :=
  let s := { s0 with heats := { s0.heats with repair := none } }
  if s.flag F.heatSchedHost then s
  else if !s.bankOpen then s.heatGo false
  else
    let put := fun (s : State) (p : BitVec 64 × Nat) =>
      let m := slotMould p.1
      let v := p.1 - BitVec.ofNat 64 m + BitVec.ofNat 64 (match r.made.find? (fun x => x.1 == m) with
        | some x => x.2
        | none => m)
      s.putRecord p.2 v
    ((r.records.zipIdx.foldl put s).setFld F.heatNextCfgAsap 1).heatGo false

/-- The next mould of a repair asked of the router, or its heat committed when there is none left (R199). -/
def State.repairNext (s : State) (r : Repair) : State :=
  match r.todo with
  | [] => s.repairCommit r
  | (m, as) :: _ =>
    match s.freeMould (s.policyTaken ++ r.made.map Prod.snd) (Config.policyMould s.heats.epochs m) 8183 with
    | none => { s with heats := { s.heats with repair := none } }
    | some t =>
      let (tag, s1) := s.freeWord
      ({ s1 with heats := { s1.heats with repair := some { r with target := t } } }).request
        { who := .policy, target := t, base := none, assign := as, tag := tag, desc := 0 }

/-- The repair begun: each mould of the live heat that connects an external port to a failed port now replaced is recompiled, with
the exchange, into a mould that is free (R199; log 114). -/
def State.beginRepair (s : State) : State :=
  let rs := (heatRecords s.heats.live).getD []
  let bad := s.swappedFailures
  let ms := (rs.map slotMould).eraseDups.filter (fun m => bad.any (usesPort (s.mould m).perm))
  if ms.isEmpty then s else s.repairNext { records := rs, todo := ms.map (fun m => (m, s.requestOf m)), made := [], target := 0 }

/-- A mould of the repair compiled; a rejected one ends the repair (R199; log 114). -/
def State.repairCompiled (s : State) (r : Repair) (reason : Nat) : State :=
  match r.todo with
  | (m, _) :: rest => if reason = 0 then s.repairNext { r with todo := rest, made := r.made ++ [(m, r.target)] }
    else { s with heats := { s.heats with repair := none } }
  | [] => s

/-- LADLE_PORT_FAIL: the ports fail, swaps are armed, and after an automatic swap the policy repairs the live heat (R199). -/
def execLadlePortFail (supply : Bool) (index : Fin 68) (s : State) : Out :=
  .next (
    let s1 := s.portFail supply index.val
    if s1.policyRepairs && s1.swappedFailures != s.swappedFailures then s1.beginRepair else s1)

/-! ## Completions -/

/-- A mould compiled for the policy: of its repair, or of its decomposition (R163, R199). -/
def State.policyDone (s : State) (target reason : Nat) : State :=
  match s.heats.repair with
  | some r => if r.target = target then s.repairCompiled r reason else s.policyCompiled target reason
  | none => s.policyCompiled target reason

/-- COMPILE_COMPLETE; the router runs on the core clock (Table 01.5). The default policy goes on with its slot (R163). -/
def execCompileComplete (s : State) : Out :=
  .next (if !s.power.fastClocks then s
    else match s.moulds.running with
      | some r => if r.who = .policy then (s.finishCompile r).policyDone r.target (s.rejection r) else s.finishCompile r
      | none => s)

/-- MATCH_COMPLETE: the command that has waited longest (R162). -/
def execMatchComplete (s : State) : Out :=
  .next (match s.heats.matching with
    | .core id desc :: rest => ({ s with heats := { s.heats with matching := rest } }).matchDone id desc
    | .policy :: rest => ({ s with heats := { s.heats with matching := rest } }).policyMatched
    | [] => s)

end Sys2Proof.Machine
end

