-- ==== Sys2Proof/Machine/StartUp.lean ====
section
/-!
DEFINITION. Reset kinds and boot (R347-R355), device and service state requests (R11-R17, R22), power-up calibration (R351),
the drain on leaving RUN (R19) and shakeout (R20).
-/
namespace Sys2Proof.Machine

/-! ## Reset (R347-R350) -/

/-- The image slot states and failure count that flash and the factory store keep (R349, R275). -/
def State.flashRegs (s : State) (from_ : State) : State :=
  [1, 2, 3].foldl (fun (s : State) k =>
    (s.setFld (F.jobImgAState (k - 1)) (from_.fld (F.jobImgAState (k - 1)))).setFld (F.jobImgBState (k - 1)) (from_.fld (F.jobImgBState (k - 1))))
    (s.setFld F.lockStatusFails (from_.fld F.lockStatusFails))

/-- Power-on: everything is lost but the images, OTP and the factory store; a lockout for the stored count restarts in full
(R349, R359). The queue of commands and the counter of free values are no part of the engine. -/
def State.poweredOn (s : State) : State :=
  let s1 := ({ State.reset with pending := s.pending, free := s.free }).flashRegs s
  if 3 ≤ s1.fld F.lockStatusFails then s1.startLockout else s1

/-- POWER_ON. -/
def execPowerOn (s : State) : Out := .next s.poweredOn

/-- A cold reset: everything outside the keeper domain is lost; network time, the timebase, the serial of the last live heat,
the failure count and the lockout stay, and so do the input lands (R349, Table 17.2). -/
def State.cold (s : State) : State :=
  let s1 : State := { State.reset with
    pending := s.pending
    free := s.free
    time := s.time
    power := { Power.reset with vkeepLow := s.power.vkeepLow, pwrGood := s.power.pwrGood, rstN := s.power.rstN,
                                perstN := s.power.perstN, refclk := s.power.refclk, smbus := s.power.smbus, calStart := s.time.now }
    events := { Events.reset with since := ((Events.reset.since).set (fun _ => 0) 0 s.time.now).set (fun _ => 0) 1 s.time.now }
    moulds := { Moulds.reset with zeroSince := if s.moulds.zeroSince.isSome then s.moulds.zeroSince else some s.time.now }
    heats := { Heats.reset with fresh := s.heats.fresh }
    lock := { Lock.reset with lockoutUntil := s.lock.lockoutUntil } }
  let s2 := (s1.setReg R.timStatus (s.reg R.timStatus)).setReg R.heatLiveSerial (s.reg R.heatLiveSerial)
  let s3 := (s2.setFld F.lockStatusLockout (s.fld F.lockStatusLockout)).setFld F.glbBootBoots (s.fld F.glbBootBoots)
  s3.flashRegs s

/-- COLD_RESET_ASSERT: RST_N or PWR_GOOD falls; the engine stands in KEEP, START under zero-hold while it is low (R348). -/
def execColdResetAssert (rstN : Bool) (s : State) : Out :=
  .next (let s1 := s.cold
    { s1 with power := { s1.power with
      smbus := false
      pwrGood := if rstN then s1.power.pwrGood else false
      rstN := if rstN then false else s1.power.rstN } })

/-- POWER_GOOD: both inputs high; the keeper runs and SMBus answers 5 ms later (R347, Table 17.3). -/
def execPowerGood (s : State) : Out :=
  .next (if s.power.pwrGood && s.power.rstN then s
    else
      let s1 := { s with power := { s.power with pwrGood := true, rstN := true, calStart := s.time.now } }
      let s2 := s1.elapse 5000000
      { s2 with power := { s2.power with smbus := true } })

/-- The key GLB_RESET wants (Table 17.6). -/
abbrev resetKey : Nat := 0xC0DE

/-- A write of GLB_RESET whose key is right has its effect; any other is discarded with a C0 fault (Table 17.6). -/
def State.atReset (s : State) (m : Master) (key : BitVec 16) (effect : State → State) : State :=
  s.atReg m R.glbReset (fun s => if key.toNat = resetKey then effect s else s.refuseReg m R.glbReset)

/-- A warm reset: a shakeout with cause WARM, and in START a cold reset (R350). -/
def State.warmReset (s : State) : State := if s.svc = 1 then s.cold else s.shakeFor .warm

/-- WARM_RESET. -/
def execWarmReset (m : Master) (key : BitVec 16) (s : State) : Out := .next (s.atReset m key State.warmReset)

/-- COLD_RESET (R349). -/
def execColdReset (m : Master) (key : BitVec 16) (s : State) : Out := .next (s.atReset m key State.cold)

/-- The errors of GLB_BOOT.RCV_ERR (Table 17.7). -/
abbrev rcvSignature : Nat := 1
abbrev rcvFlash : Nat := 2
abbrev rcvKind : Nat := 3

/-- The states of an image slot (Table 12.20). -/
abbrev slotEmpty : Nat := 0
abbrev slotValid : Nat := 1
abbrev slotActive : Nat := 2
abbrev slotBad : Nat := 3

/-- The state field of slot A or B of image kind k, 1-3. -/
def slotFld (k : Nat) (b : Bool) : Fld := if b then F.jobImgBState (k - 1) else F.jobImgAState (k - 1)

/-- A slot marked ACTIVE, the slot that was ACTIVE before becoming VALID (R276). -/
def State.activateSlot (s : State) (k : Nat) (b : Bool) : State :=
  let s1 := if s.fld (slotFld k !b) = slotActive then s.setFld (slotFld k !b) slotValid else s
  s1.setFld (slotFld k b) slotActive

/-- RCV_LOAD in recovery mode: the image in the buffer is checked, written to its slot and marked ACTIVE, and a cold reset
follows; a failure leaves the flash and shows in RCV_ERR (R353). Out of recovery mode it is discarded (log 90). -/
def State.rcvLoad (s : State) (m : Master) (kind : Nat) (b : Bool) (imageKind : Nat) (verifies flashOk : Bool) : State :=
  if !s.flag F.glbBootRcv then s.refuseReg m R.glbReset
  else if kind = 0 ∨ imageKind ≠ kind then s.setFld F.glbBootRcvErr rcvKind
  else if !verifies then s.setFld F.glbBootRcvErr rcvSignature
  else if !flashOk then s.setFld F.glbBootRcvErr rcvFlash
  else (s.activateSlot kind b).cold

def execRcvLoad (m : Master) (key : BitVec 16) (kind : Fin 4) (slotB : Bool) (imageKind : Fin 256) (verifies flashOk : Bool)
    (s : State) : Out :=
  .next (s.atReset m key (fun s => s.rcvLoad m kind.val slotB imageKind.val verifies flashOk))

/-- VKEEP_LOW: every EO DAC and heater driver is clamped to zero (R365). -/
def execVkeepLow (s : State) : Out :=
  .next (let s1 := s.assertZero s.time.now
    { s1 with power := { s1.power with vkeepLow := true } })

/-! ### Link reset -/

/-- The host off every resource it holds or waits for (R273). -/
def State.releaseHost (s : State) : State :=
  { s with jobs := (List.range resources).foldl (fun (j : Jobs) r =>
      let c := j.claim r
      j.setClaim r { c with holder := if c.holder = some .host then none else c.holder, fifo := c.fifo.filter (· ≠ .host) }) s.jobs }

/-- The records that wait for a PF discarded, each counted in EVT_LOST, without an overflow record; one it has goes too, its losses
having been counted (R312; log 35). -/
def State.discardWaiting (s : State) (pf : Nat) : State :=
  let off := fun (ps : List Pending) =>
    (ps.map (fun p => { p with targets := p.targets.filter (· ≠ pf) })).filter (fun p => !p.targets.isEmpty)
  let s1 := s.count F.evtLostCount (s.events.buffer.filter (fun p => p.targets.contains pf)).length
  { s1 with events := { s1.events with
      buffer := off s1.events.buffer, replay := off s1.events.replay, overflow := s1.events.overflow.erase pf } }

/-- What a function level reset does to a PF's events: its rings are out of use, its stack is empty, and its waiting records are
discarded (R312). -/
def State.clearFunction (s : State) (pf : Nat) : State :=
  let s1 := (List.range 8).foldl (fun (s : State) l => s.clearRing pf l) s
  ((({ s1 with events := { s1.events with
      stackOf := s1.events.stackOf.set (fun _ => []) pf []
      due := s1.events.due.set (fun _ => none) pf none } }).evaluate pf)).discardWaiting pf

/-- The master ID of a PF through the active die (Table 13.4). -/
def State.pfMaster (s : State) (pf : Nat) : Master := BitVec.ofNat 8 (mPF0 + pf + 128 * s.activeDie.code)

/-- A PF whose PCIe state is lost: it takes no records until it is enabled again (R304, R312). -/
def State.functionOff (s : State) (pf : Nat) : State := if s.available pf then s.setAvailable pf false else s

/-- FUNCTION_LEVEL_RESET: its events and its PCIe state, and a burst it has in progress is completed; PF0 also loses its claims
(R273, R300, R312, R350). -/
def execFunctionLevelReset (pf : Fin 2) (s : State) : Out :=
  .next (let s1 := ((s.clearFunction pf.val).resetMaster (s.pfMaster pf.val)).functionOff pf.val
    if pf.val = 0 then s1.releaseHost else s1)

/-- LINK_RESET: PERST_N low. The PCIe state of both functions is lost and the host's claims end; everything else is kept, the event
rings, stacks and waiting records with it, and fabric, heat and ladle plane run on (R273, R350, Table 17.2). -/
def execLinkReset (s : State) : Out :=
  .next (let s1 := ((s.functionOff 0).functionOff 1).releaseHost
    { s1 with power := { s1.power with perstN := false } })

/-! ## Requests (R14-R17, R22) -/

/-- The reasons of GLB_STATE_ERR (Table 01.17). -/
abbrev eIllegal : Nat := 1
abbrev eService : Nat := 2
abbrev eNoTime : Nat := 3
abbrev eNoBase : Nat := 4
abbrev eBusy : Nat := 5
abbrev eFault : Nat := 6

/-- A request rejected: counted, its reason shown, and a C0 event of source GLB (R14, Table 01.17; log 91). -/
def State.reject (s : State) (reason : Nat) : State :=
  let s1 := (s.count ⟨R.glbStateErr, 31, 16⟩ 1).setFld ⟨R.glbStateErr, 3, 0⟩ reason
  s1.raise 0 0 0 (s1.reg R.glbStateErr)

/-- A transition begun towards a device state (R15). -/
def State.beginTrans (s : State) (target : Nat) : State := (s.setFld F.glbStateTrans 1).setFld F.glbStateTarget target

/-- A transition ended. -/
def State.endTrans (s : State) : State := (s.setFld F.glbStateTrans 0).setFld F.glbStateTarget 0

/-- A request for a device state other than KEEP, brought to its checks: none is taken in a transition (R15). -/
def State.request' (s : State) (effect : State → State) : State := if s.trans then s.reject eBusy else effect s

/-- REQUEST_KEEP (R14, R15, R355). -/
def execRequestKeep (m : Master) (s : State) : Out := .next (s.atReg m R.glbStateReq (fun s => s.shakeFor .host))

/-- The column position of a cell in its tile's records: whether cells c - 1 and c + 1 stand in the same column and tile
(Table 05.3). -/
def nbLo (c : Nat) : Bool := decide (c % 322 ≠ 0) && columnOf c == columnOf (c - 1)
def nbHi (c : Nat) : Bool := decide (c % 322 ≠ 321) && columnOf c == columnOf (c + 1)

/-- An element loop's parameters of Table 05.5, with the coefficients in force. -/
def State.elementParams (s : State) (e : Nat) (m : Image) : Image :=
  let c := e / 2
  let m1 := ((((m.put 0 11 11 1).put 0 12 12 1).put 0 13 13 1).put 0 16 14 4).put 0 21 21 (b2n (nbLo c))
  let m2 := (((m1.put 0 22 22 (b2n (nbHi c))).put 1 15 0 0x0400).put 1 31 16 0x4000).put 3 7 0 8
  let m3 := ((m2.put 3 19 8 512).sput 3 31 20 (s.calValue qKxt e)).put 5 31 16 0xF000
  (m3.put 6 15 0 (unsigned 16 (s.calValue qDither e))).put 6 31 16 (unsigned 16 (s.calValue qHeff e))

/-- A port loop's parameters of Table 05.5: LOCK_WIN is 2.3 % of PSET (log 68). -/
def portParams (pset : Nat) (m : Image) : Image :=
  let m1 := ((m.put 0 11 11 1).put 0 12 12 0).put 0 13 13 0
  let m2 := ((m1.put 1 15 0 0x1000).put 1 31 16 0x0800).put 2 15 0 pset
  (m2.put 3 7 0 (clampNat 0 255 ((23 * (pset % 65536) + 500) / 1000))).put 5 31 16 0xFFFF

/-- The parameters of every loop loaded by the firmware library (Table 05.5). -/
def State.loadParams (s : State) : State :=
  let s1 := (List.range 10304).foldl (fun (s : State) e => s.changeLoop e (s.elementParams e)) s
  let s2 := (List.range 592).foldl (fun (s : State) i => s.changeLoop (10304 + i) (portParams (s.pset i))) s1
  { s2 with loops := { s2.loops with loaded := true } }

/-- A POWER_UP pass begun: nothing checked yet, every loop open, the hold mould to be poured when everything has been measured,
CAL_STATUS.BUSY, FABRIC = SURVEY (R13, R125, R128, R351). -/
def State.beginPowerUp (s : State) : State :=
  let s1 := { s with power := { s.power with calStart := s.time.now, holdDue := true } }
  (s1.openAll.beginPass).calBusy.withNotes (fun s => s.setFld F.glbStateFabric 3)

/-- KEEP to HOLD begun: clocks start, zero-hold is released, the engine's moulds are compiled, the loops' parameters are loaded
at the first entry to HOLD, and the hold mould is asked for; in START the power-up calibration comes before its pour. Every loop
closes after the pour (Table 01.9, R51, R68, R97). -/
def State.beginHold (s : State) : State :=
  let s1 := s.beginTrans 1
  let s2 := ({ s1 with power := { s1.power with fastClocks := true, holdDue := true } }).releaseZero.requestAllReserved
  let s3 := if s2.loops.loaded then s2 else s2.loadParams
  if s3.svc = 1 then s3.beginPowerUp else s3.askHold

/-- Whether a LOOP image runs: without one no loop can close (R352). -/
def State.loopImageRuns (s : State) : Bool := (s.fld F.glbBootOk).testBit 1

/-- A request for HOLD in KEEP: refused while the thermal shutdown's status stands (R346), and without a LOOP image
(R352; log 91). -/
def State.holdFromKeep (s : State) : State :=
  if s.flag (F.fltStat 4 4) then s.reject eFault
  else if !s.loopImageRuns then s.reject eService
  else s.beginHold

/-- Every frame still held discarded and counted; lane marks and copies are not (R19). -/
def State.discardDrain (s : State) : State := (s.count F.glbDrainDiscardFrames s.ladle.frames.length).discardAll

/-- The drain ended. -/
def State.endDrain (s : State) : State := { s with power := { s.power with drained := true } }

/-- A request for HOLD in RUN: global XOFF to every line card, an ARMED heat cancelled in time, and the drain begun; with
UNITS = 0 everything is discarded at once (R19, R157, Table 01.21). -/
def State.beginDrain (s : State) : State :=
  let s1 := s.beginTrans 1
  let s2 := if s1.cancelInTime then s1.cancelArmed 2 else s1
  let s3 := { s2 with power := { s2.power with drain := some s2.time.now, drained := false } }
  let s4 := s3.withGlobal (fun s => { s with ladle := { s.ladle with xoffDrain := true } })
  if s4.fld F.glbDrainTimeoutUnits = 0 then s4.discardDrain.endDrain else s4

/-- A request for HOLD (Table 01.9). -/
def State.requestHold (s : State) : State :=
  if s.dev = 0 then s.holdFromKeep
  else if s.dev = 1 then (s.beginTrans 1).askHold
  else s.beginDrain

/-- REQUEST_HOLD. -/
def execRequestHold (m : Master) (s : State) : Out :=
  .next (s.atReg m R.glbStateReq (fun s => s.request' State.requestHold))

/-- Whether a base heat start time stands and passes ALIGN (R159, Table 07.6). -/
def State.baseReady (s : State) : Bool :=
  let ns := (s.reg (R.heatRunBase 0)).toNat
  s.flag F.heatRunBase2Set && decide (ns < second) && ns % 5 == 0

/-- A request for RUN, its conditions tested in the order of R17; then ladle clock and HBM start and the base heat is planned
from the edge of the request (R17, R159). -/
def State.requestRun (s : State) : State :=
  if s.dev ≠ 1 then s.reject eIllegal
  else if s.svc ≠ 0 then s.reject eService
  else if s.fld F.timStatusState ≠ tLocked then s.reject eNoTime
  else if !s.baseReady then s.reject eNoBase
  else
    let s1 := s.beginTrans 2
    ({ s1 with power := { s1.power with ladleClock := true } }).planBase (ceilDiv s.time.net 5 * 5)

/-- REQUEST_RUN. -/
def execRequestRun (m : Master) (s : State) : Out :=
  .next (s.atReg m R.glbStateReq (fun s => s.request' State.requestRun))

/-- Whether a status bit that set RECOVER is still set (Table 01.9, R337). -/
def State.recoverBlocked (s : State) : Bool := s.power.recover.any (fun p => s.flag (F.fltStat p.1 p.2))

/-- The service state set; the jobs and delta passes it ends (R23, R126, R269). -/
def State.setService (s : State) (svc : Nat) : State :=
  let s1 := s.withNotes (fun s => s.setFld F.glbStateSvc svc)
  let s2 := if svc = 0 then s1.dropPass 0 else s1
  s2.calBusy.surveyFabric

/-- Why a request for a service state is rejected, if it is: NORMAL is entered from TEST and RECOVER, TEST from NORMAL in KEEP
or HOLD and from RECOVER, and RECOVER is left only without a status that set it (Table 01.9, R12, R337); 1 and 3 are no
requests (Table 01.14). -/
def State.svcReason (s : State) (svc : Nat) : Option Nat :=
  if svc = 2 ∧ s.dev = 2 then some eIllegal
  else if svc ≠ 0 ∧ svc ≠ 2 then some eIllegal
  else if s.svc = 3 then (if s.recoverBlocked then some eFault else none)
  else if svc = 0 then (if s.svc = 2 then none else some eIllegal)
  else if s.svc = 0 then none
  else some eIllegal

/-- A request for a service state. -/
def State.requestService (s : State) (svc : Nat) : State :=
  match s.svcReason svc with
  | some r => s.reject r
  | none => s.setService svc

/-- A request for service state TEST. -/
def State.requestTest (s : State) : State := s.requestService 2

/-- REQUEST_TEST. -/
def execRequestTest (m : Master) (s : State) : Out :=
  .next (s.atReg m R.glbStateReq (fun s => s.request' State.requestTest))

/-- A request for service state NORMAL. -/
def State.requestNormal (s : State) : State := s.requestService 0

/-- REQUEST_NORMAL. -/
def execRequestNormal (m : Master) (s : State) : Out :=
  .next (s.atReg m R.glbStateReq (fun s => s.request' State.requestNormal))

/-- A request for a device state by its code: KEEP starts a shakeout at any time, the others wait for no transition (R14,
R15). -/
def State.requestDevice (s : State) (dev : Nat) : State :=
  if dev = 0 then s.shakeFor .host
  else s.request' (fun s =>
    if dev = 1 then s.requestHold else if dev = 2 then s.requestRun else s.reject eIllegal)

/-- A write of GLB_STATE_REQ as a whole: the service state first; the device state is not attempted when that is rejected
(R22). -/
def State.stateReq (s : State) (v : Word) : State :=
  let svc := bitsOf v 5 4
  let dev := bitsOf v 2 0
  if bitOf v 6 then
    if s.trans then s.reject eBusy
    else if (s.svcReason svc).isSome ∨ !bitOf v 3 then s.requestService svc
    else (s.requestService svc).requestDevice dev
  else if bitOf v 3 then s.requestDevice dev
  else s

/-! ## Entry to HOLD and power-up calibration (R351) -/

/-- Whether the transition from KEEP to HOLD is under way. -/
def State.enteringHold (s : State) : Bool :=
  s.trans && s.fld F.glbStateTarget == 1 && s.dev == 0 && s.power.shake.isNone

/-- The sequence of an entry to HOLD after the pour of the hold mould: every loop closes (Table 01.9). -/
def State.closeAll (s : State) : State :=
  if s.power.holdDue && !s.moulds.calPour then ({ s with power := { s.power with holdDue := false } }).lockAll else s

/-- HOLD entered; outside START FABRIC becomes HOLD_MOULD; waiting temperature-delta passes start (Table 01.9, R126). -/
def State.enterHold (s : State) : State :=
  (s.withNotes (fun s =>
    let s1 := s.endTrans.setFld F.glbStateDev 1
    if s1.svc = 1 then s1 else s1.setFld F.glbStateFabric 1)).startWaitingDelta

/-- HOLD_ENTERED: with ALL_LOCKED (Table 01.9, R109). -/
def execHoldEntered (s : State) : Out :=
  .next (if s.enteringHold && !s.power.holdDue && s.allLocked then s.enterHold else s)

/-- A POWER_UP pass ended: its tiles are done (R119, R126). -/
def State.endPowerUp (s : State) : State := (s.endPass 0).calBusy

/-- Whether a POWER_UP pass was refused a reference, once it has checked them (R118, R351). -/
def State.refusedRef (s : State) : Bool :=
  match s.powerUpPass with
  | some p => p.refused
  | none => false

/-- POWER_UP_CAL_PASS in HOLD, START: NORMAL and HOLD_MOULD. A pass that found no REF_IN leaves every tile untraced, with a
note (R118, R119, R351). -/
def State.calPass (s : State) : State :=
  s.endPowerUp.withNotes (fun s => (s.setFld F.glbStateSvc 0).setFld F.glbStateFabric 1)

def execPowerUpCalPass (s : State) : Out :=
  .next (if s.svc = 1 ∧ s.dev = 1 ∧ s.powerUpPass.isSome ∧ !s.power.holdDue ∧ s.power.shake.isNone ∧ s.allLocked then
      let s1 := s.passRef 0
      if s1.refusedRef ∨ s1.power.shake.isSome then s1 else s1.calPass
    else s)

/-- A failed power-up pass: a C2 fault of source CAL is raised, and the engine stands in HOLD, START on the hold mould, which is
poured now if it has not been (R351). Its 10 s to the next try count from here. -/
def State.calFail (s : State) : State :=
  let s1 := if s.powerUpMeasures then s.endMeasuring.askHold else s
  let s2 := s1.endPowerUp.withNotes (fun s => (s.endTrans.setFld F.glbStateDev 1).setFld F.glbStateFabric 1)
  let s3 := { s2 with power := { s2.power with calStart := s2.time.now } }
  (s3.startWaitingDelta).calRaise 2

/-- POWER_UP_CAL_FAIL: a reference refused, or, with none, ALL_LOCKED not reached 4.0 s after the start (R351). -/
def execPowerUpCalFail (s : State) : Out :=
  .next (if s.svc ≠ 1 ∨ s.powerUpPass.isNone ∨ s.power.shake.isSome then s
    else
      let s1 := s.passRef 0
      if s1.power.shake.isSome then s1
      else if s1.refusedRef then s1.calFail
      else if s1.allLocked then s1
      else (s1.untilNow (s1.power.calStart + 4 * second)).calFail)

/-- POWER_UP_CAL_RETRY: 10 s after a failed pass, while START lasts (R351, Table 06.3). -/
def execPowerUpCalRetry (s : State) : Out :=
  .next (if s.svc = 1 ∧ s.dev = 1 ∧ s.powerUpPass.isNone ∧ !s.trans ∧ s.power.shake.isNone then
      (s.untilNow (s.power.calStart + 10 * second)).beginPowerUp
    else s)

/-! ## Drain and return to HOLD (R19) -/

/-- DRAIN_COMPLETE: every queue, hold and the riser are empty. -/
def execDrainComplete (s : State) : Out :=
  .next (if s.power.drain.isSome && !s.power.drained && s.ladleEmpty then s.endDrain else s)

/-- DRAIN_TIMEOUT: GLB_DRAIN_TIMEOUT after the request (Table 01.21). -/
def execDrainTimeout (s : State) : Out :=
  .next (match s.power.drain with
    | some t =>
      if s.power.drained then s else (s.untilNow (t + 100000 * s.fld F.glbDrainTimeoutUnits)).discardDrain.endDrain
    | none => s)

/-- RUN_TO_HOLD_POUR: the drain over, at the cycle boundary for which it was staged the hold mould is poured, or held as any
pour is; both banks clear, every ladle port parks, ladle clock and HBM stop, and the drain's global XOFF ends (R19, R59, R68,
R159, Table 01.9). -/
def State.runToHold (s : State) (st : Staged) : State :=
  let s1 := (s.untilNet st.pourAt).fettleStop.clearBanks
  let s2 := (s1.duePoured st).parkAll
  let s3 := { s2 with power := { s2.power with drain := none, drained := false, ladleClock := false } }
  let s4 := s3.withGlobal (fun s => { s with ladle := { s.ladle with xoffDrain := false } })
  s4.withNotes (fun s => (s.endTrans.setFld F.glbStateDev 1).setFld F.glbStateFabric 1)

/-- The pour by which RUN is left: as staged, or, where no staging began for the cycle boundary, late (Table 03.6). -/
def State.hold (s : State) : Option Staged :=
  match s.moulds.staged with
  | some st => if st.toHold then some st else none
  | none => if s.leavesRun then some (lateStaged s.holdMould.1 s.heats.boundary) else none

def execRunToHoldPour (s : State) : Out :=
  .next (if s.power.drain.isSome && s.power.drained && s.power.shake.isNone then
      match s.hold with
      | some st => s.runToHold st
      | none => s
    else s)

/-! ## Staging and the pour at a boundary (R57, R59, R155) -/

/-- STAGING_START: at T - LEAD; none is begun while one is staged or a shakeout runs (R57, R20). At an entry to HOLD in START it
comes when calibration has measured everything (Table 01.9). -/
def State.stagingStart (s : State) : State :=
  if s.power.shake.isSome || s.moulds.staged.isSome then s
  else
    let s1 := if s.power.holdDue && s.moulds.holdPour.isNone then s.endMeasuring.askHold else s
    match s1.moulds.holdPour with
    | some m => if s1.beingMade m then s1 else s1.stage m (ceilDiv (s1.time.net + 200) 5 * 5) false
    | none =>
      if s1.leavesRun then
        let s2 := s1.untilNet (s1.heats.boundary - s1.stageLead)
        let (m, s3) := s2.holdMould
        s3.stage m s3.heats.boundary true
      else match s1.nextPour with
        | some (m, t) => (s1.untilNet (t - s1.stageLead)).stage m t false
        | none => s1

def execStagingStart (s : State) : Out := .next s.stagingStart

/-- POUR: at T the staged mould is poured, or held, unless a later duty of its edge has come first and it is done (R89); a running shakeout suppresses it without counting (R59, R20, R60). The pour
by which RUN is left is RUN_TO_HOLD_POUR's. -/
def execPour (s : State) : Out :=
  .next (if s.power.shake.isSome then s
    else if s.moulds.earlyPour = some s.time.net then { s with moulds := { s.moulds with earlyPour := none } }
    else match s.duePour with
      | none => s
      | some st =>
        if st.toHold then s
        else (((s.untilNet st.pourAt).activateDue st.pourAt).duePoured st).endRepour.closeAll)

/-! ## Shakeout (R20) -/

/-- SHAKEOUT: a cause is latched (R16, R20). -/
def execShakeout (cause : ShakeCause) (s : State) : Out := .next (s.shakeFor cause)

/-- At S + 6.4 us every loop is HELD and zero-hold asserted: the fabric is at REST (Tables 01.10, 01.13). -/
def State.zeroHold (s : State) (sh : Shake) : State :=
  let s1 := (s.untilNow (sh.start + 6400)).holdAll.assertZero sh.start
  ({ s1 with power := { s1.power with shake := some { sh with zeroed := true } } }).withNotes (fun s => s.setFld F.glbStateFabric 0)

def execZeroHold (s : State) : Out :=
  .next (match s.power.shake with
    | some sh => if sh.zeroed then s else s.zeroHold sh
    | none => s)

/-- What a shakeout loses of the ladle plane: buffer, riser, holds, marks and lane state; flow, group and queue tables,
registers and port and swap states stay (Table 01.10). -/
def State.loseLadle (s : State) : State :=
  let s1 := { s with
    ladle := { s.ladle with
      frames := [], hold := [], reading := [], stopped := [], xoffOcc := false, xoffDrain := false
      queues := s.ladle.queues.mapAll (fun _ => Queue.zero) (fun _ x => { x with entries := [] })
      flows := s.ladle.flows.mapAll (fun _ => Flow.zero) (fun _ x => { x with held := [], holdNs := 0 }) }
    service := { Service.reset with inForce := s.service.inForce, bucket := s.service.bucket, meter := s.service.meter } }
  s1.setFld F.ladOccGxoff (b2n s1.globalXoff)

/-- What a warm reset loses beside: cores (loop cores' memories are the flask memories, which stay), the ladle die's tables,
pending events, jobs and claims; the access lock closes, and the management cores boot again (R349, R350, Table 17.2). -/
def State.warm (s : State) : State :=
  let s1 := { s with
    cores := s.cores.mapAll (fun _ => Core.zero) (fun id c => if id % 128 < 72 then { Core.zero with mem := c.mem, code := c.code } else Core.zero)
    ladle := { Ladle.reset with dark := s.ladle.dark, badEngines := s.ladle.badEngines, retiredBanks := s.ladle.retiredBanks,
                                retiredRegions := s.ladle.retiredRegions, xoffThermal := s.ladle.xoffThermal }
    service := { Service.reset with meter := s.service.meter }
    events := { s.events with buffer := [], overflow := [], replay := [] }
    jobs := Jobs.reset
    heats := { s.heats with decomposing := false, decomp := none, repair := none, matching := [] }
    bus := { s.bus with bursts := [], locked := none }
    power := { s.power with bar0 := false, calStart := s.time.now } }
  (((s1.setReg R.jobActive (resetWord R.jobActive)).setFld F.busStatusLocked 0).calBusy).dropChallenge.dropResponse.lockCloses

/-- What calibration passes that ended with the shakeout held given back (R79, R91, R122). -/
def State.undoAll (s : State) : State :=
  let s1 := (s.cal.undo.foldl State.undoPass s).fettleStop
  { s1 with cal := { s1.cal with undo := [] } }

/-- S + 1 ms: DEV is KEEP, the fabric rests, the fast clocks stop; after a fault RECOVER (Tables 01.9, 01.10, R337). -/
def State.shakeoutDone (s : State) (sh : Shake) : State :=
  let s0 := (s.untilNow (sh.start + 1000000)).spareStop
  let s1 := { s0 with power := { s0.power with shake := none, fastClocks := false, ladleClock := false } }
  let s2 := s1.undoAll.loseLadle.parkAll
  let s3 := s2.withNotes (fun s =>
    let s1 := s.endTrans.setFld F.glbStateDev 0
    (if sh.fault then s1.setFld F.glbStateSvc 3 else s1).setFld F.glbStateFabric 0)
  if sh.warm then s3.warm else s3

/-- SHAKEOUT_COMPLETE; the zero-hold at S + 6.4 us has come before it. -/
def execShakeoutComplete (s : State) : Out :=
  .next (match s.power.shake with
    | some sh =>
      let s1 := if sh.zeroed then s else s.zeroHold sh
      s1.shakeoutDone (s1.power.shake.getD sh)
    | none => s)

/-! ## Boot (R351, R352, R353) -/

/-- What the boot ROM finds of one kind: the slots' states afterwards, the slot that runs with its COMPAT, the verifications
that failed, and whether it fell back. -/
structure Booted where
  stA : Nat
  stB : Nat
  run : Option (Bool × BitVec 16)
  bad : Nat
  fell : Bool
deriving DecidableEq, Repr

/-- Whether a slot's COMPAT is the one wanted, if any is (R352). -/
def slotFits (x : ImageSlot) (want : Option (BitVec 16)) : Bool :=
  match want with
  | some c => x.compat == c
  | none => true

/-- The selection of R352: the ACTIVE slot if it verifies and fits; a failed verification marks it BAD, another level leaves it
as it is; then the other slot, if it is VALID, verifies and fits, becomes ACTIVE. -/
def bootKind (a b : ImageSlot) (stA stB : Nat) (want : Option (BitVec 16)) : Booted :=
  let first := stB == slotActive && stA != slotActive
  let x := if first then b else a
  let y := if first then a else b
  let stX := if first then stB else stA
  let stY := if first then stA else stB
  let done := fun (sx sy : Nat) (run : Option (Bool × BitVec 16)) (bad : Nat) (fell : Bool) =>
    if first then ({ stA := sy, stB := sx, run := run, bad := bad, fell := fell } : Booted)
    else { stA := sx, stB := sy, run := run, bad := bad, fell := fell }
  let okX := stX == slotActive && x.present && x.verifies
  if okX && slotFits x want then done stX stY (some (first, x.compat)) 0 false
  else
    let badX := stX == slotActive && !(x.present && x.verifies)
    let sx := if badX then slotBad else stX
    if stY != slotValid then done sx stY none (b2n badX) false
    else if !(y.present && y.verifies) then done sx slotBad none (b2n badX + 1) false
    else if !slotFits y want then done sx stY none (b2n badX) false
    else done (if sx = slotActive then slotValid else sx) slotActive (some (!first, y.compat)) (b2n badX) true

/-- The state of a slot record before anything has marked it: an image present in A is ACTIVE, one present in B VALID, or
ACTIVE without one in A (log 90). -/
def firstStates (a b : ImageSlot) : Nat × Nat :=
  (if a.present then slotActive else slotEmpty, if b.present then (if a.present then slotValid else slotActive) else slotEmpty)

/-- One kind booted: its slot states, RUNNING, GLB_BOOT and a C1 fault of source FLASH for each slot that failed its
verification (R352, Tables 12.20, 17.7). -/
def State.bootOne (s : State) (k : Nat) (a b : ImageSlot) (want : Option (BitVec 16)) : Option (BitVec 16) × State :=
  let (stA, stB) :=
    if s.fld (slotFld k false) = slotEmpty ∧ s.fld (slotFld k true) = slotEmpty then firstStates a b
    else (s.fld (slotFld k false), s.fld (slotFld k true))
  let r := bootKind a b stA stB want
  let s1 := (s.setFld (slotFld k false) r.stA).setFld (slotFld k true) r.stB
  let s2 := if r.fell then s1.setFld F.glbBootFallback 1 else s1
  let s3 := match r.run with
    | some (sl, c) =>
      ((s2.setFld (F.jobImgRunning (k - 1)) c.toNat).setFld F.glbBootOk (s2.fld F.glbBootOk ||| 2 ^ (k - 1))).setFld F.glbBootSlot
        (if sl then s2.fld F.glbBootSlot ||| 2 ^ (k - 1) else s2.fld F.glbBootSlot)
    | none => s2.setFld (F.jobImgRunning (k - 1)) 0
  let s4 := (List.range r.bad).foldl (fun (s : State) _ => s.raise 0x303 1 0 (word k)) s3
  (r.run.map (·.2), s4)

/-- Recovery mode: no DIE image verifies; cope is active and the GLB block alone answers (R353). -/
def State.enterRecovery (s : State) : State := (s.setFld F.glbBootRcv 1).setFld F.cdStatusActive 0

/-- The boot itself, up to BAR0 answering 120 ms after its start (R351, R352). -/
def State.boot (s : State) (dieA dieB loopA loopB polA polB : ImageSlot) (otpOk : Bool) : State :=
  let s0 := s.untilNow (s.power.calStart + 120000000)
  let boots := s0.fld F.glbBootBoots + 1
  let s1 := ((((s0.setFld F.glbBootRcv 0).setFld F.glbBootFallback 0).setFld F.glbBootOk 0).setFld F.glbBootSlot 0).setFld F.glbBootBoots boots
  let s2 := { s1 with power := { s1.power with bar0 := true, smbus := true }, cal := { s1.cal with loaded := true } }
  let s3 := if otpOk then s2 else s2.raise 0x302 2 0 0
  match s3.bootOne 1 dieA dieB none with
  | (none, s4) => s4.enterRecovery
  | (some c, s4) =>
    let (_, s5) := s4.bootOne 2 loopA loopB (some c)
    let (_, s6) := s5.bootOne 3 polA polB (some c)
    { s6 with cd := { s6.cd with compatOk := true } }

/-- BOOT_COMPLETE: after power good or a warm reset's shakeout, once. In START with a LOOP image the transition to HOLD begins
by itself 250 ms after power good (R351, Table 17.3), unless the thermal shutdown's status stands (R346). -/
def execBootComplete (dieA dieB loopA loopB policyA policyB : ImageSlot) (otpOk : Bool) (s : State) : Out :=
  .next (if !(s.power.pwrGood && s.power.rstN) || s.power.bar0 || s.power.shake.isSome then s
    else
      let s1 := s.boot dieA dieB loopA loopB policyA policyB otpOk
      if s1.svc = 1 ∧ s1.dev = 0 ∧ s1.loopImageRuns ∧ !s1.flag (F.fltStat 4 4) ∧ s1.power.shake.isNone then
        let s2 := (s1.untilNow (s.power.calStart + 250000000)).beginHold
        { s2 with power := { s2.power with calStart := s.power.calStart } }
      else s1)

end Sys2Proof.Machine
end

