-- ==== Sys2Proof/Machine/Frames.lean ====
section
/-!
DEFINITION. What happens at one slot clock edge of a tile, in its order (R89): zero-hold, pour, span change steps, actuator writes due,
round start, frame capture; and the frame boundary's sample frame and loop counts (R82, Tables 05.17, 05.19).
-/
namespace Sys2Proof.Machine

/-- Zero-hold where it is due by now (R20, R89). -/
def State.zeroDue (s : State) : State :=
  match s.power.shake with
  | some sh => if !sh.zeroed && decide (sh.start + 6400 ≤ s.time.now) then s.zeroHold sh else s
  | none => s

/-- The pour due by now, made or held before the tile's later duties of the edge; its own command, still to come at this edge, finds it
done (R59, R89). -/
def State.pourDue (s : State) : State :=
  if s.power.shake.isSome then s
  else match s.duePour with
    | none => s
    | some st =>
      if s.time.net < st.pourAt then s
      else if st.toHold then (if s.power.drain.isSome && s.power.drained then s.runToHold st else s)
      else
        let s1 := (s.activateDue st.pourAt).duePoured st |>.endRepour.closeAll
        { s1 with moulds := { s1.moulds with earlyPour := some st.pourAt } }

/-- The span sequences of a tile whose 2 us are over (R65, R89). -/
def State.spansDue (s : State) (t : Nat) : State :=
  ((s.tile t).span.filter (fun p => decide (p.2.ends ≤ s.time.now))).foldl (fun (s : State) p => s.spanEnd t p.1) s

/-- SPAN_CHANGE_END. -/
def execSpanChangeEnd (t : Fin 16) (j : Fin 644) (s : State) : Out :=
  .next (match (s.tile t.val).span.find? j.val with
    | some q => (s.untilNow q.ends).zeroDue.pourDue.spanEnd t.val j.val
    | none => s)

/-- PENDING_WRITE_APPLY. -/
def execPendingWriteApply (t : Fin 16) (s : State) : Out :=
  .next (match (s.tile t.val).pend with
    | [] => s
    | (k, _) :: _ =>
      let s1 := (s.untilNet (boundaryAfter ((s.tile t.val).written.get (fun _ => 0) k))).zeroDue.pourDue
      (s1.spansDue t.val).applyPending t.val)

/-- ADC_ROUND_START: at its fixed time, with the fast clocks running (R74). -/
def execAdcRoundStart (t : Fin 16) (roundD : Bool) (s : State) : Out :=
  .next (if !s.power.fastClocks then s
    else
      let s1 := (s.untilNet (s.nextPeriod (s.tile t.val).round (if roundD then 3200 else 0))).zeroDue.pourDue
      ((s1.spansDue t.val).writesDue t.val).roundStart t.val roundD)

/-- FRAME_DELIVERY, at the next frame boundary with the fast clocks running (R82): at the first tile of a frame boundary the loop counts are taken (Tables 05.17, 05.19). -/
def State.frameEdge (s : State) (t : Nat) : State :=
  if !s.power.fastClocks then s
  else
    let f := s.nextPeriod (s.tile t).frameAt 0
    let s1 := (s.untilNet f).zeroDue.pourDue
    let s2 := (s1.spansDue t).writesDue t
    let s3 := if (List.range 16).all (fun u => (s2.tile u).frameAt != f) then s2.countLoops else s2
    s3.frameDelivery t f

def execFrameDelivery (t : Fin 16) (s : State) : Out := .next (s.frameEdge t.val)

end Sys2Proof.Machine
end

