-- ==== Sys2Proof/Machine/Jobs.lean ====
section
/-!
DEFINITION. Jobs, claims and live change (R261-R278, R377): job rings and descriptors, the job table, suspension,
cancellation and safe points, the work of each job type, claims with FIFOs and preemption, image slots, and flow edits.
-/
namespace Sys2Proof.Machine

/-! ## Rings (R261, R262, R290) -/

/-- The fields of ring p. -/
def ringEn (p : Nat) : Fld := if p = 0 then F.jobRing0CtrlEn else F.jobRing1CtrlEn
def ringSize (p : Nat) : Fld := if p = 0 then F.jobRing0CtrlSize else F.jobRing1CtrlSize
def ringHead (p : Nat) : Fld := if p = 0 then F.jobRing0HeadHead else F.jobRing1HeadHead
def ringTail (p : Nat) : Fld := if p = 0 then F.jobRing0HeadTail else F.jobRing1HeadTail
def ringCtrl (p : Nat) : Nat := if p = 0 then R.jobRing0Ctrl else R.jobRing1Ctrl

/-- The places of ring p: 2^SIZE, SIZE held between 4 and 12 (Table 12.14). -/
def State.jobPlaces (s : State) (p : Nat) : Nat := 2 ^ clampNat 4 12 (s.fld (ringSize p))

/-- A doorbell value written to ring p: taken when the ring is enabled and the span of posted descriptors does not shorten,
else discarded and logged (R261). -/
def State.doorbell (s : State) (a : Access) (p v : Nat) : State :=
  let n := s.jobPlaces p
  let h := s.fld (ringHead p)
  if s.flag (ringEn p) ∧ v < n ∧ (s.fld (ringTail p) + n - h) % n ≤ (v + n - h) % n then s.setFld (ringTail p) v
  else s.refuse a kRefused

/-- JOB_DOORBELL: a write in BAR4, whose bits [11:0] carry the index; the other function's doorbell is PRIV, any other offset a decode miss (R290). BAR4 is
reached by the two functions only. -/
def execJobDoorbell (m : Master) (off : Nat) (v : Word) (s : State) : Out :=
  .next (
    let a : Access := { master := m, space := 2, addr := off, size := 4, write := true }
    if (unitOf m ≠ mPF0 ∧ unitOf m ≠ mPF1) ∨ !s.answers m then s
    else if off ≠ 0 ∧ off ≠ 0x1000 then (s.hostWaits m).refuse a kDecode
    else if unitOf m ≠ mPF0 + off / 0x1000 then (s.hostWaits m).refuse a kPriv
    else (s.hostWaits m).doorbell a (off / 0x1000) (bitsOf v 11 0))

/-- JOB_RING_CTRL_WRITE: clearing EN zeroes HEAD and the doorbell value (Table 12.14). -/
def State.jobRingCtrl (s : State) (p : Nat) (v : Word) : State :=
  let s1 := ((s.setFld (ringSize p) (bitsOf v 3 0)).setFld (ringEn p) (bitsOf v 31 31)).markDirty (ringCtrl p)
  if bitOf v 31 then s1 else (s1.setFld (ringHead p) 0).setFld (ringTail p) 0

def execJobRingCtrlWrite (m : Master) (p : Fin 2) (v : Word) (s : State) : Out :=
  .next (s.atReg m (ringCtrl p.val) (fun s => s.jobRingCtrl p.val v))

/-- The results of Table 12.3. -/
abbrev rOk : Nat := 0
abbrev rBusy : Nat := 1
abbrev rPriv : Nat := 2
abbrev rBadOpcode : Nat := 3
abbrev rBadArg : Nat := 4
abbrev rState : Nat := 5
abbrev rFull : Nat := 6
abbrev rNoJob : Nat := 7
abbrev rObject : Nat := 8
abbrev rClass : Nat := 9
abbrev rCrc : Nat := 10

/-- A write-back that concerns no job (Table 12.1). -/
def plain (result : Nat) : WriteBack := { result := result, state := 0xFF, id := 0, data := 0 }

/-- A descriptor taken from its ring: PF1 may issue NOP and QUERY only, START accepts no other opcode, and a field that must
be zero makes it BAD_OPCODE, in this order (R263, Table 12.3; log 88); otherwise its opcode has its effect. It is written
back, and HEAD advances (R261). One of the two management cores is assigned it (R258; log 88). Nothing is taken from a ring that is empty or not enabled. -/
def State.take (s : State) (d : Desc) (always : Bool) (effect : State → WriteBack × State) : State :=
  let p := d.pf.val
  if !s.flag (ringEn p) ∨ s.fld (ringHead p) = s.fld (ringTail p) then s
  else
    let h := s.fld (ringHead p)
    let (n, s0) := s.freeNat
    let s := s0.pend (s0.activeId (80 + n % 2)) 1
    let (w, s1) :=
      if p = 1 ∧ !always then (plain rPriv, s)
      else if s.svc = 1 ∧ !always then (plain rBusy, s)
      else if !d.zeroOk then (plain rBadOpcode, s)
      else effect s
    let s2 := { s1 with jobs := { s1.jobs with back := s1.jobs.back.put (4096 * p + h) w } }
    s2.setFld (ringHead p) ((h + 1) % s2.jobPlaces p)

/-- NOP. -/
def execNop (d : Desc) (s : State) : Out := .next (s.take d true (fun s => (plain rOk, s)))

/-! ## Claims of the host (R272) -/

/-- CLAIM by the host: granted at once when free, else BUSY and queued (R272). -/
def State.hostClaim (s : State) (r : Nat) : WriteBack × State :=
  if 70 < r then (plain rBadArg, s)
  else
    let c := s.jobs.claim r
    if c.holder = some .host then (plain rOk, s)
    else if c.open' then (plain rOk, s.setClaim r { c with holder := some .host })
    else (plain rBusy, s.setClaim r { c with fifo := joinFifo c.fifo .host false })

def execClaim (d : Desc) (resource : Fin 256) (s : State) : Out := .next (s.take d false (fun s => s.hostClaim resource.val))

/-- RELEASE by the host: a resource it holds becomes free, one it waits for loses a waiter, any other is STATE (R272). -/
def State.hostRelease (s : State) (r : Nat) : WriteBack × State :=
  if 70 < r then (plain rBadArg, s)
  else
    let c := s.jobs.claim r
    if c.holder = some .host then (plain rOk, s.freeClaim r)
    else if c.fifo.contains .host then (plain rOk, s.setClaim r { c with fifo := c.fifo.filter (· ≠ .host) })
    else (plain rState, s)

def execRelease (d : Desc) (resource : Fin 256) (s : State) : Out := .next (s.take d false (fun s => s.hostRelease resource.val))

/-! ## Starting a job (R264, R377) -/

/-- JOB_ACTIVE.USED follows the table (Table 12.18). -/
def State.countJobs (s : State) : State := s.setFld F.jobActiveUsed s.jobs.table.length

/-- The object of a job, as a kind and a number (R377). -/
def JobKind.objects : JobKind → List (Nat × Nat)
  | .elemRetire i _ port => [(if port then 1 else 0, i)]
  | .bankRetire b => [(2, b)]
  | .regionRetire r => [(3, r)]
  | .flaskMove f c => [(4, f), (5, c)]
  | .coreRestart c => [(5, c)]
  | .adcTakeover t ch _ => [(6, 64 * t + ch)]
  | .heatLoad _ => [(7, 0)]
  | .imageLoad k _ | .fwActivate k _ => [(8, k)]
  | .calFull _ | .calTransfer _ | .mouldLib _ | .survey _ | .riserScrub _ => []

/-- Whether a job that is not terminal names one of a job's objects. -/
def State.objectTaken (s : State) (k : JobKind) : Bool :=
  s.jobs.table.any (fun j => !j.state.terminal && k.objects.any (fun o => j.kind.objects.contains o))

/-- The objects in all of a job, where the spec says what they are (Tables 06.2, 06.3, 12.5, 12.8); a survey's paths and a
bank's frames are not counted there, so a free number (log 89). -/
def State.objectsOf (s : State) (k : JobKind) : Nat × State :=
  match k with
  | .calFull mask => (fullPerTile * (maskTiles mask).length, s)
  | .calTransfer mask => (644 * (maskTiles mask).length, s)
  | .mouldLib es => (es.length, s)
  | .heatLoad im => (im.entries.length, s)
  | .fwActivate kind _ => (if kind = 2 then 64 else 1, s)
  | .riserScrub regions => (1024 * ((List.range 128).filter (fun r => regions.testBit r)).length, s)
  | .elemRetire _ _ _ | .flaskMove _ _ | .coreRestart _ | .adcTakeover _ _ _ | .imageLoad _ _ => (1, s)
  | .survey _ | .bankRetire _ | .regionRetire _ => s.freeNat

/-- A START: CLASS, FULL, BAD_ARG, STATE, OBJECT are tried in this order (Table 12.3; log 88); otherwise a job is QUEUED under the next
ID and makes its claims (R264, R265). -/
def State.startJob (s : State) (d : Desc) (k : JobKind) (allowsRecovery argOk stateOk : Bool) : WriteBack × State :=
  if d.recovery && !allowsRecovery then (plain rClass, s)
  else if 32 ≤ s.jobs.table.length then (plain rFull, s)
  else if !argOk then (plain rBadArg, s)
  else if !(k.runsIn s.dev s.svc) || !stateOk then (plain rState, s)
  else if s.objectTaken k then (plain rObject, s)
  else
    let id := s.fld F.jobActiveNextId
    let (total, s1) := s.objectsOf k
    let j : Job := { id := id, kind := k, state := .queued, evt := d.evt, recovery := d.recovery, progress := 0, total := total,
                     cause := 0, hostSusp := false, preempted := false, past := false, stateLeft := false, endedAt := 0, lost := [] }
    let s2 := (s1.setFld F.jobActiveNextId (id % 65535 + 1)).claimAll j
    let s3 := { s2 with jobs := { s2.jobs with table := s2.jobs.table ++ [j] } }
    ({ result := rOk, state := JobState.queued.code, id := id, data := 0 }, s3.countJobs)

/-- LOAD_IMAGE (R276): a kind outside 1-3 is no type; a length outside the 8 MiB of a slot is BAD_ARG; the ACTIVE slot of its
kind is STATE. -/
def execLoadImage (d : Desc) (kind : Fin 65536) (len : BitVec 32) (slotB : Bool) (s : State) : Out :=
  .next (s.take d false (fun s =>
    if kind.val = 0 ∨ 3 < kind.val then (plain rBadOpcode, s)
    else s.startJob d (.imageLoad kind.val slotB) false (decide (0 < len.toNat ∧ len.toNat ≤ 0x800000))
      (s.fld (slotFld kind.val slotB) != slotActive)))

/-- START of CAL_FULL; an empty tile mask names nothing to calibrate (log 88). -/
def execStartCalFull (d : Desc) (tiles : BitVec 16) (s : State) : Out :=
  .next (s.take d false (fun s => s.startJob d (.calFull tiles.toNat) false (tiles != 0) true))

/-- START of CAL_TRANSFER. -/
def execStartCalTransfer (d : Desc) (tiles : BitVec 16) (s : State) : Out :=
  .next (s.take d false (fun s => s.startJob d (.calTransfer tiles.toNat) false (tiles != 0) true))

/-- START of HEAT_LOAD: RUN with HEAT_SCHED.HOST = 1; 1 to 4,096 slots (R148, R270). -/
def execStartHeatLoad (d : Desc) (image : HeatImage) (s : State) : Out :=
  .next (s.take d false (fun s =>
    s.startJob d (.heatLoad image) false (decide (1 ≤ image.records.length ∧ image.records.length ≤ 4096)) (s.flag F.heatSchedHost)))

/-- START of MOULD_LIB: 1 to 8,183 entries. -/
def execStartMouldLib (d : Desc) (count : BitVec 16) (entries : List LibEntry) (s : State) : Out :=
  .next (s.take d false (fun s =>
    s.startJob d (.mouldLib (entries.take count.toNat)) false (decide (1 ≤ count.toNat ∧ count.toNat ≤ 8183)) true))

/-- START of FW_ACTIVATE: kind 1 needs a ready standby (Table 12.8). -/
def execStartFwActivate (d : Desc) (kind : Fin 16) (slotB : Bool) (s : State) : Out :=
  .next (s.take d false (fun s =>
    s.startJob d (.fwActivate kind.val slotB) false (decide (1 ≤ kind.val ∧ kind.val ≤ 3)) (kind.val != 1 || s.standbyReady)))

/-- START of SURVEY. -/
def execStartSurvey (d : Desc) (retiredOnly : Bool) (s : State) : Out :=
  .next (s.take d false (fun s => s.startJob d (.survey retiredOnly) false true true))

/-- START of RISER_SCRUB. -/
def execStartRiserScrub (d : Desc) (regions : BitVec 128) (s : State) : Out :=
  .next (s.take d false (fun s => s.startJob d (.riserScrub regions.toNat) false true true))

/-- START of ELEM_RETIRE: a cell 0-5,151, or a core input 0-591. -/
def execStartElemRetire (d : Desc) (index : Fin 8192) (restore port : Bool) (s : State) : Out :=
  .next (s.take d false (fun s =>
    s.startJob d (.elemRetire index.val restore port) true (decide (index.val < (if port then ports else cells))) true))

/-- START of BANK_RETIRE. -/
def execStartBankRetire (d : Desc) (bank : Fin 64) (s : State) : Out :=
  .next (s.take d false (fun s => s.startJob d (.bankRetire bank.val) true true true))

/-- START of REGION_RETIRE. -/
def execStartRegionRetire (d : Desc) (region : Fin 128) (s : State) : Out :=
  .next (s.take d false (fun s => s.startJob d (.regionRetire region.val) true true true))

/-- START of FLASK_MOVE: the target is a loop core that serves no other flask (R91, R92). -/
def execStartFlaskMove (d : Desc) (flask : Fin 64) (core : Fin 128) (s : State) : Out :=
  .next (s.take d false (fun s =>
    s.startJob d (.flaskMove flask.val core.val) true
      (decide (core.val < 72) && (s.flaskCore flask.val == core.val || !s.coreTaken core.val)) true))

/-- The number of a core from its type and its number in the type (Tables 11.12, 13.4). -/
def coreNumber (type n : Nat) : Option Nat :=
  if type = 0 ∧ n < 72 then some n else if type = 1 ∧ n < 8 then some (72 + n) else if type = 2 ∧ n < 2 then some (80 + n) else none

/-- START of CORE_RESTART. -/
def execStartCoreRestart (d : Desc) (number : Fin 128) (type : Fin 4) (s : State) : Out :=
  .next (s.take d false (fun s =>
    let n := coreNumber type.val number.val
    s.startJob d (.coreRestart (n.getD 0)) true n.isSome true))

/-- The spare of a tile that serves or shadows a channel, as its number in the tile. -/
def State.spareFor (s : State) (t ch : Nat) : Option Nat :=
  [0, 1, 2].find? (fun p => s.flag (F.tileSpareEn t p) && s.fld (F.tileSpareSrc t p) == ch)

/-- START of ADC_TAKEOVER: a takeover of a channel no spare serves; a return of one whose takeover's claim stands (R79, R80,
R273; log 88). -/
def execStartAdcTakeover (d : Desc) (tile : Fin 16) (channel : Fin 64) (ret : Bool) (s : State) : Out :=
  .next (s.take d false (fun s =>
    let own := s.spareFor tile.val channel.val
    let ok := match own with
      | some p => ret && (s.jobs.claim (8 + 3 * tile.val + p)).standing
      | none => !ret
    s.startJob d (.adcTakeover tile.val channel.val ret) true (decide (channel.val < 45) && ok) true))

/-! ## The end of a job -/

/-- Flasks first to n - 1 taken through the spare core that an activation of kind LOOP holds (R91, Table 12.8). -/
def State.renewFlasks (s : State) (j : Job) (first n : Nat) : State :=
  match (List.range 8).find? (s.holds j.id) with
  | some r => ((List.range n).drop first).foldl (fun (s : State) f => s.renewFlask (64 + r) f) s
  | none => s

/-- A job ended: beside its record, a FULL pass gives back what it holds, a survey pours the hold mould again, a DIE
activation that does not reach DONE reloads the standby die with the old image, and a LOOP activation restores the flasks it has
changed, the same way (R264, Tables 12.5, 12.8). -/
def State.endJob (s : State) (j : Job) (st : JobState) (cause : Nat) : State :=
  let s1 := match j.kind with
    | .calFull _ => s.dropPass j.id
    | .survey _ => if s.dev = 1 ∧ j.state ≠ JobState.queued then s.askHold else s
    | .fwActivate 2 _ => if st = JobState.done then s else s.renewFlasks j 0 j.progress
    | .fwActivate 1 _ => if st ≠ JobState.done ∧ 1 ≤ j.progress then ((s.loseStandby stNone 4 0).resetDie s.standbyDie) else s
    | _ => s
  ((s1.endJobRecord j st cause).calBusy).surveyFabric

/-! ## Opcodes on a job (R266, R267) -/

/-- The write-back about a job. -/
def about (result : Nat) (j : Job) (st : JobState) : WriteBack := { result := result, state := st.code, id := j.id, data := 0 }

/-- An opcode on the job of an ID, NO_JOB without one. -/
def State.onJob (s : State) (id : Nat) (f : Job → WriteBack × State) : WriteBack × State :=
  match findJob s.jobs.table id with
  | some j => f j
  | none => (plain rNoJob, s)

/-- SUSPEND (R266, R267). -/
def State.suspendJob (s : State) (j : Job) : WriteBack × State :=
  if j.state.terminal ∨ j.state = .cancelling ∨ (j.state = .running ∧ j.past) then (about rState j j.state, s)
  else
    let st := if j.state = .queued then .suspended else if j.state = .running then .suspending else j.state
    (about rOk j st, s.changeJob j.id (fun j => { j with hostSusp := true, state := st }))

def execSuspend (d : Desc) (job : BitVec 16) (s : State) : Out :=
  .next (s.take d false (fun s => s.onJob job.toNat s.suspendJob))

/-- RESUME (R266). -/
def State.resumeJob (s : State) (j : Job) : WriteBack × State :=
  if j.state ≠ .suspending ∧ j.state ≠ .suspended then (about rState j j.state, s)
  else
    let s1 := (s.changeJob j.id (fun j => { j with hostSusp := false })).requeue j.id
    let st := match findJob s1.jobs.table j.id with
      | some j1 => j1.state
      | none => j.state
    (about rOk j st, s1)

def execResume (d : Desc) (job : BitVec 16) (s : State) : Out :=
  .next (s.take d false (fun s => s.onJob job.toNat s.resumeJob))

/-- CANCEL (R267). -/
def State.cancelJob (s : State) (j : Job) : WriteBack × State :=
  if j.state.terminal ∨ j.state = .cancelling ∨ (j.state = .running ∧ j.past) then (about rState j j.state, s)
  else if j.state = .queued ∨ j.state = .suspended then (about rOk j .cancelled, s.endJob j .cancelled 0)
  else (about rOk j .cancelling, s.changeJob j.id (fun j => { j with state := .cancelling }))

def execCancel (d : Desc) (job : BitVec 16) (s : State) : Out :=
  .next (s.take d false (fun s => s.onJob job.toNat s.cancelJob))

/-- The claim a job waits for: the lowest member of its first need not met (Table 12.2). -/
def State.awaited (s : State) (j : Job) : Nat :=
  if j.state.terminal then 0xFF
  else match j.needs.find? (fun n => !n.any.any (s.holds j.id)) with
    | some n => n.any.headD 0xFF
    | none => 0xFF

/-- An entry freed: the job leaves the table; its write-backs and standing claims stay (R264, R273). -/
def State.freeEntry (s : State) (id : Nat) : State :=
  ({ s with jobs := { s.jobs with table := s.jobs.table.filter (fun j => j.id ≠ id) } }).countJobs

/-- QUERY: progress, objects in all, claim awaited, failure cause and the low half of the tag; a terminal job's entry is freed
(R264, Table 12.2; log 88). -/
def State.queryJob (s : State) (tag : Word) (j : Job) : WriteBack × State :=
  let data := clampNat 0 65535 j.progress + 65536 * clampNat 0 65535 j.total + 2 ^ 32 * s.awaited j + 2 ^ 40 * j.cause
    + 2 ^ 48 * (tag.toNat % 65536)
  ({ result := rOk, state := j.state.code, id := j.id, data := data }, if j.state.terminal then s.freeEntry j.id else s)

def execQuery (d : Desc) (job : BitVec 16) (s : State) : Out :=
  .next (s.take d true (fun s => s.onJob job.toNat (s.queryJob d.tag)))

/-! ## The configuration CRC (R292) and COMMIT_CONFIG (R268) -/

/-- The bits of a register's rw fields. -/
def rwMask (r : RegDesc) : Word :=
  (r.fields.filter (fun f => f.code == .rw)).foldl (fun w f => withBits w f.hi f.lo (2 ^ (f.hi + 1 - f.lo) - 1)) 0

/-- A number and its word put in their place in a list that rises. -/
def insertRising (x : Nat × Word) : List (Nat × Word) → List (Nat × Word)
  | [] => [x]
  | y :: ys => if x.1 < y.1 then x :: y :: ys else y :: insertRising x ys

/-- The c registers with the mask of their rw fields, in ascending offset. -/
def cfgRegs : List (Nat × Word) :=
  ((regTable.filter (·.cfg)).flatMap (fun r =>
    (List.range r.n1).flatMap (fun i => (List.range r.n2).map (fun j => (r.base + i * r.s1 + j * r.s2, rwMask r))))).foldl
    (fun l x => insertRising x l) []

/-- The running configuration CRC (R292). -/
def State.configCrc (s : State) : Word := crc32c (cfgRegs.flatMap (fun p => bytesOf (s.reg p.1 &&& p.2)))

/-- COMMIT_CONFIG: the CRC becomes the reference unless another was expected; DIRTY clears and ARMED is set (R268, R293). -/
def State.commitConfig (s : State) (useExpect : Bool) (expect : Word) : WriteBack × State :=
  let crc := s.configCrc
  if useExpect && expect != crc then ({ plain rCrc with data := crc.toNat }, s)
  else ({ plain rOk with data := crc.toNat }, ((s.setReg R.cfgRef crc).setFld F.cfgStatusDirty 0).setFld F.cfgStatusArmed 1)

def execCommitConfig (d : Desc) (useExpect : Bool) (expect : BitVec 32) (s : State) : Out :=
  .next (s.take d false (fun s => s.commitConfig useExpect expect))

/-- CFG_CRC_PASS: the result stands in CFG_CRC and a pass is counted; armed and clean, a difference from CFG_REF is a mismatch;
a pass during which DIRTY was set compares nothing (R293). -/
def State.crcPass (s : State) : State :=
  let crc := s.configCrc
  let s1 := (s.setReg R.cfgCrc crc).setFld F.cfgStatusPasses (s.fld F.cfgStatusPasses + 1)
  let dirty := s1.bus.passDirty || s1.flag F.cfgStatusDirty
  let s2 := { s1 with bus := { s1.bus with passDirty := false } }
  if s2.flag F.cfgStatusArmed && !dirty && crc != s2.reg R.cfgRef then
    ((s2.setFld F.cfgStatusMism 1).count F.cfgMismatchesCount 1).raise 0x100 3 0 crc
  else s2

def execCfgCrcPass (s : State) : Out := .next s.crcPass

/-! ## The work of jobs (Table 12.5, R270, R271, R55) -/

/-- The compile entries of a job. -/
def JobKind.entries : JobKind → List LibEntry
  | .mouldLib es => es
  | .heatLoad im => im.entries
  | _ => []

/-- Whether a compile of a job is waiting or running. -/
def State.compiling (s : State) (id : Nat) : Bool :=
  (s.moulds.waiting ++ s.moulds.running.toList).any (fun r => r.who == .library id)

/-- The next compile of a job asked for, its tag the job ID (Table 03.5). -/
def State.nextCompile (s : State) (j : Job) : State :=
  if s.compiling j.id ∨ j.cause ≠ 0 then s
  else match j.kind.entries[j.progress]? with
    | some e => s.request { who := .library j.id, target := e.target.toNat, base := e.base.map BitVec.toNat,
                            assign := e.assign.map BitVec.toNat, tag := word j.id, desc := 0 }
    | none => s

/-- JOB_RUN: a QUEUED job that holds its minimum claims becomes RUNNING (Table 12.4); a FULL pass begins with the check of REF_IN
(R118), calibration and surveys show in CAL_STATUS and FABRIC, and the first compile is asked for. -/
def State.runJob (s : State) (id : Nat) : State :=
  match findJob s.jobs.table id with
  | none => s
  | some j =>
    if j.state ≠ .queued ∨ !s.met j then s
    else
      let s1 := s.changeJob id (fun j => { j with state := .running })
      let s2 := match j.kind with
        | .calFull mask => if (s1.passOf id).isSome then s1 else s1.startPass id false (maskTiles mask)
        | _ => s1
      (s2.nextCompile j).calBusy.surveyFabric

def execJobRun (job : BitVec 16) (s : State) : Out := .next (s.runJob job.toNat)

/-- A register written by a job as a bus write would: its RSVD fields read zero (R5). -/
def State.jobReg (s : State) (off : Nat) (v : Word) : State :=
  s.setReg off (match findReg regTable off with
    | some (r, _, _) => v &&& rwMask r
    | none => v)

/-- A heat image written into the next bank with its base and configuration, and committed for PF0 (R270, R150). -/
def State.loadHeat (s : State) (im : HeatImage) : State :=
  let s1 := (im.records.zipIdx).foldl (fun (s : State) (x : BitVec 64 × Nat) => s.putRecord x.2 x.1) s
  let s2 := (List.range 3).foldl (fun (s : State) i => s.jobReg (R.heatNextBase i) (im.base.extractLsb' (32 * i) 32)) s1
  (s2.jobReg R.heatNextCfg im.cfg).heatGo true

/-- The layers of record i after a retirement recompile: its own routing around the cells retired now, over its base's. -/
def State.recompiledLayers (s : State) (gone : List Nat) : Nat → Nat → List (Option Nat × List Nat)
  | 0, i => [(if i = 0 then none else some (s.moulds.nextRoute + i), gone)]
  | n + 1, i =>
    (if i = 0 then none else some (s.moulds.nextRoute + i), gone) ::
      (match (s.mould i).base with
        | some b => s.recompiledLayers gone n b
        | none => [])

/-- One valid record recompiled around the retired cells with its permutation unchanged; one that can no longer be routed
becomes invalid, with a rejection entry (R53, R55). -/
def State.recompileRecord (s old : State) (gone : List Nat) (p : Nat × Mould) : State :=
  let (i, m) := p
  if !m.valid then s
  else if i = 0 ∨ routable gone m.perm then s.setMould i { m with layers := old.recompiledLayers gone s.moulds.store.length i }
  else
    (s.setMould i { m with valid := false }).rejectEntry i 0 rejNoroute ((unroutable gone m.perm).getD 0) 0

/-- A reserved mould that was not valid compiled again with every retirement: its own permutation, or a rejection entry (R51). -/
def State.recompileLost (s old : State) (gone : List Nat) (i : Nat) : State :=
  if (old.mould i).valid then s
  else
    let m := s.compiled { who := .retirement, target := i, base := none, assign := reservedAssign i, tag := 0, desc := 0 }
    if i = 0 ∨ routable gone m.perm then s.setMould i { m with layers := old.recompiledLayers gone 0 i }
    else s.rejectEntry i 0 rejNoroute ((unroutable gone m.perm).getD 0) 0

/-- Every valid record and every reserved mould recompiled around a set of retired cells, as one update (R51, R55, R271). -/
def State.recompileAll (s : State) (gone : List Nat) : State :=
  let s1 := { s with moulds := { s.moulds with retired := gone } }
  let s2 := (List.range 9).foldl (fun (x : State) i => x.recompileLost s gone i)
    (s.moulds.store.foldl (fun (x : State) p => x.recompileRecord s gone p) s1)
  { s2 with moulds := { s2.moulds with nextRoute := s.moulds.nextRoute + 8192 } }

/-- Whether every in-use mould keeps its permutation around a set of retired cells (R55). -/
def State.retirable (s : State) (gone : List Nat) : Bool :=
  s.moulds.store.all (fun p => p.1 == 0 || !p.2.valid || !s.inUse p.1 || routable gone p.2.perm)

/-- The two loops of a cell, or the loop of a core input, retired or back in service (Table 05.6). -/
def State.retireLoop (s : State) (l : Nat) (restore : Bool) : State :=
  s.changeLoop l (fun m => if restore then (if m.state = lRetired then m.relock else m) else m.put 0 2 0 lRetired)

/-- A cell put in its place among the retired ones. -/
def addRising (c : Nat) : List Nat → List Nat
  | [] => [c]
  | x :: xs => if c < x then c :: x :: xs else if c = x then x :: xs else x :: addRising c xs

/-- The work of ELEM_RETIRE; none where NOROUTE forbids it (R55, R271, R134). -/
def State.retire (s : State) (i : Nat) (restore port : Bool) : Option State :=
  if port then
    let ps := if restore then s.moulds.retiredPorts.filter (· ≠ i) else addRising i s.moulds.retiredPorts
    some (({ s with moulds := { s.moulds with retiredPorts := ps } }).retireLoop (10304 + i) restore)
  else
    let gone := if restore then s.moulds.retired.filter (· ≠ i) else addRising i s.moulds.retired
    if !restore && !s.retirable gone then none
    else
      let s1 := ((s.recompileAll gone).retireLoop (2 * i) restore).retireLoop (2 * i + 1) restore
      some (if restore then s1 else ((s1.dropCell i).zeroElement (2 * i)).zeroElement (2 * i + 1))

/-- A core restarted on both dies: its registers as after reset, its memories kept; a burst it had in progress is completed
(R253, R300; log 89). -/
def State.restartCore (s : State) (n : Nat) : State :=
  [Die.cope, Die.drag].foldl (fun (s : State) d =>
    let id := n + 128 * d.code
    let c := s.core id
    (s.resetMaster (BitVec.ofNat 8 id)).setCore id
      { Core.zero with mem := c.mem, code := c.code, bank0 := c.bank0, bank1 := c.bank1, cells0 := c.cells0, cells1 := c.cells1,
                       netNs := c.netNs, netSec := c.netSec, fseq := c.fseq }) s

/-- The work a job begins when it passes a safe point RUNNING. A HEAT_LOAD whose HOST = 1 is gone fails with cause STATE (Table 12.5;
log 123). -/
def State.pass (s : State) (j : Job) : State :=
  let past := fun (s : State) => s.changeJob j.id (fun j => { j with past := true })
  match j.kind with
  | .calFull _ => (s.trim j).claimAll j
  | .heatLoad im =>
    if !s.flag F.heatSchedHost then s.endJob j .failed 1
    else if j.progress < im.entries.length ∨ j.cause ≠ 0 then s.nextCompile j
    else if s.bankOpen then past (s.loadHeat im)
    else s
  | .mouldLib _ => s.nextCompile j
  | .fwActivate 1 _ =>
    if j.progress = 0 then
      ((s.loseStandby stNone 4 0).resetDie s.standbyDie).changeJob j.id (fun j => { j with progress := 1 })
    else if s.standbyReady && !s.cdBusy then past { s with cd := { s.cd with planned := some 4 } }
    else s
  | .fwActivate 3 _ =>
    past ((List.range 16).foldl (fun (s : State) k =>
      let id := 72 + k % 8 + 128 * (k / 8)
      s.setCore id { s.core id with policyWaits := true }) s)
  | .elemRetire _ _ _ | .coreRestart _ => past s
  | .imageLoad k b => past (s.setFld (slotFld k b) slotEmpty)
  | .flaskMove f c =>
    if s.flaskCore f = c then past s
    else if s.fld (F.loopFlaskMapState f) = hoIdle ∧ !s.coreTaken c then
      past (s.beginHandover f c)
    else s
  | .adcTakeover t ch ret =>
    let mc := BitVec.ofNat 8 (s.activeId 80)
    if ret then
      match s.spareFor t ch with
      | some p => past (s.spareWrite mc t p false ch)
      | none => past s
    else
      match [0, 1, 2].find? (fun p => s.holds j.id (8 + 3 * t + p)) with
      | some p => past (s.spareWrite mc t p true ch)
      | none => s
  | .bankRetire b => if s.ladle.retiringBanks.contains b then s else { s with ladle := { s.ladle with retiringBanks := b :: s.ladle.retiringBanks } }
  | .regionRetire r =>
    if s.ladle.retiringRegions.contains r then s else { s with ladle := { s.ladle with retiringRegions := r :: s.ladle.retiringRegions } }
  | .calTransfer _ | .survey _ | .riserScrub _ | .fwActivate _ _ => s

/-- Whether a job counts its own progress: its compiles, or the steps of a DIE activation. -/
def JobKind.counts : JobKind → Bool
  | .mouldLib _ | .heatLoad _ => true
  | .fwActivate k _ => k == 1
  | _ => false

/-- A job at a safe point, with the objects it has done (R265-R267, R269, R274): FAILED with cause STATE if its state has been
left, CANCELLED, SUSPENDED, or past it. A job past its last safe point has none (R267); between compiles means that none is
in progress. -/
def State.safePoint (s : State) (id progress : Nat) : State :=
  match findJob s.jobs.table id with
  | none => s
  | some j0 =>
    let waits := j0.state = .running ∧ !s.met j0
    if j0.past ∨ s.compiling id ∨ (j0.state ≠ .running ∧ j0.state ≠ .suspending ∧ j0.state ≠ .cancelling) then s
    else
      let n := if j0.kind.counts ∨ waits ∨ progress < j0.progress ∨ j0.total < progress then j0.progress else progress
      let j := { j0 with progress := n }
      let s0 := s.changeJob id (fun j => { j with progress := n })
      let s1 := match j0.kind with
        | .calFull _ => s0.passTo id n
        | .calTransfer mask => s0.transferFrom (maskTiles mask) j0.progress n
        | .fwActivate 2 _ => s0.renewFlasks j0 j0.progress n
        | .bankRetire b => ((s0.inBank b).take (n - j0.progress)).foldl (fun (s : State) id => s.migrate b id) s0
        | _ => s0
      if j.stateLeft then s1.endJob j .failed 1
      else if j.state = .cancelling then s1.endJob j .cancelled 0
      else if j.state = .suspending then
        ((s1.changeJob id (fun j => { j with state := .suspended })).giveUp j).calBusy.surveyFabric
      else if waits then s1
      else s1.pass j

def execJobSafePoint (job : BitVec 16) (progress : Nat) (s : State) : Out := .next (s.safePoint job.toNat progress)

/-- A claim made standing: the resource a DONE takeover or move goes on using (R273). -/
def State.makeStanding (s : State) (j : Job) (rs : List Nat) : State :=
  rs.foldl (fun (s : State) r => if s.holds j.id r then s.setClaim r { s.jobs.claim r with standing := true } else s) s

/-- Standing claims ended: those on spares that serve nothing any more (R273). -/
def State.endStandings (s : State) : State :=
  (List.range 56).foldl (fun (s : State) r =>
    let idle := if r < 8 then !s.coreTaken (64 + r) else s.fld (F.tileSpareState ((r - 8) / 3) ((r - 8) % 3)) == spIdle
    if (s.jobs.claim r).standing && idle then s.freeClaim r else s) s

/-- What a job's completed work changes, with the cause with which it fails instead of being DONE, 0 for none; none while its work is not
complete. A FULL pass to which a reference was not accepted fails with cause REF (Table 12.6; log 89). -/
def State.finish (s : State) (j : Job) : Option (Nat × State) :=
  match j.kind with
  | .calFull _ => some (match s.passOf j.id with
      | some p => (if p.refused || p.refOk != some true then 9 else 0, s.endPass j.id)
      | none => (0, s))
  | .calTransfer mask => some (0, s.transferFrom (maskTiles mask) j.progress j.total)
  | .survey _ | .riserScrub _ => some (0, s)
  | .mouldLib es => if s.compiling j.id ∨ j.progress < es.length then none else some (0, s)
  | .heatLoad _ =>
    if !j.past ∨ s.fld F.heatNextStatusState = heatValidating then none
    else if s.fld F.heatNextStatusState = heatRejected then some (4, s)
    else some (0, s)
  | .fwActivate 1 b => if j.past ∧ s.cd.planned.isNone ∧ s.cd.gap.isNone then some (0, (s.activateSlot 1 b)) else none
  | .fwActivate 3 b =>
    if j.past ∧ s.cores.all (fun p => !p.2.policyWaits) then some (0, (s.activateSlot 3 b)) else none
  | .fwActivate 2 b => some (0, (s.renewFlasks j j.progress 64).activateSlot 2 b)
  | .fwActivate k b => some (0, (s.activateSlot k b))
  | .elemRetire i restore port =>
    if !j.past ∨ (!port && s.moulds.running.isSome) then none
    else some (match s.retire i restore port with
      | some s1 => (0, s1)
      | none => (3, s))
  | .bankRetire b =>
    if !s.ladle.retiringBanks.contains b then none
    else
      let s1 := (((s.inBank b).foldl (fun (s : State) id => s.migrate b id) s).migrateMarks b)
      if !(s1.inBank b).isEmpty then none
      else some (0, { s1 with ladle := { s1.ladle with retiredBanks := addRising b s1.ladle.retiredBanks } })
  | .regionRetire r =>
    if !s.ladle.retiringRegions.contains r then none else some (0, { s with ladle := { s.ladle with retiredRegions := addRising r s.ladle.retiredRegions } })
  | .flaskMove f c =>
    if j.past ∧ s.flaskCore f = c ∧ s.fld (F.loopFlaskMapState f) = hoIdle then some (0, (s.makeStanding j [c - 64]).endStandings) else none
  | .coreRestart n => if j.past then some (0, (s.restartCore n)) else none
  | .adcTakeover t ch ret =>
    match ret, s.spareFor t ch with
    | false, some p => if j.past ∧ s.fld (F.tileSpareState t p) = spServing then some (0, (s.makeStanding j [8 + 3 * t + p])) else none
    | true, none =>
      if j.past ∧ [0, 1, 2].all (fun p => s.fld (F.tileSpareState t p) != spReturning || s.fld (F.tileSpareSrc t p) != ch) then
        some (0, s.endStandings)
      else none
    | _, _ => none
  | .imageLoad k b => if j.past then some (0, (s.setFld (slotFld k b) slotValid)) else none

/-- GLB_BOOT after an activation: the slot of its kind that runs now (Table 17.7). -/
def State.bootSlot (s : State) (k : Nat) (b : Bool) : State :=
  let bit := 2 ^ (k - 1)
  let own := s.fld F.glbBootSlot / bit % 2
  s.setFld F.glbBootSlot (s.fld F.glbBootSlot - own * bit + b2n b * bit)

/-- The next bank left EMPTY by a HEAT_LOAD that fails, where it is not another commit's (R270). -/
def State.heatFailed (s : State) (k : JobKind) : State :=
  match k with
  | .heatLoad _ => if !s.bankOpen then s else let s1 := s.nextState heatEmpty; { s1 with heats := { s1.heats with next := [] } }
  | _ => s

/-- The slot that runs after an activation. -/
def State.slotRuns (s : State) (k : JobKind) : State :=
  match k with
  | .fwActivate k b => s.bootSlot k b
  | _ => s

/-- JOB_COMPLETE: the work of a job that runs ends, DONE or FAILED; what a compile or a heat was rejected for fails it with
cause REJECTED, and leaves the next bank EMPTY (R265, R267, R270). -/
def State.completeJob (s : State) (id : Nat) (result : JobEnd) : State :=
  match findJob s.jobs.table id with
  | none => s
  | some j =>
    if j.state ≠ .running ∧ j.state ≠ .suspending ∧ j.state ≠ .cancelling then s
    else if j.cause ≠ 0 then (s.heatFailed j.kind).endJob j .failed j.cause
    else match result with
      | .failed c => s.endJob j .failed c.val
      | .done =>
        match s.finish j with
        | none => s
        | some (0, s1) => ((s1.slotRuns j.kind).changeJob id (fun j => { j with progress := j.total })).endJob j .done 0
        | some (c, s1) => (s1.heatFailed j.kind).endJob j .failed c

def execJobComplete (job : BitVec 16) (result : JobEnd) (s : State) : Out := .next (s.completeJob job.toNat result)

/-- JOB_ENTRY_FREE: 10 s after the terminal state (R264). -/
def execJobEntryFree (job : BitVec 16) (s : State) : Out :=
  .next (match findJob s.jobs.table job.toNat with
    | some j => if j.state.terminal then (s.untilNow (j.endedAt + 10 * second)).freeEntry j.id else s
    | none => s)

/-! ## Flow edits (R278) -/

/-- JOB_FLOW_EDIT: the masked bits of VALID, RESEQ and HEAVY_PIN (Table 12.22). -/
def State.flowEdit (s : State) (v : Word) : State :=
  if !bitOf v 31 then s
  else
    let f := bitsOf v 20 0
    let x := s.flow f
    s.setFlow f { x with
      valid := if bitOf v 27 then bitOf v 30 else x.valid
      reseq := if bitOf v 26 then bitOf v 29 else x.reseq
      pin := if bitOf v 25 then bitOf v 28 else x.pin }

def execJobFlowEdit (m : Master) (v : Word) (s : State) : Out := .next (s.atReg m R.jobFlowEdit (fun s => s.flowEdit v))

/-! ## Views -/

/-- JOB_CLAIMr (Table 12.24). -/
def State.claimWord (s : State) (r : Nat) : Word :=
  let c := s.jobs.claim r
  let (holder, id) := match c.holder with
    | none => (0, 0)
    | some (.job i _) => (1, i)
    | some .host => (2, 0)
    | some .engine => (3, 0)
  word (holder * 2 ^ 30 + b2n c.standing * 2 ^ 29 + clampNat 0 31 c.fifo.length * 2 ^ 24 + id)

end Sys2Proof.Machine
end

