-- ==== Sys2Proof/Machine/Registers.lean ====
section
/-!
DEFINITION. The register space as masters see it: writes by access code and the effects of the registers that have one
(R281-R284, Table 13.5, Table 00.6), and what a register reads as where its word is computed from the state.
-/
namespace Sys2Proof.Machine

/-! ## Writes by access code (R284) -/

/-- A field after a write: rw and cnt take the value written, w1c clears on all ones, mw takes the bits selected by the upper
half; ro, wo and reserved bits keep what they hold. -/
def FieldDesc.write (f : FieldDesc) (old v : Word) : Word :=
  match f.code with
  | .rw | .cnt => withBits old f.hi f.lo (bitsOf v f.hi f.lo)
  | .w1c => if bitsOf v f.hi f.lo = 2 ^ (f.hi + 1 - f.lo) - 1 then withBits old f.hi f.lo 0 else old
  | .mw =>
    let sel := if f.lo = 0 then (v >>> 16) &&& 0xFFFF#32 else 0
    (old &&& ~~~sel) ||| (v &&& sel)
  | .ro | .wo | .none => old

/-- A register after a write: each field by its own code. -/
def RegDesc.write (r : RegDesc) (old v : Word) : Word := r.fields.foldl (fun w f => f.write w v) old

/-- A write applied by the access codes; a c register becomes dirty even when its value stays (R293). -/
def State.codeWrite (s : State) (r : RegDesc) (off : Nat) (v : Word) : State := (s.setReg off (r.write (s.reg off) v)).markDirty off

/-! ## Registers whose writes do more -/

/-- A write of GLB_RESET: GO and the key, then the command; what RCV_LOAD finds in the image is the environment's, so free
here (Table 17.6, log 90). -/
def State.resetWrite (s : State) (m : Master) (v : Word) : State :=
  if !bitOf v 31 then s
  else if bitsOf v 15 0 ≠ resetKey then s.refuseReg m R.glbReset
  else if bitsOf v 30 28 = 1 then s.warmReset
  else if bitsOf v 30 28 = 2 then s.cold
  else if bitsOf v 30 28 = 3 then
    let (x, s1) := s.freeNat
    s1.rcvLoad m (bitsOf v 25 24) (bitOf v 23) (x % 256) (x.testBit 8) (x.testBit 9)
  else s.refuseReg m R.glbReset

/-- A write of LOCK_CMD: the 128 bits of a challenge are the entropy source's, so free here; other commands are none
(Table 17.10, log 93). -/
def State.lockWrite (s : State) (m : Master) (v : Word) : State :=
  if unitOf m ≠ mPF0 ∧ unitOf m ≠ mDebug then s.refuse (regAccess m R.lockCmd) kProtect
  else if !bitOf v 31 then s
  else
    match bitsOf v 26 24 with
    | 1 =>
      let (a, s1) := s.freeWord
      let (b, s2) := s1.freeWord
      let (c, s3) := s2.freeWord
      let (d, s4) := s3.freeWord
      s4.challenge (((d ++ c) ++ b) ++ a)
    | 2 => s.respondG (bitsOf v 9 8)
    | 3 => s.respondC (bitsOf v 9 8)
    | 4 => s.password (bitsOf v 5 0)
    | 5 => s.lockCloses
    | _ => s

/-- A write of LOCK_RESPn; PF0 and the debug port alone may make it (R356). The bytes are held for the next attempt. -/
def State.respWrite (s : State) (m : Master) (off : Nat) (v : Word) : State :=
  if unitOf m ≠ mPF0 ∧ unitOf m ≠ mDebug then s.refuse (regAccess m off) kProtect else s.setReg off v

/-- A write of CD_CMD (Table 15.11). -/
def State.cdWrite (s : State) (m : Master) (v : Word) : State :=
  if !bitOf v 31 then s
  else
    match bitsOf v 1 0 with
    | 1 => s.cdSwitch
    | 2 => s.cdRemove
    | 3 => s.cdRejoin
    | _ => s.refuseReg m R.cdCmd

/-- A write of HEAT_COMMIT; GO and CANCEL together are discarded (Table 07.36). -/
def State.commitWrite (s : State) (m : Master) (v : Word) : State :=
  if bitOf v 31 && bitOf v 30 then s.refuseReg m R.heatCommit
  else if bitOf v 31 then s.commitBy m
  else if bitOf v 30 then s.cancelBy m
  else if !s.heatWriter m then s.refuseReg m R.heatCommit
  else s

/-- A write of HEAT_SCHED: one with an EPOCH that is no divisor is discarded whole (Table 07.26). -/
def State.schedWrite (s : State) (r : RegDesc) (m : Master) (v : Word) : State :=
  if epochOk (bitsOf v 19 0) then s.codeWrite r R.heatSched v else s.refuseReg m R.heatSched

/-- A write of a word of the base heat start time: SET once all three have been written (Table 07.32, R159). -/
def State.baseWrite (s : State) (r : RegDesc) (off n : Nat) (v : Word) : State :=
  let done := n :: s.heats.baseWritten.filter (· ≠ n)
  let s1 := s.codeWrite r off v
  let s2 := { s1 with heats := { s1.heats with baseWritten := done } }
  if done.length = 3 then s2.setFld F.heatRunBase2Set 1 else s2

/-- A write of HEAT_NEXT_BASEn or HEAT_NEXT_CFG: by the one writer, while the next bank is EMPTY or REJECTED (R150). -/
def State.nextWrite (s : State) (r : RegDesc) (m : Master) (off : Nat) (v : Word) : State :=
  if s.heatWriter m && s.bankOpen then s.codeWrite r off v else s.refuseReg m off

/-- A write of LAD_SWAPs: with GO a swap or a return is armed; without it EN and FROM are written (R197, R198; log 93). -/
def State.swapWrite (s : State) (r : RegDesc) (m : Master) (off sp : Nat) (v : Word) : State :=
  if !bitOf v 31 then s.codeWrite r off v
  else if bitOf v 30 then s.swapOn m sp (bitsOf v 5 0)
  else s.swapOff m sp (bitsOf v 5 0)

/-- A write of LSV_QCFGq: a queue that becomes strict leaves its active list, and one that ceases to be joins it (R221). -/
def State.queueCfgWrite (s : State) (r : RegDesc) (off q : Nat) (v : Word) : State :=
  let s1 := if bitOf v 31 then s.leaveActive q else s
  (s1.codeWrite r off v).joinActive q

/-- A write of a job ring's base: only while EN = 0; [5:0] of the low word are zero (Table 12.13). -/
def State.ringBaseWrite (s : State) (r : RegDesc) (m : Master) (off p : Nat) (low : Bool) (v : Word) : State :=
  if s.flag (ringEn p) then s.refuseReg m off else s.codeWrite r off (if low then v &&& 0xFFFFFFC0#32 else v)

/-- A write of EVT_RINGt_l_BASE: discarded and logged while EN = 1; [5:0] of the low word, and the high word of a management
core's ring, are zero (Table 14.13). -/
def State.eventBaseWrite (s : State) (r : RegDesc) (m : Master) (off t l : Nat) (low : Bool) (v : Word) : State :=
  if s.flag (F.evtRingCtrlEn t l) then s.refuseReg m off
  else s.codeWrite r off (if low then v &&& 0xFFFFFFC0#32 else if t < 2 then v else 0)

/-- A write of FLT_SRCn: actions and count by their codes, then the status bits written 1 (R335, Table 16.11). -/
def State.sourceWrite (s : State) (r : RegDesc) (off n : Nat) (v : Word) : State :=
  let keep := { r with fields := r.fields.filter (fun f => f.code != Code.w1c) }
  ((s.codeWrite keep off v).clearStatus n (v.extractLsb' 24 4)).thermalKeeps

/-- A write of BUS_STATUS: FORCED by its code; BOOTED set by management firmware (R298, Table 13.21). -/
def State.busStatusWrite (s : State) (r : RegDesc) (m : Master) (v : Word) : State :=
  let s1 := s.codeWrite r R.busStatus v
  if bitOf v 31 && s.firmwareCore m 0x50 0x51 then s1.setFld F.busStatusBooted 1 else s1

/-- A write of LOOP_CMD (Table 05.11). -/
def State.loopCmdWrite (s : State) (m : Master) (v : Word) : State :=
  if bitOf v 31 then s.loopCmd m (bitsOf v 18 16) (bitsOf v 13 0) else s

/-- A write of LOOP_FLASK_MAPf: with GO a handover; without it NEXT and SHADOW are written (R91, Table 05.25). -/
def State.mapWrite (s : State) (r : RegDesc) (m : Master) (off f : Nat) (v : Word) : State :=
  if bitOf v 31 then s.handover m f (bitsOf v 14 8) (bitsOf v 27 24) else s.codeWrite r off v

/-- The effect of a 32-bit write on a register it may write, by the register's map and indices. -/
def State.regEffect (s : State) (m : Master) (r : RegDesc) (i j off : Nat) (v : Word) : State :=
  let b := r.base
  if b = R.glbStateReq then s.stateReq v
  else if b = R.glbReset then s.resetWrite m v
  else if b = R.jobRing0BaseLo then s.ringBaseWrite r m off 0 true v
  else if b = R.jobRing0BaseHi then s.ringBaseWrite r m off 0 false v
  else if b = R.jobRing1BaseLo then s.ringBaseWrite r m off 1 true v
  else if b = R.jobRing1BaseHi then s.ringBaseWrite r m off 1 false v
  else if b = R.jobRing0Ctrl then s.jobRingCtrl 0 v
  else if b = R.jobRing1Ctrl then s.jobRingCtrl 1 v
  else if b = R.jobFlowEdit then s.flowEdit v
  else if b = R.heatSched then s.schedWrite r m v
  else if b = R.heatRunBase 0 then s.baseWrite r off i v
  else if b = R.heatRunBase2 then s.baseWrite r off 2 v
  else if b = R.heatNextBase 0 ∨ b = R.heatNextCfg then s.nextWrite r m off v
  else if b = R.heatCommit then s.commitWrite m v
  else if b = R.mldPilotCtrl then s.pilotCtrl v
  else if b = R.mldCmpReq then s.cmpReq v
  else if b = R.loopCmd then s.loopCmdWrite m v
  else if b = R.loopPortTgt 0 then (s.codeWrite r off v).setPset i
  else if b = R.loopFlaskMap 0 then s.mapWrite r m off i v
  else if b = R.calLegData0 then s.legWrite0 m v
  else if b = R.calLegData1 then s.legWrite1 m v
  else if b = R.tileEoSpan 0 0 then s.spanWord i j v
  else if b = R.tileUrgReq 0 then s.urgReq i v
  else if b = R.tileSpare 0 0 then s.spareWrite m i j (bitOf v 31) (bitsOf v 5 0)
  else if b = R.ladGrpCommit then s.grpCommit v
  else if b = R.ladSwap 0 then s.swapWrite r m off i v
  else if b = R.lsvQcfg 0 then s.queueCfgWrite r off i v
  else if b = R.busRemap then s.remapWrite m v
  else if b = R.busSlice then s.sliceWrite m v
  else if b = R.busStatus then s.busStatusWrite r m v
  else if b = R.evtTgtCtrl 0 then s.redirWrite m i v
  else if b = R.evtTgtEoi 0 then s.eoiBy m i
  else if b = R.evtRingBaseLo 0 0 then s.eventBaseWrite r m off i j true v
  else if b = R.evtRingBaseHi 0 0 then s.eventBaseWrite r m off i j false v
  else if b = R.evtRingCtrl 0 0 then s.ringCtrlWrite i j v
  else if b = R.evtRingHead 0 0 then s.ringHeadWrite i j v
  else if b = R.cdCmd then s.cdWrite m v
  else if b = R.fltErrHold then (s.codeWrite r off v).errSettle
  else if b = R.fltSrc 0 then s.sourceWrite r off i v
  else if b = R.lockCmd then s.lockWrite m v
  else if b = R.lockResp 0 then s.respWrite m off v
  else s.codeWrite r off v

/-- A 32-bit write to an offset (R280-R282). -/
def State.writeReg (s : State) (m : Master) (off : Nat) (v : Word) : State :=
  match findReg regTable off with
  | none => if s.answers m then s.refuse (regAccess m off) kDecode else s
  | some (r, i, j) => s.atReg m off (fun s => s.regEffect m r i j off v)

/-! ## Accesses by shape (R283, Table 13.5) -/

/-- Whether a write is aligned (R283). -/
def isAligned (w : BusWrite) : Bool :=
  w.shapeOk && (if w.size ≤ 8 then (w.size == 1 || w.size == 2 || w.size == 4 || w.size == 8) && w.off % w.size == 0
    else w.off % 4 == 0 && w.size % 4 == 0)

/-- The 32-bit writes of a write of whole words, in ascending address order. -/
def writeWords (w : BusWrite) : List (Nat × Word) :=
  (List.range (w.size / 4)).map (fun k => (w.off + 4 * k, BitVec.ofNat 32 (w.value / 2 ^ (32 * k))))

/-- The Max Payload Size each function supports, in bytes (R289). -/
abbrev maxPayload : Nat := 512

/-- A write to register space: unaligned and narrow writes are discarded and logged; wider ones are 32-bit writes one after
another, logged once (Table 13.5, R339). A longer request than the Max Payload Size never arrives (R289). -/
def State.busWrite (s : State) (m : Master) (w : BusWrite) : State :=
  let a : Access := { regAccess m w.off with size := w.size }
  if !s.answers m ∨ maxPayload < w.size then s
  else if !s.blockOpen m w.off then (s.hostWaits m).refuse a kDecode
  else if !isAligned w then (s.hostWaits m).refuse a kAlign
  else if w.size < 4 then (s.hostWaits m).refuse a kWidth
  else (s.hostWaits m).inHand a (fun s => (writeWords w).foldl (fun (s : State) p => s.writeReg m p.1 p.2) s)

/-- REGISTER_WRITE. -/
def execRegisterWrite (m : Master) (w : BusWrite) (s : State) : Out := .next (s.busWrite m w)

/-! ## Reads -/

/-- LOOP_QUERY_RES for the loop in LOOP_QUERY, as of the latest completed pass; an index beyond the loops reads zero, which the
spec does not state (Table 05.15; log 107). -/
def State.queryWord (s : State) : Word := s.loops.passed.get (fun _ => 0) (s.fld F.loopQueryIndex)

/-- What wo fields contribute to a read: nothing (R284). -/
def RegDesc.readable (r : RegDesc) (w : Word) : Word :=
  r.fields.foldl (fun w f => if f.code = .wo then withBits w f.hi f.lo 0 else w) w

/-- What a register reads as: its word, or, where the engine computes it from other state, that (R284, R286). -/
def State.readWord (s : State) (r : RegDesc) (i off : Nat) : Word :=
  let b := r.base
  if b = R.timStatus then s.refreshErr.reg R.timStatus
  else if b = R.timNow 0 ∧ i = 0 then word s.netNs
  else if b = R.heatAct 0 ∧ i = 0 then word (s.actInstant % second)
  else if b = R.loopQueryRes then s.queryWord
  else if b = R.loopPathStat 0 ∧ !s.pathOn then withBits (s.reg off) 31 30 0
  else if b = R.calLegData0 then s.legData0
  else if b = R.calLegData1 then s.legData1
  else if b = R.ladOcc then word (b2n s.globalXoff * 2 ^ 31 + s.onchipCells)
  else if b = R.ladRiserOcc then word s.riserCells
  else if b = R.lsvLaneRes then s.laneRes
  else if b = R.jobClaim 0 then s.claimWord i
  else if b = R.evtStatus then withBits (s.reg off) 12 0 s.events.buffer.length
  else if b = R.evtTgtStack 0 then s.stackWord i
  else if b = R.fltSummary then s.fltSummary
  else if b = R.lockStatus then s.lockStatusWord
  else r.readable (s.reg off)

/-- A read of a register by a privileged master: its word and the read's side effect, or an error response (R281, R286,
R308). -/
def State.readReg (s : State) (m : Master) (off : Nat) : Option Word × State :=
  let a : Access := { regAccess m off with write := false }
  match findReg regTable off with
  | none => (none, s.refuse a kDecode)
  | some (r, i, _) =>
    if !s.blockOpen m off then (none, s.refuse a kDecode)
    else if r.base = R.evtTgtAccept 0 then
      if s.targetMaster i m then
        let s1 := s.accept i
        (some (s1.reg off), s1)
      else (some 0, s)
    else
      let w := s.readWord r i off
      if off = R.timNow 0 then (some w, s.latchTime R.timNow s.time.net)
      else if off = R.heatAct 0 then (some w, s.latchTime R.heatAct s.actInstant)
      else (some w, s)

end Sys2Proof.Machine
end

