-- ==== Sys2Proof/Machine/Windows.lean ====
section
/-!
DEFINITION. The memory windows of BAR2 (R288, R289, Table 13.3): what each holds as words, and what a write changes. The
same memories are reached by cores at the addresses of Tables 11.14 and 11.16 (Machine/ClobyMem.lean).
-/
namespace Sys2Proof.Machine

/-! ## Contents as words -/

/-- The words of a mould record (R47, R48, Table 03.1). -/
def mouldWord (i : Nat) (m : Mould) (k : Nat) : Word :=
  if k = 0 then word (i + b2n m.valid * 2 ^ 13 + b2n m.partialReq * 2 ^ 14 + b2n m.base.isSome * 2 ^ 15 + m.base.getD 0 * 2 ^ 16)
  else if k = 1 then word m.assigned
  else word ((List.range 16).foldl (fun a c => a + m.cell (16 * (k - 2) + c) * 4 ^ c) 0)

/-- The words of a permutation table entry (R50). -/
def permWord (m : Mould) (k : Nat) : Word := (packRequest m.perm).getD k 0

/-- The words of a rejection ring entry (Table 03.5). -/
def rejectWord (e : Word × Word × Word) (k : Nat) : Word :=
  match k with
  | 0 => e.1
  | 1 => e.2.1
  | 2 => e.2.2
  | _ => 0

/-- A word of the mould store by its byte offset (Table 03.3). -/
def State.storeRead (s : State) (off : Nat) : Word :=
  if off < 0xA20000 then
    let i := off / 1296
    mouldWord i (s.mould i) (off % 1296 / 4)
  else if off < 0x1020000 then
    let x := off - 0xA20000
    permWord (s.mould (x / 768)) (x % 768 / 4)
  else if off < 0x1030000 then
    let b := 8 * (off - 0x1020000)
    word ((s.moulds.retired.filter (fun c => decide (b ≤ c ∧ c < b + 32))).foldl (fun a c => a + 2 ^ (c - b)) 0)
  else if off < 0x1040000 then
    let x := off - 0x1030000
    rejectWord (s.moulds.rejects.get (fun _ => (0, 0, 0)) (x / 16)) (x % 16 / 4)
  else s.areaWord (off / 4 * 4)

/-- The two halves of a record of a heat bank. -/
def halfRecord (v : BitVec 64) (high : Bool) : Word := if high then v.extractLsb' 32 32 else v.extractLsb' 0 32

/-- A word of the calibration store by its byte offset (Tables 06.5, 06.6, R138). -/
def State.calRead (s : State) (off : Nat) : Word :=
  if off < 41216 then s.qualityAt (off / 4)
  else if 0x10000 ≤ off ∧ off < 0x10940 then s.qualityAt (20000 + (off - 0x10000) / 4)
  else if 0x11000 ≤ off ∧ off < 0x11C00 then s.qualityAt (30000 + (off - 0x11000) / 4)
  else if 0x12000 ≤ off ∧ off < 0x12120 then
    let (n, t) := s.cal.chain.get (fun _ => (0, 0)) ((off - 0x12000) / 16)
    match off % 16 / 4 with
    | 0 => word n
    | 1 => word (t % second)
    | 2 => word (t / second)
    | _ => word (t / second / 2 ^ 32 % 65536)
  else if 0x20000 ≤ off ∧ off < 0x20000 + 82432 then
    let c := s.codes ((off - 0x20000) / 8)
    if off % 8 < 4 then word (unsigned 16 c.cross6 + 65536 * unsigned 16 c.bar6)
    else word (unsigned 16 c.cross12 + 65536 * unsigned 16 c.bar12)
  else 0

/-- The sizes of the tables on the ladle die, in bytes (Table 13.3). -/
abbrev queueTable : Nat := 278528
abbrev groupTable : Nat := 1310720

/-- A word at an offset of BAR2 between 0x0800_0000 and 0x0FFF_FFFF, where one is mapped. -/
def State.ladleRead (s : State) (off : Nat) : Option Word :=
  if off < 0x0800_0000 then none
  else if off < 0x0C00_0000 then some ((s.flow ((off - 0x0800_0000) / 32)).word (off % 32 / 4))
  else if off < 0x0C00_0000 + queueTable then some (s.queueWord ((off - 0x0C00_0000) / 16) (off % 16 / 4))
  else if 0x0C10_0000 ≤ off ∧ off < 0x0C10_0000 + groupTable then
    some ((s.group ((off - 0x0C10_0000) / 80)).word ((off - 0x0C10_0000) % 80 / 4))
  else if 0x0C30_0000 ≤ off ∧ off < 0x0C30_0050 then some (s.ladle.shadow.get (fun _ => 0) ((off - 0x0C30_0000) / 4))
  else none

/-! ## Writes -/

/-- A word with n bytes from byte b on replaced (R289). -/
def mergeBytes (old : Word) (b n v : Nat) : Word := withBits old (8 * (b + n) - 1) (8 * b) v

/-- What a write of n bytes changes: its place inside its word, its bytes, and the access it is. -/
structure Piece where
  off : Nat
  n : Nat
  v : Nat
  access : Access
deriving DecidableEq, Repr

/-- The old word with a piece written into it. -/
def Piece.into (p : Piece) (old : Word) : Word := mergeBytes old (p.off % 4) p.n p.v

/-- A record of the next heat bank with a piece written into it (R150). -/
def State.bankPiece (s : State) (m : Master) (p : Piece) (off : Nat) : State :=
  let j := off / 8
  let v := s.heats.next.get (fun _ => 0) j
  let w := p.into (halfRecord v (off % 8 / 4 == 1))
  s.bankWrite m p.access j (if off % 8 < 4 then (halfRecord v true) ++ w else w ++ (halfRecord v false))

/-- A piece of the queue table: in word 0 it changes PROFILE alone, which takes effect at the queue's next enqueue; other words are not
written (R204, R288). -/
def State.queuePiece (s : State) (p : Piece) (off : Nat) : State :=
  let q := off / 16
  if off % 16 / 4 ≠ 0 then s.refuse p.access kProtect
  else s.setQueue q { s.queue q with profile := bitsOf (p.into (s.queueWord q 0)) 27 24 }

/-- A piece of the group table: DROPS alone, and zero alone (R288, Table 13.3). -/
def State.groupPiece (s : State) (p : Piece) (off : Nat) : State :=
  let g := off / 80
  if off % 80 / 4 ≠ 17 ∨ p.v ≠ 0 then s.refuse p.access kProtect
  else s.setGroup g { s.group g with drops := (p.into (word (s.group g).drops)).toNat }

/-- A word of the shadow entry written. -/
def State.shadowPiece (s : State) (p : Piece) (k : Nat) : State :=
  { s with ladle := { s.ladle with shadow := s.ladle.shadow.set (fun _ => 0) k (p.into (s.ladle.shadow.get (fun _ => 0) k)) } }

/-- A word of the mould store's working areas written (Table 03.3). -/
def State.areaPiece (s : State) (p : Piece) (off : Nat) : State :=
  let k := off / 4 * 4
  { s with moulds := { s.moulds with area := s.moulds.area.set (fun _ => 0) k (p.into (s.areaWord k)) } }

/-- A piece of a flask data memory: loop records but for word 0x00 (R98, Table 13.3). -/
def State.flaskPiece (s : State) (p : Piece) (k off : Nat) : State :=
  if 0x1600 ≤ off ∨ off % 32 < 4 then s.refuse p.access kProtect
  else s.storeWord k s.activeDie (off / 4 * 4) (p.into (s.getWord k s.activeDie (off / 4 * 4)))

/-- Whether BAR2 maps an offset (Table 13.3). -/
def mapped (off : Nat) : Bool :=
  decide (off < 0x1800000) || decide (0x2000000 ≤ off ∧ off < 0x2040000) || decide (0x2100000 ≤ off ∧ off < 0x2110000)
    || decide (0x4000000 ≤ off ∧ off < 0x4480000) || decide (0x5000000 ≤ off ∧ off < 0x5480000)
    || decide (0x8000000 ≤ off ∧ off < 0xC000000 + queueTable) || decide (0xC100000 ≤ off ∧ off < 0xC100000 + groupTable)
    || decide (0xC300000 ≤ off ∧ off < 0xC300050) || decide (0x10000000 ≤ off ∧ off < 0x18000000)

/-- A piece written to the tables on the ladle die, by its BAR2 offset (R204, R212, R278, R288). -/
def State.ladlePiece (s : State) (p : Piece) (off : Nat) : State :=
  if !mapped off then s.refuse p.access kDecode
  else if 0xC000000 ≤ off ∧ off < 0xC000000 + queueTable then s.queuePiece p (off - 0xC000000)
  else if 0xC100000 ≤ off ∧ off < 0xC100000 + groupTable then s.groupPiece p (off - 0xC100000)
  else if 0xC300000 ≤ off ∧ off < 0xC300050 then s.shadowPiece p ((off - 0xC300000) / 4)
  else s.refuse p.access kProtect

/-- The recovery buffer in recovery mode (R353). -/
abbrev rcvBuffer : Nat := 0x800000

/-- A piece written by the host. -/
def State.bar2Piece (s : State) (m : Master) (p : Piece) : State :=
  let off := p.off
  let rcv := s.flag F.glbBootRcv && decide (off < rcvBuffer)
  if unitOf m = mDebug ∧ !s.lockOpen then s.refuse p.access kDecode
  else if !mapped off then s.refuse p.access kDecode
  else if !s.privileged m then s.refuse p.access kPriv
  else if rcv then s.putWord sramUnit s.activeDie (off / 4 * 4) (p.into (s.getWord sramUnit s.activeDie (off / 4 * 4)))
  else if 0x1040000 ≤ off ∧ off < 0x1050000 then s.areaPiece p off
  else if 0x2108000 ≤ off ∧ off < 0x2110000 then s.bankPiece m p (off - 0x2108000)
  else if 0x4000000 ≤ off ∧ off < 0x4480000 then s.flaskPiece p ((off - 0x4000000) / 0x10000) (off % 0x10000)
  else if 0x8000000 ≤ off ∧ off < 0x10000000 then s.ladlePiece p off
  else s.refuse p.access kProtect

/-- The pieces of a write: itself when it has at most 4 bytes, words in ascending address order otherwise (R289). -/
def writePieces (w : BusWrite) (a : Access) : List Piece :=
  if w.size < 4 then [{ off := w.off, n := w.size, v := w.value % 2 ^ (8 * w.size), access := a }]
  else (writeWords w).map (fun p => { off := p.1, n := 4, v := p.2.toNat, access := a })

/-- A write to BAR2 (R288, R289). -/
def State.bar2Write (s : State) (m : Master) (w : BusWrite) : State :=
  let a : Access := { master := m, space := if unitOf m = mDebug then 4 else 1, addr := w.off, size := w.size, write := true }
  if !s.answers m ∨ maxPayload < w.size then s
  else if !isAligned w then (s.hostWaits m).refuse a kAlign
  else (s.hostWaits m).inHand a (fun s => (writePieces w a).foldl (fun (s : State) p => s.bar2Piece m p) s)

/-- BAR2_WRITE. -/
def execBar2Write (m : Master) (w : BusWrite) (s : State) : Out := .next (s.bar2Write m w)

end Sys2Proof.Machine
end

