-- ==== Sys2Proof/Machine/ClobyMem.lean ====
section
/-!
DEFINITION. Loads, stores and control flow of the Cloby instruction set, and the memory maps of the cores (R237, R240, R241,
R254, R255, Tables 11.7, 11.14 to 11.16).
-/
namespace Sys2Proof.Machine

/-! ## Memory maps -/

/-- What an address of a core names: a memory and an offset in it (Tables 11.14, 11.16). -/
inductive Place where
  | flask (off : Nat)
  | frame (bank : Bool) (off : Nat)
  | cells (bank : Bool) (off : Nat)
  | setPoint (core off : Nat)
  | store (off : Nat)
  | code (off : Nat)
  | data (off : Nat)
  | bootRom
  | sram (off : Nat)
  | bank (next : Bool) (off : Nat)
  | cal (off : Nat)
  | regs (off : Nat)
  | bridge (off : Nat)
  | flash
deriving DecidableEq, Repr

/-- The data space of a loop core (Table 11.14). -/
def placeL (a : Nat) : Option Place :=
  if a < 0x10000 then some (.flask a)
  else if a < 0x12000 then some (.frame false (a - 0x10000))
  else if a < 0x14000 then some (.frame true (a - 0x12000))
  else if a < 0x14060 then some (.cells false (a - 0x14000))
  else if 0x14080 ≤ a ∧ a < 0x140E0 then some (.cells true (a - 0x14080))
  else if 0x1000000 ≤ a ∧ a < 0x1480000 then some (.setPoint ((a - 0x1000000) / 0x10000) (a % 0x10000))
  else if 0x2000000 ≤ a ∧ a < 0x3800000 then some (.store (a - 0x2000000))
  else none

/-- The local memories of a schedule or management core, in bytes (Table 11.16). -/
def localSize (id : CoreId) : Nat := if id.kind = .schedule then 0x40000 else 0x80000

/-- The map of schedule and management cores; BUS_REMAP places a management core's boot ROM and working SRAM (R255, R299,
Table 11.16). -/
def State.placeS (s : State) (id : CoreId) (a : Nat) : Option Place :=
  let mc := id.kind = .management
  let low := if mc ∧ s.fld F.busRemapSwap = 0 then Place.bootRom else .code a
  if a < localSize id then some low
  else if 0x100000 ≤ a ∧ a < 0x100000 + localSize id then some (.data (a - 0x100000))
  else if mc ∧ 0x800000 ≤ a ∧ a < 0x800000 + localSize id then
    some (if s.fld F.busRemapSwap = 0 then .code (a - 0x800000) else .bootRom)
  else if 0x10000000 ≤ a ∧ a < 0x11000000 then some (.sram (a - 0x10000000))
  else if 0x20000000 ≤ a ∧ a < 0x21800000 then some (.store (a - 0x20000000))
  else if 0x28000000 ≤ a ∧ a < 0x28008000 then some (.bank false (a - 0x28000000))
  else if 0x28008000 ≤ a ∧ a < 0x28010000 then some (.bank true (a - 0x28008000))
  else if 0x29000000 ≤ a ∧ a < 0x29040000 then some (.cal (a - 0x29000000))
  else if 0x40000000 ≤ a ∧ a < 0x41000000 then some (.regs (a - 0x40000000))
  else if 0x60000000 ≤ a ∧ a < 0x68000000 then some (.bridge (a - 0x60000000))
  else if mc ∧ 0x70000000 ≤ a ∧ a < 0x74000000 then some .flash
  else none

/-- What an address names on a core. -/
def State.place (s : State) (id : CoreId) (a : Nat) : Option Place := if isLoop id then placeL a else s.placeS id a

/-- Whether a core may load there in its mode (Tables 11.14, 11.16). -/
def Place.loads (p : Place) (loop user : Bool) : Bool :=
  match p with
  | .setPoint _ _ => false
  | .store _ => !(loop && user)
  | .sram off => !user || decide (off < 0xC00000)
  | .regs _ | .flash | .bootRom => !user
  | .flask _ | .frame _ _ | .cells _ _ | .code _ | .data _ | .bank _ _ | .cal _ | .bridge _ => true

/-- Whether a core may store n bytes there in its mode (Tables 11.14, 11.16). -/
def Place.stores (p : Place) (loop user : Bool) (n : Nat) : Bool :=
  match p with
  | .flask off => !user || !decide (0x1600 ≤ off ∧ off < 0x1800)
  | .setPoint _ _ => !user && n == 4
  | .sram off => !user || decide (off < 0xC00000)
  | .data _ => true
  | .store _ => !loop && !user
  | .code _ | .cal _ | .regs _ | .bridge _ | .flash => !user
  | .frame _ _ | .cells _ _ | .bootRom | .bank _ _ => false

/-- A place some bytes further on. -/
def Place.plus (p : Place) (n : Nat) : Place :=
  match p with
  | .flask off => .flask (off + n)
  | .frame b off => .frame b (off + n)
  | .cells b off => .cells b (off + n)
  | .setPoint k off => .setPoint k (off + n)
  | .store off => .store (off + n)
  | .code off => .code (off + n)
  | .data off => .data (off + n)
  | .sram off => .sram (off + n)
  | .bank b off => .bank b (off + n)
  | .cal off => .cal (off + n)
  | .regs off => .regs (off + n)
  | .bridge off => .bridge (off + n)
  | .bootRom => .bootRom
  | .flash => .flash

/-- Whether a place lies in a core's own memories (R237). -/
def Place.near (p : Place) : Bool :=
  match p with
  | .flask _ | .frame _ _ | .cells _ _ | .code _ | .data _ => true
  | _ => false

/-! ## Words of memory -/

/-- An access of a core at its data address (Table 16.9). -/
def coreAccess (id : CoreId) (a n : Nat) (write : Bool) : Access :=
  { master := BitVec.ofNat 8 id.master, space := 3, addr := a, size := n, write := write }

/-- The reserved bytes of flask data memory (Table 11.15a). -/
def flaskReserved (off : Nat) : Bool := decide (0x1640 ≤ off ∧ off < 0x1800)

/-- The word at a place, with the read's side effects; none for an error response (R281). What the boot ROM and the boot flash
hold is not given: a free word (log 96). -/
def State.loadWord (s : State) (id : CoreId) (p : Place) : Option Word × State :=
  let c := s.core id.master
  match p with
  | .flask off => (some (if flaskReserved off then 0 else memWord c.mem off), s)
  | .frame b off => (some ((if b then c.bank1 else c.bank0).getD (off / 4) 0), s)
  | .cells b off => (some ((if b then c.cells1 else c.cells0).getD (off / 4) 0), s)
  | .setPoint _ _ => (none, s)
  | .store off => (some (s.storeRead off), s)
  | .code off => (some (memWord c.code off), s)
  | .data off => (some (memWord c.mem off), s)
  | .bootRom | .flash =>
    let (w, s1) := s.freeWord
    (some w, s1)
  | .sram off => (some (s.getWord sramUnit id.die off), s)
  | .bank b off =>
    let v := bankAt (if b then s.heats.next else s.heats.live) (off / 8)
    (some (halfRecord v (off % 8 / 4 == 1)), s)
  | .cal off => (some (s.calRead off), s)
  | .regs off => s.readReg (BitVec.ofNat 8 id.master) off
  | .bridge off =>
    match s.ladleRead (0x8000000 + off) with
    | some w => (some w, s)
    | none => (none, s.refuse (coreAccess id (0x60000000 + off) 4 false) kDecode)

/-- Consecutive words; none as soon as one has an error response. -/
def State.loadWords (s : State) (id : CoreId) (p : Place) : Nat → Option (List Word) × State
  | 0 => (some [], s)
  | n + 1 =>
    match s.loadWord id p with
    | (none, s1) => (none, s1)
    | (some w, s1) =>
      match s1.loadWords id (p.plus 4) n with
      | (some ws, s2) => (some (w :: ws), s2)
      | (none, s2) => (none, s2)

/-- A store of a piece to the mould store: firmware writes its working area alone; elsewhere the write is discarded and
logged (R50, Table 03.3). -/
def State.storePiece (s : State) (p : Piece) (off : Nat) : State :=
  if 0x1050000 ≤ off then s.areaPiece p off else s.refuse p.access kRefused

/-- Whether the set-point writes of a core are discarded: it shadows its flask (R91). -/
def State.shadowing (s : State) (core : Nat) : Bool :=
  match s.servedFlask core with
  | some f => s.discards core f
  | none => false

/-- A piece stored at a place. The boot flash is written by its own controller; what it then holds is not given (log 96). -/
def State.storeAt (s : State) (id : CoreId) (p : Piece) (at_ : Place) : State :=
  let old := fun (u a : Nat) => p.into (s.getWord u id.die (a / 4 * 4))
  match at_ with
  | .flask off | .data off =>
    if isLoop id && flaskReserved off then s else s.storeWord id.n.val id.die (off / 4 * 4) (old id.n.val off)
  | .setPoint k off => if s.shadowing id.n.val then s else s.storeWord k id.die (off / 4 * 4) (old k off)
  | .store off => s.storePiece p off
  | .code off =>
    let c := s.core id.master
    s.setCore id.master { c with code := putWords c.code (off / 4 * 4) [p.into (memWord c.code (off / 4 * 4))] }
  | .sram off => s.storeWord sramUnit id.die (off / 4 * 4) (old sramUnit off)
  | .cal _ => s.refuse p.access kRefused
  | .regs off => if p.n < 4 then s.refuse p.access kWidth else s.writeReg p.access.master off (BitVec.ofNat 32 p.v)
  | .bridge off => s.ladlePiece p (0x8000000 + off)
  | .flash | .frame _ _ | .cells _ _ | .bootRom | .bank _ _ => s

/-! ## Loads and stores (Table 11.7) -/

/-- The address of form B: rs plus imm[12:0] times the access size (R240). -/
def Core.address (c : Core) (f : FormB) (n : Nat) : Nat := (c.r f.rs.toNat + word ((f.imm.extractLsb' 0 13).toNat * n)).toNat

/-- The bits [15:13] of the immediate: zero for loads, the condition for stores (R240). -/
def immTop (f : FormB) : Nat := (f.imm.extractLsb' 13 3).toNat

/-- Cycles beyond the table's: a far-window load and a set-point store stall a loop core at most 24 cycles; beyond its local
memories a schedule or management core waits as the bus decides (R237). -/
def State.stall (s : State) (id : CoreId) (p : Place) : Nat × State :=
  if p.near then (0, s)
  else
    let (n, s1) := s.freeNat
    (if isLoop id then n % 25 else n, s1)

/-- What a read answers, with its access in hand. -/
def State.read (s : State) (a : Access) (f : State → Option (List Word) × State) : Option (List Word) × State :=
  let (ws, s1) := f { s with bus := { s.bus with hand := some a, handLogged := false } }
  (ws, { s1 with bus := { s1.bus with hand := s.bus.hand, handLogged := s.bus.handLogged } })

/-- A load of n bytes into rd and the registers after it: a misaligned address traps ALIGN, one outside the windows of the
mode WINDOW, and so does an error response (R281, Table 11.7). -/
def State.load (s : State) (id : CoreId) (f : FormB) (major n group : Nat) (put : Core → List Word → Nat → Core) : State :=
  s.onCore id (immTop f == 0 && f.rd.toNat % group == 0) (encB f major) (fun c s =>
    let a := c.address f n
    if a % n ≠ 0 then s.trap id tAlign 0 (word a)
    else
      match s.place id a with
      | none => s.trap id tWindow 0 (word a)
      | some p =>
        if !p.loads (isLoop id) c.user then s.trap id tWindow 0 (word a)
        else
          let (x, s1) := s.stall id p
          let word0 : Place := if n = 2 ∧ a % 4 = 2 then (s1.place id (a - 2)).getD p else p
          let (ws, s2) := s1.read (coreAccess id a n false) (fun s => s.loadWords id word0 (max 1 (n / 4)))
          match ws with
          | none => s2.trap id tWindow 0 (word a)
          | some ws =>
            let cycles := if isLoop id then 2 else if n = 32 then 3 else 2
            s2.setCore id.master ((put (s2.core id.master) ws a).retire id (cycles + x)))

/-- rd = the word. -/
def execLdw (c : CoreId) (f : FormB) (s : State) : Out :=
  .next (s.load c f 0x10 4 1 (fun k ws _ => k.w f.rd.toNat (ws.getD 0 0)))

/-- rd = the halfword, sign-extended. -/
def execLdh (c : CoreId) (f : FormB) (s : State) : Out :=
  .next (s.load c f 0x11 2 1 (fun k ws a =>
    let w := ws.getD 0 0
    k.w f.rd.toNat (if a % 4 = 2 then (w.extractLsb' 16 16).signExtend 32 else (w.extractLsb' 0 16).signExtend 32)))

/-- Consecutive registers given words. -/
def Core.putGroup (c : Core) (rd : Nat) : List Word → Core
  | [] => c
  | w :: ws => (c.w rd w).putGroup (rd + 1) ws

def execLdq (c : CoreId) (f : FormB) (s : State) : Out := .next (s.load c f 0x12 16 4 (fun k ws _ => k.putGroup f.rd.toNat ws))
def execLdr (c : CoreId) (f : FormB) (s : State) : Out := .next (s.load c f 0x13 32 8 (fun k ws _ => k.putGroup f.rd.toNat ws))

/-- The pieces of a store of n bytes at an address: words in ascending order, or one narrower piece. -/
def storePieces (id : CoreId) (c : Core) (rd a n : Nat) : List Piece :=
  let acc := coreAccess id a n true
  if n < 4 then [{ off := a, n := n, v := (c.r rd).toNat % 2 ^ (8 * n), access := acc }]
  else (List.range (n / 4)).map (fun k => { off := a + 4 * k, n := 4, v := (c.r (rd + k)).toNat, access := acc })

/-- A store of n bytes from rd and the registers after it, on its condition; one suppressed raises no trap for its operands
(R241, Table 11.7). -/
def State.store (s : State) (id : CoreId) (f : FormB) (major n group : Nat) : State :=
  let cycles := if isS id ∧ n = 32 then 2 else 1
  s.onCore id (f.rd.toNat % group == 0 || s.suppressed id (immTop f)) (encB f major) (fun c s =>
    if !c.cond3 (immTop f) then s.setCore id.master (c.retire id cycles)
    else
      let a := c.address f n
      if a % n ≠ 0 then s.trap id tAlign 0 (word a)
      else
        match s.place id a with
        | none => s.trap id tWindow 0 (word a)
        | some p =>
          if !p.stores (isLoop id) c.user n then s.trap id tWindow 0 (word a)
          else
            let (x, s1) := s.stall id p
            let s2 := s1.setCore id.master (c.retire id (cycles + x))
            s2.inHand (coreAccess id a n true) (fun s =>
              (storePieces id c f.rd.toNat a n).foldl (fun (s : State) q => s.storeAt id q (p.plus (q.off - a))) s))

def execStw (c : CoreId) (f : FormB) (s : State) : Out := .next (s.store c f 0x14 4 1)
def execSth (c : CoreId) (f : FormB) (s : State) : Out := .next (s.store c f 0x15 2 1)
def execStq (c : CoreId) (f : FormB) (s : State) : Out := .next (s.store c f 0x16 16 4)
def execStr (c : CoreId) (f : FormB) (s : State) : Out := .next (s.store c f 0x17 32 8)

/-! ## Branches -/

/-- A branch on a condition; a code above 0x10 is ILLEGAL (Table 11.4). The target is relative to the branch itself. -/
def State.branch (s : State) (id : CoreId) (f : FormC) (major : Nat) (link : Bool) : State :=
  s.onCore id ((s.core id.master).cond5 f.cond.toNat).isSome (encC f major) (fun c s =>
    let go := (c.cond5 f.cond.toNat).getD false
    let c1 := if go && link then c.w 31 (c.pc + 4) else c
    let pc := if go then c.pc + (f.off.signExtend 32 <<< 2) else c.pc + 4
    s.setCore id.master (({ c1 with pc := pc } : Core).count id 1))

def execB (c : CoreId) (f : FormC) (s : State) : Out := .next (s.branch c f 0x18 false)
def execBl (c : CoreId) (f : FormC) (s : State) : Out := .next (s.branch c f 0x19 true)

/-- JR: rs is read before rd is written (Table 11.7). -/
def execJr (c : CoreId) (f : FormA) (s : State) : Out :=
  .next (s.onCore c true (encA f 0x1A 0) (fun k s =>
    s.setCore c.master ((({ (k.w f.rd.toNat (k.pc + 4)) with pc := k.r f.rs.toNat }) : Core).count c 1)))

end Sys2Proof.Machine
end

