-- ==== Sys2Proof/Machine/ClobyS.lean ====
section
/-!
DEFINITION. The additions of Cloby-S: division, 64-bit pairs, atomics and the accelerator commands (R250, R256, Tables 11.11,
11.17).
-/
namespace Sys2Proof.Machine

/-! ## Division -/

/-- Quotient and remainder towards zero with V: by zero, and of the most negative number by -1 (Table 11.11). -/
def divS (a b : Word) : Word × Bool :=
  if b = 0 then (0xFFFFFFFF#32, true)
  else if a = 0x80000000#32 ∧ b = 0xFFFFFFFF#32 then (0x80000000#32, true)
  else (BitVec.ofInt 32 (Int.tdiv a.toInt b.toInt), false)
def divU (a b : Word) : Word × Bool := if b = 0 then (0xFFFFFFFF#32, true) else (a / b, false)
def remS (a b : Word) : Word × Bool :=
  if b = 0 then (a, true)
  else if a = 0x80000000#32 ∧ b = 0xFFFFFFFF#32 then (0, true)
  else (BitVec.ofInt 32 (Int.tmod a.toInt b.toInt), false)
def remU (a b : Word) : Word × Bool := if b = 0 then (a, true) else (a % b, false)

/-- A division, in 4 to 20 cycles (Table 11.11). -/
def State.division (s : State) (id : CoreId) (f : FormA) (func : Nat) (g : Word → Word → Word × Bool) : State :=
  s.onCore id (isS id) (encA f 0x20 func) (fun c s =>
    let (n, s1) := s.freeNat
    let (q, v) := g (c.r f.rs.toNat) (c.r f.rt.toNat)
    s1.setCore id.master (({ (c.w f.rd.toNat q) with v := v } : Core).retire id (4 + n % 17)))

def execDiv (c : CoreId) (f : FormA) (s : State) : Out := .next (s.division c f 0x00 divS)
def execDivu (c : CoreId) (f : FormA) (s : State) : Out := .next (s.division c f 0x01 divU)
def execRem (c : CoreId) (f : FormA) (s : State) : Out := .next (s.division c f 0x02 remS)
def execRemu (c : CoreId) (f : FormA) (s : State) : Out := .next (s.division c f 0x03 remU)

/-! ## Pairs (R250) -/

/-- Whether a register names a pair as a source, and as a destination. -/
def isPair (r : BitVec 5) : Bool := r.toNat % 2 == 0
def isPairDest (r : BitVec 5) : Bool := isPair r && !isG0 r

/-- An instruction of Cloby-S in one cycle that changes its core. -/
def State.pureS (s : State) (id : CoreId) (legal : Bool) (f : FormA) (func : Nat) (g : Core → Core) : State :=
  s.pure id (isS id && legal) (encA f 0x20 func) 1 g

/-- Two pairs into a pair, with flags. -/
def State.pairOp (s : State) (id : CoreId) (f : FormA) (func : Nat) (g : BitVec 64 → BitVec 64 → BitVec 64)
    (flags : BitVec 64 → BitVec 64 → Flags) : State :=
  s.pureS id (isPairDest f.rd && isPair f.rs && isPair f.rt) f func (fun c =>
    let a := c.pair f.rs.toNat
    let b := c.pair f.rt.toNat
    (c.putPair f.rd.toNat (g a b)).setFlags (flags a b))

def execAdd64 (c : CoreId) (f : FormA) (s : State) : Out := .next (s.pairOp c f 0x08 (fun a b => a + b) addFlags)
def execSub64 (c : CoreId) (f : FormA) (s : State) : Out := .next (s.pairOp c f 0x09 (fun a b => a - b) subFlags)

/-- A 64-bit product into a pair. -/
def State.longMul (s : State) (id : CoreId) (f : FormA) (func : Nat) (g : Word → Word → BitVec 64) : State :=
  s.pureS id (isPairDest f.rd) f func (fun c => c.putPair f.rd.toNat (g (c.r f.rs.toNat) (c.r f.rt.toNat)))

def execMull (c : CoreId) (f : FormA) (s : State) : Out :=
  .next (s.longMul c f 0x0A (fun a b => a.signExtend 64 * b.signExtend 64))
def execMullu (c : CoreId) (f : FormA) (s : State) : Out :=
  .next (s.longMul c f 0x0B (fun a b => a.setWidth 64 * b.setWidth 64))

/-- A pair shifted by sh. -/
def State.pairShift (s : State) (id : CoreId) (f : FormA) (func : Nat) (g : BitVec 64 → Nat → BitVec 64) : State :=
  s.pureS id (isPairDest f.rd && isPair f.rs) f func (fun c => c.putPair f.rd.toNat (g (c.pair f.rs.toNat) f.sh.toNat))

def execSll64 (c : CoreId) (f : FormA) (s : State) : Out := .next (s.pairShift c f 0x0C (fun a n => a <<< n))
def execSrl64 (c : CoreId) (f : FormA) (s : State) : Out := .next (s.pairShift c f 0x0D (fun a n => a >>> n))
def execSra64 (c : CoreId) (f : FormA) (s : State) : Out := .next (s.pairShift c f 0x0E (fun a n => a.sshiftRight n))

def execCmp64 (c : CoreId) (f : FormA) (s : State) : Out :=
  .next (s.pureS c (isG0 f.rd && isPair f.rs && isPair f.rt) f 0x0F (fun k =>
    k.setFlags (subFlags (k.pair f.rs.toNat) (k.pair f.rt.toNat))))

/-! ## Atomics (R250, R297) -/

/-- An atomic on the word at rs: ATOMIC outside word-aligned shared SRAM, WINDOW outside what user mode reaches of it. `g` gives,
from the old word, rd and rt, the new word if one is written, and Z if it is set (Table 11.11). -/
def State.atomic (s : State) (id : CoreId) (f : FormA) (func : Nat) (g : Word → Word → Word → Option Word × Option Bool) : State :=
  s.onCore id (isS id) (encA f 0x21 func) (fun c s =>
    let a := c.r f.rs.toNat
    match sramOffset a 4 with
    | none => s.trap id tAtomic 0 a
    | some off =>
      if off % 4 ≠ 0 then s.trap id tAtomic 0 a
      else if c.user ∧ 0xC00000 ≤ off then s.trap id tWindow 0 a
      else
        let (n, s1) := s.freeNat
        let old := s.getWord sramUnit id.die off
        let (new, z) := g old (c.r f.rd.toNat) (c.r f.rt.toNat)
        let s2 := match new with
          | some w => s1.storeWord sramUnit id.die off w
          | none => s1
        s2.setCore id.master (({ (c.w f.rd.toNat old) with z := z.getD c.z } : Core).retire id (8 + n % 33)))

def execAswp (c : CoreId) (f : FormA) (s : State) : Out := .next (s.atomic c f 0x00 (fun _ _ t => (some t, none)))
def execAadd (c : CoreId) (f : FormA) (s : State) : Out := .next (s.atomic c f 0x01 (fun old _ t => (some (old + t), none)))
def execAand (c : CoreId) (f : FormA) (s : State) : Out := .next (s.atomic c f 0x02 (fun old _ t => (some (old &&& t), none)))
def execAor (c : CoreId) (f : FormA) (s : State) : Out := .next (s.atomic c f 0x03 (fun old _ t => (some (old ||| t), none)))
def execAcas (c : CoreId) (f : FormA) (s : State) : Out :=
  .next (s.atomic c f 0x04 (fun old d t => if old = d then (some t, some true) else (none, some false)))

/-! ## Accelerator commands (R256, Table 11.17) -/

/-- The commands a core may have outstanding (R256). -/
abbrev accelDepth : Nat := 4

/-- A command with its descriptor at rs: refused with C = 0 when four are outstanding or no descriptor of 16 bytes lies in
shared SRAM there; otherwise queued with C = 1. The commands of the standby die's cores are those of the active die's, and
take effect there (R256, R320; log 97). -/
def State.accel (s : State) (id : CoreId) (f : FormD) (sub : Nat) (queue : Nat → State → Option State) : State :=
  s.formD id (isS id) f 0x22 sub 1 (fun c s =>
    let answer := fun (s : State) (k : Core) (ok : Bool) => s.setCore id.master (({ k with c := ok } : Core).retire id 1)
    match sramOffset (c.r f.rs.toNat) 16 with
    | none => answer s c false
    | some desc =>
      if accelDepth ≤ c.outstanding then answer s c false
      else if id.die ≠ s.activeDie then answer s c true
      else
        match queue desc s with
        | none => answer s c false
        | some s1 => answer s1 { c with outstanding := c.outstanding + 1 } true)

/-- MQ: a matching command (R162). -/
def execMq (c : CoreId) (f : FormD) (s : State) : Out :=
  .next (s.accel c f 0 (fun desc s => some { s with heats := { s.heats with matching := s.heats.matching ++ [.core c.master desc] } }))

/-- The compile request of an MRT descriptor: word 0 the address of the request, word 1 target and base, word 2 the tag. The
request is read here; one that does not lie in shared SRAM is not queued (log 97). -/
def State.mrtRequest (s : State) (id : CoreId) (desc : Nat) : Option CompileReq :=
  let w := fun k => s.getWord sramUnit id.die (desc + 4 * k)
  match sramOffset (w 0) 768 with
  | none => none
  | some a =>
    some { who := .schedule id.master, target := bitsOf (w 1) 12 0, base := if bitOf (w 1) 31 then some (bitsOf (w 1) 28 16) else none,
           assign := unpackRequest (fun i => s.getWord sramUnit id.die (a + 4 * i)), tag := w 2, desc := desc }

/-- MRT: a mould compile (R56). -/
def execMrt (c : CoreId) (f : FormD) (s : State) : Out :=
  .next (s.accel c f 1 (fun desc s => (s.mrtRequest c desc).map s.request))

/-- HWR: the pair rd written to next-bank entry rs + k at once: C = 1, or C = 0 when R150 discards the write or no such entry
exists (R256; log 97). -/
def execHwr (c : CoreId) (f : FormD) (s : State) : Out :=
  .next (s.formD c (isS c && (isPair f.rd || s.suppressed c f.cond.toNat)) f 0x22 2 1 (fun k s =>
    let i := k.index f
    let m : Master := BitVec.ofNat 8 c.master
    let ok := decide (i < 4096) && s.heatWriter m && s.bankOpen
    let s1 := s.setCore c.master (({ k with c := ok } : Core).retire c 1)
    if 4096 ≤ i ∨ c.die ≠ s.activeDie then s1 else s1.bankWrite m (bankAccess m i) i (k.pair f.rd.toNat)))

end Sys2Proof.Machine
end

