-- ==== Sys2Proof/Machine/ClobySvc.lean ====
section
/-!
DEFINITION. Supervisor calls and the firmware services to schedule policies (R257, Table 11.18).
-/
namespace Sys2Proof.Machine

/-- The services (Table 11.18). -/
abbrev svcCfg : Nat := 1
abbrev svcCommit : Nat := 2
abbrev svcCancel : Nat := 3
abbrev svcDemand : Nat := 4
abbrev svcEpoch : Nat := 5
abbrev svcNoteNo : Nat := 6

/-- A return from the handler after the call, with C and with results in g1 and on (R257; log 98). -/
def Core.answer (c : Core) (ok : Bool) (rs : List Word) : Core :=
  ({ (c.putGroup 1 rs) with c := ok } : Core).leave 4

/-- SVC: a trap to the service handler; an unknown number returns at once with g1 = 0xFFFF_FFFF and C = 0 (R253, R257,
Table 11.10). -/
def State.svcCall (s : State) (id : CoreId) (f : FormD) : State :=
  s.formD id (isS id) f 0x1D 7 1 (fun c s =>
    let n := c.index f
    let known := decide (1 ≤ n ∧ n ≤ 6)
    let s1 := (s.setCore id.master (c.count id 1)).trap id tSvc n 0
    if known || c.inTrap then s1
    else s1.setCore id.master ((s1.core id.master).answer false [0xFFFFFFFF#32]))

def execSvc (c : CoreId) (f : FormD) (s : State) : Out := .next (s.svcCall c f)

/-- A service on a core whose handler was entered for it and has not returned. -/
def State.service' (s : State) (id : CoreId) (n : Nat) (effect : Core → State → State) : State :=
  let c := s.core id.master
  if isS id ∧ c.runs ∧ c.inTrap ∧ !c.commits ∧ c.cause = word (tSvc + n * 65536) then effect c s else s

/-- The answer of a service on the core as it now is. -/
def State.serve (s : State) (id : CoreId) (ok : Bool) (rs : List Word) : State :=
  s.setCore id.master ((s.core id.master).answer ok rs)

/-- What a service does to the state both dies share is done once, for the active die's core (R320; log 97). -/
def State.ifActive (s : State) (id : CoreId) (effect : State → State) : State := if id.die = s.activeDie then effect s else s

/-- SVC_HEAT_CFG: g1 to HEAT_NEXT_CFG, g2 to g4 to HEAT_NEXT_BASE0 to 2, as R150 permits. -/
def execSvcHeatCfg (c : CoreId) (s : State) : Out :=
  .next (s.service' c svcCfg (fun k s =>
    let m : Master := BitVec.ofNat 8 c.master
    let ok := s.heatWriter m && s.bankOpen
    let s1 := s.ifActive c (fun s =>
      [(R.heatNextCfg, 1), (R.heatNextBase 0, 2), (R.heatNextBase 1, 3), (R.heatNextBase 2, 4)].foldl
        (fun (s : State) (p : Nat × Nat) => s.writeReg m p.1 (k.r p.2)) s)
    s1.serve c ok []))

/-- SVC_HEAT_COMMIT: commits, and returns when STATE leaves VALIDATING; a writer that is not selected and a bank that is busy
return at once with C = 0 (R150, R257). -/
def execSvcHeatCommit (c : CoreId) (s : State) : Out :=
  .next (s.service' c svcCommit (fun k s =>
    let m : Master := BitVec.ofNat 8 c.master
    let taken := s.heatWriter m && s.fld F.heatNextStatusState != heatValidating && s.fld F.heatNextStatusState != heatArmed
    let s1 := s.ifActive c (fun s => s.commitBy m)
    if taken then s1.setCore c.master { k with commits := true }
    else s1.serve c false [s1.reg R.heatNextStatus]))

/-- SVC_HEAT_CANCEL: C = 1 when an ARMED heat is cancelled (R156; log 98). -/
def execSvcHeatCancel (c : CoreId) (s : State) : Out :=
  .next (s.service' c svcCancel (fun _ s =>
    let m : Master := BitVec.ofNat 8 c.master
    let ok := s.heatWriter m && s.cancelInTime
    let s1 := s.ifActive c (fun s => s.cancelBy m)
    s1.serve c ok [s1.reg R.heatNextStatus]))

/-- SVC_DEMAND: where the firmware library keeps the frozen demand matrix and the heavy list, and the list's length (R161;
log 21). -/
def execSvcDemand (c : CoreId) (s : State) : Out :=
  .next (s.service' c svcDemand (fun _ s =>
    s.serve c true [Config.demandAddress, Config.heavyAddress, word s.heats.frozenHeavy.length]))

/-- SVC_EPOCH: the latest epoch boundary and the count of epochs (R160). -/
def execSvcEpoch (c : CoreId) (s : State) : Out :=
  .next (s.service' c svcEpoch (fun _ s =>
    s.serve c true [word (s.heats.epochAt % second), word (s.heats.epochAt / second), word s.heats.epochs]))

/-- SVC_NOTE: a C0 event of selector SCHED with data g1. -/
def execSvcNote (c : CoreId) (s : State) : Out :=
  .next (s.service' c svcNoteNo (fun k s =>
    let s1 := s.ifActive c (fun s => s.raise 0x602 0 0 (k.r 1))
    s1.serve c true []))

end Sys2Proof.Machine
end

