-- ==== Sys2Proof/Machine/ClobyTile.lean ====
section
/-!
DEFINITION. The tile I/O group of the Cloby instruction set (R246-R248, R252, Table 11.9).
-/
namespace Sys2Proof.Machine

/-- A tile I/O instruction, one cycle: its index below a limit, its core serving a flask, and in user mode, where the flask
bounds it, inside its flask; a trap CHANNEL otherwise (R246, R252). -/
def State.tileIo (s : State) (id : CoreId) (f : FormD) (sub limit : Nat) (bounded : Bool)
    (effect : Core → Nat → Nat → State → State) : State :=
  s.formD id (isLoop id) f 0x1C sub 1 (fun c s =>
    let x := c.index f
    match s.servedFlask id.n.val with
    | none => s.trap id tChannel 0 0
    | some fl =>
      let inside := decide (flaskFirst fl ≤ x ∧ x < flaskFirst fl + flaskCount fl)
      if limit ≤ x ∨ (c.user ∧ bounded ∧ !inside) then s.trap id tChannel 0 0 else effect c fl x s)

/-- A sample into rd with C = usable. -/
def State.sampleOp (s : State) (id : CoreId) (f : FormD) (sub : Nat) (w : Core → Nat → Word) : State :=
  s.tileIo id f sub monitors false (fun c _ m s =>
    s.setCore id.master (({ (c.w f.rd.toNat (wordOfInt (sampleValue (w c m)))) with c := usable (w c m) }).retire id 1))

def execSmpe (c : CoreId) (f : FormD) (s : State) : Out := .next (s.sampleOp c f 0 (fun c m => errWord c.bank m))
def execSmpd (c : CoreId) (f : FormD) (s : State) : Out := .next (s.sampleOp c f 1 (fun c m => dcWord c.bank m))

/-- A whole sample word into rd. -/
def State.sampleWordOp (s : State) (id : CoreId) (f : FormD) (sub : Nat) (w : Core → Nat → Word) : State :=
  s.tileIo id f sub monitors false (fun c _ m s => s.setCore id.master ((c.w f.rd.toNat (w c m)).retire id 1))

def execSmpwe (c : CoreId) (f : FormD) (s : State) : Out := .next (s.sampleWordOp c f 2 (fun c m => errWord c.bank m))
def execSmpwd (c : CoreId) (f : FormD) (s : State) : Out := .next (s.sampleWordOp c f 3 (fun c m => dcWord c.bank m))

/-- SMPU: an urgent request; refused while one is outstanding or by the tile (R247). The quantity is the rd field, 0 or 1
(Table 11.9); another value is undefined as an encoding (log 71). -/
def State.smpu (s : State) (id : CoreId) (f : FormD) : State :=
  let answer := fun (s : State) (ok : Bool) =>
    let c := s.core id.master
    let u := if ok then c.ures ||| 0x80000000#32 else c.ures
    s.setCore id.master (({ c with c := ok, ures := u }).retire id 1)
  if 2 ≤ f.rd.toNat then s.formD id false f 0x1C 4 1 (fun _ s => s)
  else
    s.tileIo id f 4 monitors false (fun c fl m s =>
      if bitOf c.ures 31 then answer s false
      else
        let (s1, ok) := s.urgent (fl / 4) m (f.rd.toNat == 1) 0 id.master
        answer s1 ok)

def execSmpu (c : CoreId) (f : FormD) (s : State) : Out := .next (s.smpu c f)

/-- An actuator write; the loop engine discards it on a core whose writes R91 discards, and the instruction completes
(R246). -/
def State.actOp (s : State) (id : CoreId) (f : FormD) (sub limit base : Nat) : State :=
  s.tileIo id f sub limit true (fun c fl x s =>
    let s1 := s.setCore id.master (c.retire id 1)
    if s1.discards id.n.val fl then s1 else s1.actuatorWrite id.die (fl / 4) (base + x) (c.ri f.rd))

def execActe (c : CoreId) (f : FormD) (s : State) : Out := .next (s.actOp c f 5 eoDacs 0)
def execActh (c : CoreId) (f : FormD) (s : State) : Out := .next (s.actOp c f 6 heaters 1000)

def execCellx (c : CoreId) (f : FormD) (s : State) : Out :=
  .next (s.tileIo c f 7 eoDacs true (fun k _ j s =>
    s.setCore c.master ((k.putImage (k.image.cellx j (cellBar k.cellBank))).retire c 1)))

end Sys2Proof.Machine
end

