-- ==== Sys2Proof/Machine/ClobySys.lean ====
section
/-!
DEFINITION. The system group of the Cloby instruction set: waiting, events, traps, system registers (R249, R251-R253, R257,
R258, Tables 11.10, 11.12, 11.13), and the waking of schedule and management cores.
-/
namespace Sys2Proof.Machine

/-! ## Waiting -/

/-- WAITF (R249): a core later than F + 200 ns of a newer frame serves it at once, counting the frames passed over; else it
sleeps. A core without a flask sleeps. The pass it ends, whatever law has run, is reported for the active die (R95, Table 05.27). -/
def State.waitf (s0 : State) (id : CoreId) (c0 : Core) : State :=
  let c := c0.retire id 1
  match s0.servedFlask id.n.val with
  | none => s0.setCore id.master { c with asleep := true }
  | some f =>
    let served := !(c.netNs == 0 && c.netSec == 0)
    let s := if id.die = s0.activeDie ∧ served then s0.passEnds id.n.val f c0.cycle else s0
    let sleep := s.setCore id.master { c with asleep := true }
    let x := s.tile (f / 4)
    let new := c.netNs != word (x.frameAt % second) || c.netSec != word (x.frameAt / second)
    if new && decide (x.frameAt + 200 ≤ s.time.net ∨ s.time.net < x.frameAt) then
      let newest := (x.seq + 65535) % 65536
      let first := c.netNs == 0 && c.netSec == 0
      let skip := if first then 0 else (newest + 65535 - bitsOf c.fseq 15 0) % 65536
      s.setCore id.master (c.serve newest skip x.frameAt)
    else sleep

/-- The wake sources that are enabled and pending (R258). -/
def Core.wakes (c : Core) : Nat := c.pendWake &&& (c.wakeEn.toNat &&& 63)

/-- A core woken by its sources: WAKE names them, and they are no longer pending (R258; log 72). -/
def Core.woken (c : Core) : Core :=
  { c with asleep := false, wake := word c.wakes, pendWake := c.pendWake - c.wakes }

/-- WAITS (R258): WAKE is cleared; the core returns at once if an enabled source is pending, and sleeps otherwise. -/
def State.waits (s : State) (id : CoreId) (c0 : Core) : State :=
  let c := { c0.retire id 1 with wake := 0 }
  s.setCore id.master (if c.wakes = 0 then { c with asleep := true } else c.woken)

def execWait (c : CoreId) (f : FormD) (s : State) : Out :=
  .next (s.formD c true f 0x1D 0 1 (fun k s => if isLoop c then s.waitf c k else s.waits c k))

/-- WAITS_WAKE: a sleeping schedule or management core whose enabled source is pending wakes (R258). -/
def execWaitsWake (c : CoreId) (s : State) : Out :=
  .next (let k := s.core c.master
    if isS c ∧ s.clocked c ∧ k.asleep ∧ !k.halted ∧ k.wakes ≠ 0 then s.setCore c.master k.woken else s)

/-- CORE_TIMER_EXPIRE: TIMER reaches zero and raises its wake source (Table 11.12). -/
def execCoreTimerExpire (c : CoreId) (s : State) : Out :=
  .next (let k := s.core c.master
    if isS c ∧ s.clocked c ∧ k.timer ≠ 0 then
      let s1 := s.untilNow k.timer
      (s1.setCore c.master { k with timer := 0 }).pend c.master 3
    else s)

/-! ## Events -/

/-- The source ID of a selector, by the core that posts (Tables 11.13, 14.2). -/
def selectorSource (id : CoreId) (sel : Nat) : Option Nat :=
  if sel = 0x01 then some 0xA00
  else if sel = 0x02 then some (0x4000 + id.master)
  else if sel = 0x03 then some 0x602
  else if sel = 0x04 then some 0xC00
  else if 0x10 ≤ sel ∧ sel ≤ 0x13 then some (0x5000 + 0x100 * (sel - 0x10) + id.master)
  else none

/-- Whether user mode may post a class with a selector (R251). -/
def userMayPost (sel cls : Nat) : Bool := decide (cls ≤ 2) && (sel == 1 || sel == 3 || decide (0x10 ≤ sel ∧ sel ≤ 0x13))

/-- The kind of a posted event: the cause of R111 for LOOP, zero for the others (R301). -/
def postedKind (sel : Nat) (data : Word) : Nat := if sel = 1 then bitsOf data 23 20 else 0

/-- EVT (R251): a class above 4 names no class and is ILLEGAL; a core of the standby die raises nothing (R320; log 73). -/
def State.evtPost (s : State) (id : CoreId) (f : FormD) (c : Core) : State :=
  let x := c.index f % 1024
  let sel := x / 8
  let cls := x % 8
  if 4 < cls then s.trap id tIllegal 0 (encD f 0x1D 1)
  else
    match selectorSource id sel with
    | none => s.trap id tPriv 0 0
    | some src =>
      if c.user && !userMayPost sel cls then s.trap id tPriv 0 0
      else
        let s1 := s.setCore id.master (c.retire id 1)
        let w := c.r f.rd.toNat
        if id.die = s1.activeDie then s1.raise src cls (postedKind sel w) w else s1

def execEvt (c : CoreId) (f : FormD) (s : State) : Out := .next (s.formD c true f 0x1D 1 1 (fun k s => s.evtPost c f k))

/-- TRAP: a trap with cause TRAP and the code given (Table 11.10). -/
def execTrap (c : CoreId) (f : FormD) (s : State) : Out :=
  .next (s.formD c true f 0x1D 2 1 (fun k s =>
    (s.setCore c.master (k.count c 1)).trap c tTrap (k.index f) 0))

/-! ## System registers (Table 11.12) -/

/-- The word of FLASK: the flask served, whether writes are discarded, its first loop and its count. -/
def State.flaskWord (s : State) (id : CoreId) : Word :=
  match s.servedFlask id.n.val with
  | none => 0x7F
  | some f => word (f + b2n (s.discards id.n.val f) * 128 + flaskFirst f * 256 + flaskCount f * 2 ^ 18)

/-- The word of MODE. -/
def Core.modeWord (c : Core) : Word := word (b2n c.user + 2 * b2n c.prevUser + 4 * b2n c.inTrap)

/-- What is left of TIMER, in 10 ns units. -/
def State.timerLeft (s : State) (c : Core) : Word := if c.timer = 0 then 0 else word (ceilDiv (c.timer - s.time.now) 10)

/-- Whether a system register is privileged as a whole (the suffix +p). -/
def sysPriv (n : Nat) : Bool := n == 3 || decide (16 ≤ n ∧ n ≤ 31)

/-- The value MFS reads; registers of the other profile and reserved ones read zero. -/
def State.sysRead (s : State) (id : CoreId) (c : Core) (n : Nat) : Word :=
  if c.user && sysPriv n then 0
  else if 16 ≤ n ∧ n ≤ 31 then c.scratch.get (fun _ => 0) n
  else
    match n with
    | 0 =>
      let type := if id.kind = .loop then 0 else if id.kind = .schedule then 1 else 2
      word (id.index + type * 128 + id.die.code * 512 + b2n (id.die == s.activeDie) * 1024)
    | 1 => c.modeWord
    | 2 => c.flagWord
    | 3 => c.epc
    | 4 => c.cause
    | 5 => c.tval
    | 6 => word c.cycle
    | 7 => if isLoop id then c.fseq else 0
    | 8 => if isLoop id then s.flaskWord id else 0
    | 9 => if isLoop id then c.ures else 0
    | 10 => if isLoop id then c.lctrl else 0
    | 11 => if isLoop id then c.netNs else word s.netNs
    | 12 => c.netSec
    | 13 => if isS id then c.wakeEn else 0
    | 14 => if isS id then c.wake else 0
    | 15 => if isS id then s.timerLeft c else 0
    | _ => 0

/-- A read of NETF_NS on a schedule or management core latches NETF_SEC (Table 11.12). -/
def State.sysLatch (s : State) (id : CoreId) (c : Core) (n : Nat) : Core :=
  if isS id && n == 11 then { c with netSec := word s.netSec } else c

/-- MFS (Table 11.10); a number above 63 names no register and is ILLEGAL (log 71). -/
def execMfs (c : CoreId) (f : FormD) (s : State) : Out :=
  .next (s.formD c true f 0x1D 3 1 (fun k s =>
    let n := k.index f
    if 63 < n then s.trap c tIllegal 0 (encD f 0x1D 3)
    else s.setCore c.master (((s.sysLatch c k n).w f.rd.toNat (s.sysRead c k n)).retire c 1)))

/-- The writable fields of a system register written (Table 11.12). A management core runs firmware mode only (R252; log 74). -/
def State.sysWrite (s : State) (id : CoreId) (c : Core) (n : Nat) (v : Word) : Core :=
  if 16 ≤ n ∧ n ≤ 31 then { c with scratch := c.scratch.set (fun _ => 0) n v }
  else
    match n with
    | 1 => if id.kind = .management then c else { c with user := bitOf v 0, prevUser := bitOf v 1 }
    | 2 => c.withFlagWord v
    | 3 => { c with epc := v }
    | 13 => if isS id then { c with wakeEn := v &&& 0x3F#32 } else c
    | 15 => if isS id then { c with timer := if v = 0 then 0 else s.time.now + 10 * v.toNat } else c
    | _ => c

/-- MTS: sys n = rs, n being the index field (log 74); a privileged register in user mode traps PRIV (R252); MODE is
privileged to write. -/
def execMts (c : CoreId) (f : FormD) (s : State) : Out :=
  .next (s.formD c true f 0x1D 4 1 (fun k s =>
    let n := f.index.toNat
    if 63 < n then s.trap c tIllegal 0 (encD f 0x1D 4)
    else if k.user && (sysPriv n || n == 1) then s.trap c tPriv 0 0
    else s.setCore c.master ((s.sysWrite c k n (k.r f.rs.toNat)).retire c 1)))

/-- ERET: in user mode a trap PRIV (Tables 11.10, 11.15). -/
def execEret (c : CoreId) (f : FormD) (s : State) : Out :=
  .next (s.formD c true f 0x1D 5 1 (fun k s =>
    if k.user then s.trap c tPriv 0 0 else s.setCore c.master ((k.leave 0).count c 1)))

/-- FENCE: every earlier store of a core in order has been accepted when its command ends; the stall is within its bound
(R237; log 4). -/
def execFence (c : CoreId) (f : FormD) (s : State) : Out :=
  .next (s.formD c true f 0x1D 6 1 (fun k s =>
    let (n, s1) := s.freeNat
    s1.setCore c.master (k.retire c (1 + if isLoop c then n % 33 else n))))

end Sys2Proof.Machine
end

