-- ==== Sys2Proof/Machine/Dispatch.lean ====
section
/-!
DEFINITION. What each command does: one arm for each constructor of `Instr`, a direct call of the command's meaning.
-/
namespace Sys2Proof.Machine

/-- The effect of a command on everything but the queue. -/
def exec (i : Instr) (s : State) : Host.Outcome State Fault Refusal :=
  match i with
  | .powerOn => Sys2Proof.Machine.execPowerOn s
  | .coldResetAssert rstN => Sys2Proof.Machine.execColdResetAssert rstN s
  | .powerGood => Sys2Proof.Machine.execPowerGood s
  | .bootComplete dieA dieB loopA loopB policyA policyB otpOk => Sys2Proof.Machine.execBootComplete dieA dieB loopA loopB policyA policyB otpOk s
  | .linkReset => Sys2Proof.Machine.execLinkReset s
  | .functionLevelReset pf => Sys2Proof.Machine.execFunctionLevelReset pf s
  | .warmReset m key => Sys2Proof.Machine.execWarmReset m key s
  | .coldReset m key => Sys2Proof.Machine.execColdReset m key s
  | .rcvLoad m key kind slotB imageKind verifies flashOk => Sys2Proof.Machine.execRcvLoad m key kind slotB imageKind verifies flashOk s
  | .vkeepLow => Sys2Proof.Machine.execVkeepLow s
  | .requestKeep m => Sys2Proof.Machine.execRequestKeep m s
  | .requestHold m => Sys2Proof.Machine.execRequestHold m s
  | .requestRun m => Sys2Proof.Machine.execRequestRun m s
  | .requestTest m => Sys2Proof.Machine.execRequestTest m s
  | .requestNormal m => Sys2Proof.Machine.execRequestNormal m s
  | .holdEntered => Sys2Proof.Machine.execHoldEntered s
  | .powerUpCalPass => Sys2Proof.Machine.execPowerUpCalPass s
  | .powerUpCalFail => Sys2Proof.Machine.execPowerUpCalFail s
  | .powerUpCalRetry => Sys2Proof.Machine.execPowerUpCalRetry s
  | .baseHeatStart => Sys2Proof.Machine.execBaseHeatStart s
  | .drainComplete => Sys2Proof.Machine.execDrainComplete s
  | .drainTimeout => Sys2Proof.Machine.execDrainTimeout s
  | .runToHoldPour => Sys2Proof.Machine.execRunToHoldPour s
  | .shakeout cause => Sys2Proof.Machine.execShakeout cause s
  | .zeroHold => Sys2Proof.Machine.execZeroHold s
  | .shakeoutComplete => Sys2Proof.Machine.execShakeoutComplete s
  | .pilotContribution out corr power => Sys2Proof.Machine.execPilotContribution out corr power s
  | .pilotVerdict out => Sys2Proof.Machine.execPilotVerdict out s
  | .pilotCtrlWrite m v => Sys2Proof.Machine.execPilotCtrlWrite m v s
  | .mldCmpReq m v => Sys2Proof.Machine.execMldCmpReq m v s
  | .compileStart => Sys2Proof.Machine.execCompileStart s
  | .compileComplete => Sys2Proof.Machine.execCompileComplete s
  | .stagingStart => Sys2Proof.Machine.execStagingStart s
  | .tileSeal t => Sys2Proof.Machine.execTileSeal t s
  | .ditherGateOff => Sys2Proof.Machine.execDitherGateOff s
  | .pour => Sys2Proof.Machine.execPour s
  | .ditherResume => Sys2Proof.Machine.execDitherResume s
  | .spanChangeStart m t n v => Sys2Proof.Machine.execSpanChangeStart m t n v s
  | .spanChangeEnd t dac => Sys2Proof.Machine.execSpanChangeEnd t dac s
  | .slewStep t heater => Sys2Proof.Machine.execSlewStep t heater s
  | .adcRoundStart t roundD => Sys2Proof.Machine.execAdcRoundStart t roundD s
  | .adcConversion t ch raw range => Sys2Proof.Machine.execAdcConversion t ch raw range s
  | .tileUrgReq m t v => Sys2Proof.Machine.execTileUrgReq m t v s
  | .urgentResult t ch raw range => Sys2Proof.Machine.execUrgentResult t ch raw range s
  | .spareTakeover m t sp src => Sys2Proof.Machine.execSpareTakeover m t sp src s
  | .spareReturn m t sp src => Sys2Proof.Machine.execSpareReturn m t sp src s
  | .spareSwitch t sp => Sys2Proof.Machine.execSpareSwitch t sp s
  | .frameDelivery t => Sys2Proof.Machine.execFrameDelivery t s
  | .outputMismatch t heater ch => Sys2Proof.Machine.execOutputMismatch t heater ch s
  | .actuatorWrite d t heater ch v => Sys2Proof.Machine.execActuatorWrite d t heater ch v s
  | .pendingWriteApply t => Sys2Proof.Machine.execPendingWriteApply t s
  | .vhtrWindow t mv => Sys2Proof.Machine.execVhtrWindow t mv s
  | .vhtrFault t => Sys2Proof.Machine.execVhtrFault t s
  | .loopPass d k cycles => Sys2Proof.Machine.execLoopPass d k cycles s
  | .loopLockAcquired loop => Sys2Proof.Machine.execLoopLockAcquired loop s
  | .lockLoss loop => Sys2Proof.Machine.execLockLoss loop s
  | .lockTimeout loop => Sys2Proof.Machine.execLockTimeout loop s
  | .pinned loop => Sys2Proof.Machine.execPinned loop s
  | .starved loop => Sys2Proof.Machine.execStarved loop s
  | .loopOverrun k => Sys2Proof.Machine.execLoopOverrun k s
  | .flaskHandover m f next shadow => Sys2Proof.Machine.execFlaskHandover m f next shadow s
  | .handoverCopy f => Sys2Proof.Machine.execHandoverCopy f s
  | .handoverSwap f => Sys2Proof.Machine.execHandoverSwap f s
  | .loopCmdOpen m index => Sys2Proof.Machine.execLoopCmdOpen m index s
  | .loopCmdClose m index => Sys2Proof.Machine.execLoopCmdClose m index s
  | .loopCmdHold m index => Sys2Proof.Machine.execLoopCmdHold m index s
  | .loopCmdRelease m index => Sys2Proof.Machine.execLoopCmdRelease m index s
  | .loopCmdEffect => Sys2Proof.Machine.execLoopCmdEffect s
  | .fettleObject => Sys2Proof.Machine.execFettleObject s
  | .calResult r => Sys2Proof.Machine.execCalResult r s
  | .calApply quantity object => Sys2Proof.Machine.execCalApply quantity object s
  | .calIntegratorAdjust element => Sys2Proof.Machine.execCalIntegratorAdjust element s
  | .calLegData0Write m v => Sys2Proof.Machine.execCalLegData0Write m v s
  | .calLegData1Write m v => Sys2Proof.Machine.execCalLegData1Write m v s
  | .ppsEdge errNs => Sys2Proof.Machine.execPpsEdge errNs s
  | .todMessage bytes inWindow => Sys2Proof.Machine.execTodMessage bytes inWindow s
  | .timeLocked => Sys2Proof.Machine.execTimeLocked s
  | .ppsTimeout => Sys2Proof.Machine.execPpsTimeout s
  | .holdLimit => Sys2Proof.Machine.execHoldLimit s
  | .refclkLoss => Sys2Proof.Machine.execRefclkLoss s
  | .timNow0Read m => Sys2Proof.Machine.execTimNow0Read m s
  | .heatAct0Read m => Sys2Proof.Machine.execHeatAct0Read m s
  | .heatBankWrite m rec v => Sys2Proof.Machine.execHeatBankWrite m rec v s
  | .heatCommit m => Sys2Proof.Machine.execHeatCommit m s
  | .heatValidated => Sys2Proof.Machine.execHeatValidated s
  | .heatCancel m => Sys2Proof.Machine.execHeatCancel m s
  | .heatActivate => Sys2Proof.Machine.execHeatActivate s
  | .epochBoundary => Sys2Proof.Machine.execEpochBoundary s
  | .ladleBurstReceive port src offset lanes => Sys2Proof.Machine.execLadleBurstReceive port src offset lanes s
  | .dataFrameIngress port f => Sys2Proof.Machine.execDataFrameIngress port f s
  | .hello port claimed needNotice minGuard => Sys2Proof.Machine.execHello port claimed needNotice minGuard s
  | .demand port entries => Sys2Proof.Machine.execDemand port entries s
  | .laneMark src dst cls serial ladleSlot => Sys2Proof.Machine.execLaneMark src dst cls serial ladleSlot s
  | .errorNote port code => Sys2Proof.Machine.execErrorNote port code s
  | .helloSend => Sys2Proof.Machine.execHelloSend s
  | .timeCheckSend port => Sys2Proof.Machine.execTimeCheckSend port s
  | .ladleBurstSend port output => Sys2Proof.Machine.execLadleBurstSend port output s
  | .directHoldRelease src dst cls => Sys2Proof.Machine.execDirectHoldRelease src dst cls s
  | .swapArm m sp src => Sys2Proof.Machine.execSwapArm m sp src s
  | .swapReturn m sp src => Sys2Proof.Machine.execSwapReturn m sp src s
  | .reservedMouldRecompile mould => Sys2Proof.Machine.execReservedMouldRecompile mould s
  | .ladlePortFail supply index => Sys2Proof.Machine.execLadlePortFail supply index s
  | .ladlePortRecover supply index => Sys2Proof.Machine.execLadlePortRecover supply index s
  | .sramEccError bank frame correctable headerLeft => Sys2Proof.Machine.execSramEccError bank frame correctable headerLeft s
  | .riserPrefetch q => Sys2Proof.Machine.execRiserPrefetch q s
  | .riserReadDone q corrected uncorrectable region => Sys2Proof.Machine.execRiserReadDone q corrected uncorrectable region s
  | .mcReplicate q => Sys2Proof.Machine.execMcReplicate q s
  | .mcHoldAdmit group dst => Sys2Proof.Machine.execMcHoldAdmit group dst s
  | .mcDrop group dst => Sys2Proof.Machine.execMcDrop group dst s
  | .reseqSkip flow => Sys2Proof.Machine.execReseqSkip flow s
  | .cutThroughStomp frame => Sys2Proof.Machine.execCutThroughStomp frame s
  | .ladGrpCommit m v => Sys2Proof.Machine.execLadGrpCommit m v s
  | .shaperRefill => Sys2Proof.Machine.execShaperRefill s
  | .portPark port => Sys2Proof.Machine.execPortPark port s
  | .portUnpark port ready => Sys2Proof.Machine.execPortUnpark port ready s
  | .add c f => Sys2Proof.Machine.execAdd c f s
  | .sub c f => Sys2Proof.Machine.execSub c f s
  | .and c f => Sys2Proof.Machine.execAnd c f s
  | .or c f => Sys2Proof.Machine.execOr c f s
  | .xor c f => Sys2Proof.Machine.execXor c f s
  | .andn c f => Sys2Proof.Machine.execAndn c f s
  | .adds c f => Sys2Proof.Machine.execAdds c f s
  | .subs c f => Sys2Proof.Machine.execSubs c f s
  | .sll c f => Sys2Proof.Machine.execSll c f s
  | .srl c f => Sys2Proof.Machine.execSrl c f s
  | .sra c f => Sys2Proof.Machine.execSra c f s
  | .srar c f => Sys2Proof.Machine.execSrar c f s
  | .sllv c f => Sys2Proof.Machine.execSllv c f s
  | .srlv c f => Sys2Proof.Machine.execSrlv c f s
  | .srav c f => Sys2Proof.Machine.execSrav c f s
  | .min c f => Sys2Proof.Machine.execMin c f s
  | .max c f => Sys2Proof.Machine.execMax c f s
  | .abs c f => Sys2Proof.Machine.execAbs c f s
  | .selz c f => Sys2Proof.Machine.execSelz c f s
  | .selc c f => Sys2Proof.Machine.execSelc c f s
  | .seln c f => Sys2Proof.Machine.execSeln c f s
  | .sels c f => Sys2Proof.Machine.execSels c f s
  | .cmp c f => Sys2Proof.Machine.execCmp c f s
  | .tst c f => Sys2Proof.Machine.execTst c f s
  | .exh c f => Sys2Proof.Machine.execExh c f s
  | .insh c f => Sys2Proof.Machine.execInsh c f s
  | .addi c f => Sys2Proof.Machine.execAddi c f s
  | .andi c f => Sys2Proof.Machine.execAndi c f s
  | .ori c f => Sys2Proof.Machine.execOri c f s
  | .xori c f => Sys2Proof.Machine.execXori c f s
  | .lui c f => Sys2Proof.Machine.execLui c f s
  | .cmpi c f => Sys2Proof.Machine.execCmpi c f s
  | .extu c f => Sys2Proof.Machine.execExtu c f s
  | .exts c f => Sys2Proof.Machine.execExts c f s
  | .ins c f => Sys2Proof.Machine.execIns c f s
  | .mula c f => Sys2Proof.Machine.execMula c f s
  | .maca c f => Sys2Proof.Machine.execMaca c f s
  | .msua c f => Sys2Proof.Machine.execMsua c f s
  | .accr c f => Sys2Proof.Machine.execAccr c f s
  | .accw c f => Sys2Proof.Machine.execAccw c f s
  | .accz c f => Sys2Proof.Machine.execAccz c f s
  | .mulsLu c f => Sys2Proof.Machine.execMulsLu c f s
  | .mulsHu c f => Sys2Proof.Machine.execMulsHu c f s
  | .mulsLs c f => Sys2Proof.Machine.execMulsLs c f s
  | .mulsHs c f => Sys2Proof.Machine.execMulsHs c f s
  | .madLu c f => Sys2Proof.Machine.execMadLu c f s
  | .madHu c f => Sys2Proof.Machine.execMadHu c f s
  | .madLs c f => Sys2Proof.Machine.execMadLs c f s
  | .madHs c f => Sys2Proof.Machine.execMadHs c f s
  | .mulw c f => Sys2Proof.Machine.execMulw c f s
  | .lim c f => Sys2Proof.Machine.execLim c f s
  | .limu c f => Sys2Proof.Machine.execLimu c f s
  | .ldw c f => Sys2Proof.Machine.execLdw c f s
  | .ldh c f => Sys2Proof.Machine.execLdh c f s
  | .ldq c f => Sys2Proof.Machine.execLdq c f s
  | .ldr c f => Sys2Proof.Machine.execLdr c f s
  | .stw c f => Sys2Proof.Machine.execStw c f s
  | .sth c f => Sys2Proof.Machine.execSth c f s
  | .stq c f => Sys2Proof.Machine.execStq c f s
  | .str c f => Sys2Proof.Machine.execStr c f s
  | .b c f => Sys2Proof.Machine.execB c f s
  | .bl c f => Sys2Proof.Machine.execBl c f s
  | .jr c f => Sys2Proof.Machine.execJr c f s
  | .errs c f => Sys2Proof.Machine.execErrs c f s
  | .pia c f => Sys2Proof.Machine.execPia c f s
  | .pip c f => Sys2Proof.Machine.execPip c f s
  | .limt c f => Sys2Proof.Machine.execLimt c f s
  | .awr c f => Sys2Proof.Machine.execAwr c f s
  | .iput c f => Sys2Proof.Machine.execIput c f s
  | .bld c f => Sys2Proof.Machine.execBld c f s
  | .bapp c f => Sys2Proof.Machine.execBapp c f s
  | .rail c f => Sys2Proof.Machine.execRail c f s
  | .lock c f => Sys2Proof.Machine.execLock c f s
  | .live c f => Sys2Proof.Machine.execLive c f s
  | .smpe c f => Sys2Proof.Machine.execSmpe c f s
  | .smpd c f => Sys2Proof.Machine.execSmpd c f s
  | .smpwe c f => Sys2Proof.Machine.execSmpwe c f s
  | .smpwd c f => Sys2Proof.Machine.execSmpwd c f s
  | .smpu c f => Sys2Proof.Machine.execSmpu c f s
  | .acte c f => Sys2Proof.Machine.execActe c f s
  | .acth c f => Sys2Proof.Machine.execActh c f s
  | .cellx c f => Sys2Proof.Machine.execCellx c f s
  | .wait c f => Sys2Proof.Machine.execWait c f s
  | .evt c f => Sys2Proof.Machine.execEvt c f s
  | .trap c f => Sys2Proof.Machine.execTrap c f s
  | .mfs c f => Sys2Proof.Machine.execMfs c f s
  | .mts c f => Sys2Proof.Machine.execMts c f s
  | .eret c f => Sys2Proof.Machine.execEret c f s
  | .fence c f => Sys2Proof.Machine.execFence c f s
  | .div c f => Sys2Proof.Machine.execDiv c f s
  | .divu c f => Sys2Proof.Machine.execDivu c f s
  | .rem c f => Sys2Proof.Machine.execRem c f s
  | .remu c f => Sys2Proof.Machine.execRemu c f s
  | .add64 c f => Sys2Proof.Machine.execAdd64 c f s
  | .sub64 c f => Sys2Proof.Machine.execSub64 c f s
  | .mull c f => Sys2Proof.Machine.execMull c f s
  | .mullu c f => Sys2Proof.Machine.execMullu c f s
  | .sll64 c f => Sys2Proof.Machine.execSll64 c f s
  | .srl64 c f => Sys2Proof.Machine.execSrl64 c f s
  | .sra64 c f => Sys2Proof.Machine.execSra64 c f s
  | .cmp64 c f => Sys2Proof.Machine.execCmp64 c f s
  | .aswp c f => Sys2Proof.Machine.execAswp c f s
  | .aadd c f => Sys2Proof.Machine.execAadd c f s
  | .aand c f => Sys2Proof.Machine.execAand c f s
  | .aor c f => Sys2Proof.Machine.execAor c f s
  | .acas c f => Sys2Proof.Machine.execAcas c f s
  | .mq c f => Sys2Proof.Machine.execMq c f s
  | .mrt c f => Sys2Proof.Machine.execMrt c f s
  | .hwr c f => Sys2Proof.Machine.execHwr c f s
  | .svcHeatCfg c => Sys2Proof.Machine.execSvcHeatCfg c s
  | .svcHeatCommit c => Sys2Proof.Machine.execSvcHeatCommit c s
  | .svcHeatCancel c => Sys2Proof.Machine.execSvcHeatCancel c s
  | .svcDemand c => Sys2Proof.Machine.execSvcDemand c s
  | .svcEpoch c => Sys2Proof.Machine.execSvcEpoch c s
  | .svcNote c => Sys2Proof.Machine.execSvcNote c s
  | .matchComplete => Sys2Proof.Machine.execMatchComplete s
  | .waitsWake c => Sys2Proof.Machine.execWaitsWake c s
  | .coreTimerExpire c => Sys2Proof.Machine.execCoreTimerExpire c s
  | .jobDoorbell m off v => Sys2Proof.Machine.execJobDoorbell m off v s
  | .nop d => Sys2Proof.Machine.execNop d s
  | .loadImage d kind len slotB => Sys2Proof.Machine.execLoadImage d kind len slotB s
  | .startCalFull d tiles => Sys2Proof.Machine.execStartCalFull d tiles s
  | .startCalTransfer d tiles => Sys2Proof.Machine.execStartCalTransfer d tiles s
  | .startHeatLoad d image => Sys2Proof.Machine.execStartHeatLoad d image s
  | .startMouldLib d count entries => Sys2Proof.Machine.execStartMouldLib d count entries s
  | .startFwActivate d kind slotB => Sys2Proof.Machine.execStartFwActivate d kind slotB s
  | .startSurvey d retiredOnly => Sys2Proof.Machine.execStartSurvey d retiredOnly s
  | .startRiserScrub d regions => Sys2Proof.Machine.execStartRiserScrub d regions s
  | .startElemRetire d index restore port => Sys2Proof.Machine.execStartElemRetire d index restore port s
  | .startBankRetire d bank => Sys2Proof.Machine.execStartBankRetire d bank s
  | .startRegionRetire d region => Sys2Proof.Machine.execStartRegionRetire d region s
  | .startFlaskMove d flask core => Sys2Proof.Machine.execStartFlaskMove d flask core s
  | .startCoreRestart d number type => Sys2Proof.Machine.execStartCoreRestart d number type s
  | .startAdcTakeover d tile channel ret => Sys2Proof.Machine.execStartAdcTakeover d tile channel ret s
  | .suspend d job => Sys2Proof.Machine.execSuspend d job s
  | .resume d job => Sys2Proof.Machine.execResume d job s
  | .cancel d job => Sys2Proof.Machine.execCancel d job s
  | .query d job => Sys2Proof.Machine.execQuery d job s
  | .commitConfig d useExpect expect => Sys2Proof.Machine.execCommitConfig d useExpect expect s
  | .claim d resource => Sys2Proof.Machine.execClaim d resource s
  | .release d resource => Sys2Proof.Machine.execRelease d resource s
  | .claimGrant resource => Sys2Proof.Machine.execClaimGrant resource s
  | .jobRun job => Sys2Proof.Machine.execJobRun job s
  | .jobSafePoint job progress => Sys2Proof.Machine.execJobSafePoint job progress s
  | .jobComplete job result => Sys2Proof.Machine.execJobComplete job result s
  | .jobEntryFree job => Sys2Proof.Machine.execJobEntryFree job s
  | .jobFlowEdit m v => Sys2Proof.Machine.execJobFlowEdit m v s
  | .jobRingCtrlWrite m p v => Sys2Proof.Machine.execJobRingCtrlWrite m p v s
  | .registerWrite m w => Sys2Proof.Machine.execRegisterWrite m w s
  | .bar2Write m w => Sys2Proof.Machine.execBar2Write m w s
  | .smbusReadByte cmd => Sys2Proof.Machine.execSmbusReadByte cmd s
  | .smbusReadWord cmd => Sys2Proof.Machine.execSmbusReadWord cmd s
  | .smbusBlockRead cmd => Sys2Proof.Machine.execSmbusBlockRead cmd s
  | .smbusWrite cmd => Sys2Proof.Machine.execSmbusWrite cmd s
  | .smbusWindowRefresh => Sys2Proof.Machine.execSmbusWindowRefresh s
  | .cfgCrcPass => Sys2Proof.Machine.execCfgCrcPass s
  | .debugLock port => Sys2Proof.Machine.execDebugLock port s
  | .busLockForced => Sys2Proof.Machine.execBusLockForced s
  | .busRemapWrite m v => Sys2Proof.Machine.execBusRemapWrite m v s
  | .busSliceWrite m v => Sys2Proof.Machine.execBusSliceWrite m v s
  | .busBooted m => Sys2Proof.Machine.execBusBooted m s
  | .eventRingWrite t => Sys2Proof.Machine.execEventRingWrite t s
  | .evtAccept m t => Sys2Proof.Machine.execEvtAccept m t s
  | .evtEoi m t => Sys2Proof.Machine.execEvtEoi m t s
  | .holdoffExpire t => Sys2Proof.Machine.execHoldoffExpire t s
  | .evtRedirWrite m t v => Sys2Proof.Machine.execEvtRedirWrite m t v s
  | .evtFallback t => Sys2Proof.Machine.execEvtFallback t s
  | .evtRingCtrlWrite m t l v => Sys2Proof.Machine.execEvtRingCtrlWrite m t l v s
  | .evtRingHeadWrite m t l v => Sys2Proof.Machine.execEvtRingHeadWrite m t l v s
  | .heartbeatLoss => Sys2Proof.Machine.execHeartbeatLoss s
  | .dieWatchdogExpire => Sys2Proof.Machine.execDieWatchdogExpire s
  | .arbitrationDecision copeWord dragWord => Sys2Proof.Machine.execArbitrationDecision copeWord dragWord s
  | .switchOverResume => Sys2Proof.Machine.execSwitchOverResume s
  | .cdSwitch m => Sys2Proof.Machine.execCdSwitch m s
  | .plannedSwitch => Sys2Proof.Machine.execPlannedSwitch s
  | .cdRemove m => Sys2Proof.Machine.execCdRemove m s
  | .cdRejoin m => Sys2Proof.Machine.execCdRejoin m s
  | .standbyReady => Sys2Proof.Machine.execStandbyReady s
  | .arbiterDisagree => Sys2Proof.Machine.execArbiterDisagree s
  | .healthFault d bit => Sys2Proof.Machine.execHealthFault d bit s
  | .linkCrcFail d => Sys2Proof.Machine.execLinkCrcFail d s
  | .standbyCopyApply => Sys2Proof.Machine.execStandbyCopyApply s
  | .faultStatusClear m n bits => Sys2Proof.Machine.execFaultStatusClear m n bits s
  | .errPulseEnd => Sys2Proof.Machine.execErrPulseEnd s
  | .railFault rail => Sys2Proof.Machine.execRailFault rail s
  | .thermalConversion readings => Sys2Proof.Machine.execThermalConversion readings s
  | .challenge m entropy => Sys2Proof.Machine.execChallenge m entropy s
  | .respondG m scope => Sys2Proof.Machine.execRespondG m scope s
  | .respondC m scope => Sys2Proof.Machine.execRespondC m scope s
  | .password m len => Sys2Proof.Machine.execPassword m len s
  | .close m => Sys2Proof.Machine.execClose m s
  | .challengeExpire => Sys2Proof.Machine.execChallengeExpire s
  | .lockoutEnd => Sys2Proof.Machine.execLockoutEnd s
  | .lockOpenExpire => Sys2Proof.Machine.execLockOpenExpire s
  | .refclkReturn => Sys2Proof.Machine.execRefclkReturn s
  | .copeDragLinkDown => Sys2Proof.Machine.execCopeDragLinkDown s
  | .pfAvailabilityChange pf available => Sys2Proof.Machine.execPfAvailabilityChange pf available s
  | .arbiterAgree => Sys2Proof.Machine.execArbiterAgree s
  | .debugPortReset => Sys2Proof.Machine.execDebugPortReset s
  | .svc c f => Sys2Proof.Machine.execSvc c f s

end Sys2Proof.Machine
end

