-- ==== Sys2Proof/Machine/Step.lean ====
section
/-!
DEFINITION. One step: the command at the front of the queue is taken and executed with the queue's rest; with no command
waiting the block idles and time passes.
-/
namespace Sys2Proof.Machine

/-- The block with no command waiting: `gap` ns pass, both of the time since VKEEP rose and of network time (log 3). -/
def State.idle (s : State) : State := s.elapse s.time.gap

/-- One step of the block. -/
def step (s : State) : Host.Outcome State Fault Refusal :=
  match s.pending with
  | [] => .next s.idle
  | c :: rest => exec c { s with pending := rest }

/-- The state with the command that a word spells put at the front of the queue; no word spells one. -/
def State.withFetchWord (s : State) (nbits w : Nat) : State :=
  match decodeTableWord nbits w with
  | some c => { s with pending := c :: s.pending }
  | none => s

end Sys2Proof.Machine
end

