-- ==== Sys2Proof/Safety.lean ====
section
/-!
DEFINITION. What counts as a sound state of the block: the register file and every byte memory are in their canonical form, so
that equal contents are equal data.
-/
namespace Sys2Proof.Machine

/-- The register file is in canonical form: offsets strictly rising, and no register listed that holds its reset word. -/
def State.canonical (s : State) : Bool := s.regs.wf resetWord

/-- A byte memory is in canonical form: addresses strictly rising, and no byte listed that is zero, what an unlisted address
reads as (log 9). -/
def Memory.wf (m : SMap Byte) : Bool := m.wf (fun _ => 0)

/-- Every byte memory of the block is in canonical form: shared SRAM, and each core's data and code memory. -/
def State.MemoriesWf (s : State) : Prop :=
  Memory.wf s.bus.sram = true ∧ ∀ id, Memory.wf (s.core id).mem = true ∧ Memory.wf (s.core id).code = true

end Sys2Proof.Machine
end

