-- ==== Sys2Proof/WellFormed.lean ====
section
/-!
DEFINITION. Which commands are well formed: what the spec fixes about the size and shape of a command's operands beyond
their types. The machine is total on ill-formed commands too; a sender sends none.
-/
namespace Sys2Proof

/-- A bus write is of 1 to 512 bytes and its value fits in them (Table 13.5). -/
def BusWrite.wellFormed (w : BusWrite) : Bool :=
  decide (1 ≤ w.size) && decide (w.size ≤ 512) && decide (w.value < 2 ^ (8 * w.size))

/-- An assignment names an input for each of the 592 outputs (Table 12.5, R47). -/
def LibEntry.wellFormed (e : LibEntry) : Bool := e.assign.length == 592

/-- A failure has a cause of Table 12.6. -/
def JobEnd.wellFormed (e : JobEnd) : Bool :=
  match e with
  | .done => true
  | .failed cause => decide (1 ≤ cause.val) && decide (cause.val ≤ 9)

/-- A tile has 644 EO DACs and 681 heater channels (R64). -/
def channelOk (heater : Bool) (ch : Nat) : Bool := heater || decide (ch < 644)

/-- The objects of each calibrated quantity (Table 06.2): 16 tiles, 768 ADC channels, 11,488 monitors, 10,304 elements, and
for LOSS the 5,152 cells, or the 592 core ports counted from 10,000. -/
def objectExists (quantity object : Nat) : Bool :=
  match quantity with
  | 1 => decide (object < 16)
  | 2 => decide (object < 768)
  | 3 => decide (object < 768)
  | 4 => decide (object < 11488)
  | 5 => decide (object < 10304)
  | 6 => decide (object < 10304)
  | 7 => decide (object < 10304)
  | 8 => decide (object < 10304)
  | 9 => decide (object < 5152) || (decide (10000 ≤ object) && decide (object < 10592))
  | _ => false

/-- A sweep takes the tap's power at 64 codes, on each state of both spans (R122). -/
def Measured.wellFormed (r : Measured) : Bool :=
  objectExists r.quantity.val r.object && (r.quantity.val != 5 || (r.sweeps.length == 4 && r.sweeps.all (fun xs => xs.length == 64)))

/-- A codeword has 544 symbols (R176). -/
def RxLane.wellFormed (x : RxLane) : Bool := x.words.all (fun w => decide (w.errors ≤ 544))

/-- Whether a command is well formed. -/
def Instr.wellFormed (i : Instr) : Bool :=
  match i with
  | .powerOn => true
  | .coldResetAssert _ => true
  | .powerGood => true
  | .bootComplete _ _ _ _ _ _ _ => true
  | .linkReset => true
  | .functionLevelReset _ => true
  | .warmReset _ _ => true
  | .coldReset _ _ => true
  | .rcvLoad _ _ _ _ _ _ _ => true
  | .vkeepLow => true
  | .requestKeep _ => true
  | .requestHold _ => true
  | .requestRun _ => true
  | .requestTest _ => true
  | .requestNormal _ => true
  | .holdEntered => true
  | .powerUpCalPass => true
  | .powerUpCalFail => true
  | .powerUpCalRetry => true
  | .baseHeatStart => true
  | .drainComplete => true
  | .drainTimeout => true
  | .runToHoldPour => true
  | .shakeout _ => true
  | .zeroHold => true
  | .shakeoutComplete => true
  | .pilotContribution _ _ _ => true
  | .pilotVerdict _ => true
  | .pilotCtrlWrite _ _ => true
  | .mldCmpReq _ _ => true
  | .compileStart => true
  | .compileComplete => true
  | .stagingStart => true
  | .tileSeal _ => true
  | .ditherGateOff => true
  | .pour => true
  | .ditherResume => true
  | .spanChangeStart _ _ _ _ => true
  | .spanChangeEnd _ _ => true
  | .slewStep _ _ => true
  | .adcRoundStart _ _ => true
  | .adcConversion _ _ _ _ => true
  | .tileUrgReq _ _ _ => true
  | .urgentResult _ _ _ _ => true
  | .spareTakeover _ _ _ _ => true
  | .spareReturn _ _ _ _ => true
  | .spareSwitch _ _ => true
  | .frameDelivery _ => true
  | .outputMismatch _ heater ch => channelOk heater ch.val
  | .actuatorWrite _ _ heater ch _ => channelOk heater ch.val
  | .pendingWriteApply _ => true
  | .vhtrWindow _ _ => true
  | .vhtrFault _ => true
  | .loopPass _ _ _ => true
  | .loopLockAcquired _ => true
  | .lockLoss _ => true
  | .lockTimeout _ => true
  | .pinned _ => true
  | .starved _ => true
  | .loopOverrun _ => true
  | .flaskHandover _ _ _ _ => true
  | .handoverCopy _ => true
  | .handoverSwap _ => true
  | .loopCmdOpen _ _ => true
  | .loopCmdClose _ _ => true
  | .loopCmdHold _ _ => true
  | .loopCmdRelease _ _ => true
  | .loopCmdEffect => true
  | .fettleObject => true
  | .calResult r => r.wellFormed
  | .calApply quantity object => objectExists quantity.val object
  | .calIntegratorAdjust _ => true
  | .calLegData0Write _ _ => true
  | .calLegData1Write _ _ => true
  | .ppsEdge _ => true
  | .todMessage bytes _ => bytes.length == 16
  | .timeLocked => true
  | .ppsTimeout => true
  | .holdLimit => true
  | .refclkLoss => true
  | .timNow0Read _ => true
  | .heatAct0Read _ => true
  | .heatBankWrite _ _ _ => true
  | .heatCommit _ => true
  | .heatValidated => true
  | .heatCancel _ => true
  | .heatActivate => true
  | .epochBoundary => true
  | .ladleBurstReceive _ _ _ lanes => lanes.length == 4 && lanes.all RxLane.wellFormed
  | .dataFrameIngress _ f => decide (64 ≤ f.payload.length) && decide (f.payload.length ≤ 16320)
  | .hello _ _ _ _ => true
  | .demand _ _ => true
  | .laneMark _ _ _ _ _ => true
  | .errorNote _ _ => true
  | .helloSend => true
  | .timeCheckSend _ => true
  | .ladleBurstSend _ _ => true
  | .directHoldRelease _ _ _ => true
  | .swapArm _ _ _ => true
  | .swapReturn _ _ _ => true
  | .reservedMouldRecompile _ => true
  | .ladlePortFail _ _ => true
  | .ladlePortRecover _ _ => true
  | .sramEccError _ _ _ _ => true
  | .riserPrefetch _ => true
  | .riserReadDone _ _ _ _ => true
  | .mcReplicate _ => true
  | .mcHoldAdmit _ _ => true
  | .mcDrop _ _ => true
  | .reseqSkip _ => true
  | .cutThroughStomp _ => true
  | .ladGrpCommit _ _ => true
  | .shaperRefill => true
  | .portPark _ => true
  | .portUnpark _ _ => true
  | .add _ _ => true
  | .sub _ _ => true
  | .and _ _ => true
  | .or _ _ => true
  | .xor _ _ => true
  | .andn _ _ => true
  | .adds _ _ => true
  | .subs _ _ => true
  | .sll _ _ => true
  | .srl _ _ => true
  | .sra _ _ => true
  | .srar _ _ => true
  | .sllv _ _ => true
  | .srlv _ _ => true
  | .srav _ _ => true
  | .min _ _ => true
  | .max _ _ => true
  | .abs _ _ => true
  | .selz _ _ => true
  | .selc _ _ => true
  | .seln _ _ => true
  | .sels _ _ => true
  | .cmp _ _ => true
  | .tst _ _ => true
  | .exh _ _ => true
  | .insh _ _ => true
  | .addi _ _ => true
  | .andi _ _ => true
  | .ori _ _ => true
  | .xori _ _ => true
  | .lui _ _ => true
  | .cmpi _ _ => true
  | .extu _ _ => true
  | .exts _ _ => true
  | .ins _ _ => true
  | .mula _ _ => true
  | .maca _ _ => true
  | .msua _ _ => true
  | .accr _ _ => true
  | .accw _ _ => true
  | .accz _ _ => true
  | .mulsLu _ _ => true
  | .mulsHu _ _ => true
  | .mulsLs _ _ => true
  | .mulsHs _ _ => true
  | .madLu _ _ => true
  | .madHu _ _ => true
  | .madLs _ _ => true
  | .madHs _ _ => true
  | .mulw _ _ => true
  | .lim _ _ => true
  | .limu _ _ => true
  | .ldw _ _ => true
  | .ldh _ _ => true
  | .ldq _ _ => true
  | .ldr _ _ => true
  | .stw _ _ => true
  | .sth _ _ => true
  | .stq _ _ => true
  | .str _ _ => true
  | .b _ _ => true
  | .bl _ _ => true
  | .jr _ _ => true
  | .errs _ _ => true
  | .pia _ _ => true
  | .pip _ _ => true
  | .limt _ _ => true
  | .awr _ _ => true
  | .iput _ _ => true
  | .bld _ _ => true
  | .bapp _ _ => true
  | .rail _ _ => true
  | .lock _ _ => true
  | .live _ _ => true
  | .smpe _ _ => true
  | .smpd _ _ => true
  | .smpwe _ _ => true
  | .smpwd _ _ => true
  | .smpu _ _ => true
  | .acte _ _ => true
  | .acth _ _ => true
  | .cellx _ _ => true
  | .wait _ _ => true
  | .evt _ _ => true
  | .trap _ _ => true
  | .mfs _ _ => true
  | .mts _ _ => true
  | .eret _ _ => true
  | .fence _ _ => true
  | .div _ _ => true
  | .divu _ _ => true
  | .rem _ _ => true
  | .remu _ _ => true
  | .add64 _ _ => true
  | .sub64 _ _ => true
  | .mull _ _ => true
  | .mullu _ _ => true
  | .sll64 _ _ => true
  | .srl64 _ _ => true
  | .sra64 _ _ => true
  | .cmp64 _ _ => true
  | .aswp _ _ => true
  | .aadd _ _ => true
  | .aand _ _ => true
  | .aor _ _ => true
  | .acas _ _ => true
  | .mq _ _ => true
  | .mrt _ _ => true
  | .hwr _ _ => true
  | .svcHeatCfg _ => true
  | .svcHeatCommit _ => true
  | .svcHeatCancel _ => true
  | .svcDemand _ => true
  | .svcEpoch _ => true
  | .svcNote _ => true
  | .matchComplete => true
  | .waitsWake _ => true
  | .coreTimerExpire _ => true
  | .jobDoorbell _ _ _ => true
  | .nop _ => true
  | .loadImage _ _ _ _ => true
  | .startCalFull _ _ => true
  | .startCalTransfer _ _ => true
  | .startHeatLoad _ image => image.entries.all LibEntry.wellFormed
  | .startMouldLib _ count entries => entries.length == count.toNat && entries.all LibEntry.wellFormed
  | .startFwActivate _ _ _ => true
  | .startSurvey _ _ => true
  | .startRiserScrub _ _ => true
  | .startElemRetire _ _ _ _ => true
  | .startBankRetire _ _ => true
  | .startRegionRetire _ _ => true
  | .startFlaskMove _ _ _ => true
  | .startCoreRestart _ _ _ => true
  | .startAdcTakeover _ _ _ _ => true
  | .suspend _ _ => true
  | .resume _ _ => true
  | .cancel _ _ => true
  | .query _ _ => true
  | .commitConfig _ _ _ => true
  | .claim _ _ => true
  | .release _ _ => true
  | .claimGrant _ => true
  | .jobRun _ => true
  | .jobSafePoint _ _ => true
  | .jobComplete _ result => JobEnd.wellFormed result
  | .jobEntryFree _ => true
  | .jobFlowEdit _ _ => true
  | .jobRingCtrlWrite _ _ _ => true
  | .registerWrite _ w => w.wellFormed
  | .bar2Write _ w => w.wellFormed
  | .smbusReadByte _ => true
  | .smbusReadWord _ => true
  | .smbusBlockRead _ => true
  | .smbusWrite _ => true
  | .smbusWindowRefresh => true
  | .cfgCrcPass => true
  | .debugLock _ => true
  | .busLockForced => true
  | .busRemapWrite _ _ => true
  | .busSliceWrite _ _ => true
  | .busBooted _ => true
  | .eventRingWrite _ => true
  | .evtAccept _ _ => true
  | .evtEoi _ _ => true
  | .holdoffExpire _ => true
  | .evtRedirWrite _ _ _ => true
  | .evtFallback _ => true
  | .evtRingCtrlWrite _ _ _ _ => true
  | .evtRingHeadWrite _ _ _ _ => true
  | .heartbeatLoss => true
  | .dieWatchdogExpire => true
  | .arbitrationDecision _ _ => true
  | .switchOverResume => true
  | .cdSwitch _ => true
  | .plannedSwitch => true
  | .cdRemove _ => true
  | .cdRejoin _ => true
  | .standbyReady => true
  | .arbiterDisagree => true
  | .healthFault _ _ => true
  | .linkCrcFail _ => true
  | .standbyCopyApply => true
  | .faultStatusClear _ _ _ => true
  | .errPulseEnd => true
  | .railFault _ => true
  | .thermalConversion readings => readings.length == 16
  | .challenge _ _ => true
  | .respondG _ _ => true
  | .respondC _ _ => true
  | .password _ _ => true
  | .close _ => true
  | .challengeExpire => true
  | .lockoutEnd => true
  | .lockOpenExpire => true
  | .refclkReturn => true
  | .copeDragLinkDown => true
  | .pfAvailabilityChange _ _ => true
  | .arbiterAgree => true
  | .debugPortReset => true
  | .svc _ _ => true

end Sys2Proof
end

