-- ==== Sys2Proof/Certificates/Slice0/Obligations.lean ====
section
/-!
DEFINITION. The statements for the provers, each formalising rules of the spec. Names that several statements share stand
first; each only abbreviates what its docstring says.
-/
namespace Sys2Proof.Machine

/-- The answer of an instruction that only changes its core to `k` and retires in `n` cycles: every other core, every
register, tile, table and queue is as before. -/
def Retires (s : State) (c : CoreId) (n : Nat) (k : Core) : Out := .next (s.setCore c.master (k.retire c n))

/-- The state after a trap whose entry leaves the core as `k`: on a schedule core of the active die the running decomposition is
abandoned as well (R253, R320). -/
def Trapped (s : State) (c : CoreId) (k : Core) : State :=
  let t := s.setCore c.master k
  if c.kind = .schedule ∧ c.die = s.activeDie then t.abandonDecomposition else t

/-- `v` is x / d rounded to the nearest integer, halves away from zero (R239). -/
def IsRound (v x : Int) (d : Nat) : Prop :=
  2 * (v * d - x).natAbs ≤ d ∧ (2 * (v * d - x).natAbs = d → x.natAbs ≤ (v * d).natAbs)

/-- A value held in the signed range of n bits (R239). -/
def holdBits (n : Nat) (x : Int) : Int := max (-(2 ^ (n - 1) : Int)) (min (2 ^ (n - 1) - 1) x)

/-- A core after an instruction marked SAT: SAT says whether a value was held, and SATS stays set once it is (R239). -/
def Core.told (k : Core) (was : Bool) : Core := { k with sat := was, sats := k.sats || was }

/-- The answer of an instruction marked SAT that writes rd with an exact value held in 32 bits (R239). -/
def PutsHeld (o : Out) (s : State) (c : CoreId) (rd : BitVec 5) (x : Int) : Prop :=
  ∃ v : Word, v.toInt = holdBits 32 x ∧
    o = Retires s c 1 (((s.core c.master).w rd.toNat v).told (decide (holdBits 32 x ≠ x)))

/-- What an instruction leaves that changes its core, the access in hand inside it and nothing else. -/
def OnlyCore (s t : State) (id : Nat) : Prop :=
  (∀ i, i ≠ id → t.core i = s.core i) ∧
    { t with cores := s.cores, free := s.free, bus := { t.bus with hand := s.bus.hand, handLogged := s.bus.handLogged } } = s

/-- A core that is neither halted nor asleep, and whose clock runs: the core clock in HOLD and RUN, for a management core the
housekeeping clock in every state (R8, Table 01.5, R253, R258). -/
abbrev Running (s : State) (c : CoreId) : Prop := (s.core c.master).runs = true ∧ s.clocked c = true

/-- A request of this master is not kept waiting: no switch-over gap is in progress, or the master is no PCIe function (R327). -/
abbrev NoWait (s : State) (m : Master) : Prop := s.cd.gap = none ∨ m.toNat % 128 ≠ 0x58 ∧ m.toNat % 128 ≠ 0x59

/-- What the bus asks before a register's own effect takes place: the register space answers, the offset is open to the master,
and a register marked +p finds it privileged; a host request does not wait for the end of a gap (R282, R327, R353, R356, Table 17.3). -/
abbrev Admitted (s : State) (m : Master) (off : Nat) : Prop :=
  NoWait s m ∧ s.answers m = true ∧ s.blockOpen m off = true ∧ (privReg off = true → s.privileged m = true)

/-- No shakeout is in progress, no job is in the table, and the pending buffer has room for what a command records: no record is
lost (R304, R306). -/
abbrev Quiet (s : State) : Prop := s.power.shake = none ∧ s.jobs.table = [] ∧ s.events.buffer.length + 64 ≤ 4096

/-- A request for a state that is rejected: counted, its reason shown in GLB_STATE_ERR, and noted (R14, Table 01.17). -/
def Rejected (s : State) (reason : Nat) : Out :=
  let t := (s.count F.glbStateErrRejects 1).setFld F.glbStateErrReason reason
  .next (t.raise 0 0 0 (t.reg R.glbStateErr))

/-- n bytes of a memory from an address as one little-endian number (R238). -/
def leNat (m : SMap Byte) (a : Nat) : Nat → Nat
  | 0 => 0
  | n + 1 => (m.get (fun _ => 0) a).toNat + 256 * leNat m (a + 1) n

/-- Address a names n bytes of a core's own data memory from offset `off`: flask data memory outside its reserved
bytes, or local data SRAM (Tables 11.14, 11.15a, 11.16). -/
abbrev OwnData (c : CoreId) (a n off : Nat) : Prop :=
  if c.kind = .loop then off = a ∧ (a + n ≤ 0x1640 ∨ 0x1800 ≤ a ∧ a + n ≤ 0x10000)
  else a = 0x100000 + off ∧ off + n ≤ if c.kind = .schedule then 0x40000 else 0x80000

/-- An instruction that retires in one cycle and leaves its core with the registers `r` and all else as in `k`. -/
def ImageOnly (s : State) (c : CoreId) (i : Instr) (r : Nat → Word) (k : Core) : Prop :=
  ∃ k', exec i s = Retires s c 1 k' ∧ { k' with g := k.g } = k ∧ ∀ i, k'.r i = r i

/-- The fields of a loop record that LOCK reads and writes (Table 05.3, R244). -/
structure LockFields where
  state : Nat
  cnt : Nat
  bad : Nat
  pin : Nat
  lt : Nat
  win : Nat
  lim : Nat
  hmax : Nat
  trim : Int
  htr : Nat
deriving DecidableEq, Repr

/-- The same fields of a record image in g8 to g15, by its registers. -/
def lockFields (r : Nat → Word) : LockFields :=
  let g := fun (i lo w : Nat) => (r (8 + i)).toNat / 2 ^ lo % 2 ^ w
  { state := g 0 0 3, cnt := g 0 3 6, bad := g 0 24 8, pin := g 0 17 4, lt := g 7 12 4, win := g 3 0 8, lim := g 3 8 12,
    hmax := g 5 16 16, trim := Int.bmod (g 7 0 12) 4096, htr := g 7 16 16 }

/-- The word of a frame bank that holds the error or the DC sample of a monitor (Table 04.4). -/
def frameWordOf (m : Nat) (dc : Bool) : Nat := 64 + 2 * m + if dc then 1 else 0

/-- A counter advanced by n, saturating at the greatest value of its field. -/
def Counted (s t : State) (f : Fld) (n : Nat) : Prop := t.fld f = min f.limit (s.fld f + n)

/-- The record of a source waits last in the pending buffer, or its route sends it nowhere. -/
def Noted (s t : State) (src cls kind : Nat) (data : Word) : Prop :=
  (∃ p, t.events.buffer = s.events.buffer ++ [p] ∧ p.record.source = src ∧ p.record.code = 256 * cls + kind ∧ p.record.data = data ∧
    p.record.ns = t.time.net % 1000000000 ∧ p.record.sec = t.time.net / 1000000000) ∨
  t.events.buffer = s.events.buffer ∧ s.targets (bitsOf (t.reg (R.evtRoute0 + 4 * (src / 256))) 3 0) = []

/-- No shakeout is in progress and the pending buffer has room for what a command records (R304, R306). -/
abbrev Room (s : State) : Prop := s.power.shake = none ∧ s.events.buffer.length + 64 ≤ 4096

/-- A record raised now waits in the pending buffer, or its route sends it nowhere. -/
def Told (s t : State) (src cls kind : Nat) (data : Word) : Prop :=
  (∃ p ∈ t.events.buffer, s.events.raised ≤ p.seq ∧ p.record.source = src ∧ p.record.code = 256 * cls + kind ∧ p.record.data = data) ∨
  s.targets (bitsOf (t.reg (R.evtRoute0 + 4 * (src / 256))) 3 0) = []

/-- A ring holds a descriptor and its fields marked zero are zero (R261, Table 12.1). -/
abbrev Posted (s : State) (d : Desc) : Prop :=
  s.flag (ringEn d.pf.val) = true ∧ s.fld (ringHead d.pf.val) ≠ s.fld (ringTail d.pf.val) ∧ d.zeroOk = true

/-- PF0 issues a descriptor outside service state START: every opcode is accepted (R263). -/
abbrev Accepted (s : State) (d : Desc) : Prop := Posted s d ∧ d.pf = 0 ∧ s.svc ≠ 1

/-- A descriptor has been taken: written back, HEAD advanced by one place, the JOB wake source pending in a management core;
registers but those named, and everything but jobs and what the taking itself changes, are as before (R258, R261). -/
def Answered (s t : State) (d : Desc) (w : WriteBack) (regs : List Nat) : Prop :=
  let p := d.pf.val
  t.jobs.back.find? (4096 * p + s.fld (ringHead p)) = some w ∧ t.fld (ringHead p) = (s.fld (ringHead p) + 1) % s.jobPlaces p ∧
  t.fld (ringTail p) = s.fld (ringTail p) ∧ (∃ k, k < 2 ∧ (t.core (s.activeId (80 + k))).pendWake.testBit 1 = true) ∧
  (∀ o, o ∉ regs → o ≠ (ringHead p).off → t.reg o = s.reg o) ∧
  { t with free := s.free, regs := s.regs, jobs := s.jobs, cores := s.cores } = s

/-- The descriptor of an opcode, and whether PF1 may issue it (Table 12.2, R263). -/
def descOf : Instr → Option (Desc × Bool)
  | .nop d | .query d _ => some (d, true)
  | .loadImage d _ _ _ | .startCalFull d _ | .startCalTransfer d _ | .startHeatLoad d _ | .startMouldLib d _ _ | .startFwActivate d _ _
  | .startSurvey d _ | .startRiserScrub d _ | .startElemRetire d _ _ _ | .startBankRetire d _ | .startRegionRetire d _
  | .startFlaskMove d _ _ | .startCoreRestart d _ _ | .startAdcTakeover d _ _ _ | .suspend d _ | .resume d _ | .cancel d _
  | .commitConfig d _ _ | .claim d _ | .release d _ => some (d, false)
  | _ => none

/-- The job of an ID. -/
def State.job (s : State) (id : Nat) : Option Job := findJob s.jobs.table id

/-- One opcode that starts a job, with what Tables 12.2, 12.5 and 12.8 say of its type. -/
structure StartRow where
  cmd : Instr
  kind : JobKind
  /-- it may be of class RECOVERY -/
  recovery : Bool
  /-- its arguments are in range -/
  args : Prop
  /-- the states it runs in -/
  runs : Prop
  /-- its objects in all, where they are stated -/
  total : Option Nat

/-- A fault of class C1, C2 or C3 of a group starts no shakeout: no such class has RECOVER among its actions, as at reset (R335, R337). -/
abbrev NoRecovery (s : State) (n : Nat) : Prop := ∀ k, k < 3 → (s.fld (F.fltAct n (k + 1))).testBit 2 = false

/-- The data word of a cope/drag event (R331). -/
def cdWord (active trigger cope drag tile : Nat) : Word := word (active + 16 * trigger + 256 * cope + 65536 * drag + 2 ^ 24 * tile)

/-- The comparison of the dies is on or off in every tile, and nothing differs (R88, R316). -/
def Compared (t : State) (on : Bool) : Prop := ∀ k, k < 16 → t.flag (F.tileStatusCmpOn k) = on ∧ (t.tile k).differ = []

/-- The standby has stopped being ready: nothing is compared, mirrored or streamed any more, and STANDBY_LOST is noted with the
health words as they were (R316, R331). -/
def Lost (s t : State) (trigger tile cope drag : Nat) : Prop :=
  t.standbyReady = false ∧ Compared t false ∧ t.events.replay = [] ∧ t.cd.stream = [] ∧
  Noted s t 0xE00 2 4 (cdWord (s.fld F.cdStatusActive) trigger cope drag tile)

/-- A die has been reset: its cores and their memories, and its health word (R323, R330). -/
def DieReset (t : State) (d : Die) : Prop := t.fld (healthFld d) = 0 ∧ ∀ id, id / 128 = d.code → t.core id = Core.zero

/-- A standby die after its reset: with REJOIN it boots, otherwise it is OUT and waits (R330). -/
def Rejoins (s t : State) : Prop :=
  DieReset t s.standbyDie ∧ t.fld F.cdStatusStby = (if s.flag F.cdCtrlRejoin then 0 else 3) ∧
  (s.flag F.cdCtrlRejoin = false → t.cd.waitRejoin = true)

/-- A switch-over has been made at D, on the next slot clock edge: the other die is active, the former one stands by and is not ready, nothing is compared, and
the gap runs to Fr, the first frame boundary 6.4 us or more after D; a staged pour not sealed everywhere is held (R326). -/
def Switched (s t : State) : Prop :=
  t.fld F.cdStatusActive = 1 - s.fld F.cdStatusActive ∧ t.fld F.cdStatusStby = 0 ∧ t.fld F.cdStatusGap = 1 ∧ t.fld F.cdStatusArb = 0 ∧
  t.cd.arb = none ∧ t.cd.planned = none ∧ Compared t false ∧ Counted s t F.cdCountsSwitch 1 ∧ t.cd.stream = [] ∧
  (∃ fr, t.cd.gap = some (t.time.net, fr) ∧ t.time.net % 5 = 0 ∧ s.time.net ≤ t.time.net ∧ t.time.net < s.time.net + 5 ∧ fr % 6400 = 0 ∧
    t.time.net + 6400 ≤ fr ∧ fr < t.time.net + 12800) ∧
  (∀ st, s.moulds.staged = some st → ∃ st', t.moulds.staged = some st' ∧ { st' with gap := st.gap, sample := st.sample } = st ∧
    (st'.gap = true ↔ st.gap = true ∨ st.sealedTiles.length ≠ 16)) ∧
  t.jobs.table = s.jobs.table ∧ t.heats.now = s.heats.now ∧ t.heats.repair = none ∧ t.ladle = s.ladle

/-- An attempt to open the access lock leaves no challenge and no response words (R359, Tables 17.8, 17.11). -/
def Spent (t : State) : Prop :=
  t.flag F.lockStatusChal = false ∧ (∀ i, i < 4 → t.reg (R.lockChal i) = 0) ∧ ∀ i, i < 8 → t.reg (R.lockResp i) = 0

end Sys2Proof.Machine

open Sys2Proof Sys2Proof.Machine
/-! ## The block as a whole -/

/-- A step with a command at the front of the queue executes that command on the state with the queue's rest. -/
def Obligations.StepRunsFrontCommand : Prop :=
  ∀ (i : Instr) (s : State), step { s with pending := i :: s.pending } = exec i s

/-- With no command waiting the block idles and time passes by the state's own gap: the model's choice (log 3). Network time keeps
pace, but for at most 10 ppm of the gap during a slew (R146); SEAL_ALL is sampled when network time comes to T - 5 ns (R59). -/
def Obligations.StepIdlesOnAnEmptyQueue : Prop :=
  ∀ s : State, s.pending = [] → ∃ t, step s = .next t ∧ t.time.now = s.time.now + s.time.gap ∧
    100000 * ((t.time.net : Int) - (s.time.net + s.time.gap : Nat)).natAbs ≤ s.time.gap ∧
    (s.time.slewLeft = 0 → t.time.net = s.time.net + s.time.gap) ∧
    ((∀ st, s.moulds.staged = some st → t.time.net + 5 < st.pourAt) → t.moulds = s.moulds) ∧
    { t with time := s.time, moulds := s.moulds } = s

/-- The reset words of registers as their maps give them, the block in KEEP and START at rest, no command waiting, and the register
file in its canonical form. -/
def Obligations.ResetValues : Prop :=
  State.reset.canonical = true ∧ State.reset.pending = [] ∧ State.reset.dev = 0 ∧ State.reset.svc = 1 ∧ State.reset.fabric = 0 ∧
  ∀ p ∈ ([(R.glbId, 0x5120A001), (R.glbState, 0x10), (R.glbDrainTimeout, 0x64), (R.mldPilotCtrl, 7), (R.mldPilotLast, 0xC00),
      (R.mldStageLead, 0x50), (R.mldInForce, 0x4000), (R.tileStatus 15, 0x0F000004), (R.tileEoSlew 0, 0x10000),
      (R.tileAdcCor 15 47, 0x40000000), (R.loopCtrl, 0xFF1000F1), (R.loopFlaskMap 63, 0x4003F3F), (R.loopPortTgt 591, 0xFF38),
      (R.calDeltaT, 0x1E), (R.timStatus, 0xFFFF0000), (R.timCtrl, 0x640A00), (R.heatTiming, 0xC80064), (R.heatSched, 0x3E8),
      (R.heatNextCfg, 0xFF0040), (R.ladCtrl, 7), (R.ladProf 15, 0x80100040), (R.ladPortA 63, 0x1000003F), (R.ladPortS 3, 0x30000043),
      (R.lsvCtrl, 3), (R.lsvQcfg 16383, 0x2400), (R.jobRing0Ctrl, 6), (R.jobActive, 0x10000), (R.evtRoute 95, 0x7D115),
      (R.evtRingTail 3 7, 0x1000), (R.cdCtrl, 0x80100064), (R.fltSrc 95, 0xAC8000), (R.thmStatus, 0x80006400),
      (R.lockCtrl, 0x3C), (R.lockStatus, 0), (R.busErrCounts, 0)] : List (Nat × Nat)), (State.reset.reg p.1).toNat = p.2

/-- From any state whose register file is in canonical form, a step leads to such a state: equal registers stay equal data,
whatever the command. -/
def Obligations.StepKeepsRegisterFileCanonical : Prop :=
  ∀ s t : State, s.canonical = true → step s = .next t → t.canonical = true

/-- Every command answers a next state from every state, and none touches the queue of commands that wait. -/
def Obligations.CommandsLeaveTheQueue : Prop :=
  ∀ (i : Instr) (s : State), ∃ t, exec i s = .next t ∧ t.pending = s.pending


/-! ## Registers, windows and the bus matrix -/

/-- The registers whose writes do more than their access codes say, by their bases: commands and the registers that a rule of
their own chapter governs. -/
def registersWithRules : List Nat :=
  [R.glbStateReq, R.glbReset, R.jobRing0BaseLo, R.jobRing0BaseHi, R.jobRing1BaseLo, R.jobRing1BaseHi, R.jobRing0Ctrl, R.jobRing1Ctrl,
   R.jobFlowEdit, R.heatSched, R.heatRunBase 0, R.heatRunBase2, R.heatNextBase 0, R.heatNextCfg, R.heatCommit, R.mldPilotCtrl,
   R.mldCmpReq, R.loopCmd, R.loopPortTgt 0, R.loopFlaskMap 0, R.calLegData0, R.calLegData1, R.tileEoSpan 0 0, R.tileUrgReq 0, R.tileSpare 0 0,
   R.ladGrpCommit, R.ladSwap 0, R.lsvQcfg 0, R.busRemap, R.busSlice, R.busStatus, R.evtTgtCtrl 0, R.evtTgtEoi 0, R.evtRingCtrl 0 0,
   R.evtRingHead 0 0, R.cdCmd, R.fltErrHold, R.fltSrc 0, R.lockCmd, R.lockResp 0]

/-- Clauses of R284, R293: an aligned 32-bit write to a register outside registersWithRules: each field follows its own access code, DIRTY is set for a
register of the configuration check, and nothing else changes. -/
def Obligations.RegisterWritesByAccessCode : Prop :=
  ∀ (s : State) (m : Master) (off : Nat) (v : Word) (r : RegDesc) (i j : Nat),
    findReg regTable off = some (r, i, j) → r.base ∉ registersWithRules → off % 4 = 0 → Admitted s m off →
    ∃ t, exec (.registerWrite m ⟨off, 4, v.toNat, true⟩) s = .next t ∧
      (∀ f ∈ r.fields,
        let old := s.fld ⟨off, f.hi, f.lo⟩
        let new := t.fld ⟨off, f.hi, f.lo⟩
        let given := bitsOf v f.hi f.lo
        match f.code with
        | .rw | .cnt => new = given
        | .w1c => new = if given = 2 ^ (f.hi + 1 - f.lo) - 1 then 0 else old
        | .ro | .wo | .none => new = old
        | .mw => f.lo = 0 → ∀ b, b < 16 → (t.reg off).getLsbD b = if v.getLsbD (16 + b) then v.getLsbD b else (s.reg off).getLsbD b) ∧
      (∀ o, o ≠ off → o ≠ R.cfgStatus → t.reg o = s.reg o) ∧
      (r.cfg = true → t.flag F.cfgStatusDirty = true) ∧ (r.cfg = false → off ≠ R.cfgStatus → t.reg R.cfgStatus = s.reg R.cfgStatus) ∧
      { t with regs := s.regs, bus := { t.bus with passDirty := s.bus.passDirty } } = s

/-- Clauses of R281, R282, R283, R339: accesses to register space that have no effect but to be logged, each with its kind: ALIGN, WIDTH,
DECODE, PRIV; before BAR0 answers a write of a PF does nothing at all. -/
def Obligations.RefusedRegisterAccesses : Prop :=
  ∀ (s : State) (m : Master) (w : BusWrite), s.bus.hand = none →
    let a : Access := { regAccess m w.off with size := w.size }
    let aligned := w.shapeOk = true ∧ (if w.size ≤ 8 then w.size ∈ [1, 2, 4, 8] ∧ w.off % w.size = 0 else w.off % 4 = 0 ∧ w.size % 4 = 0)
    let logged := fun (kind : Nat) => exec (.registerWrite m w) s = .next (s.logAccess a kind)
    (s.answers m = false → exec (.registerWrite m w) s = .next s) ∧
    (NoWait s m → s.answers m = true → w.size ≤ 512 →
      (s.blockOpen m w.off = false → logged 1) ∧
      (s.blockOpen m w.off = true → ¬aligned → logged 4) ∧
      (s.blockOpen m w.off = true → aligned → w.size = 1 ∨ w.size = 2 → logged 3) ∧
      (∀ kind, s.blockOpen m w.off = true → aligned → w.size = 4 →
        (kind = 1 ∧ findReg regTable w.off = none ∨
          kind = 2 ∧ (findReg regTable w.off).isSome = true ∧ privReg w.off = true ∧ s.privileged m = false) →
        ∃ t, exec (.registerWrite m w) s = .next t ∧
          { t with bus := { t.bus with hand := none, handLogged := false } } =
            { s.logAccess a kind with bus := { (s.logAccess a kind).bus with hand := none, handLogged := false } }))

/-- Clauses of R339, Table 13.5: a logged access fills the capture registers while VALID = 0 and counts in MORE otherwise; it counts by its
kind, and an event of source BUS carries master and kind, a C2 fault for LOCK and a note for every other kind. -/
def Obligations.AccessLogging : Prop :=
  ∀ (s : State) (a : Access) (kind : Nat), kind < 16 → a.size ≤ 8 → a.space < 16 →
    (s.flag F.fltFecStatValid = false →
      let t := s.capture a kind
      t.flag F.fltFecStatValid = true ∧ (t.reg R.fltFecAddrLo).toNat = a.addr % 2 ^ 32 ∧ (t.reg R.fltFecAddrHi).toNat = a.addr / 2 ^ 32 % 2 ^ 32 ∧
      (t.reg R.fltFecInfo).toNat = a.space * 2 ^ 20 + a.size * 2 ^ 16 + (if a.write then 2 ^ 15 else 0) + kind * 256 + a.master.toNat ∧
      (t.reg R.fltFecNs).toNat = s.time.net % 1000000000 ∧ (t.reg R.fltFecSec).toNat = s.time.net / 1000000000 % 2 ^ 32 ∧
      { t with regs := s.regs } = s) ∧
    (s.flag F.fltFecStatValid = true → s.capture a kind = s.setFld F.fltFecStatMore (Nat.min 65535 (s.fld F.fltFecStatMore + 1))) ∧
    s.logAccess a kind =
      ((match kind with
        | 1 => (s.capture a kind).count F.busErrCountsDecode 1
        | 2 => (s.capture a kind).count F.busErrCountsPriv 1
        | 3 => (s.capture a kind).count F.busErrCountsShape 1
        | 4 => (s.capture a kind).count F.busErrCountsShape 1
        | 5 => (s.capture a kind).count F.busErrCountsShape 1
        | 6 => (s.capture a kind).count F.busErrCountsLock 1
        | 7 => (s.capture a kind).count F.busErrCountsReset 1
        | _ => s.capture a kind).raise 0x3000 (if kind = 6 then 2 else 0) kind (BitVec.ofNat 32 (a.master.toNat + 256 * kind)))

/-- Clauses of R288, R289, Table 13.3: aligned 32-bit writes of PF0 to the windows of BAR2 that it may write, and the refusal, as PROTECT,
DECODE or, for PF1, PRIV, of every other. -/
def Obligations.WindowWrites : Prop :=
  ∀ (s : State) (m : Master) (off : Nat) (v : Word), s.power.bar0 = true → s.flag F.glbBootRcv = false → s.bus.hand = none → s.cd.gap = none →
    off % 4 = 0 →
    let i := Instr.bar2Write m ⟨off, 4, v.toNat, true⟩
    let refused := fun (kind : Nat) => ∃ t, exec i s = .next t ∧
      let u := s.logAccess { master := m, space := 1, addr := off, size := 4, write := true } kind
      { t with bus := { t.bus with hand := none, handLogged := false } } = { u with bus := { u.bus with hand := none, handLogged := false } }
    (m.toNat % 128 = 0x58 →
      (0x1040000 ≤ off → off < 0x1050000 → ∃ t, exec i s = .next t ∧ t.areaWord off = v ∧
        (∀ o, o ≠ off → t.areaWord o = s.areaWord o) ∧ { t with moulds := { t.moulds with area := s.moulds.area } } = s) ∧
      (∀ j b, off = 0x2108000 + 8 * j + 4 * b → j < 4096 → b < 2 → s.flag F.heatSchedHost = true →
        s.fld F.heatNextStatusState = 0 ∨ s.fld F.heatNextStatusState = 3 → ∃ t, exec i s = .next t ∧
          let old := s.heats.next.get (fun _ => 0) j
          t.heats.next.get (fun _ => 0) j =
            slotMask &&& (if b = 0 then old.extractLsb' 32 32 ++ v else v ++ old.extractLsb' 0 32 : BitVec 64) ∧
          (∀ x, x ≠ j → t.heats.next.get (fun _ => 0) x = s.heats.next.get (fun _ => 0) x) ∧
          { t with heats := { t.heats with next := s.heats.next } } = s) ∧
      (∀ k p, off = 0x4000000 + 0x10000 * k + p → k < 72 → p < 0x1600 → p % 32 ≠ 0 → ∃ t, exec i s = .next t ∧
        let id := k + 128 * s.activeDie.code
        (∀ x, ((t.core id).mem.get (fun _ => 0) x).toNat =
          if p ≤ x ∧ x < p + 4 then v.toNat / 256 ^ (x - p) % 256 else ((s.core id).mem.get (fun _ => 0) x).toNat) ∧
        (∀ o, o ≠ id → t.core o = s.core o) ∧ { t with cores := s.cores, cd := { t.cd with stream := s.cd.stream } } = s) ∧
      (∀ q, off = 0xC000000 + 16 * q → q < 17408 → ∃ t, exec i s = .next t ∧ (t.queue q).profile = v.toNat / 2 ^ 24 % 16 ∧
        (t.queue q).entries = (s.queue q).entries ∧ (∀ o, o ≠ q → t.queue o = s.queue o) ∧
        { t with ladle := { t.ladle with queues := s.ladle.queues } } = s) ∧
      (∀ k, off = 0xC300000 + 4 * k → k < 20 → ∃ t, exec i s = .next t ∧ t.ladle.shadow.get (fun _ => 0) k = v ∧
        (∀ o, o ≠ k → t.ladle.shadow.get (fun _ => 0) o = s.ladle.shadow.get (fun _ => 0) o) ∧
        { t with ladle := { t.ladle with shadow := s.ladle.shadow } } = s) ∧
      (off < 0x1040000 ∨ 0x1050000 ≤ off ∧ off < 0x1800000 ∨ 0x2000000 ≤ off ∧ off < 0x2040000 ∨ 0x2100000 ≤ off ∧ off < 0x2108000 ∨
        0x5000000 ≤ off ∧ off < 0x5480000 ∨ 0x8000000 ≤ off ∧ off < 0xC000000 ∨ 0x10000000 ≤ off ∧ off < 0x18000000 → refused 5) ∧
      (0x1800000 ≤ off → off < 0x2000000 ∨ 0x2110000 ≤ off ∧ off < 0x4000000 ∨ 0x18000000 ≤ off → refused 1)) ∧
    (m.toNat % 128 = 0x59 → off < 0x1800000 → refused 2)

/-- Clauses of R291, Table 13.7: SMBus reads answer from the snapshot, least significant byte first, once the keeper runs; a Block Read
answers 32 bytes from offset 0; every write is answered with NACK; the snapshot is taken afresh each millisecond. -/
def Obligations.StatusWindow : Prop :=
  ∀ (s : State) (cmd : Byte) (a b c d e f g h : Word), s.bus.window = [a, b, c, d, e, f, g, h] →
    let byte := fun (n : Nat) => BitVec.ofNat 8 (([a, b, c, d, e, f, g, h].getD (n / 4) 0).toNat / 256 ^ (n % 4))
    let answers := fun (i : Instr) (bs : List Byte) => ∃ t, exec i s = .next t ∧ t.bus.answer = some bs ∧
      { t with free := s.free, bus := { t.bus with answer := s.bus.answer } } = s
    (s.power.smbus = true → cmd.toNat < 32 → answers (.smbusReadByte cmd) [byte cmd.toNat]) ∧
    (s.power.smbus = true → cmd.toNat < 31 → answers (.smbusReadWord cmd) [byte cmd.toNat, byte (cmd.toNat + 1)]) ∧
    (s.power.smbus = true → answers (.smbusBlockRead cmd) ((List.range 32).map byte)) ∧
    exec (.smbusWrite cmd) s = .next { s with bus := { s.bus with answer := none } } ∧
    exec .smbusWindowRefresh s = .next { s with bus := { s.bus with window :=
      [s.reg R.glbId, s.reg R.glbRev, s.reg R.glbSerialLo, s.reg R.glbSerialHi, s.reg R.glbState, s.fltSummary,
       BitVec.ofNat 32 (s.fld F.thmStatusMax), s.refreshErr.reg R.timStatus] } }

/-- Clauses of R297 to R300, R293: the debug port's lock and its forced release, BUS_REMAP and BOOTED for management firmware alone,
BUS_SLICE until BOOTED, the debug port's reset, and a pass of the configuration check. -/
def Obligations.BusControl : Prop :=
  ∀ (s : State) (m : Master) (v : Word) (port : Fin 256),
    let firm := (unitOf m = 0x50 ∨ unitOf m = 0x51) ∧ (s.core m.toNat).user = false
    let dbg : Master := BitVec.ofNat 8 (0x5E + 128 * s.activeDie.code)
    (s.flag F.lockStatusDebug = true → s.bus.locked = none →
      exec (.debugLock port) s = .next { s.setFld F.busStatusLocked 1 with bus := { s.bus with locked := some (port.val, s.time.now) } }) ∧
    (∀ p at_, s.bus.locked = some (p, at_) → s.bus.hand = none → exec .busLockForced s = .next (
      let s1 := ((s.setFld F.busStatusLocked 0).setFld F.busStatusForced 1).setFld F.busStatusLastLock dbg.toNat
      ({ s1 with bus := { s.bus with locked := none } }).logAccess { master := dbg, space := 4, addr := p, size := 4, write := true } 6)) ∧
    (Admitted s m R.busRemap → firm → exec (.busRemapWrite m v) s = .next (s.setFld F.busRemapSwap (if v.getLsbD 0 then 1 else 0))) ∧
    (Admitted s m R.busRemap → ¬firm → s.bus.hand = none → exec (.busRemapWrite m v) s = .next (s.logAccess (regAccess m R.busRemap) 5)) ∧
    (Admitted s m R.busSlice → s.flag F.busStatusBooted = false → ∃ t, exec (.busSliceWrite m v) s = .next t ∧
      (t.reg R.busSlice).toNat = v.toNat % 2 ^ 24 ∧ ∀ o, o ≠ R.busSlice → o ≠ R.cfgStatus → t.reg o = s.reg o) ∧
    (Admitted s m R.busSlice → s.flag F.busStatusBooted = true → s.bus.hand = none →
      exec (.busSliceWrite m v) s = .next (s.logAccess (regAccess m R.busSlice) 5)) ∧
    (firm → exec (.busBooted m) s = .next (s.setFld F.busStatusBooted 1)) ∧
    (s.bus.bursts.find? (fun p => p.1 = dbg.toNat) = none → s.bus.locked = none → exec .debugPortReset s = .next s) ∧
    (∀ x, s.bus.bursts.find? (fun p => p.1 = dbg.toNat) = some (dbg.toNat, x) → s.bus.locked = none → s.bus.hand = none →
      exec .debugPortReset s = .next (({ s with bus := { s.bus with bursts := s.bus.bursts.filter (fun p => p.1 ≠ dbg.toNat) } }).logAccess
        { master := dbg, space := 4, addr := x, size := 16, write := true } 7)) ∧
    (let crc := s.configCrc
     let s1 := (s.setReg R.cfgCrc crc).setFld F.cfgStatusPasses ((s.fld F.cfgStatusPasses + 1) % 65536)
     let s2 := { s1 with bus := { s.bus with passDirty := false } }
     (s.flag F.cfgStatusArmed = false ∨ s.bus.passDirty = true ∨ s.flag F.cfgStatusDirty = true ∨ crc = s.reg R.cfgRef →
       exec .cfgCrcPass s = .next s2) ∧
     (s.flag F.cfgStatusArmed = true → s.bus.passDirty = false → s.flag F.cfgStatusDirty = false → crc ≠ s.reg R.cfgRef →
       exec .cfgCrcPass s = .next (((s2.setFld F.cfgStatusMism 1).count F.cfgMismatchesCount 1).raise 0x100 3 0 crc)))

/-! ## Events -/

/-- Clauses of R304, R305, R307: EVENT_RING_WRITE. The first record that waits, its ring in use and not full, is written at TAIL with the
ring's phase; TAIL moves on by one place, and the phase turns at the end of the ring; its place in the buffer is free. A
target that cannot take records, or delivery switched off, leaves everything. A management core's record stands in its ring in shared SRAM, in the four words of Table 14.1; for a PF no word of
shared SRAM changes. -/
def Obligations.EventRingWrites : Prop :=
  ∀ (s : State) (t : Fin 4),
    (s.flag F.evtDeliverEnEn = false ∨ s.available t.val = false → exec (.eventRingWrite t) s = .next s) ∧
    (∀ (p : Pending) (rest : List Pending), s.events.buffer = p :: rest → p.targets = [t.val] → (∀ q ∈ rest, q.seq ≠ p.seq) →
      s.events.overflow.find? t.val = none → s.flag F.evtDeliverEnEn = true → s.available t.val = true → p.record.level < 8 →
      let l := p.record.level
      let n := 2 ^ (max 4 (min 12 (s.fld (F.evtRingCtrlSize t.val l))))
      let tail := s.fld (F.evtRingTailTail t.val l)
      let phase := s.flag (F.evtRingTailPhase t.val l)
      s.flag (F.evtRingCtrlEn t.val l) = true → (tail + 1) % n ≠ s.fld (F.evtRingHeadHead t.val l) % n →
      ∃ r, exec (.eventRingWrite t) s = .next r ∧
        r.events.rings.find? ((8 * t.val + l) * 4096 + tail) = some (p.record, phase) ∧
        r.fld (F.evtRingTailTail t.val l) = (tail + 1) % n ∧
        r.flag (F.evtRingTailPhase t.val l) = (if n ≤ tail + 1 then !phase else phase) ∧
        (∀ q ∈ r.events.buffer, q.seq ≠ p.seq) ∧
        (∀ o, o ≠ R.evtRingTail t.val l → r.reg o = s.reg o) ∧
        (t.val < 2 → r.bus.sram = s.bus.sram) ∧
        (2 ≤ t.val → s.fld (F.evtRingBaseLoAddr t.val l) % 64 = 0 →
          let at_ := fun (k : Nat) => r.getWord sramUnit s.activeDie ((s.fld (F.evtRingBaseLoAddr t.val l) + 16 * tail) % 2 ^ 24 + 4 * k)
          let x := p.record
          at_ 0 = BitVec.ofNat 32 (x.source + 2 ^ 16 * x.code + 2 ^ 28 * l + if phase then 2 ^ 31 else 0) ∧ at_ 1 = x.data ∧
            (at_ 2).toNat + 2 ^ 32 * (at_ 3).toNat = (x.ns + 2 ^ 30 * (x.sec % 2 ^ 33) + if x.replay then 2 ^ 63 else 0) % 2 ^ 64))

/-- Clauses of R307 to R310: ACCEPT by the target's own master pushes the highest pending level above the running priority and returns it
with the stack's depth; EOI pops the stack, and on an empty one is counted and noted; a delayed signal is sent when its
holdoff ends; another master's ACCEPT has no effect, and its EOI is discarded and logged. -/
def Obligations.AcceptAndEndOfInterrupt : Prop :=
  ∀ (s : State) (m : Master) (t : Fin 4),
    let stack := s.events.stackOf.get (fun _ => []) t.val
    let waits := fun (l : Nat) => s.fld (F.evtRingHeadHead t.val l) ≠ s.fld (F.evtRingTailTail t.val l)
    let above := fun (l : Nat) => ∀ x ∈ stack.head?, x < l
    (∀ l, l < 8 → NoWait s m → s.answers m = true → s.targetMaster t.val m = true → waits l → above l → (∀ k, l < k → k < 8 → ¬waits k) →
      ∃ r, exec (.evtAccept m t) s = .next r ∧ r.events.stackOf.get (fun _ => []) t.val = l :: stack ∧
        (r.reg (R.evtTgtAccept t.val)).toNat = 2 ^ 31 + (stack.length + 1) % 8 * 256 + l ∧
        (∀ o, o ≠ R.evtTgtAccept t.val → r.reg o = s.reg o) ∧ r.events.buffer = s.events.buffer) ∧
    (NoWait s m → s.answers m = true → s.targetMaster t.val m = true → (∀ l, l < 8 → waits l → ¬above l) →
      exec (.evtAccept m t) s = .next (s.setReg (R.evtTgtAccept t.val) 0)) ∧
    (s.targetMaster t.val m = false → exec (.evtAccept m t) s = .next s) ∧
    (∀ l st, Admitted s m (R.evtTgtEoi t.val) → s.targetMaster t.val m = true → stack = l :: st →
      ∃ r, exec (.evtEoi m t) s = .next r ∧ r.events.stackOf.get (fun _ => []) t.val = st ∧ r.regs = s.regs ∧
        r.events.buffer = s.events.buffer) ∧
    (Admitted s m (R.evtTgtEoi t.val) → s.targetMaster t.val m = true → stack = [] →
      exec (.evtEoi m t) s = .next ((s.count (F.evtTgtStackEoiEmpty t.val) 1).raise 0x200 0 2 (BitVec.ofNat 32 t.val))) ∧
    (Admitted s m (R.evtTgtEoi t.val) → s.targetMaster t.val m = false → s.bus.hand = none →
      exec (.evtEoi m t) s = .next (s.logAccess (regAccess m (R.evtTgtEoi t.val)) 8)) ∧
    (∀ d, s.events.due.get (fun _ => none) t.val = some d → ∃ r, exec (.holdoffExpire t) s = .next r ∧ r.time.now = max s.time.now d ∧
      r.events.signals.get (fun _ => 0) t.val = s.events.signals.get (fun _ => 0) t.val + 1 ∧
      r.events.due.get (fun _ => none) t.val = none ∧ r.regs = s.regs)

/-- Clauses of R305, R311, R312: the commands that set a target up. HEAD takes the value written; clearing EN empties a ring; REDIR moves the
waiting records unless R311 forbids it; a PF that stays unavailable for the fallback time hands its records on; a PF that
becomes available again takes new ones itself. -/
def Obligations.EventTargetSetup : Prop :=
  ∀ (s : State) (m : Master) (t : Fin 4) (l : Fin 8) (v : Word),
    (Admitted s m (R.evtRingHead t.val l.val) → ∃ r, exec (.evtRingHeadWrite m t l v) s = .next r ∧
      r.fld (F.evtRingHeadHead t.val l.val) = v.toNat % 4096 ∧
      (∀ o, o ≠ R.evtRingHead t.val l.val → r.reg o = s.reg o) ∧ r.events.buffer = s.events.buffer) ∧
    (Admitted s m (R.evtRingCtrl t.val l.val) → v.getLsbD 31 = true → ∃ r, exec (.evtRingCtrlWrite m t l v) s = .next r ∧
      r.flag (F.evtRingCtrlEn t.val l.val) = true ∧ r.fld (F.evtRingCtrlSize t.val l.val) = v.toNat % 16 ∧
      (∀ o, o ≠ R.evtRingCtrl t.val l.val → o ≠ R.cfgStatus → r.reg o = s.reg o)) ∧
    (Admitted s m (R.evtRingCtrl t.val l.val) → v.getLsbD 31 = false → ∃ r, exec (.evtRingCtrlWrite m t l v) s = .next r ∧
      r.flag (F.evtRingCtrlEn t.val l.val) = false ∧ (r.reg (R.evtRingHead t.val l.val)).toNat = 0 ∧
      (r.reg (R.evtRingTail t.val l.val)).toNat = 0x1000) ∧
    (Admitted s m (R.evtTgtCtrl t.val) →
      let u := v.toNat / 2 ^ 24 % 4
      let free := u = t.val ∨ s.fld (F.evtTgtCtrlRedir u) = u ∧ ∀ w, w < 4 → w ≠ t.val → s.fld (F.evtTgtCtrlRedir w) ≠ t.val
      (free → ∃ r, exec (.evtRedirWrite m t v) s = .next r ∧ r.fld (F.evtTgtCtrlRedir t.val) = u ∧
        r.fld (F.evtTgtCtrlHoldoff t.val) = v.toNat % 1024 ∧
        (u ≠ t.val → ∀ p ∈ r.events.buffer, t.val ∉ p.targets) ∧ r.events.buffer.length = s.events.buffer.length) ∧
      (¬free → s.bus.hand = none → exec (.evtRedirWrite m t v) s = .next (s.logAccess (regAccess m (R.evtTgtCtrl t.val)) 8))) ∧
    (∀ pf : Fin 2, s.available pf.val = false → s.fallback pf.val = false → s.fallbackOf pf.val ≠ pf.val →
      ∃ r, exec (.evtFallback pf) s = .next r ∧ r.fallback pf.val = true ∧ r.regs = s.regs ∧
        r.time.now = max s.time.now (s.events.since.get (fun _ => 0) pf.val + 1000000 * max 1 (min 60000 (s.fld F.evtFallbackTimeoutMs))) ∧
        ∀ p ∈ r.events.buffer, pf.val ∉ p.targets) ∧
    (∀ pf : Fin 2, s.available pf.val = false → ∃ r, exec (.pfAvailabilityChange pf true) s = .next r ∧ r.available pf.val = true ∧
      r.fallback pf.val = false ∧ r.regs = s.regs) ∧
    (∀ pf : Fin 2, s.available pf.val = true → ∃ r, exec (.pfAvailabilityChange pf false) s = .next r ∧ r.available pf.val = false ∧
      r.events.since.get (fun _ => 0) pf.val = s.time.now ∧ r.regs = s.regs)

/-! ## Start-up, reset and the states of the engine -/

/-- Clauses of R347 to R350, R365: what power-on, a cold reset, the fall of RST_N and power good leave. Network time, the last serial, the
failure count and a lockout survive a cold reset; everything outside the keeper domain is lost; a wrong key is discarded and
logged. -/
def Obligations.Resets : Prop :=
  ∀ (s : State) (m : Master) (key : BitVec 16) (rst : Bool),
    let lost := fun (t : State) => t.dev = 0 ∧ t.svc = 1 ∧ t.fabric = 0 ∧ t.cores = [] ∧ t.tiles = [] ∧
      { t.moulds with zeroSince := Moulds.reset.zeroSince } = Moulds.reset ∧ t.moulds.zeroSince.isSome = true ∧
      t.loops = Loops.reset ∧ t.cal = Cal.reset ∧ t.ladle = Ladle.reset ∧ t.service = Service.reset ∧ t.jobs = Jobs.reset ∧
      t.cd = CopeDrag.reset ∧ t.bus = Bus.reset ∧ t.faults = Faults.reset ∧ t.events.buffer = [] ∧ t.power.bar0 = false ∧
      t.fld F.lockStatusFails = s.fld F.lockStatusFails ∧ t.lockOpen = false
    let kept := fun (t : State) => t.time = s.time ∧ t.reg R.timStatus = s.reg R.timStatus ∧
      t.reg R.heatLiveSerial = s.reg R.heatLiveSerial ∧ t.lock.lockoutUntil = s.lock.lockoutUntil ∧ t.heats.fresh = s.heats.fresh
    (∃ t, exec .powerOn s = .next t ∧ lost t ∧ t.time = TimeBase.reset ∧ t.heats = Heats.reset ∧ t.power = Power.reset) ∧
    (Admitted s m R.glbReset → key = 0xC0DE#16 → ∃ t, exec (.coldReset m key) s = .next t ∧ lost t ∧ kept t) ∧
    (Admitted s m R.glbReset → key ≠ 0xC0DE#16 → s.bus.hand = none →
      ∀ i ∈ [Instr.coldReset m key, .warmReset m key], exec i s = .next (s.logAccess (regAccess m R.glbReset) 8)) ∧
    (∃ t, exec (.coldResetAssert rst) s = .next t ∧ lost t ∧ kept t ∧ t.power.smbus = false ∧
      t.power.rstN = (s.power.rstN && !rst) ∧ t.power.pwrGood = (s.power.pwrGood && rst)) ∧
    (s.power.pwrGood = false ∨ s.power.rstN = false → exec .powerGood s = .next
      { s.elapse 5000000 with power := { s.power with pwrGood := true, rstN := true, calStart := s.time.now, smbus := true } }) ∧
    (∃ t, exec .vkeepLow s = .next t ∧ t.power.vkeepLow = true ∧ t.flag F.mldInForceZero = true ∧
      ∀ i, i < 16 → (t.tile i).live = [] ∧ (t.tile i).act = [] ∧ (t.tile i).lag = [] ∧ t.flag (F.tileStatusZero i) = true)

/-- Clauses of R352, R353, R350: the boot with no DIE image enters recovery mode, and with one and no LOOP image leaves the engine in START;
RCV_LOAD in recovery checks kind, signature and flash in that order, and a good image becomes ACTIVE with a cold reset; a
link reset and a function reset leave the functions without rings until they are enabled again, while the fabric runs on. -/
def Obligations.BootRecoveryAndLinkReset : Prop :=
  ∀ (s : State) (m : Master),
    let none_ : ImageSlot := { present := false, verifies := false, compat := 0 }
    let empty := ∀ k, 1 ≤ k → k ≤ 3 → s.fld (slotFld k false) = 0 ∧ s.fld (slotFld k true) = 0
    (∀ (a : ImageSlot), (a.present = true → a.verifies = true) → s.power.pwrGood = true → s.power.rstN = true → s.power.bar0 = false → s.power.shake = none → empty →
      s.svc = 1 → ∃ t, exec (.bootComplete a none_ none_ none_ none_ none_ true) s = .next t ∧
        t.power.bar0 = true ∧ t.time.now = max s.time.now (s.power.calStart + 120000000) ∧
        t.fld F.glbBootBoots = (s.fld F.glbBootBoots + 1) % 65536 ∧ t.dev = s.dev ∧ t.svc = 1 ∧
        (a.present = false → t.flag F.glbBootRcv = true ∧ t.fld F.glbBootOk = 0 ∧ t.activeDie = .cope) ∧
        (a.present = true → t.flag F.glbBootRcv = false ∧ t.fld F.glbBootOk = 1 ∧
          t.fld (F.jobImgAState 0) = 2 ∧ t.fld (F.jobImgRunning 0) = a.compat.toNat)) ∧
    (∀ (key : BitVec 16) (kind : Fin 4) (b : Bool) (found : Fin 256) (good ok : Bool),
      let i := Instr.rcvLoad m key kind b found good ok
      Admitted s m R.glbReset → key = 0xC0DE#16 → s.flag F.glbBootRcv = true →
      (kind.val = 0 ∨ found.val ≠ kind.val → exec i s = .next (s.setFld F.glbBootRcvErr 3)) ∧
      (kind.val ≠ 0 → found.val = kind.val → good = false → exec i s = .next (s.setFld F.glbBootRcvErr 1)) ∧
      (kind.val ≠ 0 → found.val = kind.val → good = true → ok = false → exec i s = .next (s.setFld F.glbBootRcvErr 2)) ∧
      (kind.val ≠ 0 → found.val = kind.val → good = true → ok = true → ∃ t, exec i s = .next t ∧
        t.fld (slotFld kind.val b) = 2 ∧ t.fld (slotFld kind.val !b) ≠ 2 ∧ t.svc = 1 ∧ t.power.bar0 = false)) ∧
    (∀ pf : Fin 2, s.bus.bursts = [] → ∃ t, exec (.functionLevelReset pf) s = .next t ∧ t.available pf.val = false ∧
      (∀ l, l < 8 → t.flag (F.evtRingCtrlEn pf.val l) = false) ∧ t.events.stackOf.get (fun _ => []) pf.val = [] ∧
      (∀ p ∈ t.events.buffer, pf.val ∉ p.targets) ∧
      (s.fld F.evtLostCount + (s.events.buffer.filter (fun p => p.targets.contains pf.val)).length < 2 ^ 32 →
        t.fld F.evtLostCount = s.fld F.evtLostCount + (s.events.buffer.filter (fun p => p.targets.contains pf.val)).length) ∧
      (pf.val = 0 → ∀ r, r < 71 → (t.jobs.claim r).holder ≠ some .host) ∧ t.dev = s.dev ∧ t.fabric = s.fabric ∧
      t.ladle = s.ladle ∧ t.heats = s.heats ∧ t.moulds = s.moulds ∧ t.tiles = s.tiles) ∧
    (∃ t, exec .linkReset s = .next t ∧ t.power.perstN = false ∧ t.available 0 = false ∧ t.available 1 = false ∧
      t.regs = s.regs ∧ t.events.buffer = s.events.buffer ∧ t.events.stackOf = s.events.stackOf ∧
      (∀ r, r < 71 → (t.jobs.claim r).holder ≠ some .host) ∧ t.dev = s.dev ∧ t.fabric = s.fabric ∧
      t.ladle = s.ladle ∧ t.heats = s.heats ∧ t.moulds = s.moulds ∧ t.tiles = s.tiles)

/-- Clauses of R12, R14, R15, R17, R22, R337, R346, R352: requests for states. In a transition a request is rejected with BUSY; the others by
the first condition that fails; a taken request for a service state changes SVC alone of GLB_STATE's DEV and SVC. -/
def Obligations.StateRequests : Prop :=
  ∀ (s : State) (m : Master), Admitted s m R.glbStateReq →
    (s.trans = true → ∀ i ∈ [Instr.requestHold m, .requestRun m, .requestTest m, .requestNormal m], exec i s = Rejected s 5) ∧
    (s.trans = false →
      (s.dev = 0 → s.flag (F.fltStat 4 4) = true → exec (.requestHold m) s = Rejected s 6) ∧
      (s.dev = 0 → s.flag (F.fltStat 4 4) = false → s.fld F.glbBootOk / 2 % 2 = 0 → exec (.requestHold m) s = Rejected s 2) ∧
      (s.dev = 1 → s.fld F.glbHoldMouldMould = 0 → exec (.requestHold m) s = .next
        { (s.setFld F.glbStateTrans 1).setFld F.glbStateTarget 1 with
          moulds := { s.moulds with holdPour := some 0, calPour := false } }) ∧
      (s.dev ≠ 1 → exec (.requestRun m) s = Rejected s 1) ∧
      (s.dev = 1 → s.svc ≠ 0 → exec (.requestRun m) s = Rejected s 2) ∧
      (s.dev = 1 → s.svc = 0 → s.fld F.timStatusState ≠ 2 → exec (.requestRun m) s = Rejected s 3) ∧
      (s.dev = 1 → s.svc = 0 → s.fld F.timStatusState = 2 → s.flag F.heatRunBase2Set = false → exec (.requestRun m) s = Rejected s 4) ∧
      (s.dev = 2 → exec (.requestTest m) s = Rejected s 1) ∧
      (s.dev ≠ 2 → s.svc = 1 ∨ s.svc = 2 → exec (.requestTest m) s = Rejected s 1) ∧
      (s.dev ≠ 2 → s.svc = 3 → (∃ p ∈ s.power.recover, s.flag (F.fltStat p.1 p.2) = true) → exec (.requestTest m) s = Rejected s 6) ∧
      (s.svc = 0 ∨ s.svc = 1 → exec (.requestNormal m) s = Rejected s 1) ∧
      (Quiet s → s.dev ≠ 2 → s.svc = 0 ∨ s.svc = 3 ∧ (∀ p ∈ s.power.recover, s.flag (F.fltStat p.1 p.2) = false) →
        ∃ t, exec (.requestTest m) s = .next t ∧ t.svc = 2 ∧ t.dev = s.dev ∧ t.tiles = s.tiles ∧ t.ladle = s.ladle ∧ t.heats = s.heats) ∧
      (Quiet s → s.svc = 2 ∨ s.svc = 3 ∧ (∀ p ∈ s.power.recover, s.flag (F.fltStat p.1 p.2) = false) →
        ∃ t, exec (.requestNormal m) s = .next t ∧ t.svc = 0 ∧ t.dev = s.dev ∧
          (s.cal.passes = [] → t.tiles = s.tiles ∧ t.ladle = s.ladle ∧ t.heats = s.heats)))

/-- Clauses of R17, R19, R159: a request for RUN from HOLD in NORMAL, with the time LOCKED and a valid start time S, plans the base heat at
the first S + n x 102.4 us that is at least 10 ms after the edge of the request; a request for HOLD in RUN begins the drain
with global XOFF, when GLB_DRAIN_TIMEOUT is not zero. -/
def Obligations.RunAndDrainRequests : Prop :=
  ∀ (s : State) (m : Master), Admitted s m R.glbStateReq → s.trans = false → Quiet s →
    let q := (s.time.net + 4) / 5 * 5
    let base := (s.reg (R.heatRunBase 0)).toNat +
      1000000000 * ((s.reg (R.heatRunBase 1)).toNat + 2 ^ 32 * ((s.reg (R.heatRunBase 2)).toNat % 65536))
    (s.dev = 1 → s.svc = 0 → s.fld F.timStatusState = 2 → s.flag F.heatRunBase2Set = true →
      (s.reg (R.heatRunBase 0)).toNat < 1000000000 → (s.reg (R.heatRunBase 0)).toNat % 5 = 0 →
      ∃ t h n, exec (.requestRun m) s = .next t ∧ t.trans = true ∧ t.fld F.glbStateTarget = 2 ∧ t.dev = 1 ∧ t.power.ladleClock = true ∧
        t.heats.waitingRun = some h ∧ h.base = true ∧ h.cycle = 20480 ∧ h.a = base + n * 102400 ∧ q + 10000000 ≤ h.a ∧
        (n = 0 ∨ h.a < q + 10000000 + 102400)) ∧
    (s.dev = 2 → s.heats.armed = none → s.fld F.glbDrainTimeoutUnits ≠ 0 → ∃ t, exec (.requestHold m) s = .next t ∧
      t.trans = true ∧ t.fld F.glbStateTarget = 1 ∧ t.dev = 2 ∧ t.power.drain = some s.time.now ∧ t.power.drained = false ∧
      t.ladle.xoffDrain = true ∧ t.ladle.frames = s.ladle.frames)

/-- Clauses of R14, R15, R16, R20, R350: a shakeout starts at once, in any state and in any transition, with its cause in KEEP_CAUSE; when one
runs, the highest cause seen stands; warm reset is one with cause WARM outside START. -/
def Obligations.ShakeoutStarts : Prop :=
  ∀ (s : State) (m : Master), s.jobs.table = [] → s.fld F.heatNextStatusState ≠ 2 →
    let starts := fun (i : Instr) (code : Nat) (fault warm : Bool) => ∃ t, exec i s = .next t ∧
      t.fld F.glbStateKeepCause = code ∧ t.trans = true ∧ t.fld F.glbStateTarget = 0 ∧ t.dev = s.dev ∧
      t.power.shake = some { start := s.time.now, settled := true, zeroed := false, fault := fault, warm := warm } ∧
      t.faults.errLow = (s.faults.errLow || fault) ∧
      t.heats.live = [] ∧ t.heats.next = [] ∧ t.heats.armed = none ∧ t.power.drain = none ∧ t.cd.arb = none ∧ t.cd.gap = none ∧
      t.moulds.staged = none ∧ t.tiles = s.tiles ∧ t.ladle.frames = s.ladle.frames
    (s.power.shake = none →
      (Admitted s m R.glbStateReq → starts (.requestKeep m) 1 false false) ∧
      starts (.shakeout .host) 1 false false ∧ starts (.shakeout .fault) 2 true false ∧ starts (.shakeout .thermal) 3 true false ∧
      starts (.shakeout .warm) 4 false true ∧
      (Admitted s m R.glbReset → s.svc ≠ 1 → starts (.warmReset m 0xC0DE#16) 4 false true)) ∧
    (∀ sh, s.power.shake = some sh → sh.settled = true → s.fld F.glbStateKeepCause = 1 → ∃ t, exec (.shakeout .thermal) s = .next t ∧
      t.fld F.glbStateKeepCause = 3 ∧ t.power.shake = some { sh with fault := true }) ∧
    (∀ sh, s.power.shake = some sh → sh.settled = true → s.fld F.glbStateKeepCause = 3 → ∃ t, exec (.shakeout .host) s = .next t ∧
      t.fld F.glbStateKeepCause = 3 ∧ t.power.shake = some sh)

/-- Clauses of R20, Table 01.9: a shakeout's zero-hold 6.4 us after its start, and, with nothing of calibration to give back, its end
1 ms after it: KEEP at rest with no ladle frame left, in RECOVER after a fault and in the service state as it was otherwise. -/
def Obligations.ShakeoutEnds : Prop :=
  ∀ (s : State) (sh : Shake), s.power.shake = some sh → sh.settled = true → s.jobs.table = [] → s.events.buffer.length + 16 ≤ 4096 →
    (sh.zeroed = false → ∃ t, exec .zeroHold s = .next t ∧ t.time.now = max s.time.now (sh.start + 6400) ∧ t.fabric = 0 ∧
      t.flag F.mldInForceZero = true ∧ t.power.shake = some { sh with zeroed := true } ∧
      ∀ i, i < 16 → (t.tile i).live = [] ∧ (t.tile i).act = [] ∧ t.flag (F.tileStatusZero i) = true) ∧
    (sh.zeroed = true → sh.warm = false → s.cal.undo = [] → s.cal.fettleBusy = false → ∃ t, exec .shakeoutComplete s = .next t ∧ t.time.now = max s.time.now (sh.start + 1000000) ∧
      t.dev = 0 ∧ t.svc = (if sh.fault then 3 else s.svc) ∧ t.fabric = 0 ∧ t.trans = false ∧ t.power.shake = none ∧
      t.power.fastClocks = false ∧ t.ladle.frames = [] ∧ t.ladle.flows.length ≤ s.ladle.flows.length)

/-- Table 01.9, R19, R126, R351: the happenings that end a transition or a power-up calibration, each under its conditions. -/
def Obligations.TransitionsEnd : Prop :=
  ∀ (s : State), Quiet s →
    let pass := fun (p : CalPass) => s.cal.passes = [p] ∧ p.job = 0 ∧ p.powerUp = true ∧ p.bare = p ∧ p.refOk.isSome = true
    let fails := fun (now : Nat) => ∃ t, exec .powerUpCalFail s = .next t ∧ t.time.now = now ∧ t.dev = 1 ∧ t.svc = 1 ∧ t.fabric = 1 ∧
      t.trans = false ∧ t.cal.passes = []
    (s.trans = true → s.fld F.glbStateTarget = 1 → s.dev = 0 → s.svc = 0 → s.power.holdDue = false → s.allLocked = true →
      ∃ t, exec .holdEntered s = .next t ∧
        t.dev = 1 ∧ t.svc = 0 ∧ t.fabric = 1 ∧ t.trans = false ∧ t.fld F.glbStateTarget = 0 ∧ t.tiles = s.tiles) ∧
    (∀ p, pass p → p.refused = false → s.svc = 1 → s.dev = 1 → s.power.holdDue = false → s.allLocked = true →
      ∃ t, exec .powerUpCalPass s = .next t ∧ t.dev = 1 ∧ t.svc = 0 ∧ t.fabric = 1 ∧ t.cal.passes = []) ∧
    (∀ p, pass p → s.svc = 1 → s.cal.deltaWaiting = [] → NoRecovery s 8 → NoRecovery s 12 →
      (p.refused = true → fails s.time.now) ∧
      (p.refused = false → s.allLocked = false → fails (max s.time.now (s.power.calStart + 4000000000)))) ∧
    (s.svc = 1 → s.dev = 1 → (∀ p ∈ s.cal.passes, p.powerUp = false) → s.trans = false → ∃ t, exec .powerUpCalRetry s = .next t ∧
      (∃ p ∈ t.cal.passes, p.powerUp = true ∧ p.refOk = none ∧ p.tiles = List.range 16) ∧ t.fabric = 3 ∧ t.flag F.calStatusBusy = true ∧
      t.time.now = max s.time.now (s.power.calStart + 10000000000)) ∧
    (∀ h, s.heats.waitingRun = some h → (∀ sp, sp < 4 → s.fld (F.ladSwapState sp) ≠ 1) → ∃ t, exec .baseHeatStart s = .next t ∧
      t.dev = 2 ∧ t.fabric = 2 ∧ t.trans = false ∧ t.heats.now = some h ∧ t.heats.waitingRun = none ∧ t.time.net = max s.time.net h.a ∧
      t.reg R.heatLiveSerial = h.serial) ∧
    (∀ at_, s.power.drain = some at_ → s.power.drained = false → s.ladleEmpty = true →
      exec .drainComplete s = .next { s with power := { s.power with drained := true } }) ∧
    (∀ at_, s.power.drain = some at_ → s.power.drained = false → ∃ t, exec .drainTimeout s = .next t ∧ t.power.drained = true ∧
      t.ladle.frames = [] ∧ t.time.now = max s.time.now (at_ + 100000 * s.fld F.glbDrainTimeoutUnits) ∧
      t.fld F.glbDrainDiscardFrames = min 0xFFFFFFFF (s.fld F.glbDrainDiscardFrames + s.ladle.frames.length)) ∧
    (∀ at_ st, s.power.drain = some at_ → s.power.drained = true → s.moulds.staged = some st → st.toHold = true →
      s.cal.fettleBusy = false → NoRecovery s 8 → ∃ t, exec .runToHoldPour s = .next t ∧
      t.dev = 1 ∧ t.fabric = 1 ∧ t.trans = false ∧ t.power.drain = none ∧ t.power.ladleClock = false ∧ t.ladle.xoffDrain = false ∧
      t.heats.live = [] ∧ t.heats.next = [] ∧ t.heats.now = none ∧ t.fld F.heatNextStatusState = 0 ∧
      t.time.net = max s.time.net st.pourAt)

/-! ## Moulds, pours and pilot verification -/

/-- Clauses of R56, Table 03.25: MLD_CMP_REQ queues the host's request as its slot holds it, or is dropped with OVERRUN while one is queued or
compiling; on the core clock the router takes requests one at a time, the engine's first, then schedule cores', jobs' and the host's,
each rank in order of arrival, none while a retirement has compiles to make, and the engine's own for a mould in use waiting until it is
not; a mould owed since a swap is compiled again once it is not in use (R8, R197; that the engine's own compiles rank with a retirement's
is log 101). -/
def Sys2Proof.Claims.MouldRequests : Prop :=
  ∀ (s : State) (m : Master) (v : Word),
    (Admitted s m R.mldCmpReq → v.getLsbD 31 = false → exec (.mldCmpReq m v) s = .next s) ∧
    (Admitted s m R.mldCmpReq → v.getLsbD 31 = true → s.flag F.mldCmpStatBusy = true →
      exec (.mldCmpReq m v) s = .next (s.setFld F.mldCmpStatOverrun 1)) ∧
    (Admitted s m R.mldCmpReq → v.getLsbD 31 = true → s.flag F.mldCmpStatBusy = false → ∃ t r, exec (.mldCmpReq m v) s = .next t ∧
      t.moulds.waiting = s.moulds.waiting ++ [r] ∧ r.who = .host ∧ r.target = v.toNat % 8192 ∧
      r.base = (if v.getLsbD 19 then some (s.fld F.mldCmpBaseBase) else none) ∧ r.assign.length = 592 ∧
      (∀ o, o < 592 →
        let w := fun (i : Nat) => (s.areaWord (0x1040000 + 1024 * (v.toNat / 8192 % 64) + 4 * i)).toNat
        r.assign.getD o 0 = (w (10 * o / 32) + 2 ^ 32 * w (10 * o / 32 + 1)) / 2 ^ (10 * o % 32) % 1024) ∧
      t.flag F.mldCmpStatBusy = true ∧ t.flag F.mldCmpStatOverrun = false ∧ (∀ x, x ≠ R.mldCmpStat → t.reg x = s.reg x) ∧
      { t with regs := s.regs, moulds := { t.moulds with waiting := s.moulds.waiting } } = s) ∧
    let mayStart := fun (x : CompileReq) => ¬(x.who = .engine ∧ s.inUse x.target = true)
    (s.power.fastClocks = false ∨ s.retirementWaits = true ∨ s.moulds.running.isSome ∨ (∀ x ∈ s.moulds.waiting, ¬mayStart x) →
      exec .compileStart s = .next s) ∧
    (∀ (r : CompileReq) (before after : List CompileReq), s.power.fastClocks = true → s.retirementWaits = false →
      s.moulds.running = none → s.moulds.waiting = before ++ r :: after → mayStart r →
      (∀ x ∈ before, mayStart x → r.who.code < x.who.code) → (∀ x ∈ after, mayStart x → r.who.code ≤ x.who.code) →
      exec .compileStart s = .next { s with moulds := { s.moulds with running := some r, waiting := before ++ after } }) ∧
    (∀ i : Fin 9, i.val ∉ s.moulds.owed ∨ s.inUse i.val = true → exec (.reservedMouldRecompile i) s = .next s) ∧
    (∀ i : Fin 9, i.val ∈ s.moulds.owed → s.inUse i.val = false → ∃ t r, exec (.reservedMouldRecompile i) s = .next t ∧
      t.moulds.waiting = s.moulds.waiting ++ [r] ∧ r.who = .engine ∧ r.target = i.val ∧ i.val ∉ t.moulds.owed ∧
      { t with moulds := { t.moulds with owed := s.moulds.owed, waiting := s.moulds.waiting } } = s)

/-- Clauses of R50, R52, R53, R54: the end of a compile of the host's. A request that passes every check writes its record: each assigned output
has its input, every input stands once, and records based on the target are no longer VALID. The first condition of Table 03.4
that fails is the reason of a rejection, which leaves the store as it was and is entered in the rejection ring. -/
def Sys2Proof.Claims.CompileOutcome : Prop :=
  ∀ (s : State) (r : CompileReq), s.moulds.running = some r → r.who = .host → r.target < 8192 → r.assign.length = 592 →
    s.power.fastClocks = true → Quiet s →
    s.moulds.store.wf (fun _ => Mould.blank) = true →
    let range := ∃ v ∈ r.assign, 592 ≤ v ∧ v ≠ 1023
    let twice := ∃ a b : Nat, a < b ∧ b < 592 ∧ r.assign.getD a 0 = r.assign.getD b 0 ∧ r.assign.getD a 0 < 592
    let badBase := ∃ b, r.base = some b ∧ (s.mould b).valid = false
    let rejected := fun (reason : Nat) => ∃ t, exec .compileComplete s = .next t ∧ t.moulds.running = none ∧
      t.moulds.store = s.moulds.store ∧ t.flag F.mldCmpStatBusy = false ∧ t.fld F.mldCmpStatResult = 2 ∧
      t.fld F.mldCmpStatReason = reason ∧ t.fld F.mldCmpStatTarget = r.target ∧
      (let wr := s.fld F.mldRejPtrWr
       if (wr + 1) % 4096 = s.fld F.mldRejPtrRd then Counted s t F.mldRejLostCount 1 ∧ t.moulds.rejects = s.moulds.rejects
       else t.fld F.mldRejPtrWr = (wr + 1) % 4096 ∧ ∃ w, t.moulds.rejects.get (fun _ => (0, 0, 0)) wr = (w, r.tag, word s.moulds.retired.length) ∧
         w.toNat % 2 ^ 20 = r.target + 3 * 2 ^ 13 + reason * 2 ^ 16)
    (range → rejected 1) ∧ (¬range → twice → rejected 2) ∧ (¬range → ¬twice → r.target ≤ 8 → rejected 3) ∧
    (¬range → ¬twice → 8 < r.target → s.inUse r.target = true → rejected 4) ∧
    (¬range → ¬twice → 8 < r.target → s.inUse r.target = false → badBase → rejected 5) ∧
    (¬range → ¬twice → 8 < r.target → s.inUse r.target = false → ¬badBase → s.moulds.retired = [] → (∀ sp, sp < 4 → s.exchanging sp = false) →
      ∃ t, exec .compileComplete s = .next t ∧ t.moulds.running = none ∧ t.fld F.mldCmpStatResult = 1 ∧ t.flag F.mldCmpStatBusy = false ∧
        (t.mould r.target).valid = true ∧ (t.mould r.target).base = r.base ∧
        (t.mould r.target).assigned = (r.assign.filter (· < 592)).length ∧ (t.mould r.target).perm.length = 592 ∧
        (t.mould r.target).perm.Nodup ∧ (∀ i ∈ (t.mould r.target).perm, i < 592) ∧
        (∀ o, o < 592 → r.assign.getD o 1023 < 592 → (t.mould r.target).perm.getD o 1023 = r.assign.getD o 1023) ∧
        (∀ o p, o < p → p < 592 → r.assign.getD o 0 = 1023 → r.assign.getD p 0 = 1023 →
          (t.mould r.target).perm.getD o 0 < (t.mould r.target).perm.getD p 0) ∧
        ∀ j, j ≠ r.target → t.mould j =
          if (s.mould j).base = some r.target then { s.mould j with valid := false } else s.mould j)

/-- Clauses of R50 to R56: requests for moulds, the router, and the outcome of a compile. -/
def Obligations.MouldCompilation : Prop := Claims.MouldRequests ∧ Claims.CompileOutcome

/-- Clauses of R57, R58, R59, R326, R62: outside the end of a drain and an entry to HOLD, STAGING_START stages the mould due at LEAD before its pour: every tile's bank gets the calibrated code of
each element's cell state, or the keep mark; a record not VALID, or based on a mould not in force, or a switch-over gap stages
nothing that seals. Tiles seal one by one, and the sixteenth raises SEAL_ALL. Dither is off from 80 ns before the pour until
it is resumed. -/
def Sys2Proof.Claims.Staging : Prop :=
  ∀ (s : State),
    let plain := (s.moulds.holdPour.isSome ∨ s.power.holdDue = false) ∧ (s.moulds.holdPour.isSome ∨ s.leavesRun = false)
    (s.power.shake.isSome ∨ s.moulds.staged.isSome ∨ (s.power.holdDue = false ∧ s.leavesRun = false ∧ s.nextPour = none) →
      exec .stagingStart s = .next s) ∧
    (∀ m at_, s.power.shake = none → s.moulds.staged = none → plain → s.nextPour = some (m, at_) →
      (∀ h, s.moulds.holdPour = some h → s.beingMade m = false) →
      ∃ t st, exec .stagingStart s = .next t ∧ t.moulds.staged = some st ∧ st.mould = m ∧ st.pourAt = at_ ∧ st.inputs = (s.mould m).perm ∧
        st.sealedTiles = [] ∧ st.gap = s.cd.gap.isSome ∧ st.toHold = false ∧ st.sample = none ∧ st.startedAt = t.time.net ∧
        (st.invalid = true ↔ (s.mould m).valid = false ∨
          ∃ b, (s.mould m).base = some b ∧ (b ≠ s.fld F.mldInForceMould ∨ s.flag F.mldInForceZero = true)) ∧
        t.time.net = (if s.moulds.holdPour.isSome then s.time.net
          else max s.time.net (at_ - 5 * max 40 (min 200 (s.fld F.mldStageLeadLead)))) ∧
        (∀ i, i < 16 → t.flag (F.tileStatusSealed i) = false ∧ t.flag (F.tileStatusSealAll i) = false ∧
          (t.tile i).live = (s.tile i).live ∧ (t.tile i).act = (s.tile i).act) ∧
        (st.invalid = false → st.gap = false → ∀ i j, i < 16 → j < 644 →
          let e := 644 * i + j
          let cell := (s.mould m).cell (e / 2)
          let wide := (s.tile i).span12.get (fun _ => false) j
          let c := s.codes e
          (t.tile i).staging.find? j = some (
            if cell = CellState.bar.code then some (if wide then c.bar12 else c.bar6, 2)
            else if cell = CellState.cross.code then some (if wide then c.cross12 else c.cross6, 1)
            else if cell = CellState.keep.code then none else some (0, 3)))) ∧
    (∀ (tile : Fin 16), s.moulds.staged = none → exec (.tileSeal tile) s = .next s) ∧
    (∀ (tile : Fin 16) st, s.moulds.staged = some st → st.invalid = true ∨ st.gap = true ∨ tile.val ∈ st.sealedTiles ∨ st.sample.isSome →
      exec (.tileSeal tile) s = .next s) ∧
    (∀ (tile : Fin 16) st, s.moulds.staged = some st → st.invalid = false → st.gap = false → st.sample = none →
      tile.val ∉ st.sealedTiles →
      ∃ t, exec (.tileSeal tile) s = .next t ∧ t.moulds.staged = some { st with sealedTiles := tile.val :: st.sealedTiles } ∧
        (∀ i, i < 16 → t.flag (F.tileStatusSealed i) = (decide (i = tile.val) || s.flag (F.tileStatusSealed i)) ∧
          t.flag (F.tileStatusSealAll i) = (decide (st.sealedTiles.length = 15) || s.flag (F.tileStatusSealAll i))) ∧
        { t with regs := s.regs, moulds := { t.moulds with staged := s.moulds.staged } } = s) ∧
    (s.moulds.staged = none ∨ s.moulds.ditherOff = true ∨ (∃ st, s.moulds.staged = some st ∧ st.pourAt < st.startedAt + 80) →
      exec .ditherGateOff s = .next s) ∧
    (∀ st, s.moulds.staged = some st → s.moulds.ditherOff = false → st.startedAt + 80 ≤ st.pourAt →
      ∃ t, exec .ditherGateOff s = .next t ∧ t.moulds.ditherOff = true ∧ t.time.net = max s.time.net (st.pourAt - 80) ∧
        t.moulds.gates.head? = some st.pourAt ∧ t.regs = s.regs ∧ t.tiles = s.tiles) ∧
    (s.moulds.ditherOff = false → exec .ditherResume s = .next s) ∧
    (∀ at_ rest, s.moulds.ditherOff = true → s.moulds.gates = at_ :: rest → ∃ t, exec .ditherResume s = .next t ∧
      t.moulds.ditherOff = false ∧ t.time.net = max s.time.net (at_ + 320) ∧ t.regs = s.regs ∧ t.tiles = s.tiles)

/-- Clauses of R59, R20, R68: the pour of a staged mould in HOLD, by SEAL_ALL as sampled 5 ns before it. With every tile sealed and no fault
that holds pours, each tile loads its
bank, elements with the keep mark keep their codes, and the mould is in force; otherwise the pour is held: nothing the fabric
shows changes, the banks are discarded, and the held pour is counted and recorded with its cause and the tiles unsealed. A
running shakeout suppresses a pour. -/
def Sys2Proof.Claims.Pours : Prop :=
  ∀ (s : State),
    (s.power.shake.isSome ∨ s.moulds.earlyPour ≠ some s.time.net ∧ s.moulds.staged = none ∧ s.heats.now = none →
      exec .pour s = .next s) ∧
    (∀ st, Quiet s → s.moulds.staged = some st → s.dev = 1 → s.trans = false → s.heats.now = none → s.heats.waitingRun = none →
      s.heats.armed = none → st.mould < 8192 →
      s.moulds.earlyPour = none → st.toHold = false → s.power.holdDue = false →
      let fault := if s.time.net < st.pourAt ∧ st.sample = none then some s.faultHold else st.sample
      (fault = some false → st.sealedTiles.length = 16 → (∀ i, i < 16 → SMap.risingFrom 0 (s.tile i).staging = true) →
        ∃ t, exec .pour s = .next t ∧ t.time.net = max s.time.net st.pourAt ∧ t.fld F.mldInForceMould = st.mould ∧
          t.flag F.mldInForceHeld = false ∧ t.reg R.mldPourCount = s.reg R.mldPourCount + 1 ∧ t.moulds.perm = st.inputs ∧
          t.moulds.staged = none ∧ t.moulds.holdPour = none ∧
          ∀ i, i < 16 → (t.tile i).staging = [] ∧ t.flag (F.tileStatusSealed i) = false ∧
            ∀ j, (t.tile i).live.get (fun _ => 0) j =
              match (s.tile i).staging.find? j with
              | some (some c) => c.1
              | _ => (s.tile i).live.get (fun _ => 0) j) ∧
      (NoRecovery s 8 → fault ≠ some false ∨ st.sealedTiles.length ≠ 16 →
        ∃ t, exec .pour s = .next t ∧ t.flag F.mldInForceHeld = true ∧ t.fld F.mldInForceMould = s.fld F.mldInForceMould ∧
          Counted s t F.mldPourHeldCount 1 ∧ t.fld F.mldHeldLastMould = st.mould ∧
          t.fld F.mldHeldLastCause =
            (if fault = some true then 3 else if st.invalid then 1 else if st.gap then 2 else 0) ∧
          (∀ i, i < 16 → (t.fld F.mldHeldLastTiles).testBit i = !st.sealedTiles.contains i) ∧
          t.moulds.perm = s.moulds.perm ∧ t.moulds.staged = none ∧
          ∀ i, i < 16 → (t.tile i).staging = [] ∧ (t.tile i).live = (s.tile i).live))

/-- Clauses of R42 to R46: connectivity verification. A slot or period contributes to an output's window as R45 says; after 64 contributions
the verdict is PASS, WEAK or FAIL by 0.85 and 0.5 of the ratio of R46, counted, recorded and reported, and the next window
begins, with the contribution that found it full; EN = 0 drops the windows. -/
def Sys2Proof.Claims.PilotVerification : Prop :=
  ∀ (s : State) (out : Fin 592) (corr : Int) (power : Nat) (m : Master) (v : Word),
    let n := (s.window out.val).1
    let sum := (s.window out.val).2.1
    let p := (s.window out.val).2.2
    let loop := 10304 + s.moulds.perm.getD out.val 0
    let period := (s.dev = 1 ∧ s.flag F.mldPilotCtrlHoldChk = true) ∨
      (s.dev = 2 ∧ ∃ j, s.heats.cur = some j ∧ slotPchk (bankAt s.heats.live j) = true ∧ 2560 ≤ slotDur (bankAt s.heats.live j))
    let counts := s.flag F.mldPilotCtrlEn = true ∧ period ∧ s.loopState loop ≠ 0 ∧ s.loopState loop ≠ 4 ∧ s.fabric ≠ 3 ∧
      s.flag F.mldInForceZero = false ∧ ¬(s.moulds.perm.getD out.val 0 = 580 ∧ s.cal.viaRef = true) ∧ out.val < s.moulds.perm.length
    let data := fun (verdict : Nat) => word (Nat.min 255 (51200 * sum.natAbs / p) * 2 ^ 24 + verdict * 1024 + out.val)
    (¬counts → exec (.pilotContribution out corr power) s = .next s) ∧
    (counts → n < 64 → ∃ t c, exec (.pilotContribution out corr power) s = .next t ∧ (c = corr ∨ c = -corr) ∧
      t.window out.val = (n + 1, sum + c, p + power) ∧ (∀ o, o ≠ out.val → t.window o = s.window o) ∧
      { t with moulds := { t.moulds with pilot := s.moulds.pilot } } = s) ∧
    (counts → 64 ≤ n → ∃ t c, exec (.pilotContribution out corr power) s = .next t ∧ (c = corr ∨ c = -corr) ∧
      t.window out.val = (1, c, power) ∧ t.fld F.mldPilotVerdictsCount = min F.mldPilotVerdictsCount.limit (s.fld F.mldPilotVerdictsCount + 1)) ∧
    (n < 64 → exec (.pilotVerdict out) s = .next s) ∧
    (64 ≤ n → 0 < p → Quiet s → NoRecovery s 8 → s.moulds.lastVerdict ≠ some s.time.now →
      ∃ t, exec (.pilotVerdict out) s = .next t ∧ t.window out.val = (0, 0, 0) ∧ Counted s t F.mldPilotVerdictsCount 1 ∧
        (85 * p ≤ 20000 * sum.natAbs → t.reg R.mldPilotLast = s.reg R.mldPilotLast ∧ t.events = s.events) ∧
        (20000 * sum.natAbs < 85 * p → 50 * p ≤ 20000 * sum.natAbs → t.reg R.mldPilotLast = data 1 ∧
          (if s.flag F.mldPilotCtrlEvWeak then Noted s t 0x802 0 0 (data 1) else t.events = s.events)) ∧
        (20000 * sum.natAbs < 50 * p → t.reg R.mldPilotLast = data 2 ∧ Counted s t F.mldPilotFailsCount 1 ∧ Noted s t 0x802 2 0 (data 2))) ∧
    (Admitted s m R.mldPilotCtrl → ∃ t, exec (.pilotCtrlWrite m v) s = .next t ∧ t.flag F.mldPilotCtrlEn = v.getLsbD 0 ∧
      t.flag F.mldPilotCtrlHoldChk = v.getLsbD 1 ∧ t.flag F.mldPilotCtrlEvWeak = v.getLsbD 2 ∧
      t.moulds = { s.moulds with pilot := if v.getLsbD 0 then s.moulds.pilot else [] } ∧ t.tiles = s.tiles)

/-- Clauses of R42 to R46, R57 to R62, R68: staging, sealing, pours and connectivity verification. -/
def Obligations.PoursAndVerification : Prop := Claims.Staging ∧ Claims.Pours ∧ Claims.PilotVerification

/-! ## Drive tiles -/

/-- No duty of a slot clock edge comes before another's: no shakeout runs and no pour is staged or due at a boundary of a heat (R89). -/
abbrev Sys2Proof.Machine.NoDuty (s : State) : Prop := s.power.shake = none ∧ s.moulds.staged = none ∧ s.heats.now = none

/-- Clauses of R65, R107: the write of a span bit begins the sequence of that channel, its loop held and its output at zero for 2 us, after
which the span is the one written and the live code is that of the new span. -/
def Sys2Proof.Claims.SpanChanges : Prop :=
  ∀ (s : State) (m : Master) (t : Fin 16) (n : Fin 21) (b : Nat) (v : Word), b < 32 → 32 * n.val + b < 644 →
    let j := 32 * n.val + b
    let was := s.reg (R.tileEoSpan t.val n.val)
    let held := fun (r : State) => (r.loops.holds.get (fun _ => 0) (644 * t.val + j)).testBit 0
    (Admitted s m (R.tileEoSpan t.val n.val) → (s.tile t.val).span = [] → s.flag (F.tileStatusZero t.val) = false →
      (s.tile t.val).span12.get (fun _ => false) j = was.getLsbD b → v = was ^^^ (1#32 <<< b) →
      ∃ r, exec (.spanChangeStart m t n v) s = .next r ∧ r.reg (R.tileEoSpan t.val n.val) = (if n.val = 20 then v &&& 15#32 else v) ∧
        (r.tile t.val).span.find? j = some { to12 := v.getLsbD b, ends := s.time.now + 2000, again := false } ∧
        (r.tile t.val).output j = 0 ∧ held r = true ∧ (∀ x, x ≠ j → (r.tile t.val).span.find? x = none) ∧
        (∀ i, i ≠ t.val → r.tile i = s.tile i)) ∧
    (∀ dac : Fin 644, (s.tile t.val).span.find? dac.val = none → exec (.spanChangeEnd t dac) s = .next s) ∧
    (∀ (dac : Fin 644) q, (s.tile t.val).span.find? dac.val = some q → q.again = false → NoDuty s →
      ∃ r, exec (.spanChangeEnd t dac) s = .next r ∧ r.time.now = max s.time.now q.ends ∧ (r.tile t.val).span.find? dac.val = none ∧
        (r.tile t.val).span12.get (fun _ => false) dac.val = q.to12 ∧ (r.tile t.val).act = (s.tile t.val).act ∧ r.regs = s.regs ∧
        let e := 644 * t.val + dac.val
        (r.loops.holds.get (fun _ => 0) e).testBit 0 = false ∧
        (r.tile t.val).live.get (fun _ => 0) dac.val =
          match (s.tile t.val).shown.get (fun _ => 0) dac.val with
          | 1 => if q.to12 then (s.codes e).cross12 else (s.codes e).cross6
          | 2 => if q.to12 then (s.codes e).bar12 else (s.codes e).bar6
          | _ => 0)

/-- R66, R326: a slew step moves each output of its kind that lags by at most STEP towards its target, INTERVAL slot clock periods
after the latest step; with STEP = 0 an output follows at once; in a switch-over gap every output holds its value. -/
def Sys2Proof.Claims.SlewSteps : Prop :=
  ∀ (s : State) (t : Fin 16) (heater : Bool), SMap.risingFrom 0 (s.tile t.val).lag = true →
    (s.cd.gap.isSome → exec (.slewStep t heater) s = .next s) ∧
    let step := if heater then s.fld (F.tileHtrSlewStep t.val) else s.fld (F.tileEoSlewStep t.val)
    let interval := max 1 (if heater then s.fld (F.tileHtrSlewInterval t.val) else s.fld (F.tileEoSlewInterval t.val))
    let k := if heater then 1 else 0
    (s.cd.gap = none → ∃ r, exec (.slewStep t heater) s = .next r ∧
      r.time.now = (if step = 0 then s.time.now else max s.time.now ((s.tile t.val).slewAt.get (fun _ => 0) k + 5 * interval)) ∧ r.regs = s.regs ∧
      (∀ i, i ≠ t.val → r.tile i = s.tile i) ∧ (r.tile t.val).live = (s.tile t.val).live ∧ (r.tile t.val).act = (s.tile t.val).act ∧
      ∀ ch, let old := (s.tile t.val).output ch
        let goal := (s.tile t.val).target ch
        (r.tile t.val).target ch = goal ∧
        (r.tile t.val).output ch =
          if (1000 ≤ ch) ↔ heater = true then
            (if step = 0 then goal else old + max (-(step : Int)) (min (step : Int) (goal - old)))
          else old)

/-- Clauses of R74, R75, R79: every channel starts a round at its fixed time with the correction in its register and the channel it then
stands for; a conversion takes the next slot of 200 ns unless an urgent request has it (R77), is corrected as R75 says, and gives its sample to the next frame; the
flags of Table 04.3 and the settling count of R76. -/
def Sys2Proof.Claims.AdcConversions : Prop :=
  ∀ (s : State) (t : Fin 16) (ch : Fin 48) (raw : BitVec 14) (range : Int),
    let x := s.tile t.val
    let c := x.chan ch.val
    (s.power.fastClocks = false → (∀ d, exec (.adcRoundStart t d) s = .next s) ∧ exec (.adcConversion t ch raw range) s = .next s) ∧
    (s.power.fastClocks = true → NoDuty s → x.span = [] → x.pend = [] → x.spareAt = [] → ∀ d, ∃ r, exec (.adcRoundStart t d) s = .next r ∧ r.regs = s.regs ∧ (r.tile t.val).roundD = d ∧
      (r.tile t.val).round = r.time.net ∧ s.time.net ≤ r.time.net ∧ (r.time.net - (if d then 3200 else 0)) % 6400 = 0 ∧
      ∀ a, a < 48 → ((r.tile t.val).chan a).pos = 0 ∧ ((r.tile t.val).chan a).slots = 0 ∧
        ((r.tile t.val).chan a).cor = s.reg (R.tileAdcCor t.val a) ∧ ((r.tile t.val).chan a).urgent = (x.chan a).urgent ∧
        ((r.tile t.val).chan a).settle = (x.chan a).settle ∧
        ((∀ p, p < 3 → s.fld (F.tileSpareState t.val p) = 0) → ((r.tile t.val).chan a).src = if a < 45 then some a else none)) ∧
    (16 ≤ c.slots ∨ 16 ≤ c.pos ∨ (∃ u us, c.urgent = u :: us ∧ u.arrived ≤ x.round + 200 * c.slots) → exec (.adcConversion t ch raw range) s = .next s) ∧
    (∀ b, s.power.fastClocks = true → c.slots < 16 → c.pos < 16 → c.src = some b → 16 * b + c.pos < 718 →
      s.framed t.val ch.val b = true → (∀ u us, c.urgent = u :: us → x.round + 200 * c.slots < u.arrived) →
      ∃ r w, exec (.adcConversion t ch raw range) s = .next r ∧ r.time.net = max s.time.net (x.round + 200 * c.slots + 200) ∧
        let key := 2 * (16 * b + c.pos) + if x.roundD then 1 else 0
        (r.tile t.val).samples.get (fun _ => 0) key = w ∧ key ∈ (r.tile t.val).fresh ∧
        (∀ k, k ≠ key → (r.tile t.val).samples.get (fun _ => 0) k = x.samples.get (fun _ => 0) k) ∧
        (r.tile t.val).chan ch.val = { c with pos := c.pos + 1, slots := c.slots + 1, settle := if range = 0 then c.settle - 1 else 2 } ∧
        (∃ corrected : Int,
          IsRound corrected ((4 * raw.toInt - (c.cor.extractLsb' 0 16).toInt) * (c.cor.toNat / 65536 : Nat)) 16384 ∧
          (w.extractLsb' 0 16).toInt =
            if 0 < range then 32767 else if range < 0 then -32768 else max (-32768) (min 32767 corrected)) ∧
        (w.getLsbD 16 = true ↔ range ≠ 0) ∧ (w.getLsbD 17 = true ↔ c.settle ≠ 0) ∧ w.getLsbD 19 = false ∧
        (w.getLsbD 20 = true ↔ 45 ≤ ch.val) ∧ w.getLsbD 21 = false ∧ (x.roundD = true → w.getLsbD 18 = false) ∧
        (if range = 0 then r.regs = s.regs else Counted s r (F.tileErrCountsOvr t.val) 1))

/-- Clauses of R77, R78, Table 04.13: host urgent requests. GO is refused while one is pending, in KEEP, under zero-hold, for a monitor that
does not exist, or when the channel's queue holds four; otherwise it is queued at the channel that converts the monitor. The
oldest request is converted in the next slot that starts at or after its arrival at a slot clock edge, and its word, with URG, handed to the one that asked. -/
def Sys2Proof.Claims.UrgentSamples : Prop :=
  ∀ (s : State) (m : Master) (t : Fin 16) (v : Word) (ch : Fin 48) (raw : BitVec 14) (range : Int),
    let mon := v.toNat % 1024
    let a := s.channelFor t.val mon
    let full := 4 ≤ ((s.tile t.val).chan a).urgent.length
    (Admitted s m (R.tileUrgReq t.val) → v.getLsbD 31 = false → exec (.tileUrgReq m t v) s = .next s) ∧
    (Admitted s m (R.tileUrgReq t.val) → v.getLsbD 31 = true → s.flag (F.tileUrgStatPending t.val) = true →
      ∃ r, exec (.tileUrgReq m t v) s = .next r ∧ r.flag (F.tileUrgStatRefused t.val) = true ∧ r.flag (F.tileUrgStatPending t.val) = true ∧
        Counted s r (F.tileErrCountsUrgRef t.val) 1 ∧ { r with regs := s.regs } = s) ∧
    (Admitted s m (R.tileUrgReq t.val) → v.getLsbD 31 = true → s.flag (F.tileUrgStatPending t.val) = false →
      s.dev = 0 ∨ s.flag (F.tileStatusZero t.val) = true ∨ 718 ≤ mon ∨ full →
      ∃ r, exec (.tileUrgReq m t v) s = .next r ∧ r.flag (F.tileUrgStatRefused t.val) = true ∧ r.flag (F.tileUrgStatPending t.val) = false ∧
        Counted s r (F.tileErrCountsUrgRef t.val) 1 ∧ { r with regs := s.regs } = s) ∧
    (Admitted s m (R.tileUrgReq t.val) → v.getLsbD 31 = true → s.flag (F.tileUrgStatPending t.val) = false →
      s.dev ≠ 0 → s.flag (F.tileStatusZero t.val) = false → mon < 718 → ¬full →
      ∃ r, exec (.tileUrgReq m t v) s = .next r ∧ r.flag (F.tileUrgStatRefused t.val) = false ∧ r.flag (F.tileUrgStatPending t.val) = true ∧
        r.flag (F.tileUrgStatValid t.val) = false ∧ r.fld (F.tileUrgStatMon t.val) = mon ∧
        ((r.tile t.val).chan a).urgent = ((s.tile t.val).chan a).urgent ++
          [{ mon := mon, dc := v.getLsbD 16, who := 2, core := 0, arrived := (s.time.net + 4) / 5 * 5 }] ∧
        { r with regs := s.regs, tiles := s.tiles } = s) ∧
    let slot := (s.tile t.val).round + 200 * ((s.tile t.val).chan ch.val).slots
    (((s.tile t.val).chan ch.val).urgent = [] ∨ (∃ u us, ((s.tile t.val).chan ch.val).urgent = u :: us ∧ slot < u.arrived) →
      exec (.urgentResult t ch raw range) s = .next s) ∧
    (∀ u us, ((s.tile t.val).chan ch.val).urgent = u :: us → s.power.fastClocks = true → ((s.tile t.val).chan ch.val).slots < 16 →
      u.arrived ≤ slot →
      ∃ r w, exec (.urgentResult t ch raw range) s = .next r ∧ w.getLsbD 21 = true ∧ w.getLsbD 19 = false ∧
        r.time.net = max s.time.net (slot + 200) ∧
        (u.who = 2 → r.reg (R.tileUrgRes t.val) = w ∧ r.flag (F.tileUrgStatValid t.val) = true ∧ r.flag (F.tileUrgStatPending t.val) = false) ∧
        (u.who = 0 → (r.core u.core).ures = w) ∧ (u.who = 1 → r.cal.urgent = some (t.val, u.mon, w)) ∧
        (r.tile t.val).samples = (s.tile t.val).samples ∧
        (s.partner t.val ch.val = none → ((r.tile t.val).chan ch.val).urgent = us ∧ ((r.tile t.val).chan ch.val).pos = ((s.tile t.val).chan ch.val).pos ∧
          ((r.tile t.val).chan ch.val).slots = ((s.tile t.val).chan ch.val).slots + 1))

/-- Clauses of R79, R80: spares. A takeover of a channel no other spare has or awaits (log 109), and a return of a SERVING spare, take EN and
SRC and begin at the next round start; the switch completes either at the second round start after the write, or one round after
shadowing began; writes that R80 names are discarded and logged, and a repeat does nothing. -/
def Sys2Proof.Claims.Spares : Prop :=
  ∀ (s : State) (m : Master) (t : Fin 16) (sp : Fin 3) (src : Fin 64),
    let st := s.fld (F.tileSpareState t.val sp.val)
    let own := s.fld (F.tileSpareSrc t.val sp.val)
    let en := s.flag (F.tileSpareEn t.val sp.val)
    let other := ∃ p, p < 3 ∧ p ≠ sp.val ∧ (s.fld (F.tileSpareState t.val p) ≠ 0 ∨ s.flag (F.tileSpareEn t.val p) = true) ∧ s.fld (F.tileSpareSrc t.val p) = src.val
    (Admitted s m (R.tileSpare t.val sp.val) →
      (en = true → own = src.val → exec (.spareTakeover m t sp src) s = .next s) ∧
      (en = false → own = src.val → exec (.spareReturn m t sp src) s = .next s) ∧
      (en = false → st = 0 → src.val < 45 → ¬other → ∃ r, exec (.spareTakeover m t sp src) s = .next r ∧
        r.fld (F.tileSpareState t.val sp.val) = 0 ∧ r.fld (F.tileSpareSrc t.val sp.val) = src.val ∧ r.flag (F.tileSpareEn t.val sp.val) = true ∧
        (r.tile t.val).spareAt.find? sp.val = some s.time.net ∧ { r.tile t.val with spareAt := (s.tile t.val).spareAt } = s.tile t.val) ∧
      (en = true → st = 2 → src.val < 45 → ¬other → ∃ r, exec (.spareReturn m t sp src) s = .next r ∧
        r.fld (F.tileSpareState t.val sp.val) = 2 ∧ r.fld (F.tileSpareSrc t.val sp.val) = own ∧ r.flag (F.tileSpareEn t.val sp.val) = false ∧
        (r.tile t.val).spareAt.find? sp.val = some s.time.net ∧ { r.tile t.val with spareAt := (s.tile t.val).spareAt } = s.tile t.val) ∧
      (s.bus.hand = none → ¬(en = true ∧ own = src.val) → 45 ≤ src.val ∨ other ∨ st = 1 ∨ st = 3 ∨ st = 2 ∧ own ≠ src.val →
        exec (.spareTakeover m t sp src) s = .next (s.logAccess (regAccess m (R.tileSpare t.val sp.val)) 8)) ∧
      (s.bus.hand = none → ¬(en = false ∧ own = src.val) → 45 ≤ src.val ∨ other ∨ st = 1 ∨ st = 3 →
        exec (.spareReturn m t sp src) s = .next (s.logAccess (regAccess m (R.tileSpare t.val sp.val)) 8))) ∧
    ((s.tile t.val).spareAt.find? sp.val = none ∨ s.power.fastClocks = false → exec (.spareSwitch t sp) s = .next s) ∧
    (∀ w, (s.tile t.val).spareAt.find? sp.val = some w → s.power.fastClocks = true →
      (en = true ∧ st = 0 ∨ st = 1 ∨ en = false ∧ st = 2 ∨ st = 3) →
      ∃ r, exec (.spareSwitch t sp) s = .next r ∧ (r.tile t.val).spareAt.find? sp.val = none ∧
        r.fld (F.tileSpareState t.val sp.val) = (if st = 0 ∨ st = 1 then 2 else 0) ∧ r.fld (F.tileSpareSrc t.val sp.val) = own ∧
        r.time.net = max s.time.net (if st = 1 ∨ st = 3 then w + 3200 else (w / 3200 + 2) * 3200))

/-- Clauses of R65 to R81, R326: spans, slew limiters, conversions, urgent samples and spares of a drive tile. -/
def Obligations.TileConverters : Prop :=
  Claims.SpanChanges ∧ Claims.SlewSteps ∧ Claims.AdcConversions ∧ Claims.UrgentSamples ∧ Claims.Spares

/-- Clauses of R86, R87, R326, R64: actuator writes. The active die's is applied once a frame period and waits after that, the latest one
counting; it is discarded and counted under zero-hold or for a retired element, and taken from neither die in a switch-over gap;
the standby's reaches the comparators alone. Pending writes are applied at the frame boundary, none in a gap. -/
def Sys2Proof.Claims.ActuatorWrites : Prop :=
  ∀ (s : State) (d : Die) (t : Fin 16) (heater : Bool) (ch : Fin 681) (v : Int), (heater = false → ch.val < 644) →
    let changed := fun (k : Nat) => ∃ w, (s.tile t.val).written.find? k = some w ∧ s.time.net / 6400 * 6400 ≤ w
    (∀ p ∈ (s.tile t.val).pend, changed p.1) →
    let key := if heater then 1000 + ch.val else ch.val
    let held : Int := if heater then max 0 (min 65535 v) else max (-2048) (min 2047 v)
    let x := s.tile t.val
    let retired := ch.val < 644 ∧ x.shown.get (fun _ => 0) ch.val = 3
    let w := exec (.actuatorWrite d t heater ch v) s
    let y := match d with
      | .cope => { x with copeVal := x.copeVal.put key held }
      | .drag => { x with dragVal := x.dragVal.put key held }
    (d ≠ s.activeDie ∨ s.cd.gap.isSome = true → w = .next (s.setTile t.val y)) ∧
    (d = s.activeDie → s.cd.gap.isSome = false → s.flag (F.tileStatusZero t.val) = true ∨ retired →
      w = .next ((s.setTile t.val y).count (F.tileErrCountsDrop t.val) 1)) ∧
    (d = s.activeDie → s.cd.gap.isSome = false → s.flag (F.tileStatusZero t.val) = false → ¬retired →
      (¬changed key → ∃ r, w = .next r ∧ (r.tile t.val).inForce key = held ∧
        (r.tile t.val).written.find? key = some s.time.net ∧
        (∀ k, k ≠ key → (r.tile t.val).inForce k = x.inForce k) ∧ (r.tile t.val).live = x.live ∧ (r.tile t.val).pend = x.pend ∧
        r.regs = s.regs ∧ ∀ i, i ≠ t.val → r.tile i = s.tile i) ∧
      (changed key → ∃ r, w = .next r ∧ (r.tile t.val).pend.find? key = some held ∧ (r.tile t.val).act = x.act ∧
        (if (x.pend.find? key).isSome then Counted s r (F.tileErrCountsOverwr t.val) 1 else r.regs = s.regs) ∧
        ∀ i, i ≠ t.val → r.tile i = s.tile i)) ∧
    (x.pend = [] → exec (.pendingWriteApply t) s = .next s) ∧
    (∀ k c rest, x.pend = (k, c) :: rest → SMap.risingFrom 0 x.pend = true → NoDuty s → x.span = [] → s.cd.gap = none →
      let edge := (x.written.get (fun _ => 0) k / 6400 + 1) * 6400
      (∀ p ∈ x.pend, ∀ w, x.written.find? p.1 = some w → w < edge) →
      ∃ r, exec (.pendingWriteApply t) s = .next r ∧ (r.tile t.val).pend = [] ∧ r.regs = s.regs ∧
      r.time.net = max s.time.net edge ∧ (r.tile t.val).live = x.live ∧
      (∀ k, (r.tile t.val).inForce k = (x.pend.find? k).getD (x.inForce k)) ∧ ∀ i, i ≠ t.val → r.tile i = s.tile i)

/-- Clauses of R88: a channel on which the dies have differed three times running is shown in TILE_CMP_STAT and counted, and its own count
starts again. -/
def Sys2Proof.Claims.OutputMismatches : Prop :=
  ∀ (s : State) (t : Fin 16) (heater : Bool) (ch : Fin 681),
    let key := if heater then 1000 + ch.val else ch.val
    let n := (s.tile t.val).differ.get (fun _ => 0) key
    (n < 3 → exec (.outputMismatch t heater ch) s = .next s) ∧
    (3 ≤ n → ∃ r, exec (.outputMismatch t heater ch) s = .next r ∧ r.flag (F.tileCmpStatMism t.val) = true ∧
      (r.fld (F.tileCmpStatHtr t.val) = 1 ↔ heater = true) ∧ r.fld (F.tileCmpStatChan t.val) = ch.val ∧
      Counted s r (F.tileCmpCountCount t.val) 1 ∧ Counted s r F.cdCountsMism 1 ∧ r.events = s.events ∧ (r.tile t.val).differ.find? key = none ∧ (r.tile t.val).act = (s.tile t.val).act)

/-- Clauses of R82, R83, Tables 04.3, 04.4: at a frame boundary a tile delivers its frame to the cores that serve its flasks, into the bank
of the frame's own parity, with the sequence number and tile, the mould in force, and each monitor's sample, marked STALE where
nothing converted it in the window; then the next window begins. -/
def Sys2Proof.Claims.Frames : Prop :=
  ∀ (s : State) (t : Fin 16), (s.power.fastClocks = false → exec (.frameDelivery t) s = .next s) ∧
    (s.power.fastClocks = true → NoDuty s → (s.tile t.val).span = [] → (s.tile t.val).pend = [] → ∃ r, exec (.frameDelivery t) s = .next r ∧ r.time.net % 6400 = 0 ∧ s.time.net ≤ r.time.net ∧
      let x := s.tile t.val
      (r.tile t.val).seq = (x.seq + 1) % 65536 ∧ (r.tile t.val).frameAt = r.time.net ∧ (r.tile t.val).fresh = [] ∧
      (r.tile t.val).live = x.live ∧ (r.tile t.val).act = x.act ∧ (∀ i, i ≠ t.val → r.tile i = s.tile i) ∧
      (∀ o, o ≠ R.loopCountsA → o ≠ R.loopCountsB → r.reg o = s.reg o) ∧
      ∀ k, k < 4 → ∀ d : Die,
        let c := r.core (s.fld (F.loopFlaskMapCore (4 * t.val + k)) + 128 * d.code)
        let bank := if x.seq % 2 = 0 then c.bank0 else c.bank1
        bank.length = 1500 ∧ (bank.getD 0 0).toNat = r.time.net % 1000000000 ∧
        (bank.getD 1 0).toNat = r.time.net / 1000000000 % 2 ^ 32 ∧ (bank.getD 2 0).toNat = x.seq % 65536 + t.val * 65536 ∧
        (bank.getD 3 0).toNat = s.fld (F.tileVhtrMv t.val) ∧ (bank.getD 4 0).toNat % 8192 = s.fld F.mldInForceMould ∧
        (∀ mon, mon < 1436 → bank.getD (64 + mon) 0 =
          if mon ∈ x.fresh then x.samples.get (fun _ => 0) mon else x.samples.get (fun _ => 0) mon ||| 0x80000#32) ∧
        c.lctrl = s.reg R.loopCtrl)

/-- Clauses of R85: the VHTR average of the window that ends at the next frame boundary is reported with OUT outside 11.4 V to 12.6 V; eight such windows running are a fault of class C2,
a good one ends it, and it is not raised again while it stands. -/
def Sys2Proof.Claims.VhtrWindows : Prop :=
  ∀ (s : State) (t : Fin 16) (mv : BitVec 16),
    let bad := s.faults.vhtrBad.get (fun _ => 0) t.val
    let out := mv.toNat < 11400 ∨ 12600 < mv.toNat
    (∃ r, exec (.vhtrWindow t mv) s = .next r ∧ r.fld (F.tileVhtrMv t.val) = mv.toNat ∧ (r.flag (F.tileVhtrOut t.val) = true ↔ out) ∧
      (out → r.faults.vhtrBad.get (fun _ => 0) t.val = bad + 1 ∧ r.faults.standing = s.faults.standing) ∧
      (¬out → r.faults.vhtrBad.get (fun _ => 0) t.val = 0 ∧ ∀ x ∈ r.faults.standing, x.source ≠ 0x1000 + t.val) ∧
      r.time.net % 6400 = 0 ∧ s.time.net ≤ r.time.net ∧ r.tile t.val = { s.tile t.val with vhtrAt := r.time.net } ∧
      { r.moulds with staged := s.moulds.staged } = s.moulds ∧
      { r with regs := s.regs, faults := s.faults, tiles := s.tiles, time := s.time, moulds := s.moulds } = s) ∧
    let stands := ∃ x ∈ s.faults.standing, x.source = 0x1000 + t.val
    (bad < 8 ∨ stands → exec (.vhtrFault t) s = .next s) ∧
    (8 ≤ bad → ¬stands → Quiet s → NoRecovery s 16 → ∃ r, exec (.vhtrFault t) s = .next r ∧
      Noted s r (0x1000 + t.val) 2 0 (word (s.fld (F.tileVhtrMv t.val) + t.val * 65536)) ∧ r.flag (F.fltStat 16 2) = true ∧
      ∃ x ∈ r.faults.standing, x.source = 0x1000 + t.val ∧ x.cls = 2)

/-- Clauses of R64, R82 to R88, R326: actuator writes, comparators, sample frames and VHTR of a drive tile. -/
def Obligations.TileOutputsAndFrames : Prop :=
  Claims.ActuatorWrites ∧ Claims.OutputMismatches ∧ Claims.Frames ∧ Claims.VhtrWindows

/-! ## Control loops -/

/-- Clauses of R90 to R108, R244: LOOP_PASS of a core that serves a flask and has a new frame: each record whose loop runs is the one the element
law or the port law of its sample gives, every other record stays as it was, a running element loop writes its trim and its
heater code, and the pass ends asleep with its cycles reported. -/
def Sys2Proof.Claims.LoopPasses : Prop :=
  ∀ (s : State) (d : Die) (k : Fin 72) (cycles : Nat),
    (s.servedFlask k.val = none ∨ s.power.fastClocks = false → exec (.loopPass d k cycles) s = .next s) ∧
    (∀ f, s.servedFlask k.val = some f → s.power.fastClocks = true → (s.tile (f / 4)).frameAt ≠ 0 →
      (s.core (k.val + 128 * d.code)).halted = false → (s.core (k.val + 128 * d.code)).asleep = false →
      s.flag F.loopCtrlPathEn = false → Quiet s → s.discards k.val f = false →
      ∃ t, exec (.loopPass d k cycles) s = .next t ∧
        (t.core (k.val + 128 * d.code)).asleep = true ∧ (t.core (k.val + 128 * d.code)).cycle = cycles ∧
        t.time.net = (if s.time.net < (s.tile (f / 4)).frameAt then s.time.net else max s.time.net ((s.tile (f / 4)).frameAt + 200)) ∧
        (d = s.activeDie → t.fld (F.loopPassLast k.val) = min 8191 cycles ∧
          t.fld (F.loopPassMax k.val) = max (s.fld (F.loopPassMax k.val)) (min 8191 cycles)) ∧
        (∀ i, i ≠ f / 4 → t.tile i = s.tile i) ∧
        let h := ((s.core (k.val + 128 * d.code)).serve (((s.tile (f / 4)).seq + 65535) % 65536) 0 (s.tile (f / 4)).frameAt).passFrame
        ∀ l ∈ flaskLoops f,
          let m := s.image k.val d (loopPos l)
          let dead := ¬(m.state = 1 ∨ m.state = 2) ∨ s.engineHold l = true ∨ s.hostHold l = true
          (dead → t.image k.val d (loopPos l) = m) ∧
          (¬dead → portLoop l = true →
            t.image k.val d (loopPos l) = (m.portPass h (loopLocal l) (s.fld F.loopCtrlDarkLvl)).1) ∧
          (¬dead → portLoop l = false → t.image k.val d (loopPos l) = (m.firstPass h (loopLocal l)).secondPass h (loopLocal l) ∧
            let given := match d with
              | .cope => (t.tile (f / 4)).copeVal
              | .drag => (t.tile (f / 4)).dragVal
            given.find? (loopLocal l) = some (m.firstPass h (loopLocal l)).trimOut ∧
            given.find? (1000 + loopLocal l) =
              some (((m.firstPass h (loopLocal l)).secondPass h (loopLocal l)).htrOut : Int)))

/-- Table 05.6, R108, R110, R111: what loop bookkeeping finds in the record of the active die. Each happening takes effect only on
its condition, changes STATE as the table says, and reports its cause with the loop and its new reported state. -/
def Sys2Proof.Claims.LockEvents : Prop :=
  ∀ (s : State) (l : Fin 10896), Quiet s → NoRecovery s 10 → s.standbyReady = false → s.fld (F.loopFlaskMapState (loopFlask l.val)) ≠ 2 →
    let m := s.loopImage s.activeDie l.val
    let data := fun (t : State) (cause : Nat) => word (l.val + t.loopState l.val * 65536 + cause * 1048576)
    let timed := m.state = 1 ∧ s.fld F.loopCtrlLockTo ≠ 0 ∧ s.fld F.loopCtrlLockTo ≤ m.lt ∧ ¬(portLoop l.val = true ∧ m.low = true)
    let starving := s.fld F.loopCtrlStarve ≠ 0 ∧ s.fld F.loopCtrlStarve ≤ m.bad ∧ l.val ∉ s.loops.starved
    let becomes := fun (i : Instr) (state cause cls : Nat) => ∃ t, exec i s = .next t ∧ (t.loopImage t.activeDie l.val).state = state ∧
      (t.loopImage t.activeDie l.val).kp = m.kp ∧ (t.loopImage t.activeDie l.val).htrOut = m.htrOut ∧ t.tiles = s.tiles ∧
      (∀ o, o ≠ s.flaskCore (loopFlask l.val) + 128 * s.activeDie.code → t.core o = s.core o) ∧
      (if cause = 0 then t.events = s.events else Noted s t 0xA00 cls cause (data t cause))
    (¬(m.state = 1 ∧ 32 ≤ m.lockCnt) → exec (.loopLockAcquired l) s = .next s) ∧
    (m.state = 1 → 32 ≤ m.lockCnt → becomes (.loopLockAcquired l) 2 0 0) ∧
    (¬(m.state = 2 ∧ 4 ≤ m.lockCnt) → exec (.lockLoss l) s = .next s) ∧ (m.state = 2 → 4 ≤ m.lockCnt → becomes (.lockLoss l) 1 1 1) ∧
    (¬timed → exec (.lockTimeout l) s = .next s) ∧ (timed → becomes (.lockTimeout l) 5 2 2) ∧
    (¬((m.state = 1 ∨ m.state = 2) ∧ m.pin = 15) → exec (.pinned l) s = .next s) ∧
    (m.state = 1 ∨ m.state = 2 → m.pin = 15 → becomes (.pinned l) 5 3 2) ∧
    (¬starving → exec (.starved l) s = .next s) ∧
    (starving → becomes (.starved l) m.state 4 1 ∧ ∃ t, exec (.starved l) s = .next t ∧ l.val ∈ t.loops.starved) ∧
    (∀ k : Fin 72, ∃ t, exec (.loopOverrun k) s = .next t ∧ Counted s t F.loopOverrunCount 1 ∧ Noted s t 0xA01 2 0 (word k.val) ∧
      t.tiles = s.tiles ∧ t.cores = s.cores)

/-- Clauses of R91, R92: handovers. A handover to a free loop core begins its COPY; one to the owner does nothing more than keep NEXT and
SHADOW; one to a core that serves or is promised, to no loop core, or during a handover is discarded and logged. The copy gives
the new core the records and hold bitmaps on both dies, and the swap makes it the owner. -/
def Sys2Proof.Claims.Handovers : Prop :=
  ∀ (s : State) (m : Master) (f : Fin 64) (next : Fin 128) (shadow : Fin 16),
    let st := s.fld (F.loopFlaskMapState f.val)
    let owner := s.fld (F.loopFlaskMapCore f.val)
    let taken := ∃ g, g < 64 ∧ (s.fld (F.loopFlaskMapCore g) = next.val ∨
      s.loops.handing.find? g = some next.val)
    let i := Instr.flaskHandover m f next shadow
    let refused := exec i s = .next (s.logAccess (regAccess m (R.loopFlaskMap f.val)) 8)
    (Admitted s m (R.loopFlaskMap f.val) →
      (s.bus.hand = none → st ≠ 0 ∨ 71 < next.val → refused) ∧
      (st = 0 → next.val < 72 → next.val = owner → ∃ t, exec i s = .next t ∧ t.fld (F.loopFlaskMapState f.val) = 0 ∧
        t.fld (F.loopFlaskMapNext f.val) = next.val ∧ { t with regs := s.regs } = s) ∧
      (s.bus.hand = none → st = 0 → next.val < 72 → next.val ≠ owner → taken → refused) ∧
      (st = 0 → next.val < 72 → next.val ≠ owner → ¬taken → ∃ t, exec i s = .next t ∧ t.fld (F.loopFlaskMapState f.val) = 1 ∧
        t.fld (F.loopFlaskMapNext f.val) = next.val ∧ t.fld (F.loopFlaskMapShadow f.val) = shadow.val ∧
        t.fld (F.loopFlaskMapCore f.val) = owner ∧
        { t with regs := s.regs, loops := { t.loops with handing := s.loops.handing } } = s ∧
        ∀ g, t.loops.handing.find? g = if g = f.val then some next.val else s.loops.handing.find? g)) ∧
    (st ≠ 1 → exec (.handoverCopy f) s = .next s) ∧
    (∀ new, st = 1 → s.loops.handing.find? f.val = some new → new < 128 →
      ∃ t, exec (.handoverCopy f) s = .next t ∧ t.fld (F.loopFlaskMapState f.val) = 2 ∧ t.fld (F.loopFlaskMapCore f.val) = owner ∧
      (∀ (d : Die) (a : Nat), (t.core (new + 128 * d.code)).mem.get (fun _ => 0) a =
        if a < 0x1638 then (s.core (owner + 128 * d.code)).mem.get (fun _ => 0) a
        else (s.core (new + 128 * d.code)).mem.get (fun _ => 0) a) ∧
      (∀ o, o ≠ new → o ≠ new + 128 → t.core o = s.core o) ∧ t.tiles = s.tiles) ∧
    (st ≠ 2 → exec (.handoverSwap f) s = .next s) ∧
    (∀ new, st = 2 → s.loops.handing.find? f.val = some new → new < 128 →
      ∃ t, exec (.handoverSwap f) s = .next t ∧ t.fld (F.loopFlaskMapState f.val) = 0 ∧
      t.fld (F.loopFlaskMapCore f.val) = new ∧ t.loops.handing.find? f.val = none ∧
      t.time.net = max s.time.net (s.loops.shadow.get (fun _ => 0) f.val) ∧ t.cores = s.cores ∧ t.tiles = s.tiles)

/-- Clauses of R116, Tables 05.6, 05.11: the four commands of LOOP_CMD wait for the frame boundary, or are discarded and logged for a loop that
does not exist, a flask being copied, or CLOSE of a retired loop; at the boundary OPEN, CLOSE, HOLD and RELEASE take effect. -/
def Sys2Proof.Claims.LoopCommands : Prop :=
  ∀ (s : State) (m : Master) (x : Fin 16384),
    (∀ p ∈ [(Instr.loopCmdOpen m x, 1), (.loopCmdClose m x, 2), (.loopCmdHold m x, 3), (.loopCmdRelease m x, 4)], Admitted s m R.loopCmd →
      let refused := 10896 ≤ x.val ∨ s.fld (F.loopFlaskMapState (loopFlask x.val)) = 1 ∨
        p.2 = 2 ∧ (s.loopImage s.activeDie x.val).state = 4
      (s.bus.hand = none → refused → exec p.1 s = .next (s.logAccess (regAccess m R.loopCmd) 8)) ∧
      (¬refused → exec p.1 s = .next { s with loops := { s.loops with cmds := s.loops.cmds ++ [(p.2, x.val, s.time.net)] } })) ∧
    (s.loops.cmds = [] → exec .loopCmdEffect s = .next s) ∧
    (∀ c l at_, s.loops.cmds = [(c, l, at_)] → l < 10896 → at_ ≤ s.time.net → ∃ t, exec .loopCmdEffect s = .next t ∧ t.loops.cmds = [] ∧
      t.time.net % 6400 = 0 ∧ s.time.net ≤ t.time.net ∧ at_ < t.time.net ∧ t.regs = s.regs ∧ t.tiles = s.tiles ∧
      let was := (s.loopImage s.activeDie l).state
      let now := (t.loopImage s.activeDie l).state
      (c = 1 → now = if was = 4 then 4 else 0) ∧ (c = 2 → now = if was = 4 then 4 else 1) ∧
      (c = 3 → t.hostHold l = true ∧ t.engineHold l = s.engineHold l ∧ now = was) ∧
      (c = 4 → t.hostHold l = false ∧ t.engineHold l = s.engineHold l ∧ now = was))

/-- Clauses of R90 to R111: passes of the loop cores and the events of lock. -/
def Obligations.LoopPassesAndLock : Prop := Claims.LoopPasses ∧ Claims.LockEvents

/-- Clauses of R91, R92, R107, R116: handovers of flasks, and loop commands. -/
def Obligations.HandoversAndLoopCommands : Prop := Claims.Handovers ∧ Claims.LoopCommands

/-! ## Calibration -/

/-- The limits of Table 06.2 for an ADC offset, an ADC gain and a crosstalk coefficient, against the value `v0` that drift is
measured from: in service, or at power-up (R120). -/
def Sys2Proof.Machine.WithinLimits (q : Nat) (powerUp : Bool) (v v0 : Int) : Prop :=
  (q = 2 → v.natAbs ≤ 512 ∧ (v - v0).natAbs ≤ if powerUp then 256 else 64) ∧
  (q = 3 → 0x3800 ≤ v ∧ v ≤ 0x4800 ∧ 10000 * (v - v0).natAbs ≤ (if powerUp then 200 else 50) * v0.natAbs) ∧
  (q = 8 → v.natAbs ≤ 64 ∧ (v - v0).natAbs ≤ if powerUp then 32 else 8)

/-- Clauses of R120, R124, R125, R134, R137, Table 06.2: a result of the POWER_UP pass for an ADC channel or a crosstalk coefficient that
keeps its fixed and drift limits waits for its apply instant in the place of an older one, and CAL_STATUS.PENDING counts it; one
that fails is discarded, counted in CAL_FLAGGED and reported, and the object's quality entry says which. With no pass in progress
over its tile, and outside fettling, nothing is measured. -/
def Sys2Proof.Claims.CalResults : Prop :=
  ∀ (s : State) (r : Measured) (p : CalPass),
    (s.cal.passes = [] → s.dev ≠ 2 ∨ s.svc ≠ 0 → exec (.calResult r) s = .next s) ∧
    (r.quantity.val ∈ [2, 3, 8] → r.object < (if r.quantity.val = 8 then 10304 else 768) →
      (r.quantity.val = 8 → r.object / 2 ∉ s.moulds.retired) → Quiet s → NoRecovery s 12 → s.flag F.calApplyModeStep = false →
      s.cal.passes = [p] → p.job = 0 → p.powerUp = true → p.tiles = List.range 16 → p.refOk = some true → s.powerUpMeasures = true →
      s.flag F.calStatusVrefOk = true → (r.quantity.val = 8 → r.b ≠ 0) →
      (r.quantity.val = 3 → 256 * s.latest qOfs r.object ≠ r.a) →
      let q := r.quantity.val
      let key := 100000 * q + r.object
      let entry := if q = 8 then r.object else 30000 + r.object
      s.cal.fails.get (fun _ => (0, 0, 0)) entry = (0, 0, 0) →
      let v := (s.measure r true false).1.value
      let ok := WithinLimits q true v (Config.factoryValue q r.object)
      (q = 2 → IsRound v r.a 256) ∧
      ∃ t, exec (.calResult r) s = .next t ∧ (t.qualityAt entry).getLsbD 29 = false ∧
        ((t.qualityAt entry).getLsbD 31 = true ↔ ok ∨ (s.qualityAt entry).getLsbD 31 = true) ∧
        ((t.qualityAt entry).getLsbD 30 = true ↔ ¬ok) ∧ t.cal.values = s.cal.values ∧ t.tiles = s.tiles ∧
        (ok → (∃ w, t.cal.waiting.find? key = some w ∧ w.result.quantity = q ∧ w.result.object = r.object ∧ w.result.value = v) ∧
          (∀ k, k ≠ key → t.cal.waiting.find? k = s.cal.waiting.find? k) ∧
          t.fld F.calStatusPending = min 65535 t.cal.waiting.length ∧ t.fld F.calFlaggedCount = s.fld F.calFlaggedCount) ∧
        (¬ok → t.cal.waiting = s.cal.waiting ∧ Counted s t F.calFlaggedCount 1 ∧ ∃ why, (why = 1 ∨ why = 2) ∧
          Noted s t 0xC00 1 0 (word (r.object % 16384 + q * 65536 + why * 1048576))))

/-- Clauses of R123, R128, R132, R133, Table 06.4: nothing waiting, nothing applied. A transfer adds an integrator over 16, rounded, to
the code of a state held while the loop was LOCKED for its last 256 frames, on the span in use, and to no other. An ADC correction comes into force while a spare serves its
channel, in the register of that channel; the integrator of an element whose new code its pour has loaded is moved back by 16
times the code's change, once. -/
def Sys2Proof.Claims.CalApplied : Prop :=
  ∀ (s : State) (q : Fin 16) (o : Nat),
    let locked := s.loops.locked.get (fun _ => (0, 256, 256)) o
    let integrator := (s.loopImage s.activeDie o).sget 4
    let moves := fun (new old int : Int) (since : Nat) =>
      if 256 ≤ locked.1 ∧ since < 256 then IsRound (new - old) int 16 else new = old
    let was := s.codes o
    let moved := s.transferCodes o
    let two := (s.tile (o / 644)).span12.get (fun _ => false) (o % 644)
    (two = true → moved.cross6 = was.cross6 ∧ moved.bar6 = was.bar6 ∧ moves moved.cross12 was.cross12 (integrator 15 0) locked.2.1 ∧
      moves moved.bar12 was.bar12 (integrator 31 16) locked.2.2) ∧
    (two = false → moved.cross12 = was.cross12 ∧ moved.bar12 = was.bar12 ∧ moves moved.cross6 was.cross6 (integrator 15 0) locked.2.1 ∧
      moves moved.bar6 was.bar6 (integrator 31 16) locked.2.2) ∧
    (s.cal.waiting.find? (100000 * q.val + o) = none → exec (.calApply q o) s = .next s) ∧
    (∀ w, s.cal.waiting.find? (100000 * q.val + o) = some w → w.result.quantity = q.val → w.result.object = o → q.val = 2 ∨ q.val = 3 →
      o % 48 < 45 → o < 768 → s.spareStateOf (o / 48) (o % 48) = 2 → ∃ t, exec (.calApply q o) s = .next t ∧
        t.cal.waiting.find? (100000 * q.val + o) = none ∧ t.calValue q.val o = w.result.value ∧ t.tiles = s.tiles ∧ t.cores = s.cores ∧
        t.fld F.calStatusPending = min 65535 t.cal.waiting.length ∧
        (q.val = 3 → ((t.fld (F.tileAdcCorGain (o / 48) (o % 48)) : Nat) : Int) = w.result.value % 65536 ∧
          t.fld (F.tileAdcCorOfs (o / 48) (o % 48)) = s.fld (F.tileAdcCorOfs (o / 48) (o % 48))) ∧
        (q.val = 2 → ((t.fld (F.tileAdcCorOfs (o / 48) (o % 48)) : Nat) : Int) = w.result.value % 65536 ∧
          t.fld (F.tileAdcCorGain (o / 48) (o % 48)) = s.fld (F.tileAdcCorGain (o / 48) (o % 48)))) ∧
    (∀ e : Fin 10304, let x := s.tile (e.val / 644)
      let j := e.val % 644
      let c := (s.codes e.val)
      let wide := x.span12.get (fun _ => false) j
      let m := s.loopImage s.activeDie e.val
      (x.shown.get (fun _ => 0) j ≠ 1 → x.shown.get (fun _ => 0) j ≠ 2 → exec (.calIntegratorAdjust e) s = .next s) ∧
      (∀ dc db, s.cal.adjust.get (fun _ => (0, 0)) e.val = (dc, db) → s.standbyReady = false →
        s.fld (F.loopFlaskMapState (loopFlask e.val)) ≠ 2 → m.trimLim ≤ 2047 → x.shown.get (fun _ => 0) j = 1 → dc ≠ 0 →
        x.live.get (fun _ => 0) j = (if wide then c.cross12 else c.cross6) → ∃ t, exec (.calIntegratorAdjust e) s = .next t ∧
          t.cal.adjust.get (fun _ => (0, 0)) e.val = (0, db) ∧ s.time.net < t.time.net ∧ t.time.net % 6400 = 0 ∧
          (t.loopImage s.activeDie e.val).sget 4 15 0 = max (-m.limit) (min m.limit (m.sget 4 15 0 - 16 * dc)) ∧
          (t.loopImage s.activeDie e.val).sget 4 31 16 = m.sget 4 31 16))

/-- Clauses of R127, R118: fettling runs in RUN and service NORMAL with EN = 1, and nowhere else. It takes a tile's objects in hand one by one,
waits at a channel for a spare of the tile, checks REF_IN before the monitors and skips them without it, moves to the next tile after
the last object, and counts a pass after tile 15; with EN cleared it stops after the object in hand. -/
def Sys2Proof.Claims.Fettling : Prop :=
  ∀ (s : State), s.cal.fettleSpares = [] →
    let n := s.cal.fettled
    let tile := s.fld F.calFettleTile
    let spare := ∃ k, k < 3 ∧ (s.jobs.claim (8 + 3 * tile + k)).holder = some .engine
    let en := s.flag F.calFettleEn
    let busy := s.cal.fettleBusy
    (s.dev ≠ 2 ∨ s.svc ≠ 0 ∨ busy = false ∧ en = false → exec .fettleObject s = .next s) ∧
    (s.dev = 2 → s.svc = 0 → Quiet s → NoRecovery s 12 →
      let after := fun (at_ : Nat) (t : State) => t.cal.fettleBusy = true ∧
        (at_ ≠ 46 → t.cal.fettled = at_ ∧ t.regs = s.regs) ∧
        (at_ = 46 → t.cal.fettled = (if s.refReads = 0 then 46 else 120) ∧ (t.flag F.calStatusRefOk = true ↔ s.refReads = 0))
      (busy = false → en = true → ∃ t, exec .fettleObject s = .next t ∧ after n t) ∧
      (busy = true → en = true → 0 < n → n < 46 → ¬spare → ∃ t, exec .fettleObject s = .next t ∧ after n t) ∧
      (busy = true → en = true → n < 763 → (0 < n → n < 46 → spare) → ∃ t, exec .fettleObject s = .next t ∧ after (n + 1) t) ∧
      (busy = true → en = false → n < 763 → ∃ t, exec .fettleObject s = .next t ∧ t.cal.fettled = n + 1 ∧ t.cal.fettleBusy = false ∧
        t.regs = s.regs) ∧
      (busy = true → n = 763 → ∃ t, exec .fettleObject s = .next t ∧ t.cal.fettled = 0 ∧ t.fld F.calFettleTile = (tile + 1) % 16 ∧
        t.cal.fettleBusy = en ∧
        (tile = 15 → t.fld F.calFettlePasses = (s.fld F.calFettlePasses + 1) % (F.calFettlePasses.limit + 1)) ∧
        (tile ≠ 15 → t.fld F.calFettlePasses = s.fld F.calFettlePasses)))

/-- Clauses of R139: the coefficient window. A write for an element that does not exist or whose cell is retired is discarded and logged;
a write of HCONV that keeps its limits waits for its apply instant as a result of that element, and one whose heater
power for pi at the measured VHTR lies outside 15 to 32 mW leaves what waits as it is; a write of the codes that keep theirs waits likewise. -/
def Sys2Proof.Claims.CoefficientWindow : Prop :=
  ∀ (s : State) (m : Master) (v : Word),
    let e := s.fld F.calLegIndexElem
    (∀ p ∈ [(Instr.calLegData0Write m v, R.calLegData0), (.calLegData1Write m v, R.calLegData1)], Admitted s m p.2 → s.bus.hand = none →
      10304 ≤ e ∨ e / 2 ∈ s.moulds.retired → exec p.1 s = .next (s.logAccess (regAccess m p.2) 8)) ∧
    (Admitted s m R.calLegData1 → e < 10304 → e / 2 ∉ s.moulds.retired → s.flag F.calApplyModeStep = false →
      10000 * (((v.toNat % 65536 : Nat) : Int) - s.calValue 6 e).natAbs ≤ 500 * (s.calValue 6 e).natAbs →
      let hconv : Int := (v.toNat % 65536 : Nat)
      let c := s.latestCodes e
      let mv : Int := s.fld (F.tileVhtrMv (e / 644))
      let power := hconv * (c.bar6 - c.cross6) * mv * mv
      let milliwatt : Int := 1000 * 65536 * 256 * (heaterOhm e : Int)
      let fits := 15 * milliwatt ≤ power ∧ power ≤ 32 * milliwatt
      ∃ t, exec (.calLegData1Write m v) s = .next t ∧
        (fits → t.tiles = s.tiles ∧ t.cores = s.cores ∧ ∃ w, t.cal.waiting.find? (600000 + e) = some w ∧ w.result.object = e ∧
          w.result.value = hconv) ∧
        (¬fits → t.cal.waiting = s.cal.waiting)) ∧
    (Admitted s m R.calLegData0 → e < 10304 → e / 2 ∉ s.moulds.retired → s.flag F.calApplyModeStep = false →
      let wide := (s.tile (e / 644)).span12.get (fun _ => false) (e % 644)
      let cross := (v.extractLsb' 0 16).toInt
      let bar := (v.extractLsb' 16 16).toInt
      let old := s.codes e
      wide = false → cross.natAbs ≤ 410 → 956 ≤ bar - cross → bar - cross ≤ 1707 → (2 * old.cross12).natAbs ≤ 410 →
      956 ≤ 2 * old.bar12 - 2 * old.cross12 → 2 * old.bar12 - 2 * old.cross12 ≤ 1707 → (cross - old.cross6).natAbs ≤ 24 →
      (bar - old.bar6).natAbs ≤ 24 → (s.qualityAt e).getLsbD 31 = false →
      ∃ t w, exec (.calLegData0Write m v) s = .next t ∧ t.cal.waiting.find? (500000 + e) = some w ∧ w.result.object = e ∧
        w.result.codes = { old with cross6 := cross, bar6 := bar } ∧ t.cores = s.cores)

/-- Clauses of R117 to R134: results of calibration and the instants at which they apply. -/
def Obligations.CalibrationResults : Prop := Claims.CalResults ∧ Claims.CalApplied

/-- Clauses of R127, R136, R139: fettling, and the coefficient window. -/
def Obligations.FettlingAndCoefficients : Prop := Claims.Fettling ∧ Claims.CoefficientWindow

/-! ## Timebase -/

/-- Clauses of R143, Tables 07.14, 07.20, 07.22: sixteen bytes in their window with sync, version, TIME_VALID and CRC right are a valid message,
whose seconds wait for their edge; any other is counted. -/
def Sys2Proof.Claims.TimeMessages : Prop :=
  ∀ (s : State) (bs : List Byte) (inWindow : Bool),
    let good := bs.length = 16 ∧ inWindow = true ∧ bs.getD 0 0 = 0x5A#8 ∧ bs.getD 1 0 = 0x3C#8 ∧ bs.getD 2 0 = 1#8 ∧
      (bs.getD 3 0).getLsbD 0 = true ∧ (crc16 (bs.take 14)).toNat = (bs.getD 14 0).toNat + 256 * (bs.getD 15 0).toNat
    (¬good → exec (.todMessage bs inWindow) s = .next (s.count F.timErrsTodBad 1)) ∧
    (good → ∃ t, exec (.todMessage bs inWindow) s = .next t ∧
      t.time.msg = some ((bs.getD 4 0).toNat + 256 * ((bs.getD 5 0).toNat + 256 * ((bs.getD 6 0).toNat + 256 * ((bs.getD 7 0).toNat +
        256 * ((bs.getD 8 0).toNat + 256 * (bs.getD 9 0).toNat)))), s.time.now) ∧
      (t.flag F.timStatusSrcHold = (bs.getD 3 0).getLsbD 3) ∧ t.fld F.timTodLastUtcOffset = (bs.getD 10 0).toNat + 256 * (bs.getD 11 0).toNat ∧
      t.fld F.timTodLastSeq = (bs.getD 12 0).toNat + 256 * (bs.getD 13 0).toNat ∧ t.fld F.timStatusState = s.fld F.timStatusState ∧
      t.time.net = s.time.net ∧ t.events = s.events)

/-- Clauses of R144, R146, Table 07.3: an edge, at most 10 us back or else the next of its error (log 5). In FREE, or in ACQUIRE before an
accepted edge, a message of the second before it sets the time and begins ACQUIRE at count 1; without one the edge does nothing. In
LOCKED an edge more than 10 us off a second after the accepted one before it is discarded and counted; one within 5 ns whose
message agrees is adjusted away, and a greater error is slewed. An edge in STEP_WAIT or HOLDOVER outside RUN steps the time; in RUN a
small error of HOLDOVER is slewed. Every edge uses up its message. -/
def Sys2Proof.Claims.PpsEdges : Prop :=
  ∀ (s : State) (err : Int),
    let st := s.fld F.timStatusState
    let at_ := s.untilNet (edgeAt s.time.net err)
    let e := at_.edge err
    let told := fun (sec : Nat) => ∃ arrived, s.time.msg = some (sec, arrived) ∧ e.now ≤ arrived + 1000000000
    let silent := ∀ sec arrived, s.time.msg = some (sec, arrived) → arrived + 1000000000 < e.now
    let inTime := ∃ l, s.time.lastEdge = some l ∧ ((e.now : Int) - l - 1000000000).natAbs ≤ 10000
    let steps := fun (sec : Nat) => ∃ t, exec (.ppsEdge err) s = .next t ∧ t.fld F.timStatusState = 1 ∧
      t.time.net = sec * 1000000000 + (at_.time.net - e.at_) ∧
      t.time.count = 1 ∧ t.time.lastEdge = some e.now ∧ t.time.msg = none ∧ t.flag F.timStatusSlew = false ∧ t.events = s.events
    (∀ sec, st = 0 ∨ st = 1 ∧ s.time.count = 0 → told sec → steps sec) ∧
    (st = 0 ∨ st = 1 ∧ s.time.count = 0 → silent → ∃ t, exec (.ppsEdge err) s = .next t ∧ t.fld F.timStatusState = st ∧
      t.time.net = at_.time.net ∧ t.time.msg = none) ∧
    (st = 1 → 0 < s.time.count → inTime → told e.sec →
      ∃ t, exec (.ppsEdge err) s = .next t ∧ t.fld F.timStatusState = 1 ∧ t.time.count = s.time.count + 1 ∧
        (t.time.net : Int) = max 0 (at_.time.net - err) ∧ t.time.phase = err ∧ t.time.msg = none ∧ t.time.lastEdge = some e.now) ∧
    (st = 2 → ¬inTime → ∃ t, exec (.ppsEdge err) s = .next t ∧ Counted s t F.timErrsPpsBad 1 ∧
      t.fld F.timStatusState = 2 ∧ t.time.net = at_.time.net ∧ t.time.lastEdge = s.time.lastEdge ∧ t.time.msg = none) ∧
    (st = 2 → inTime → told e.sec →
      ∃ t, exec (.ppsEdge err) s = .next t ∧ t.fld F.timStatusState = 2 ∧ t.time.lastEdge = some e.now ∧ t.time.msg = none ∧
        (err.natAbs ≤ 5 → (t.time.net : Int) = max 0 (at_.time.net - err) ∧ t.time.slewLeft = 0 ∧
          (s.flag F.timStatusSlew = false → t.flag F.timStatusSlew = false)) ∧
        (5 < err.natAbs → t.flag F.timStatusSlew = true ∧ t.time.net = at_.time.net ∧ t.time.slewLeft = -err ∧
          t.fld F.timStatusEstErr = min 65535 err.natAbs)) ∧
    (∀ sec, st = 4 ∨ st = 3 → s.dev ≠ 2 → told sec → steps sec) ∧
    (st = 3 → s.dev = 2 → told e.sec → err.natAbs ≤ 1000 * max 1 (min 1000 (s.fld F.timCtrlSlewMax)) →
      ∃ t, exec (.ppsEdge err) s = .next t ∧ t.fld F.timStatusState = 2 ∧ t.flag F.timStatusSlew = true ∧ t.time.slewLeft = -err ∧
        t.time.net = at_.time.net ∧ t.time.msg = none ∧ t.time.heldSince = none)

/-- R146: while time passes in a slew, network time moves towards the reference by at most 10 ns in a millisecond, and never beyond it;
without one it keeps pace (which rate below that limit is log 102). -/
def Sys2Proof.Claims.Slewing : Prop :=
  ∀ (s : State) (d : Nat),
    let t := s.elapse d
    let moved : Int := t.time.net - (s.time.net + d)
    t.time.now = s.time.now + d ∧ moved.natAbs * 100000 ≤ d ∧ (s.time.slewLeft = 0 → moved = 0) ∧
    t.time.slewLeft = s.time.slewLeft - moved ∧ t.time.slewLeft.natAbs + moved.natAbs = s.time.slewLeft.natAbs

/-- Clauses of R145, R374, R340, R142, Table 07.3: three accepted edges within 20 ns lock the timebase, with a note; an edge missing for 1 s
and 10 us begins HOLDOVER, counted, with a C2 fault; HOLDOVER beyond its limit is another; REFCLK lost and returned shows
in TIM_STATUS, its loss a standing fault. -/
def Sys2Proof.Claims.TimebaseStates : Prop :=
  ∀ (s : State), Quiet s → NoRecovery s 6 → NoRecovery s 3 →
    let st := s.fld F.timStatusState
    let locks := st = 1 ∧ 3 ≤ s.time.count ∧ s.time.phase.natAbs ≤ 20
    (¬locks → exec .timeLocked s = .next s) ∧
    (locks → ∃ t, exec .timeLocked s = .next t ∧ t.fld F.timStatusState = 2 ∧ t.time.net = s.time.net ∧
      Noted s t 0x600 0 1 (t.reg R.timStatus)) ∧
    (s.time.lastEdge = none ∨ st ≠ 1 ∧ st ≠ 2 → exec .ppsTimeout s = .next s) ∧
    (∀ e, s.time.lastEdge = some e → st = 2 → ∃ t, exec .ppsTimeout s = .next t ∧ t.fld F.timStatusState = 3 ∧
      Counted s t F.timErrsHoldovers 1 ∧ t.time.now = max s.time.now (e + 1000010000) ∧ t.time.heldSince = some t.time.now ∧
      t.time.lastEdge = none ∧ Noted s t 0x600 2 2 (t.reg R.timStatus)) ∧
    (∀ e, s.time.lastEdge = some e → st = 1 → ∃ t, exec .ppsTimeout s = .next t ∧ t.fld F.timStatusState = 1 ∧ t.time.count = 0 ∧
      t.time.now = max s.time.now (e + 1000010000) ∧ t.regs = s.regs ∧ t.events = s.events) ∧
    (s.time.heldSince = none ∨ st ≠ 3 → exec .holdLimit s = .next s) ∧
    (∀ h, s.time.heldSince = some h → st = 3 → ∃ t, exec .holdLimit s = .next t ∧ t.fld F.timStatusState = 3 ∧
      t.time.now = max s.time.now (h + 1000000000 * max 1 (min 255 (s.fld F.timCtrlHoldLimit))) ∧
      Noted s t 0x600 2 4 (t.reg R.timStatus)) ∧
    (s.power.refclk = false → exec .refclkLoss s = .next s) ∧ (s.power.refclk = true → exec .refclkReturn s = .next s) ∧
    (s.power.refclk = true → ∃ t, exec .refclkLoss s = .next t ∧ t.power.refclk = false ∧ t.flag F.timStatusRefclkOk = false ∧
      (∃ x ∈ t.faults.standing, x.source = 0x300 ∧ x.cls = 2) ∧ Noted s t 0x300 2 0 0) ∧
    (s.power.refclk = false → ∃ t, exec .refclkReturn s = .next t ∧ t.power.refclk = true ∧ t.flag F.timStatusRefclkOk = true ∧
      (∀ x ∈ t.faults.standing, x.source ≠ 0x300) ∧ t.events = s.events ∧ t.time = s.time)

/-- Clauses of R286, R140: a read of TIM_NOW0 latches all three words of network time, one of HEAT_ACT0 those of the activation instant, as
nanoseconds, seconds, and the seconds' upper part; neither function's read is answered in a switch-over gap (R327). -/
def Sys2Proof.Claims.LatchedReads : Prop :=
  ∀ (s : State) (m : Master),
    let holds := fun (t : State) (r : Nat → Nat) (at_ : Nat) => (t.reg (r 0)).toNat = at_ % 1000000000 ∧
      (t.reg (r 1)).toNat = at_ / 1000000000 % 2 ^ 32 ∧ (t.reg (r 2)).toNat = at_ / 1000000000 / 2 ^ 32 % 65536 ∧
      { t with regs := s.regs } = s
    (NoWait s m → s.answers m = true → s.blockOpen m (R.timNow 0) = true → ∃ t, exec (.timNow0Read m) s = .next t ∧ holds t R.timNow s.time.net) ∧
    (NoWait s m → s.answers m = true → s.blockOpen m (R.heatAct 0) = true → ∃ t, exec (.heatAct0Read m) s = .next t ∧ holds t R.heatAct s.actInstant) ∧
    (s.answers m = false → exec (.timNow0Read m) s = .next s ∧ exec (.heatAct0Read m) s = .next s)

/-- Clauses of R140 to R146, R286, R340, R374: messages, edges, the states of the timebase, and reads of time. -/
def Obligations.Timebase : Prop :=
  Claims.TimeMessages ∧ Claims.PpsEdges ∧ Claims.Slewing ∧ Claims.TimebaseStates ∧ Claims.LatchedReads

/-! ## Heats -/

/-- Clauses of R150, R151: the next bank and its commit. The one writer, PF0 with HOST = 1 or the schedule cores without, writes records while
STATE is EMPTY or REJECTED, of which bits marked RSVD stay zero (R5); GO makes it VALIDATING, or is refused with BUSY while a heat is VALIDATING or ARMED; every
other master's write is discarded and logged. -/
def Sys2Proof.Claims.HeatBank : Prop :=
  ∀ (s : State) (m : Master) (rec : Fin 4096) (v : BitVec 64),
    let writer := if s.flag F.heatSchedHost then m.toNat % 128 = 0x58 else 72 ≤ m.toNat % 128 ∧ m.toNat % 128 ≤ 79
    let st := s.fld F.heatNextStatusState
    let isOpen := st = 0 ∨ st = 3
    (NoWait s m → s.answers m = true → m.toNat % 128 ≠ 0x59 → writer → isOpen → ∃ t, exec (.heatBankWrite m rec v) s = .next t ∧
      t.heats.next.get (fun _ => 0) rec.val = v &&& 0x7FFFFFF1FFF ∧
      (∀ i, i ≠ rec.val → t.heats.next.get (fun _ => 0) i = s.heats.next.get (fun _ => 0) i) ∧
      { t with heats := { t.heats with next := s.heats.next } } = s) ∧
    (NoWait s m → s.answers m = true → m.toNat % 128 ≠ 0x59 → ¬(writer ∧ isOpen) → s.bus.hand = none →
      exec (.heatBankWrite m rec v) s = .next (s.logAccess (bankAccess m rec.val) 8)) ∧
    (NoWait s m → s.answers m = true → m.toNat % 128 = 0x59 → s.bus.hand = none →
      exec (.heatBankWrite m rec v) s = .next (s.logAccess (bankAccess m rec.val) 2)) ∧
    (Admitted s m R.heatCommit → ¬writer → s.bus.hand = none → ∀ i ∈ [Instr.heatCommit m, .heatCancel m],
      exec i s = .next (s.logAccess (regAccess m R.heatCommit) 8)) ∧
    (Admitted s m R.heatCommit → writer → isOpen → s.heats.armed = none → ∃ t c, exec (.heatCommit m) s = .next t ∧ t.heats.commit = some c ∧
      c.edge % 5 = 0 ∧ s.time.net ≤ c.edge ∧ c.edge < s.time.net + 5 ∧ (t.reg R.heatNextStatus).toNat = 2 ^ 29 ∧
      c.ctrl = max 90 (min 10000 (s.fld F.heatTimingCtrl)) ∧ (c.host = true ↔ m.toNat % 128 = 0x58) ∧ (∀ sp, sp ∈ c.swaps ↔ sp < 4 ∧ s.fld (F.ladSwapState sp) = 1) ∧
      t.heats.next = s.heats.next ∧ (∀ o, o ≠ R.heatNextStatus → t.reg o = s.reg o)) ∧
    (Admitted s m R.heatCommit → writer → st = 1 ∨ st = 2 → Quiet s →
      (∀ h, s.heats.armed = some h → s.time.net + 4 < h.a) → s.heats.waitingRun = none → s.heats.decomposing = false → ∃ t, exec (.heatCommit m) s = .next t ∧ t.regs = s.regs ∧
      t.heats.commit = s.heats.commit ∧ t.heats.armed = s.heats.armed ∧ Noted s t 0x601 0 2 (word 34))

/-- Table 07.6, R148, R151, R153: the first reason that applies rejects a committed heat: not in RUN or draining, no END, the guard,
a slot too short, the cycle too long, a mould not VALID, a start time not aligned, a lead too short. The record shows the reason,
and the writer is noted. -/
def Sys2Proof.Claims.HeatRejections : Prop :=
  ∀ (s : State) (c : Commit) (live : Heat), s.heats.commit = some c → s.heats.now = some live → Quiet s →
    let rejected := fun (reason index : Nat) => ∃ t, exec .heatValidated s = .next t ∧ t.heats.commit = none ∧
      t.fld F.heatNextStatusState = 3 ∧ t.fld F.heatNextStatusReason = reason ∧ t.fld F.heatNextStatusIndex = index ∧
      t.heats.armed = s.heats.armed ∧ t.heats.next = s.heats.next ∧
      Noted s t 0x601 0 2 (word (2 + 16 * (reason + index * 16)))
    let guard := s.fld F.heatNextCfgGuard
    let least := max 320 (guard + 256)
    let running := s.dev = 2 ∧ s.power.drain = none
    (¬running → rejected 1 0) ∧ (running → heatRecords s.heats.next = none → rejected 3 0) ∧
    (∀ rs, running → heatRecords s.heats.next = some rs →
      let short := ∃ r ∈ rs, slotDur r < least
      let long := 200000000 < (rs.map slotDur).sum
      let void := ∃ r ∈ rs, (s.mould (slotMould r)).valid = false
      let ns := (s.reg (R.heatNextBase 0)).toNat
      let askew := s.flag F.heatNextCfgAsap = false ∧ (1000000000 ≤ ns ∨ ns % 5 ≠ 0)
      let soon := max 100 (s.fld F.heatTimingLead) < c.ctrl + 100
      (guard < 40 ∨ 400 < guard → rejected 4 0) ∧
      (40 ≤ guard → guard ≤ 400 →
        (∀ i, i < rs.length → slotDur (rs.getD i 0) < least → (∀ k, k < i → least ≤ slotDur (rs.getD k 0)) → rejected 5 i) ∧
        (¬short → long → rejected 6 0) ∧
        (∀ i, ¬short → ¬long → i < rs.length → (s.mould (slotMould (rs.getD i 0))).valid = false →
          (∀ k, k < i → (s.mould (slotMould (rs.getD k 0))).valid = true) → rejected 7 i) ∧
        (¬short → ¬long → ¬void → askew → rejected 8 0) ∧ (¬short → ¬long → ¬void → ¬askew → soon → rejected 9 0)))

/-- Clauses of R151 to R153, R164, R165: a heat that passes is ARMED: its activation instant is one of S + nC, or with ASAP a cycle boundary,
at least LEAD after the edge of GO and on a cycle boundary of the live heat; the instant, n and the serial are shown, and a
notice with the heat's figures (R186, Table 08.12) goes to every line card. -/
def Sys2Proof.Claims.HeatArmed : Prop :=
  ∀ (s : State) (c : Commit) (live : Heat) (rs : List (BitVec 64)) (a n : Nat), s.heats.commit = some c → s.heats.now = some live →
    0 < live.cycle → Quiet s → s.validate c = Sum.inr (rs, a, n) → live.a ≤ c.edge →
    ∃ t h, exec .heatValidated s = .next t ∧ t.heats.commit = none ∧ t.heats.armed = some h ∧ h.a = a ∧ h.n = rs.length ∧
      h.cycle = (rs.map slotDur).sum ∧ h.serial = s.reg R.heatLiveSerial + 1 ∧ h.swaps = c.swaps ∧ h.base = false ∧
      (t.reg R.heatNextStatus).toNat = 2 * 2 ^ 29 ∧ t.reg R.heatLateN = word n ∧ t.actInstant = a ∧ h.ctrl = c.ctrl ∧
      c.edge + 1000 * max 100 (s.fld F.heatTimingLead) ≤ a ∧ (a - live.a) % (5 * live.cycle) = 0 ∧
      (s.flag F.heatNextCfgAsap = false → a = s.timeIn R.heatNextBase + n * (5 * h.cycle)) ∧
      (n ≠ 0 → n < 2 ^ 28 → Noted s t 0x601 0 3 (word (3 + 16 * n))) ∧
      ∀ d, d < 512 → ∃ x, Ctl.notice x ∈ t.ctlOf d ∧ x.serial = h.serial ∧ x.cancelled = false ∧ x.part = 0 ∧ x.a = a ∧ x.cycle = h.cycle ∧
        x.ctrl = c.ctrl ∧ x.slots = rs.length ∧ x.first = 0 ∧ x.parts = (rs.length + 2035) / 2036

/-- Clauses of R155, R156, R149, R154: until 10 us before its activation an ARMED heat is cancelled on request, its serial free again; later the
request is discarded and logged. At the instant the next bank and the live bank change places, and the serial, the first slot
and the note are the new heat's. -/
def Sys2Proof.Claims.HeatChange : Prop :=
  ∀ (s : State) (m : Master),
    let writer := if s.flag F.heatSchedHost then m.toNat % 128 = 0x58 else 72 ≤ m.toNat % 128 ∧ m.toNat % 128 ≤ 79
    (Admitted s m R.heatCommit → writer → s.heats.armed = none → exec (.heatCancel m) s = .next s) ∧
    (∀ h, Admitted s m R.heatCommit → writer → s.heats.armed = some h → h.a ≤ s.time.net + 10000 → s.bus.hand = none →
      exec (.heatCancel m) s = .next (s.logAccess (regAccess m R.heatCommit) 8)) ∧
    (∀ h, Admitted s m R.heatCommit → writer → s.heats.armed = some h → s.time.net + 10000 < h.a → Quiet s →
      ∃ t, exec (.heatCancel m) s = .next t ∧ t.heats.armed = none ∧ (t.reg R.heatNextStatus).toNat = 0 ∧
        t.heats.next = s.heats.next ∧ t.heats.live = s.heats.live ∧ Noted s t 0x601 0 4 (word 20) ∧
        t.service.accepted = s.service.accepted ∧ ∀ d, d < 512 → ∃ x, Ctl.notice x ∈ t.ctlOf d ∧ x.serial = h.serial ∧ x.cancelled = true) ∧
    (s.heats.armed = none → exec .heatActivate s = .next s) ∧
    (∀ h, s.heats.armed = some h → h.swaps = [] → Quiet s → ∃ t, exec .heatActivate s = .next t ∧ t.time.net = max s.time.net h.a ∧
      t.heats.live = s.heats.next ∧ t.heats.next = s.heats.live ∧ t.heats.now = some h ∧ t.heats.prev = s.heats.now ∧
      t.heats.armed = none ∧ t.heats.slot = 0 ∧ t.heats.boundary = h.a ∧ t.reg R.heatLiveSerial = h.serial ∧
      (t.reg R.heatNextStatus).toNat = 0 ∧ Noted s t 0x601 0 1 (word (1 + 16 * (h.serial.toNat % 65536))))

/-- Clauses of R160, R161, R166: at an epoch boundary the demand gathered, with what the ladle plane holds and the heavy flows carried, is frozen
and a fresh gathering begins; every schedule core of the active die is woken; a policy that waited runs. The next boundary is a
whole number of epochs into its second, or the next second. -/
def Sys2Proof.Claims.Epochs : Prop :=
  ∀ (s : State), 0 < s.heats.epochLen → Quiet s → NoRecovery s 6 → ∃ t, exec .epochBoundary s = .next t ∧
    s.time.net < t.time.net ∧ t.time.net ≤ s.time.net + 1000 * s.heats.epochLen ∧ t.heats.epochs = s.heats.epochs + 1 ∧
    t.heats.epochAt = t.time.net ∧ (t.time.net % 1000000000 % (1000 * s.heats.epochLen) = 0) ∧
    t.heats.gather = [] ∧ t.heats.heavy = [] ∧ t.heats.frozenHeavy = s.heats.heavy ∧
    (s.ladle.queues = [] → s.heats.heavy = [] → t.heats.frozen = s.heats.gather) ∧
    (t.time.net % 1000000000 ≠ 0 → t.heats.epochLen = s.heats.epochLen) ∧
    (t.time.net % 1000000000 = 0 → t.heats.epochLen = s.fld F.heatSchedEpoch) ∧
    (∀ k, k < 8 → (t.core (s.activeId (72 + k))).pendWake.testBit 2 = true) ∧ (∀ id, (t.core id).policyWaits = false) ∧
    (t.heats.decomposing = true ↔ s.dev = 2 ∧ s.flag F.heatSchedHost = false ∧ (s.fld F.glbBootOk).testBit 2 = true) ∧
    t.tiles = s.tiles ∧ t.ladle = s.ladle ∧ t.moulds.store = s.moulds.store ∧ t.moulds.perm = s.moulds.perm

/-- Clauses of R148, R150 to R153, Table 07.6: the next bank, its commit, and the reasons that reject a heat. -/
def Obligations.HeatCommits : Prop := Claims.HeatBank ∧ Claims.HeatRejections

/-- Clauses of R149, R151 to R156, R160, R161, R164 to R166: arming, change and cancellation of heats, and the schedule engine's epochs. -/
def Obligations.HeatChanges : Prop := Claims.HeatArmed ∧ Claims.HeatChange ∧ Claims.Epochs

/-! ## The Cloby instruction set -/

/-- Table 11.5: the instructions of the integer group that write rd from two registers give it the value of the table, in
one cycle, and change nothing else. Halfwords and shifts are stated by arithmetic on the operands. -/
def Sys2Proof.Claims.IntegerGroupResults : Prop :=
  ∀ (s : State) (c : CoreId) (f : FormA), Running s c →
    let k := s.core c.master
    let a := k.r f.rs.toNat
    let b := k.r f.rt.toNat
    let d := k.r f.rd.toNat
    let n := f.sh.toNat
    let m := b.toNat % 32
    let puts := fun (i : Instr) (v : Word) => exec i s = Retires s c 1 (k.w f.rd.toNat v)
    (∃ v : Word, v.toNat = (a.toNat + b.toNat) % 2 ^ 32 ∧ puts (.add c f) v) ∧
    (∃ v : Word, v.toNat = (a.toNat + (2 ^ 32 - b.toNat)) % 2 ^ 32 ∧ puts (.sub c f) v) ∧
    (∃ v : Word, (∀ i, v.getLsbD i = (a.getLsbD i && b.getLsbD i)) ∧ puts (.and c f) v) ∧
    (∃ v : Word, (∀ i, v.getLsbD i = (a.getLsbD i || b.getLsbD i)) ∧ puts (.or c f) v) ∧
    (∃ v : Word, (∀ i, v.getLsbD i = (a.getLsbD i ^^ b.getLsbD i)) ∧ puts (.xor c f) v) ∧
    (∃ v : Word, (∀ i, v.getLsbD i = (a.getLsbD i && !b.getLsbD i)) ∧ puts (.andn c f) v) ∧
    (∃ v : Word, v.toNat = a.toNat * 2 ^ n % 2 ^ 32 ∧ puts (.sll c f) v) ∧
    (∃ v : Word, v.toNat = a.toNat / 2 ^ n ∧ puts (.srl c f) v) ∧
    (∃ v : Word, v.toInt = a.toInt / 2 ^ n ∧ puts (.sra c f) v) ∧
    (∃ v : Word, IsRound v.toInt a.toInt (2 ^ n) ∧ puts (.srar c f) v) ∧
    (∃ v : Word, v.toNat = a.toNat * 2 ^ m % 2 ^ 32 ∧ puts (.sllv c f) v) ∧
    (∃ v : Word, v.toNat = a.toNat / 2 ^ m ∧ puts (.srlv c f) v) ∧
    (∃ v : Word, v.toInt = a.toInt / 2 ^ m ∧ puts (.srav c f) v) ∧
    (∃ v : Word, v.toInt = min a.toInt b.toInt ∧ puts (.min c f) v) ∧
    (∃ v : Word, v.toInt = max a.toInt b.toInt ∧ puts (.max c f) v) ∧
    puts (.selz c f) (if k.z then a else b) ∧ puts (.selc c f) (if k.c then a else b) ∧
    puts (.seln c f) (if k.n then a else b) ∧ puts (.sels c f) (if k.sat then a else b) ∧
    (∃ v : Word, v.toInt = (if b.getLsbD n then a.toInt / 65536 else Int.bmod a.toNat 65536) ∧ puts (.exh c f) v) ∧
    (∃ v : Word, v.toNat = (if b.getLsbD n then a.toNat % 65536 * 65536 + d.toNat % 65536
        else d.toNat / 65536 * 65536 + a.toNat % 65536) ∧ puts (.insh c f) v)

/-- Table 11.5: the immediate instructions. -/
def Sys2Proof.Claims.ImmediateResults : Prop :=
  ∀ (s : State) (c : CoreId) (f : FormB), Running s c →
    let k := s.core c.master
    let a := k.r f.rs.toNat
    let d := k.r f.rd.toNat
    let p := f.imm.toNat / 32 % 32
    let w := f.imm.toNat % 32 + 1
    let puts := fun (i : Instr) (v : Word) => exec i s = Retires s c 1 (k.w f.rd.toNat v)
    (∃ v : Word, (v.toNat : Int) = (a.toInt + f.imm.toInt) % 2 ^ 32 ∧ puts (.addi c f) v) ∧
    (∃ v : Word, (∀ i, v.getLsbD i = (a.getLsbD i && f.imm.getLsbD i)) ∧ puts (.andi c f) v) ∧
    (∃ v : Word, (∀ i, v.getLsbD i = (a.getLsbD i || f.imm.getLsbD i)) ∧ puts (.ori c f) v) ∧
    (∃ v : Word, (∀ i, v.getLsbD i = (a.getLsbD i ^^ f.imm.getLsbD i)) ∧ puts (.xori c f) v) ∧
    (f.rs = 0#5 → ∃ v : Word, v.toNat = f.imm.toNat * 65536 ∧ puts (.lui c f) v) ∧
    (f.imm.toNat < 1024 → p + w ≤ 32 →
      (∃ v : Word, v.toNat = a.toNat / 2 ^ p % 2 ^ w ∧ puts (.extu c f) v) ∧
      (∃ v : Word, v.toInt = Int.bmod (a.toNat / 2 ^ p : Nat) (2 ^ w) ∧ puts (.exts c f) v) ∧
      (∃ v : Word, (∀ i, v.getLsbD i = if p ≤ i ∧ i < p + w then a.getLsbD (i - p) else d.getLsbD i) ∧ puts (.ins c f) v)) ∧
    (f.imm.toNat < 1024 → 32 < p + w → ∀ i ∈ [Instr.extu c f, Instr.exts c f, Instr.ins c f], ∃ v : Word,
      exec i s = .next ({ s with free := s.free + 1 }.setCore c.master ((k.w f.rd.toNat v).retire c 1)))

/-- Tables 11.5, 11.6: the instructions marked SAT write the exact result held in 32 bits, and say so. -/
def Sys2Proof.Claims.SaturatingResults : Prop :=
  ∀ (s : State) (c : CoreId) (f : FormA), Running s c →
    let k := s.core c.master
    let a := (k.r f.rs.toNat).toInt
    let w := k.r f.rt.toNat
    let b := w.toInt
    let d := (k.r f.rd.toNat).toInt
    let lu : Int := (w.toNat % 65536 : Nat)
    let hu : Int := (w.toNat / 65536 : Nat)
    let ls := Int.bmod w.toNat 65536
    let hs := b / 65536
    let puts := fun (i : Instr) (x : Int) => PutsHeld (exec i s) s c f.rd x
    let scaled := fun (i : Instr) (base x : Int) => ∃ y : Int, IsRound y x (2 ^ f.sh.toNat) ∧ puts i (base + y)
    puts (.adds c f) (a + b) ∧ puts (.subs c f) (a - b) ∧ puts (.abs c f) (a.natAbs : Int) ∧
    scaled (.accr c f) 0 (k.a (f.rt.toNat % 4)).toInt ∧
    scaled (.mulsLu c f) 0 (a * lu) ∧ scaled (.mulsHu c f) 0 (a * hu) ∧ scaled (.mulsLs c f) 0 (a * ls) ∧
    scaled (.mulsHs c f) 0 (a * hs) ∧
    scaled (.madLu c f) d (a * lu) ∧ scaled (.madHu c f) d (a * hu) ∧ scaled (.madLs c f) d (a * ls) ∧
    scaled (.madHs c f) d (a * hs) ∧ scaled (.mulw c f) 0 (a * b) ∧
    (let m := max b 0
     let y := max (-m) (min m a)
     ∃ v : Word, v.toInt = y ∧ exec (.lim c f) s =
       Retires s c 1 { (k.w f.rd.toNat v).told (decide (y ≠ a)) with n := decide (y < 0) }) ∧
    (let y := max 0 (min (max b 0) a)
     ∃ v : Word, v.toInt = y ∧ exec (.limu c f) s = Retires s c 1 ((k.w f.rd.toNat v).told (decide (y ≠ a))))

/-- Table 11.6: the accumulators, whose number is rd[1:0] with rd[4:2] zero. -/
def Sys2Proof.Claims.AccumulatorResults : Prop :=
  ∀ (s : State) (c : CoreId) (f : FormA), Running s c → f.rd.toNat < 4 →
    let k := s.core c.master
    let a := (k.r f.rs.toNat).toInt
    let b := (k.r f.rt.toNat).toInt
    let x := (k.a f.rd.toNat).toInt
    let held := fun (i : Instr) (y : Int) => ∃ w : BitVec 64, w.toInt = holdBits 64 y ∧
      exec i s = Retires s c 1 ((k.putA f.rd.toNat w).told (decide (holdBits 64 y ≠ y)))
    (∃ w : BitVec 64, w.toInt = a * b ∧ exec (.mula c f) s = Retires s c 1 (k.putA f.rd.toNat w)) ∧
    held (.maca c f) (x + a * b) ∧ held (.msua c f) (x - a * b) ∧
    (∃ w : BitVec 64, w.toInt = a * 2 ^ f.sh.toNat ∧ exec (.accw c f) s = Retires s c 1 (k.putA f.rd.toNat w)) ∧
    exec (.accz c f) s = Retires s c 1 (k.putA f.rd.toNat 0)

/-- Tables 11.5, 11.11: compares write flags alone; Z, N, C and V of a difference, Z and N of a conjunction. -/
def Sys2Proof.Claims.CompareFlags : Prop :=
  ∀ (s : State) (c : CoreId), Running s c →
    let k := s.core c.master
    let by32 := fun (a b : Word) => k.setFlags ⟨decide (a = b), (a - b).msb, decide (b.toNat ≤ a.toNat),
      decide (a.toInt - b.toInt < -2147483648 ∨ 2147483647 < a.toInt - b.toInt)⟩
    (∀ f : FormA, f.rd = 0#5 → exec (.cmp c f) s = Retires s c 1 (by32 (k.r f.rs.toNat) (k.r f.rt.toNat))) ∧
    (∀ f : FormB, f.rd = 0#5 → exec (.cmpi c f) s = Retires s c 1 (by32 (k.r f.rs.toNat) (f.imm.signExtend 32))) ∧
    (∀ f : FormA, f.rd = 0#5 → exec (.tst c f) s = Retires s c 1
      { k with z := decide (k.r f.rs.toNat &&& k.r f.rt.toNat = 0), n := (k.r f.rs.toNat &&& k.r f.rt.toNat).msb }) ∧
    (∀ f : FormA, c.kind ≠ .loop → f.rd = 0#5 → f.rs.toNat % 2 = 0 → f.rt.toNat % 2 = 0 →
      let p := k.pair f.rs.toNat
      let q := k.pair f.rt.toNat
      exec (.cmp64 c f) s = Retires s c 1 (k.setFlags ⟨decide (p = q), (p - q).msb, decide (q.toNat ≤ p.toNat),
        decide (p.toInt - q.toInt < -9223372036854775808 ∨ 9223372036854775807 < p.toInt - q.toInt)⟩))

/-- R238: g0 reads as zero, and ADD, XOR and SLL with g0 as destination change no register. -/
def Sys2Proof.Claims.GZeroReadsZero : Prop :=
  ∀ (s : State) (c : CoreId) (f : FormA), Running s c → f.rd = 0#5 →
    (∀ k : Core, k.r 0 = 0) ∧
    exec (.add c f) s = Retires s c 1 (s.core c.master) ∧ exec (.xor c f) s = Retires s c 1 (s.core c.master) ∧
    exec (.sll c f) s = Retires s c 1 (s.core c.master)

/-- Table 11.7: branches. A code above 0x10 is ILLEGAL; the offset counts words from the branch itself; BL and JR link. -/
def Sys2Proof.Claims.ControlFlow : Prop :=
  ∀ (s : State) (c : CoreId), Running s c →
    let k := s.core c.master
    let goes := fun (k1 : Core) (pc : Word) => Host.Outcome.next (s.setCore c.master (({ k1 with pc := pc } : Core).count c 1))
    (∀ (f : FormC) (go : Bool), k.cond5 f.cond.toNat = some go →
      (∃ pc : Word, (go = true → (pc.toNat : Int) = (k.pc.toNat + 4 * f.off.toInt) % 2 ^ 32) ∧ (go = false → pc = k.pc + 4) ∧
        exec (.b c f) s = goes k pc ∧
        exec (.bl c f) s = goes (if go then k.w 31 (k.pc + 4) else k) pc)) ∧
    (∀ f : FormA, exec (.jr c f) s = goes (k.w f.rd.toNat (k.pc + 4)) (k.r f.rs.toNat)) ∧
    (∀ f : FormC, (k.cond5 f.cond.toNat).isSome = decide (f.cond.toNat ≤ 0x10))

/-- R241: a form D instruction or a store whose condition is false does nothing and takes its normal cycles, and raises no
trap for its operands. -/
def Obligations.SuppressedInstructionsDoNothing : Prop :=
  ∀ (s : State) (c : CoreId), Running s c →
    let k := s.core c.master
    (∀ f : FormD, k.cond3 f.cond.toNat = false →
      (c.kind = .loop → ∀ i ∈ [Instr.smpe c f, Instr.smpd c f, Instr.smpwe c f, Instr.smpwd c f, Instr.acte c f,
          Instr.acth c f, Instr.cellx c f], exec i s = Retires s c 1 k) ∧
      (c.kind = .loop → f.rd.toNat < 2 → exec (.smpu c f) s = Retires s c 1 k) ∧
      (c.kind ≠ .loop → ∀ i ∈ [Instr.svc c f, Instr.mq c f, Instr.mrt c f, Instr.hwr c f], exec i s = Retires s c 1 k) ∧
      ∀ i ∈ [Instr.wait c f, Instr.evt c f, Instr.trap c f, Instr.mfs c f, Instr.mts c f, Instr.eret c f, Instr.fence c f],
        exec i s = Retires s c 1 k) ∧
    (∀ f : FormB, k.cond3 (f.imm.toNat / 8192) = false →
      (∀ i ∈ [Instr.stw c f, Instr.sth c f, Instr.stq c f], exec i s = Retires s c 1 k) ∧
      exec (.str c f) s = Retires s c (if c.kind = .loop then 1 else 2) k)

/-! ### Memory -/

/-- Table 11.7, R238, R254, R255: loads from a core's own data memory, little-endian, in the cycles of the table; nothing
else changes. -/
def Sys2Proof.Claims.LoadsFromOwnMemory : Prop :=
  ∀ (s : State) (c : CoreId) (f : FormB), Running s c → f.imm.toNat < 8192 →
    let k := s.core c.master
    let a := fun n => ((k.r f.rs.toNat).toNat + f.imm.toNat * n) % 2 ^ 32
    let rd := f.rd.toNat
    (∀ off, OwnData c (a 4) 4 off → a 4 % 4 = 0 →
      ∃ v : Word, v.toNat = leNat k.mem off 4 ∧ exec (.ldw c f) s = Retires s c 2 (k.w rd v)) ∧
    (∀ off, OwnData c (a 2) 2 off → a 2 % 2 = 0 →
      ∃ v : Word, v.toInt = Int.bmod (leNat k.mem off 2) 65536 ∧ exec (.ldh c f) s = Retires s c 2 (k.w rd v)) ∧
    (∀ off, rd % 4 = 0 → OwnData c (a 16) 16 off → a 16 % 16 = 0 →
      ∃ v : Nat → Word, (∀ i, i < 4 → (v i).toNat = leNat k.mem (off + 4 * i) 4) ∧ exec (.ldq c f) s =
        Retires s c 2 ((List.range 4).foldl (fun k i => k.w (rd + i) (v i)) k)) ∧
    (∀ off, rd % 8 = 0 → OwnData c (a 32) 32 off → a 32 % 32 = 0 →
      ∃ v : Nat → Word, (∀ i, i < 8 → (v i).toNat = leNat k.mem (off + 4 * i) 4) ∧ exec (.ldr c f) s =
        Retires s c (if c.kind = .loop then 2 else 3) ((List.range 8).foldl (fun k i => k.w (rd + i) (v i)) k))

/-- Table 11.7, R238, R241: a store whose condition holds, to a core's own data memory (in user mode outside the bitmaps). Its bytes alone
change, little-endian; on the active die with a ready standby what is stored is streamed (R317). -/
def Sys2Proof.Claims.StoresToOwnMemory : Prop :=
  ∀ (s : State) (c : CoreId) (f : FormB) (i : Instr) (n off : Nat), Running s c →
    (i, n) ∈ [(Instr.sth c f, 2), (.stw c f, 4), (.stq c f, 16), (.str c f, 32)] →
    let k := s.core c.master
    let a := ((k.r f.rs.toNat).toNat + f.imm.toNat % 8192 * n) % 2 ^ 32
    k.cond3 (f.imm.toNat / 8192) = true → f.rd.toNat % max 1 (n / 4) = 0 →
    (k.user = true → c.kind = .loop → ¬(0x1600 ≤ a ∧ a < 0x1800)) → a % n = 0 → OwnData c a n off →
    ∃ t, exec i s = .next t ∧
      (∀ x, ((t.core c.master).mem.get (fun _ => 0) x).toNat =
        if off ≤ x ∧ x < off + n then (k.r (f.rd.toNat + (x - off) / 4)).toNat / 256 ^ ((x - off) % 4) % 256
        else (k.mem.get (fun _ => 0) x).toNat) ∧
      { t.core c.master with mem := k.mem } = k.retire c (if n = 32 ∧ c.kind ≠ .loop then 2 else 1) ∧
      (∀ id, id ≠ c.master → t.core id = s.core id) ∧
      { t with cores := s.cores, cd := { t.cd with stream := s.cd.stream } } = s ∧
      (¬(c.die = s.activeDie ∧ s.standbyReady = true) → t.cd.stream = s.cd.stream)

/-- Clauses of R255, Table 11.16: a schedule or management core in firmware mode loads and stores words of the shared SRAM of its die.
How long the bus takes beyond the table's cycles is not stated, so a free number. -/
def Sys2Proof.Claims.SharedSramWords : Prop :=
  ∀ (s : State) (c : CoreId) (f : FormB), Running s c → c.kind ≠ .loop →
    let k := s.core c.master
    let a := ((k.r f.rs.toNat).toNat + f.imm.toNat % 8192 * 4) % 2 ^ 32
    let u := a - 0x10000000 + 0x1000000 * c.die.code
    k.user = false → 0x10000000 ≤ a → a < 0x11000000 → a % 4 = 0 →
    (f.imm.toNat < 8192 → ∃ (v : Word) (n : Nat), v.toNat = leNat s.bus.sram u 4 ∧
      exec (.ldw c f) s = .next ({ s with free := s.free + 1 }.setCore c.master ((k.w f.rd.toNat v).retire c (2 + n)))) ∧
    (k.cond3 (f.imm.toNat / 8192) = true → ∃ t n, exec (.stw c f) s = .next t ∧
      t.core c.master = k.retire c (1 + n) ∧ leNat t.bus.sram u 4 = (k.r f.rd.toNat).toNat ∧
      (∀ x, ¬(u ≤ x ∧ x < u + 4) → t.bus.sram.get (fun _ => 0) x = s.bus.sram.get (fun _ => 0) x) ∧
      (∀ id, id ≠ c.master → t.core id = s.core id) ∧ t.regs = s.regs)

/-- Tables 11.14 to 11.16: a misaligned access traps with ALIGN, and one outside the windows of the core's mode, or a store to
a read-only window, with WINDOW; TVAL holds the address. -/
def Sys2Proof.Claims.AddressTraps : Prop :=
  ∀ (s : State) (c : CoreId) (f : FormB) (i : Instr) (n : Nat) (store : Bool), Running s c →
    (i, n, store) ∈ [(Instr.ldw c f, 4, false), (.ldh c f, 2, false), (.ldq c f, 16, false), (.ldr c f, 32, false),
      (.stw c f, 4, true), (.sth c f, 2, true), (.stq c f, 16, true), (.str c f, 32, true)] →
    let k := s.core c.master
    let a := ((k.r f.rs.toNat).toNat + f.imm.toNat % 8192 * n) % 2 ^ 32
    f.rd.toNat % max 1 (n / 4) = 0 → (if store then k.cond3 (f.imm.toNat / 8192) = true else f.imm.toNat < 8192) →
    k.inTrap = false →
    let traps := fun cause => exec i s = .next (Trapped s c (k.enter cause 0 (BitVec.ofNat 32 a)))
    (a % n ≠ 0 → traps 3) ∧
    (a % n = 0 → c.kind = .loop → 0x14060 ≤ a → a < 0x14080 ∨ (0x140E0 ≤ a ∧ a < 0x1000000) ∨ (0x1480000 ≤ a ∧ a < 0x2000000) ∨
      0x3800000 ≤ a → traps 4) ∧
    (a % n = 0 → c.kind = .loop → store = false → 0x1000000 ≤ a → a < 0x1480000 → traps 4) ∧
    (a % n = 0 → c.kind = .loop → store = true → (0x10000 ≤ a ∧ a < 0x14060) ∨ (0x2000000 ≤ a ∧ a < 0x3800000) → traps 4) ∧
    (a % n = 0 → c.kind = .loop → store = true → k.user = true → 0x1600 ≤ a → a < 0x1800 → traps 4) ∧
    (a % n = 0 → c.kind = .loop → store = false → k.user = true → 0x2000000 ≤ a → a < 0x3800000 → traps 4) ∧
    (a % n = 0 → c.kind ≠ .loop → k.user = true → 0x40000000 ≤ a → a < 0x41000000 → traps 4) ∧
    (a % n = 0 → c.kind ≠ .loop → 0x68000000 ≤ a → a < 0x70000000 ∨ 0x74000000 ≤ a → traps 4)

/-! ### The loop group -/

/-- Table 11.8, clauses of R243: the loop group over the record image in g8 to g15 (R243). round, clamp and saturation are those of R239;
`g` and `gs` read a field of Table 05.3 by its word and bits, unsigned and signed. -/
def Sys2Proof.Claims.LoopArithmetic : Prop :=
  ∀ (s : State) (c : CoreId) (f : FormA), Running s c → c.kind = .loop →
    let k := s.core c.master
    let g := fun (i lo w : Nat) => (k.r (8 + i)).toNat / 2 ^ lo % 2 ^ w
    let gs := fun (i lo w : Nat) => Int.bmod (g i lo w) (2 ^ w)
    let e := (k.r f.rs.toNat).toInt
    let t := (k.r f.rt.toNat).toInt
    let d := k.r f.rd.toNat
    let cur := g 0 23 1
    let sp := gs 2 (16 * cur) 16
    let int := gs 4 (16 * cur) 16
    let lim : Int := 16 * g 3 8 12
    let puts := fun (i : Instr) (x : Int) => exec i s = Retires s c 1 (k.w f.rd.toNat (BitVec.ofInt 32 x))
    (∃ y, IsRound y ((e - sp) * g 6 0 16) 1024 ∧ puts (.errs c f) (if k.c then holdBits 32 y else 0)) ∧
    (∃ y, IsRound y (e * g 1 16 16) 65536 ∧ puts (.pia c f) (int + y)) ∧
    (∃ y, IsRound y (e * g 1 0 16) 4096 ∧
      puts (.pip c f) (t + y + if g 0 13 1 = 1 then 16 * gs 3 20 12 * g 0 9 2 else 0)) ∧
    (let x := max (-lim) (min lim e)
     exec (.limt c f) s =
       Retires s c 1 { (k.w f.rd.toNat (BitVec.ofInt 32 x)).told (decide (x ≠ e)) with n := decide (x < 0) }) ∧
    (exec (.awr c f) s = Retires s c 1
      (k.w f.rd.toNat (if k.sat = true ∧ e ≠ 0 ∧ (e < 0 ↔ k.n = true) then BitVec.ofInt 32 int else d))) ∧
    (∃ y : Int, y.natAbs = int.natAbs / 2 ^ g 0 14 3 ∧ (int < 0 → y ≤ 0) ∧ (0 ≤ int → 0 ≤ y) ∧ puts (.bld c f) y) ∧
    (∃ y, IsRound y ((g 5 0 16 : Int) * e) 65536 ∧
      puts (.rail c f) (max 0 (min (g 5 16 16) (if g 0 11 1 = 1 then y else g 5 0 16)))) ∧
    (f.rd = 0#5 → g 3 8 12 ≤ 2047 → ∃ w : Word, ImageOnly s c (.iput c f) (fun i => if i = 12 then w else k.r i) k ∧
      Int.bmod (w.toNat / 2 ^ (16 * cur)) 65536 = max (-lim) (min lim e) ∧
      w.toNat / 2 ^ (16 * (1 - cur)) % 65536 = g 4 (16 * (1 - cur)) 16) ∧
    (if 0 ≤ t ∧ t ≤ g 5 16 16 then
      ∃ w h : Word, ImageOnly s c (.bapp c f) (fun i => if i = 12 then w else if i = 13 then h else k.r i) k ∧
        Int.bmod (w.toNat % 65536) 65536 = holdBits 16 (gs 4 0 16 - e) ∧
        Int.bmod (w.toNat / 65536) 65536 = holdBits 16 (gs 4 16 16 - e) ∧
        (h.toNat : Int) = g 5 16 16 * 65536 + t
    else ImageOnly s c (.bapp c f) k.r k)

/-- R244 as arithmetic on the fields it names: the new fields and the cause reported, 0 for none. -/
def lockRule (m : LockFields) (usable : Bool) (e : Int) (starve lockTo : Nat) (tick : Bool) : LockFields × Nat :=
  let bad := Nat.min (m.bad + 1) 255
  let starved := !usable && starve != 0 && decide (m.bad < starve) && bad == starve
  let inwin := decide (e.natAbs ≤ 16 * m.win)
  let cnt := if m.state = 1 ∧ inwin = true ∨ m.state = 2 ∧ inwin = false then m.cnt + 1 else 0
  let up := decide (m.state = 1) && decide (cnt = 32)
  let loss := decide (m.state = 2) && decide (cnt = 4)
  let pinned := e ≠ 0 ∧ m.trim = e.sign * m.lim ∧ m.htr = if 0 < e then m.hmax else 0
  let pin := if pinned then Nat.min (m.pin + 1) 15 else 0
  let m1 : LockFields :=
    if usable then
      { m with bad := 0, pin := pin, lt := if loss then 0 else m.lt
               state := if pin = 15 then 5 else if up then 2 else if loss then 1 else m.state
               cnt := if up || loss then 0 else if m.state = 1 ∨ m.state = 2 then cnt % 64 else m.cnt }
    else { m with bad := bad }
  let ticks := tick && decide (m1.state = 1)
  let lt := if ticks then Nat.min (m1.lt + 1) 15 else m1.lt
  let out := ticks && lockTo != 0 && lt == lockTo
  ({ m1 with lt := lt, state := if out then 5 else m1.state },
   if usable && pin == 15 then 3 else if out then 2 else if usable && loss then 1 else if starved then 4 else 0)

/-- Clauses of R244: LOCK on the record image. With Z = 1 it clears V and N alone. Otherwise the fields STATE, LOCK_CNT, BAD, PIN and LT
follow the rule, the rest of the image stays, rd and the flags report the cause. -/
def Sys2Proof.Claims.LockBookkeeping : Prop :=
  ∀ (s : State) (c : CoreId) (f : FormA), Running s c → c.kind = .loop →
    let k := s.core c.master
    let w := (k.r f.rt.toNat).toNat
    let (m, cause) := lockRule (lockFields k.r) k.c (k.r f.rs.toNat).toInt (w % 256) (w / 4096 % 16) (w / 256 % 2 == 1)
    (k.z = true → exec (.lock c f) s = Retires s c 1 { k with v := false, n := false }) ∧
    (k.z = false → ∃ (r : Nat → Word), lockFields r = m ∧
      (∀ i, i ≠ 8 → i ≠ 15 → r i = k.r i) ∧
      (∀ b, 9 ≤ b → b < 24 → ¬(17 ≤ b ∧ b ≤ 20) → (r 8).getLsbD b = (k.r 8).getLsbD b) ∧
      (∀ b, b < 12 ∨ 16 ≤ b → (r 15).getLsbD b = (k.r 15).getLsbD b) ∧
      ∃ k', exec (.lock c f) s = Retires s c 1 k' ∧
        { k' with g := k.g } = { k with v := cause == 1 || cause == 4, n := cause == 3 || cause == 2 } ∧
        ∀ i, k'.r i = if i = f.rd.toNat ∧ i ≠ 0 then (if cause = 0 then 0 else BitVec.ofNat 32 (m.state * 65536 + cause * 1048576)) else r i)

/-- R245: LIVE sets Z for a loop that is not to be computed, and nothing else; imm[15:5] other than zero is ILLEGAL (R240). -/
def Obligations.LiveFlag : Prop :=
  ∀ (s : State) (c : CoreId) (f : FormB), Running s c → c.kind = .loop →
    let k := s.core c.master
    let st := (k.r 8).toNat % 8
    (f.imm.toNat < 32 → exec (.live c f) s =
      Retires s c 1 { k with z := decide ((st ≠ 1 ∧ st ≠ 2) ∨ (k.r f.rs.toNat).getLsbD f.imm.toNat = true) }) ∧
    (32 ≤ f.imm.toNat → k.inTrap = false → exec (.live c f) s = .next (s.setCore c.master (k.enter 1 0
      (BitVec.ofNat 32 (0x0D * 2 ^ 26 + f.rd.toNat * 2 ^ 21 + f.rs.toNat * 2 ^ 16 + f.imm.toNat)))))

/-! ### Tile I/O -/

/-- Clauses of R246, R248, Table 11.9: sample reads and CELLX on a loop core that serves a flask, from the bank FSEQ names. -/
def Sys2Proof.Claims.TileReads : Prop :=
  ∀ (s : State) (c : CoreId) (f : FormD) (fl : Nat), Running s c → c.kind = .loop →
    s.servedFlask c.n.val = some fl →
    let k := s.core c.master
    let x := ((k.r f.rs.toNat).toNat + f.index.toNat) % 2 ^ 32
    let bank := if k.fseq.getLsbD 16 then k.bank1 else k.bank0
    let cells := if k.fseq.getLsbD 16 then k.cells1 else k.cells0
    let bar := fun (j : Nat) => decide (j < 322) && ((cells.getD (j / 16) 0).toNat / 4 ^ (j % 16) % 4 == 0)
    k.cond3 f.cond.toNat = true →
    (x < 718 → ∀ (i : Instr) (dc : Bool), (i, dc) ∈ [(Instr.smpe c f, false), (.smpd c f, true)] →
      let w := bank.getD (frameWordOf x dc) 0
      exec i s = Retires s c 1 { k.w f.rd.toNat ((w.setWidth 16).signExtend 32) with c := decide (w.toNat / 65536 % 16 = 0) }) ∧
    (x < 718 → ∀ (i : Instr) (dc : Bool), (i, dc) ∈ [(Instr.smpwe c f, false), (.smpwd c f, true)] →
      exec i s = Retires s c 1 (k.w f.rd.toNat (bank.getD (frameWordOf x dc) 0))) ∧
    (x < 644 → k.user = false → ∃ w : Word, ImageOnly s c (.cellx c f) (fun i => if i = 8 then w else k.r i) k ∧
      (∀ b, b ≠ 9 → b ≠ 10 → b ≠ 23 → w.getLsbD b = (k.r 8).getLsbD b) ∧
      w.getLsbD 23 = ((k.r 8).getLsbD 12 && bar (x / 2)) ∧
      w.toNat / 512 % 4 = (if (k.r 8).getLsbD 21 ∧ 2 ≤ x ∧ bar (x / 2 - 1) = true then 1 else 0) +
        (if (k.r 8).getLsbD 22 ∧ bar (x / 2 + 1) = true then 1 else 0)) ∧
    (k.inTrap = false → 718 ≤ x →
      ∀ i ∈ [Instr.smpe c f, .smpd c f, .smpwe c f, .smpwd c f, .acte c f, .acth c f, .cellx c f],
        exec i s = .next (s.setCore c.master (k.enter 5 0 0)))

/-- Clauses of R246, R91, Table 11.9: ACTE and ACTH of a core that serves a flask: the instruction retires, and its value reaches the
channel of the flask's tile as an actuator write of the core's die, unless the loop engine discards the core's writes. -/
def Sys2Proof.Claims.ActuatorInstructions : Prop :=
  ∀ (s : State) (c : CoreId) (f : FormD) (fl : Nat) (i : Instr) (heater : Bool), Running s c →
    c.kind = .loop → s.servedFlask c.n.val = some fl →
    (i, heater) ∈ [(Instr.acte c f, false), (.acth c f, true)] →
    let k := s.core c.master
    let x := ((k.r f.rs.toNat).toNat + f.index.toNat) % 2 ^ 32
    let s1 := s.setCore c.master (k.retire c 1)
    let inside := [0, 171, 341, 511].getD (fl % 4) 0 ≤ x ∧ x < [171, 341, 511, 681].getD (fl % 4) 0
    k.cond3 f.cond.toNat = true → (heater = false → x < 644) →
    (∀ ch : Fin 681, ch.val = x → (k.user = true → inside) →
      exec i s = if s.fld (F.loopFlaskMapCore fl) = c.n.val
        then exec (.actuatorWrite c.die ⟨fl / 4 % 16, Nat.mod_lt _ (by decide)⟩ heater ch (k.r f.rd.toNat).toInt) s1
        else .next s1) ∧
    (k.inTrap = false → k.user = true → x < 681 → ¬inside → exec i s = .next (s.setCore c.master (k.enter 5 0 0)))

/-- Clauses of R247, Table 11.9: SMPU on a core that serves a flask: refused with C = 0 while a request is outstanding or by the tile, as
in KEEP; taken with C = 1 and URES[31] = 1 otherwise, at the end of its channel's queue, where no calibration or host request reached
the tile at the same edge (R78). -/
def Sys2Proof.Claims.UrgentRequestByCore : Prop :=
  ∀ (s : State) (c : CoreId) (f : FormD) (fl : Nat), Running s c → c.kind = .loop →
    s.servedFlask c.n.val = some fl →
    let k := s.core c.master
    let x := ((k.r f.rs.toNat).toNat + f.index.toNat) % 2 ^ 32
    let tl := fl / 4
    let ch := s.channelFor tl x
    let edge := (s.time.net + 4) / 5 * 5
    (∀ w ∈ ((s.tile tl).chan ch).urgent, w.who ≠ 0 → w.arrived ≠ edge) →
    k.cond3 f.cond.toNat = true → f.rd.toNat < 2 → x < 718 →
    (k.ures.getLsbD 31 = true → exec (.smpu c f) s = Retires s c 1 { k with c := false }) ∧
    (k.ures.getLsbD 31 = false → s.dev = 0 → ∃ t, exec (.smpu c f) s = .next t ∧ t.core c.master = ({ k with c := false } : Core).retire c 1 ∧
      t.fld (F.tileErrCountsUrgRef tl) = Nat.min 255 (s.fld (F.tileErrCountsUrgRef tl) + 1) ∧ t.tiles = s.tiles) ∧
    (k.ures.getLsbD 31 = false → s.dev ≠ 0 → s.flag (F.tileStatusZero tl) = false → ((s.tile tl).chan ch).urgent.length < 4 →
      ∃ t, exec (.smpu c f) s = .next t ∧
        t.core c.master = ({ k with c := true, ures := k.ures ||| 0x80000000#32 } : Core).retire c 1 ∧
        ((t.tile tl).chan ch).urgent =
          ((s.tile tl).chan ch).urgent ++ [{ mon := x, dc := f.rd.toNat == 1, who := 0, core := c.master, arrived := edge }] ∧
        t.regs = s.regs ∧ (∀ u, u ≠ tl → t.tile u = s.tile u) ∧ (∀ id, id ≠ c.master → t.core id = s.core id))

/-! ### Waiting, events, traps, system registers -/

/-- Clauses of R249, R258, Table 11.10: WAIT. A loop core that serves no flask, or that has served the newest frame of its tile, sleeps;
one that comes 200 ns or more after a newer frame's boundary serves that frame at once; on the active die the pass that it ends is
reported (R95). A schedule or management core returns at once when an enabled source is pending, with WAKE naming the sources, and sleeps
otherwise. -/
def Sys2Proof.Claims.Waiting : Prop :=
  ∀ (s : State) (c : CoreId) (f : FormD), Running s c →
    let k := s.core c.master
    let r := k.retire c 1
    let src := k.pendWake &&& (k.wakeEn.toNat % 64)
    let told := fun (fl : Nat) =>
      if c.die = s.activeDie ∧ ¬(k.netNs = 0 ∧ k.netSec = 0) then s.passEnds c.n.val fl k.cycle else s
    k.cond3 f.cond.toNat = true →
    (c.kind = .loop → s.servedFlask c.n.val = none →
      exec (.wait c f) s = .next (s.setCore c.master { r with asleep := true })) ∧
    (∀ fl, c.kind = .loop → s.servedFlask c.n.val = some fl → k.netNs.toNat = (s.tile (fl / 4)).frameAt % 1000000000 →
      k.netSec.toNat = (s.tile (fl / 4)).frameAt / 1000000000 % 2 ^ 32 →
      exec (.wait c f) s = .next ((told fl).setCore c.master { r with asleep := true })) ∧
    (c.kind ≠ .loop → src = 0 → exec (.wait c f) s = .next (s.setCore c.master { r with wake := 0, asleep := true })) ∧
    (c.kind ≠ .loop → src ≠ 0 → exec (.wait c f) s = .next (s.setCore c.master
      { r with wake := BitVec.ofNat 32 src, pendWake := k.pendWake - src, asleep := false })) ∧
    (∀ fl, c.kind = .loop → s.servedFlask c.n.val = some fl →
      let x := s.tile (fl / 4)
      (k.netNs.toNat ≠ x.frameAt % 1000000000 ∨ k.netSec.toNat ≠ x.frameAt / 1000000000 % 2 ^ 32) → x.frameAt + 200 ≤ s.time.net ∨ s.time.net < x.frameAt →
      ∃ q : Word, q.toNat % 65536 = (x.seq + 65535) % 65536 ∧ q.getLsbD 16 = q.getLsbD 0 ∧
        exec (.wait c f) s = .next ((told fl).setCore c.master
          { r with asleep := false, cycle := 0, netNs := BitVec.ofNat 32 (x.frameAt % 1000000000), netSec := BitVec.ofNat 32 (x.frameAt / 1000000000), fseq := q }))

/-- Clauses of R258, Table 11.12: a sleeping schedule or management core wakes when an enabled source is pending; TIMER reaching zero is
one. -/
def Sys2Proof.Claims.Waking : Prop :=
  ∀ (s : State) (c : CoreId), c.kind ≠ .loop → s.clocked c = true →
    let k := s.core c.master
    let src := k.pendWake &&& (k.wakeEn.toNat % 64)
    (k.asleep = true → k.halted = false → src ≠ 0 → exec (.waitsWake c) s = .next (s.setCore c.master
      { k with asleep := false, wake := BitVec.ofNat 32 src, pendWake := k.pendWake - src })) ∧
    (s.time.now ≤ k.timer → k.timer ≠ 0 → ∃ t, exec (.coreTimerExpire c) s = .next t ∧ t.time.now = k.timer ∧
      t.core c.master = { k with timer := 0, pendWake := k.pendWake ||| 8 } ∧
      (∀ id, id ≠ c.master → t.core id = s.core id) ∧ { t with cores := s.cores, time := s.time, moulds := s.moulds } = s ∧
      { t.moulds with staged := s.moulds.staged } = s.moulds)

/-- Clauses of R251, Table 11.13: EVT posts rd with the class and the source its selector names, kind 0 except for LOOP; any other
selector, and in user mode classes above 2 and selectors CORE and CAL, trap with PRIV. A standby die's core raises nothing
(R320). -/
def Sys2Proof.Claims.PostedEvents : Prop :=
  ∀ (s : State) (c : CoreId) (f : FormD) (sel cls : Nat), Running s c →
    let k := s.core c.master
    k.cond3 f.cond.toNat = true → ((k.r f.rs.toNat).toNat + f.index.toNat) % 1024 = 8 * sel + cls → cls ≤ 4 →
    let w := k.r f.rd.toNat
    (∀ src kind, (sel, src, kind) ∈ [(1, 0xA00, w.toNat / 2 ^ 20 % 16), (2, 0x4000 + c.master, 0), (3, 0x602, 0), (4, 0xC00, 0),
        (0x10, 0x5000 + c.master, 0), (0x11, 0x5100 + c.master, 0), (0x12, 0x5200 + c.master, 0), (0x13, 0x5300 + c.master, 0)] →
      (k.user = true → cls ≤ 2 ∧ sel ≠ 2 ∧ sel ≠ 4) →
      exec (.evt c f) s = .next (if c.die = s.activeDie then (s.setCore c.master (k.retire c 1)).raise src cls kind w
        else s.setCore c.master (k.retire c 1))) ∧
    (k.inTrap = false → sel ∉ [1, 2, 3, 4, 0x10, 0x11, 0x12, 0x13] ∨ k.user = true ∧ (2 < cls ∨ sel = 2 ∨ sel = 4) →
      exec (.evt c f) s = .next (Trapped s c (k.enter 2 0 0)))

/-- Clauses of R253, Table 11.10: TRAP and SVC of a core outside a trap handler: EPC, CAUSE and TVAL, the mode left, firmware mode, TH, and
the entry 0x20 or 0x30; TRAP in a handler halts the core. ERET in firmware mode restores the pc and the mode and clears TH;
in user mode it traps with PRIV. On a schedule core of the active die a trap abandons the running decomposition, which is the library's
handler (R253; the model's choice of the instant, log 17). -/
def Sys2Proof.Claims.TrapEntryAndReturn : Prop :=
  ∀ (s : State) (c : CoreId) (f : FormD), Running s c →
    let k := s.core c.master
    let n := ((k.r f.rs.toNat).toNat + f.index.toNat) % 2 ^ 32
    k.cond3 f.cond.toNat = true →
    (k.inTrap = false → exec (.trap c f) s = .next (Trapped s c
      { k.count c 1 with epc := k.pc, cause := BitVec.ofNat 32 (6 + n % 65536 * 65536), tval := 0, prevUser := k.user, inTrap := true,
                         user := false, pc := 0x20 })) ∧
    (k.inTrap = false → c.kind ≠ .loop → 1 ≤ n → n ≤ 6 → exec (.svc c f) s = .next (s.setCore c.master
      { k.count c 1 with epc := k.pc, cause := BitVec.ofNat 32 (7 + n * 65536), tval := 0, prevUser := k.user, inTrap := true,
                         user := false, pc := 0x30 })) ∧
    (k.inTrap = false → c.kind ≠ .loop → n = 0 ∨ 6 < n → exec (.svc c f) s = .next (s.setCore c.master
      { (k.count c 1).w 1 0xFFFFFFFF with
          epc := k.pc, cause := BitVec.ofNat 32 (7 + n % 65536 * 65536), tval := 0, prevUser := k.user, c := false
          pc := k.pc + 4 })) ∧
    (k.inTrap = true → exec (.trap c f) s = .next (
      let t := s.setCore c.master { k.count c 1 with halted := true }
      if c.die = s.activeDie then t.raise (0x4000 + c.master) 2 0 (BitVec.ofNat 32 (c.index + 0x600)) else t)) ∧
    (k.user = false → exec (.eret c f) s = .next (s.setCore c.master
      { k.count c 1 with pc := k.epc, user := k.prevUser, inTrap := false })) ∧
    (k.user = true → k.inTrap = false → exec (.eret c f) s = .next (Trapped s c (k.enter 2 0 0))) ∧
    (∀ k' : Core, if c.kind = .schedule ∧ c.die = s.activeDie ∧ s.heats.decomposing = true then
        ∃ (t : State) (w : Word), Trapped s c k' = t.raise 0x602 1 0 w ∧ t.heats.decomposing = false ∧ t.heats.decomp = none ∧
          t.core c.master = k' ∧ t.regs = s.regs ∧ t.events = s.events
      else Trapped s c k' = s.setCore c.master k')

/-- Clauses of R237, Table 11.10: FENCE retires; on a loop core within 33 cycles. How long it waits is not stated, so a free number. -/
def Sys2Proof.Claims.FenceRetires : Prop :=
  ∀ (s : State) (c : CoreId) (f : FormD), Running s c → (s.core c.master).cond3 f.cond.toNat = true →
    ∃ n, 1 ≤ n ∧ (c.kind = .loop → n ≤ 33) ∧
      exec (.fence c f) s = .next ({ s with free := s.free + 1 }.setCore c.master ((s.core c.master).retire c n))

/-- Table 11.12, R252: MFS reads the system registers, in user mode zero from a privileged one; on a schedule or management
core a read of NETF_NS latches NETF_SEC. Reserved ones read zero. -/
def Sys2Proof.Claims.SystemRegisterReads : Prop :=
  ∀ (s : State) (c : CoreId) (f : FormD), Running s c →
    let k := s.core c.master
    let n := ((k.r f.rs.toNat).toNat + f.index.toNat) % 2 ^ 32
    let L := c.kind = .loop
    k.cond3 f.cond.toNat = true →
    let reads := fun (v : Word) => exec (.mfs c f) s = Retires s c 1 (k.w f.rd.toNat v)
    (n = 0 → ∃ v : Word, v.toNat = c.index + 128 * (if L then 0 else if c.kind = .schedule then 1 else 2) + 512 * c.die.code +
      (if c.die = s.activeDie then 1024 else 0) ∧ reads v) ∧
    (n = 8 → L → s.servedFlask c.n.val = none → reads 0x7F) ∧
    (n = 15 → ¬L → ∃ v : Word, v.toNat = (if k.timer = 0 then 0 else (k.timer - s.time.now + 9) / 10) % 2 ^ 32 ∧ reads v) ∧
    (n = 1 → ∃ v : Word, v.toNat = (if k.user then 1 else 0) + (if k.prevUser then 2 else 0) + (if k.inTrap then 4 else 0) ∧ reads v) ∧
    (n = 2 → ∃ v : Word, reads v ∧ ∀ b, v.getLsbD b = match b with
      | 0 => k.z | 1 => k.n | 2 => k.c | 3 => k.v | 4 => k.sat | 8 => k.sats | _ => false) ∧
    (n = 3 → reads (if k.user then 0 else k.epc)) ∧ (n = 4 → reads k.cause) ∧ (n = 5 → reads k.tval) ∧
    (n = 6 → reads (BitVec.ofNat 32 k.cycle)) ∧
    (n = 7 → reads (if L then k.fseq else 0)) ∧ (n = 9 → reads (if L then k.ures else 0)) ∧
    (n = 10 → reads (if L then k.lctrl else 0)) ∧ (n = 11 → L → reads k.netNs) ∧
    (n = 11 → ¬L → exec (.mfs c f) s = Retires s c 1
      ({ k with netSec := BitVec.ofNat 32 (s.time.net / 1000000000) }.w f.rd.toNat (BitVec.ofNat 32 (s.time.net % 1000000000)))) ∧
    (n = 12 → reads k.netSec) ∧ (n = 13 → reads (if L then 0 else k.wakeEn)) ∧ (n = 14 → reads (if L then 0 else k.wake)) ∧
    (16 ≤ n → n ≤ 31 → reads (if k.user then 0 else k.scratch.get (fun _ => 0) n)) ∧ (32 ≤ n → n ≤ 63 → reads 0)

/-- Table 11.12, R252: MTS writes the writable fields of a system register; read-only and reserved ones keep their value, and so does
MODE of a management core, which runs firmware mode only; in
user mode a privileged one, MODE among them, traps with PRIV. -/
def Sys2Proof.Claims.SystemRegisterWrites : Prop :=
  ∀ (s : State) (c : CoreId) (f : FormD), Running s c →
    let k := s.core c.master
    let n := f.index.toNat
    let v := k.r f.rs.toNat
    k.cond3 f.cond.toNat = true →
    let leaves := fun (k' : Core) => exec (.mts c f) s = Retires s c 1 k'
    (n = 1 → k.user = false → leaves (if c.kind = .management then k else { k with user := v.getLsbD 0, prevUser := v.getLsbD 1 })) ∧
    (n = 2 → leaves { k.setFlags ⟨v.getLsbD 0, v.getLsbD 1, v.getLsbD 2, v.getLsbD 3⟩ with sat := v.getLsbD 4, sats := v.getLsbD 8 }) ∧
    (n = 3 → k.user = false → leaves { k with epc := v }) ∧
    (n = 13 → c.kind ≠ .loop → leaves { k with wakeEn := BitVec.ofNat 32 (v.toNat % 64) }) ∧
    (n = 15 → c.kind ≠ .loop → leaves { k with timer := if v.toNat = 0 then 0 else s.time.now + 10 * v.toNat }) ∧
    (16 ≤ n → n ≤ 31 → k.user = false → leaves { k with scratch := k.scratch.set (fun _ => 0) n v }) ∧
    (n ∈ [0, 4, 5, 6, 7, 8, 9, 10, 11, 12, 14] ∨ 32 ≤ n ∧ n ≤ 63 ∨ c.kind = .loop ∧ (n = 13 ∨ n = 15) → leaves k) ∧
    (k.user = true → k.inTrap = false → n = 1 ∨ n = 3 ∨ 16 ≤ n ∧ n ≤ 31 →
      exec (.mts c f) s = .next (Trapped s c (k.enter 2 0 0)))

/-! ### Cloby-S -/

/-- Table 11.11: division towards zero with V for rt = 0 and for overflow; 4 to 20 cycles, how many is not stated and so free.
What V says of a remainder whose quotient overflows is the model's choice (log 95) and left out here. -/
def Sys2Proof.Claims.DivisionResults : Prop :=
  ∀ (s : State) (c : CoreId) (f : FormA), Running s c → c.kind ≠ .loop →
    let k := s.core c.master
    let a := k.r f.rs.toNat
    let b := k.r f.rt.toNat
    let puts := fun (i : Instr) (v : Word) (o : Bool) => ∃ n, 4 ≤ n ∧ n ≤ 20 ∧
      exec i s = .next ({ s with free := s.free + 1 }.setCore c.master (({ k.w f.rd.toNat v with v := o } : Core).retire c n))
    (b = 0 → puts (.div c f) 0xFFFFFFFF true ∧ puts (.divu c f) 0xFFFFFFFF true ∧ puts (.rem c f) a true ∧ puts (.remu c f) a true) ∧
    (b ≠ 0 → (∃ v : Word, v.toNat = a.toNat / b.toNat ∧ puts (.divu c f) v false) ∧
      (∃ v : Word, v.toNat = a.toNat % b.toNat ∧ puts (.remu c f) v false)) ∧
    (b ≠ 0 → ¬(a = 0x80000000 ∧ b = 0xFFFFFFFF) →
      ∃ q r : Word, puts (.div c f) q false ∧ puts (.rem c f) r false ∧ a.toInt = q.toInt * b.toInt + r.toInt ∧
        r.toInt.natAbs < b.toInt.natAbs ∧ (0 ≤ a.toInt → 0 ≤ r.toInt) ∧ (a.toInt < 0 → r.toInt ≤ 0)) ∧
    (a = 0x80000000 → b = 0xFFFFFFFF → puts (.div c f) 0x80000000 true)

/-- Table 11.11, R250: 64-bit pairs, the low word in the register named; g0 as a source reads zero, and as a destination traps
with ILLEGAL. -/
def Sys2Proof.Claims.PairResults : Prop :=
  ∀ (s : State) (c : CoreId) (f : FormA), Running s c → c.kind ≠ .loop →
    let k := s.core c.master
    let p := fun (r : BitVec 5) => if r = 0#5 then 0 else (k.r r.toNat).toNat + 2 ^ 32 * (k.r (r.toNat + 1)).toNat
    let a := p f.rs
    let b := p f.rt
    let sg := fun (x : Nat) => Int.bmod x (2 ^ 64)
    let n := f.sh.toNat
    let two := fun (x : Nat) => (k.w f.rd.toNat (BitVec.ofNat 32 x)).w (f.rd.toNat + 1) (BitVec.ofNat 32 (x / 2 ^ 32))
    let out := fun (x : Int) => decide (x < -9223372036854775808 ∨ 9223372036854775807 < x)
    (f.rd.toNat % 2 = 0 → f.rd ≠ 0#5 →
      (f.rs.toNat % 2 = 0 → f.rt.toNat % 2 = 0 →
        (let x := (a + b) % 2 ^ 64
         exec (.add64 c f) s = Retires s c 1 ((two x).setFlags ⟨decide (x = 0), decide (2 ^ 63 ≤ x), decide (2 ^ 64 ≤ a + b), out (sg a + sg b)⟩)) ∧
        (let x := (a + (2 ^ 64 - b)) % 2 ^ 64
         exec (.sub64 c f) s = Retires s c 1 ((two x).setFlags ⟨decide (x = 0), decide (2 ^ 63 ≤ x), decide (b ≤ a), out (sg a - sg b)⟩))) ∧
      (∃ x : Nat, (x : Int) = (k.r f.rs.toNat).toInt * (k.r f.rt.toNat).toInt % 2 ^ 64 ∧ exec (.mull c f) s = Retires s c 1 (two x)) ∧
      exec (.mullu c f) s = Retires s c 1 (two ((k.r f.rs.toNat).toNat * (k.r f.rt.toNat).toNat)) ∧
      (f.rs.toNat % 2 = 0 → exec (.sll64 c f) s = Retires s c 1 (two (a * 2 ^ n % 2 ^ 64)) ∧
        exec (.srl64 c f) s = Retires s c 1 (two (a / 2 ^ n)) ∧
        ∃ x : Nat, (x : Int) = sg a / 2 ^ n % 2 ^ 64 ∧ exec (.sra64 c f) s = Retires s c 1 (two x))) ∧
    (f.rd = 0#5 → k.inTrap = false → ∀ i ∈ [Instr.add64 c f, .sub64 c f, .mull c f, .mullu c f, .sll64 c f, .srl64 c f, .sra64 c f],
      ∃ w, exec i s = .next (Trapped s c (k.enter 1 0 w)))

/-- Table 11.11, R250: atomics on a word of shared SRAM in firmware mode, in 8 to 40 cycles; any target outside word-aligned
shared SRAM traps with ATOMIC. -/
def Sys2Proof.Claims.AtomicResults : Prop :=
  ∀ (s : State) (c : CoreId) (f : FormA), Running s c → c.kind ≠ .loop →
    let k := s.core c.master
    let a := (k.r f.rs.toNat).toNat
    let u := a - 0x10000000 + 0x1000000 * c.die.code
    let old := leNat s.bus.sram u 4
    let d := (k.r f.rd.toNat).toNat
    let t := (k.r f.rt.toNat).toNat
    let does := fun (i : Instr) (new : Nat) (z : Bool) => ∃ r n, exec i s = .next r ∧ 8 ≤ n ∧ n ≤ 40 ∧
      r.core c.master = ({ k.w f.rd.toNat (BitVec.ofNat 32 old) with z := z } : Core).retire c n ∧
      leNat r.bus.sram u 4 = new ∧ r.regs = s.regs ∧ (∀ id, id ≠ c.master → r.core id = s.core id) ∧
      (∀ x, ¬(u ≤ x ∧ x < u + 4) → r.bus.sram.get (fun _ => 0) x = s.bus.sram.get (fun _ => 0) x)
    (k.user = false → 0x10000000 ≤ a → a < 0x11000000 → a % 4 = 0 →
      does (.aswp c f) t k.z ∧ does (.aadd c f) ((old + t) % 2 ^ 32) k.z ∧ does (.aand c f) (Nat.land old t) k.z ∧
      does (.aor c f) (Nat.lor old t) k.z ∧ does (.acas c f) (if old = d then t else old) (decide (old = d))) ∧
    (k.inTrap = false → a < 0x10000000 ∨ 0x11000000 ≤ a ∨ a % 4 ≠ 0 →
      ∀ i ∈ [Instr.aswp c f, .aadd c f, .aand c f, .aor c f, .acas c f],
        exec i s = .next (Trapped s c (k.enter 8 0 (k.r f.rs.toNat))))

/-- Clauses of R256, Table 11.17: accelerator commands of the active die's cores with a descriptor in shared SRAM: queued with C = 1, and
refused with C = 0 while four are outstanding. HWR writes the record at once where R150 permits it. -/
def Sys2Proof.Claims.AcceleratorCommands : Prop :=
  ∀ (s : State) (c : CoreId) (f : FormD), Running s c → c.kind ≠ .loop → c.die = s.activeDie →
    let k := s.core c.master
    let a := (k.r f.rs.toNat).toNat
    let x := (a + f.index.toNat) % 2 ^ 32
    k.cond3 f.cond.toNat = true →
    (0x10000000 ≤ a → a + 16 ≤ 0x11000000 → k.outstanding < 4 →
      exec (.mq c f) s = .next ({ s with heats := { s.heats with matching := s.heats.matching ++ [MatchCmd.core c.master (a - 0x10000000)] } }.setCore
        c.master (({ k with outstanding := k.outstanding + 1, c := true } : Core).retire c 1)) ∧
      (∀ q, s.mrtRequest c (a - 0x10000000) = some q →
        exec (.mrt c f) s = .next ((s.request q).setCore c.master (({ k with outstanding := k.outstanding + 1, c := true } : Core).retire c 1)))) ∧
    (0x10000000 ≤ a → a + 16 ≤ 0x11000000 → 4 ≤ k.outstanding →
      ∀ i ∈ [Instr.mq c f, .mrt c f], exec i s = Retires s c 1 { k with c := false }) ∧
    (f.rd.toNat % 2 = 0 → x < 4096 → c.kind = .schedule → s.flag F.heatSchedHost = false →
      s.fld F.heatNextStatusState = 0 ∨ s.fld F.heatNextStatusState = 3 → ∃ t, exec (.hwr c f) s = .next t ∧
        t.core c.master = ({ k with c := true } : Core).retire c 1 ∧
        t.heats.next.get (fun _ => 0) x = k.pair f.rd.toNat &&& 0x7FFFFFF1FFF ∧
        (∀ y, y ≠ x → t.heats.next.get (fun _ => 0) y = s.heats.next.get (fun _ => 0) y) ∧
        { t with cores := s.cores, heats := { t.heats with next := s.heats.next } } = s)

/-- Clauses of R256, Table 11.17: MATCH_COMPLETE takes the command that has waited longest. With its three tables in shared SRAM the status
word is DONE without ERR, otherwise DONE with ERR; its core has one command fewer outstanding and its ACCEL source pending. -/
def Sys2Proof.Claims.MatchingCompletes : Prop :=
  ∀ (s : State) (id desc : Nat) (rest : List MatchCmd), (s.heats.matching = [] → exec .matchComplete s = .next s) ∧
    (s.heats.matching = .core id desc :: rest →
    let d : Die := if id < 128 then .cope else .drag
    let w := fun k => s.getWord 127 d (desc + 4 * k)
    let inside := fun (a : Word) (n : Nat) => 0x10000000 ≤ a.toNat ∧ a.toNat + n ≤ 0x11000000
    desc + 16 ≤ 0x1000000 →
    ∃ t, exec .matchComplete s = .next t ∧ t.heats.matching = rest ∧
      (¬(inside (w 0) 700928 ∧ inside (w 1) 160 ∧ inside (w 2) 768) → t.getWord 127 d (desc + 12) = w 3 ||| 0xC0000000#32) ∧
      (inside (w 0) 700928 → inside (w 1) 160 → inside (w 2) 768 →
        (desc + 16 ≤ (w 2).toNat - 0x10000000 ∨ (w 2).toNat - 0x10000000 + 768 ≤ desc) →
        t.getWord 127 d (desc + 12) = w 3 ||| 0x80000000#32) ∧
      (t.core id).outstanding = (s.core id).outstanding - 1 ∧ t.regs = s.regs)

/-- Clauses of R257, Table 11.18: the services, on a core of the active die whose handler was entered for that service. Each returns after
the call with C and its results in g1 and on; HEAT_COMMIT of the writer waits for the verdict. -/
def Obligations.ServiceResults : Prop :=
  ∀ (s : State) (c : CoreId), c.kind = .schedule → c.die = s.activeDie →
    let k := s.core c.master
    Running s c → k.inTrap = true → k.commits = false →
    let back := fun (s : State) (k : Core) (ok : Bool) (rs : List Word) =>
      Host.Outcome.next (s.setCore c.master { k.putGroup 1 rs with c := ok, pc := k.epc + 4, user := k.prevUser, inTrap := false })
    let called := fun n => k.cause = BitVec.ofNat 32 (7 + 65536 * n)
    let writer := s.flag F.heatSchedHost = false
    let open_ := s.fld F.heatNextStatusState = 0 ∨ s.fld F.heatNextStatusState = 3
    (called 1 → writer → open_ → k.user = false → s.flag F.glbBootRcv = false → ∃ t, exec (.svcHeatCfg c) s = .next t ∧
      t.fld F.heatNextCfgAsap = (k.r 1).toNat / 2 ^ 31 ∧ t.fld F.heatNextCfgDclass = (k.r 1).toNat / 65536 % 256 ∧
      t.fld F.heatNextCfgGuard = (k.r 1).toNat % 512 ∧ t.reg (R.heatNextBase 0) = k.r 2 ∧ t.reg (R.heatNextBase 1) = k.r 3 ∧
      t.reg (R.heatNextBase 2) = k.r 4 ∧
      t.core c.master = { k with c := true, pc := k.epc + 4, user := k.prevUser, inTrap := false }) ∧
    (called 2 → writer → open_ → s.heats.armed = none → ∃ t, exec (.svcHeatCommit c) s = .next t ∧ t.fld F.heatNextStatusState = 1 ∧
      t.core c.master = { k with commits := true }) ∧
    (called 3 → writer → s.heats.armed = none → exec (.svcHeatCancel c) s = back s k false [s.reg R.heatNextStatus]) ∧
    (called 4 → exec (.svcDemand c) s =
      back s k true [Config.demandAddress, Config.heavyAddress, BitVec.ofNat 32 s.heats.frozenHeavy.length]) ∧
    (called 5 → exec (.svcEpoch c) s = back s k true [BitVec.ofNat 32 (s.heats.epochAt % 1000000000),
      BitVec.ofNat 32 (s.heats.epochAt / 1000000000), BitVec.ofNat 32 s.heats.epochs]) ∧
    (called 6 → exec (.svcNote c) s = (let t := s.raise 0x602 0 0 (k.r 1); back t (t.core c.master) true []))

/-- Clauses of R236: an instruction that a core's profile lacks traps with cause ILLEGAL. -/
def Sys2Proof.Claims.ProfileMismatchIsIllegal : Prop :=
  ∀ (s : State) (c : CoreId) (f : FormA) (g : FormB) (h : FormD), Running s c → (s.core c.master).inTrap = false →
    (∀ i, (c.kind = .loop ∧ i ∈ [Instr.div c f, .divu c f, .rem c f, .remu c f, .add64 c f, .sub64 c f, .mull c f, .mullu c f,
        .sll64 c f, .srl64 c f, .sra64 c f, .cmp64 c f, .aswp c f, .aadd c f, .aand c f, .aor c f, .acas c f,
        .mq c h, .mrt c h, .hwr c h, .svc c h]) ∨
      (c.kind ≠ .loop ∧ i ∈ [Instr.errs c f, .pia c f, .pip c f, .limt c f, .awr c f, .iput c f, .bld c f, .bapp c f, .rail c f,
        .lock c f, .live c g, .smpe c h, .smpd c h, .smpwe c h, .smpwd c h, .smpu c h, .acte c h, .acth c h, .cellx c h]) →
      ∃ w, exec i s = .next (Trapped s c ((s.core c.master).enter 1 0 w)))

/-- Clauses of R240, Table 11.15: a register field that must be zero or aligned and is not, and a branch condition above 0x10, trap with
ILLEGAL; TVAL is the instruction's word in the forms of Table 11.2. -/
def Sys2Proof.Claims.ReservedFieldsAreIllegal : Prop :=
  ∀ (s : State) (c : CoreId), Running s c → (s.core c.master).inTrap = false →
    let ill := fun (i : Instr) (w : Nat) => exec i s = .next (Trapped s c ((s.core c.master).enter 1 0 (BitVec.ofNat 32 w)))
    let wa := fun (f : FormA) (major func : Nat) =>
      major * 2 ^ 26 + f.rd.toNat * 2 ^ 21 + f.rs.toNat * 2 ^ 16 + f.rt.toNat * 2 ^ 11 + func * 2 ^ 5 + f.sh.toNat
    let wb := fun (f : FormB) (major : Nat) => major * 2 ^ 26 + f.rd.toNat * 2 ^ 21 + f.rs.toNat * 2 ^ 16 + f.imm.toNat
    (∀ f : FormA, f.rd ≠ 0#5 → ill (.cmp c f) (wa f 0 0x18) ∧ ill (.tst c f) (wa f 0 0x19)) ∧
    (∀ f : FormA, 4 ≤ f.rd.toNat → ill (.mula c f) (wa f 1 0) ∧ ill (.maca c f) (wa f 1 1) ∧ ill (.msua c f) (wa f 1 2) ∧
      ill (.accw c f) (wa f 1 4) ∧ ill (.accz c f) (wa f 1 5)) ∧
    (∀ f : FormB, f.rd ≠ 0#5 → ill (.cmpi c f) (wb f 0x09)) ∧ (∀ f : FormB, f.rs ≠ 0#5 → ill (.lui c f) (wb f 0x08)) ∧
    (∀ f : FormB, 1024 ≤ f.imm.toNat → ill (.extu c f) (wb f 0x0A) ∧ ill (.exts c f) (wb f 0x0B) ∧ ill (.ins c f) (wb f 0x0C)) ∧
    (∀ f : FormB, 8192 ≤ f.imm.toNat → ill (.ldw c f) (wb f 0x10) ∧ ill (.ldh c f) (wb f 0x11) ∧ ill (.ldq c f) (wb f 0x12) ∧
      ill (.ldr c f) (wb f 0x13)) ∧
    (∀ f : FormB, f.rd.toNat % 4 ≠ 0 → ill (.ldq c f) (wb f 0x12) ∧ ill (.stq c f) (wb f 0x16)) ∧
    (∀ f : FormB, f.rd.toNat % 8 ≠ 0 → ill (.ldr c f) (wb f 0x13) ∧ ill (.str c f) (wb f 0x17)) ∧
    (∀ f : FormC, 0x10 < f.cond.toNat → ill (.b c f) (0x18 * 2 ^ 26 + f.cond.toNat * 2 ^ 21 + f.off.toNat) ∧
      ill (.bl c f) (0x19 * 2 ^ 26 + f.cond.toNat * 2 ^ 21 + f.off.toNat))

/-! ### What the instruction set as a whole does, by group -/

/-- Tables 11.5, 11.7, R238: the integer group, g0, and branches. -/
def Obligations.IntegerResults : Prop := Claims.IntegerGroupResults ∧ Claims.GZeroReadsZero ∧ Claims.ControlFlow

/-- Tables 11.5, 11.11: immediates and compares. -/
def Obligations.ImmediatesAndCompares : Prop := Claims.ImmediateResults ∧ Claims.CompareFlags

/-- Clauses of R239, Tables 11.5, 11.6: held arithmetic and the accumulators. -/
def Obligations.SaturatingAndAccumulatorResults : Prop := Claims.SaturatingResults ∧ Claims.AccumulatorResults

/-- Clauses of R250, Table 11.11: division and 64-bit pairs. -/
def Obligations.DivisionAndPairResults : Prop := Claims.DivisionResults ∧ Claims.PairResults

/-- Clauses of R238, R254, R255, Table 11.7: a core's own data memory. -/
def Obligations.OwnMemory : Prop := Claims.LoadsFromOwnMemory ∧ Claims.StoresToOwnMemory

/-- Clauses of R250, R255: words and atomics of shared SRAM. -/
def Obligations.SharedSram : Prop := Claims.SharedSramWords ∧ Claims.AtomicResults

/-- Clauses of R246, R248, Tables 11.14 to 11.16: address traps, and reads of the tile. -/
def Obligations.AddressTrapsAndTileReads : Prop := Claims.AddressTraps ∧ Claims.TileReads

/-- Table 11.8, clauses of R243, R244: the loop group and LOCK over the record image. -/
def Obligations.LoopGroupResults : Prop := Claims.LoopArithmetic ∧ Claims.LockBookkeeping

/-- Clauses of R246, R247: actuator writes and urgent requests of a loop core. -/
def Obligations.ActuatorsAndUrgentRequests : Prop := Claims.ActuatorInstructions ∧ Claims.UrgentRequestByCore

/-- Clauses of R237, R249, R258: waiting, waking and fences. -/
def Obligations.WaitingAndWaking : Prop := Claims.Waiting ∧ Claims.Waking ∧ Claims.FenceRetires

/-- Clauses of R251, R253: posted events, traps and returns. -/
def Obligations.TrapsAndPostedEvents : Prop := Claims.PostedEvents ∧ Claims.TrapEntryAndReturn

/-- Clauses of R252, Table 11.12: the system registers. -/
def Obligations.SystemRegisters : Prop := Claims.SystemRegisterReads ∧ Claims.SystemRegisterWrites

/-- Clauses of R256, Table 11.17: the accelerators. -/
def Obligations.Accelerators : Prop := Claims.AcceleratorCommands ∧ Claims.MatchingCompletes

/-- Clauses of R236, R240: instructions a profile lacks, and fields that are not as their form asks. -/
def Obligations.IllegalInstructions : Prop := Claims.ProfileMismatchIsIllegal ∧ Claims.ReservedFieldsAreIllegal

/-! ## Ladle plane -/

/-- Clauses of R200, R202, R204, R206, R210, R214 to R217: a unicast frame that comes in whole on a port in service, with cells free on
chip and in the riser where it goes, is stored under the next number at the tail of the queue of its class and flow, with its tag,
payload and trailer, in cells that nothing held, as many on chip and in the riser as R200 and R206 say; its flow entry is learned and
counted, and the queue's PROFILE as written comes into force. A port that carries no traffic takes nothing in; a destination that
is neither a port nor a group, or a group not VALID, is discarded and counted; a frame that finds too few free cells is discarded and
reported as OVERFLOW (R210). -/
def Sys2Proof.Claims.FramesIn : Prop :=
  ∀ (s : State) (port : Fin 68) (f : DataFrame),
    let i := Instr.dataFrameIngress port f
    let off := s.dev ≠ 2 ∨ s.fld (F.portState port.val) ≠ 0 ∨ s.flag (F.portParked port.val) = true
    let q := s.classQueue f.dst.val f.cls.val f.flow.val
    let n := (f.payload.length + 20 + 255) / 256
    let there := if s.toRiser q then (1, n - 1) else (n, 0)
    let flow := s.flow f.flow.val
    (off → exec i s = .next s) ∧
    (¬off → s.ladle.frames = [] → f.mcast = false → 512 ≤ f.dst.val → exec i s = .next (s.count (F.ladCntCount 2) 1)) ∧
    (¬off → s.ladle.frames = [] → f.mcast = true → f.dst.val ≠ 0x3FD ∨ f.flow.val < 0x1FC000 ∨ (s.group (f.flow.val - 0x1FC000)).valid = false →
      exec i s = .next (s.count (F.ladCntCount 2) 1)) ∧
    (¬off → s.ladle.frames = [] → f.mcast = false → f.dst.val < 512 → f.whole = true → s.holdsLane f.src.val f.dst.val f.cls.val = false →
      f.payload.length ≤ 16320 → s.onchipCells + there.1 ≤ 16384 * (64 - s.goneBanks.length) →
      s.riserCells + there.2 ≤ 4194304 * (128 - s.goneRegions.length) →
      ∃ t x, exec i s = .next t ∧ t.ladle.frames.find? s.ladle.nextFrame = some x ∧ t.ladle.nextFrame = s.ladle.nextFrame + 1 ∧
        x.src = f.src.val ∧ x.dst = f.dst.val ∧ x.cls = f.cls.val ∧ x.flow = f.flow.val ∧ x.seq = f.seq.toNat ∧ x.tag = s.fld F.heatLiveTag ∧
        x.payload = f.payload ∧ x.trailer = f.trailer ∧ x.cells.length = there.1 ∧ x.cells.Nodup ∧
        (∀ c ∈ x.cells, c < 1048576 ∧ c ∉ s.usedCells ∧ c / 16384 ∉ s.goneBanks) ∧ x.riser = there.2 ∧ x.refs = 1 ∧
        x.coming = none ∧ x.against = false ∧ x.port = port.val ∧ x.queue = q ∧
        (t.queue q).entries = (s.queue q).entries ++ [.frame s.ladle.nextFrame] ∧ (t.queue q).inForce = (s.queue q).profile ∧
        (∀ o, o ≠ q → t.queue o = s.queue o) ∧
        (flow.valid = false → (t.flow f.flow.val).valid = true ∧ (t.flow f.flow.val).src = f.src.val ∧
          (t.flow f.flow.val).dst = f.dst.val ∧ (t.flow f.flow.val).cls = f.cls.val ∧ (t.flow f.flow.val).exp = f.seq.toNat ∧
          (t.flow f.flow.val).reseq = s.flag F.ladCtrlReseqDef ∧ Counted s t (F.ladCntCount 14) 1) ∧
        (flow.epoch = s.heats.epochs % 65536 →
          (t.flow f.flow.val).bytes = min 0xFFFFFFFF (flow.bytes + (f.payload.length + 20 + 63) / 64)) ∧
        (t.flow f.flow.val).frames = (flow.frames + 1) % 2 ^ 32 ∧ (∀ o, o ≠ f.flow.val → t.flow o = s.flow o) ∧
        t.tiles = s.tiles ∧ t.cores = s.cores ∧ t.moulds = s.moulds) ∧
    (¬off → (∀ p ∈ s.ladle.frames, p.2.coming = none) → f.mcast = false → f.dst.val < 512 → f.whole = true →
      s.holdsLane f.src.val f.dst.val f.cls.val = false → (s.allocate there.1).length < there.1 → Quiet s → NoRecovery s 32 →
      ∃ t, exec i s = .next t ∧ t.ladle.frames = s.ladle.frames ∧ t.ladle.queues = s.ladle.queues ∧ Counted s t (F.ladCntCount 5) 1 ∧
        Noted s t 0x2000 3 5 (word (q + 5 * 2 ^ 24)))

/-- Clauses of R175, R177, R180, R182, R183, R188, R194: a burst received. Its lanes may stand in any order; a lane without its
delimiter is the model's choice (log 117). Codewords that cannot be corrected are counted for the port and the burst's offset is kept for
TIME_CHECK; then its frames in order: a damaged header is discarded; one that fails the heat-tag check ends the burst and is
counted for its port; stomped and errored frames are counted apart, and control frames outside a LADLE slot; a good one counts
nothing. -/
def Sys2Proof.Claims.BurstsIn : Prop :=
  ∀ (s : State) (port : Fin 68) (src : Fin 512) (ofs : Int) (lanes ls : List RxLane) (x : RxFrame) (xs : List RxFrame) (h : BitVec 128),
    let i := Instr.ladleBurstReceive port src ofs lanes
    let sender := s.slotPerm.getD (512 + port.val) unassigned
    let tag := s.fld F.heatLiveTag
    let deaf := s.portOpen port.val = false ∨ s.slotRec = none ∨ 512 ≤ sender
    let was := s.service.timing.get (fun _ => (0, 0, 0, 0, 0)) src.val
    let o := 100 * ofs
    let damaged := x.overlaps = true ∨ crc16 ((List.range 14).map (headerByte h)) ≠ h.extractLsb' 0 16 ∨ (h.extractLsb' 126 2).toNat ≠ 1
    let dst := (h.extractLsb' 112 10).toNat
    let tagged := (h.extractLsb' 24 16).toNat = tag ∧ (h.extractLsb' 102 10).toNat = sender ∧ h.getLsbD 57 = false ∧
      (dst = 0x3FE ∨ dst < 512 ∨ dst = 0x3FD ∧ h.getLsbD 60 = true)
    let kind := (h.extractLsb' 122 4).toNat
    let len := (h.extractLsb' 40 14).toNat
    let crc := crc32 x.payload
    let stomped := h.getLsbD 58 = true ∨ x.cut = true ∨ x.trailer = ~~~crc
    let errored := len < 64 ∨ 16320 < len ∨ (1 ≤ kind ∧ kind ≤ 7) ∨ h.getLsbD 61 ≠ decide (8 ≤ kind) ∨
      h.getLsbD 59 ≠ decide (kind = 13) ∨ x.trailer ≠ crc
    let stray := s.ladleSlot = false ∧ 8 ≤ kind ∧ kind ≠ 13
    let go := fun (s' : State) (xs : List RxFrame) => s'.rxFrames port.val tag sender s.ladleSlot xs
    (deaf ∨ burstCodes lanes = none → exec i s = .next s) ∧
    (lanes.Perm ls → (lanes.map RxLane.delimiter).Nodup → burstCodes ls = burstCodes lanes) ∧
    (∀ ws, ¬deaf → burstCodes lanes = some ws → let bad := ws.countP Option.isNone
      ∃ t, exec i s = .next (go t (rxFramesOf ws)) ∧ Counted s t (F.portUncorr port.val) bad ∧ Counted s t (F.ladCntCount 4) bad ∧
        t.service.timing.find? src.val = some (if was.1 = 0 then (1, o, o, o, s.slotData)
          else (was.1 + 1, was.2.1 + o, min was.2.2.1 o, max was.2.2.2.1 o, s.slotData)) ∧
        { t with regs := s.regs, service := { t.service with timing := s.service.timing } } = s) ∧
    go s [] = s ∧
    (x.header = none → go s (x :: xs) = go (s.count (F.ladCntCount (if x.cut then 1 else 2)) 1) xs) ∧
    (x.header = some h →
      (damaged → go s (x :: xs) = go (s.count (F.ladCntCount 2) 1) xs) ∧
      (¬damaged → ¬tagged → go s (x :: xs) = (s.count (F.portMisdel port.val) 1).count (F.ladCntCount 3) 1) ∧
      (¬damaged → tagged → stomped → go s (x :: xs) = go (s.count (F.ladCntCount 1) 1) xs) ∧
      (¬damaged → tagged → ¬stomped → errored → go s (x :: xs) = go (s.count (F.ladCntCount 2) 1) xs) ∧
      (¬damaged → tagged → ¬stomped → ¬errored → go s (x :: xs) = go (if stray then s.count (F.ladCntCount 2) 1 else s) xs))

/-- Clauses of R173, R179, R181, R200, R219, R221: LADLE_BURST_SEND: a port that does not meet the output, has sent its burst or meets its
own output sends nothing more; towards another ladle port it sends a burst without frames. A whole frame alone in its queue, of a
flow that is not resequenced, leaves in the slot's burst with the slot's tag, its payload and trailer unchanged, when it fits and
nothing waits before it; its cells are free, and the queue is empty. A header says its frame's fields and carries its CRC. -/
def Sys2Proof.Claims.BurstsOut : Prop :=
  ∀ (s : State) (port : Fin 68) (output : Fin 592), (∀ p ∈ s.ladle.frames, p.2.coming = none) →
    let i := Instr.ladleBurstSend port output
    let d := output.val
    let sends := s.outOpen port.val d = true ∧ s.burstNow port.val = none
    (¬sends ∨ d = 512 + port.val → exec i s = .next s) ∧
    (sends → 512 ≤ d → d ≠ 512 + port.val → ∃ t, exec i s = .next t ∧ t.burstNow port.val = some [] ∧
      { t with service := { t.service with burst := s.service.burst } } = s) ∧
    (∀ id f q x, sends → d < 512 → s.ladle.frames = [(id, f)] → q / 32 = d → s.ladle.queues = [(q, x)] → x.entries = [.frame id] →
      s.service.active = [(d, [q])] → s.strict q = false → s.flag F.lsvCtrlShapeEn = false → s.service.deficit = [] → f.refs = 1 → f.riser = 0 →
      f.mcast = false → f.payload.length + 20 ≤ s.slotBytes → f.payload.length + 20 ≤ s.fld (F.lsvQcfgQuantum q) → (s.flow f.flow).reseq = false →
      s.service.released = [] → s.service.marks = [] → s.ctlOf d = [] → s.stoppedMask d = 0 → s.globalXoff = false →
      f.against = false ∨ s.laneBlocked f.src f.dst f.cls = false →
      ∃ t y, exec i s = .next t ∧ t.ladle.frames = [] ∧ (t.queue q).entries = [] ∧ t.activeOf d = [] ∧ t.burstNow port.val = some [y] ∧
        y.header = f.header d (s.fld F.heatLiveTag) ∧ y.payload = f.payload ∧ y.trailer = f.trailer ∧ y.pos = 0 ∧ y.cut = false ∧
        t.tiles = s.tiles ∧ t.cores = s.cores ∧ t.heats = s.heats) ∧
    (∀ (f : Frame) (tag : Nat), f.src < 1024 → f.cls < 8 → f.flow < 2 ^ 21 → f.seq < 65536 → f.payload.length < 2 ^ 14 → tag < 65536 →
      let h := f.header d tag
      hdrVer h = 1 ∧ hdrType h = 0 ∧ hdrDst h = d ∧ hdrSrc h = f.src ∧ hdrClass h = f.cls ∧ hdrFlow h = f.flow ∧ hdrSeq h = f.seq ∧
        hdrLen h = f.payload.length ∧ hdrTag h = tag ∧ hdrFlag h 6 = f.mcast ∧ hdrFlag h 4 = false ∧ hdrFlag h 7 = false ∧ hcrcOk h = true)

/-- Clauses of R219 to R232: what the frames of the ladle plane do at its ports. -/
def Obligations.LadleFrames : Prop := Claims.FramesIn ∧ Claims.BurstsIn ∧ Claims.BurstsOut

/-- Clauses of R183, R185, R188, R189, R161, R227 to R231: control traffic. HELLO and ERROR_NOTE of a line card, reports of demand, lane marks
accepted and refused, and accepted where no cell is free (the model's choice, log 127), the HELLO and TIME_CHECK the engine sends, and the release of a lane held for its direct slots. -/
def Sys2Proof.Claims.LineCards : Prop :=
  ∀ (s : State) (port : Fin 512) (claimed minGuard : BitVec 16) (need : Bool) (code : Byte) (entries : List (Fin 512 × BitVec 22))
    (src dst : Fin 512) (cls : Fin 8) (serial : BitVec 32) (ladle : Bool),
    let key := (512 * src.val + dst.val) * 8 + cls.val
    let timing := s.service.timing.get (fun _ => (0, 0, 0, 0, 0)) port.val
    (s.dev ≠ 2 → ∀ i ∈ [Instr.hello port claimed need minGuard, .demand port entries, .errorNote port code, .helloSend, .timeCheckSend port,
      .laneMark src dst cls serial ladle], exec i s = .next s) ∧
    (∀ h, s.dev = 2 → s.heats.now = some h → claimed.toNat = port.val → minGuard.toNat ≤ h.guard →
      ∃ t, exec (.hello port claimed need minGuard) s = .next t ∧
        t.ctlOf port.val = s.ctlOf port.val ++ (if need then s.noticeParts h ((heatRecords s.heats.live).getD []) false port.val else []) ∧
        (∀ d, d ≠ port.val → t.ctlOf d = s.ctlOf d) ∧ { t with service := { t.service with ctl := s.service.ctl } } = s) ∧
    (∀ h, s.dev = 2 → s.heats.now = some h → claimed.toNat ≠ port.val → minGuard.toNat ≤ h.guard → need = false → Quiet s → NoRecovery s 40 →
      ∃ t, exec (.hello port claimed need minGuard) s = .next t ∧ t.ctlOf port.val = s.ctlOf port.val ++ [.error 3 1 (s.reg R.heatLiveSerial) (s.heats.cur.getD 0) port.val s.time.net] ∧
        Noted s t 0x2800 2 3 (word (port.val + 3 * 65536))) ∧
    (s.dev = 2 → (entries.map Prod.fst).Nodup → ∃ t, exec (.demand port entries) s = .next t ∧
      (∀ e ∈ entries, t.heats.gather.get (fun _ => 0) (592 * port.val + e.1.val) = 64 * e.2.toNat) ∧
      (∀ j, j < 512 → (∀ e ∈ entries, e.1.val ≠ j) → t.heats.gather.get (fun _ => 0) (592 * port.val + j) = 0) ∧
      (∀ k, k / 592 ≠ port.val → t.heats.gather.get (fun _ => 0) k = s.heats.gather.get (fun _ => 0) k) ∧
      { t with heats := { t.heats with gather := s.heats.gather } } = s) ∧
    (s.dev = 2 → Quiet s → ∃ t, exec (.errorNote port code) s = .next t ∧ Noted s t 0x2800 0 code.toNat (word (port.val + code.toNat * 65536)) ∧
      t.regs = s.regs ∧ t.service = s.service) ∧
    (s.dev = 2 → ladle = false → exec (.laneMark src dst cls serial ladle) s = .next (s.count (F.ladCntCount 2) 1)) ∧
    (s.dev = 2 → ladle = true → s.markFits src.val dst.val cls.val serial = false ∨ serial ∈ s.acceptedOf key →
      exec (.laneMark src dst cls serial ladle) s = .next (s.count (F.lsvCntCount 2) 1)) ∧
    (s.dev = 2 → ladle = true → s.markFits src.val dst.val cls.val serial = true → serial ∉ s.acceptedOf key →
      let q := s.classQueue dst.val cls.val 0
      (∀ c, s.allocate 1 = [c] → ∃ t, exec (.laneMark src dst cls serial ladle) s = .next t ∧ t.acceptedOf key = serial :: s.acceptedOf key ∧
        t.marksOf key = s.marksOf key ++ [{ serial := serial, upTo := s.ladle.nextFrame, cell := c, aside := false }] ∧
        Counted s t (F.lsvCntCount 0) 1 ∧
        (t.queue q).entries = (s.queue q).entries ++ [.mark src.val dst.val cls.val serial] ∧ t.ladle.frames = s.ladle.frames) ∧
      (s.allocate 1 = [] → Quiet s → NoRecovery s 32 → ∃ t, exec (.laneMark src dst cls serial ladle) s = .next t ∧
        t.acceptedOf key = serial :: s.acceptedOf key ∧ t.service.marks = s.service.marks ∧ t.ladle = s.ladle ∧
        Counted s t (F.lsvCntCount 0) 1 ∧ Counted s t (F.ladCntCount 5) 1 ∧ Noted s t 0x2000 3 5 (word (q + 5 * 2 ^ 24)))) ∧
    (s.dev = 2 → ∃ t, exec .helloSend s = .next t ∧ (∀ d, d < 512 → Ctl.hello ∈ t.ctlOf d) ∧
      { t with service := { t.service with ctl := s.service.ctl } } = s) ∧
    (s.dev = 2 → 0 < timing.1 → timing.2.1.natAbs ≤ 20000 * timing.1 → ∃ t mean, exec (.timeCheckSend port) s = .next t ∧
      t.ctlOf port.val = s.ctlOf port.val ++ [.timeCheck timing.1 mean timing.2.2.1 timing.2.2.2.1 timing.2.2.2.2] ∧
      (mean - 1) * timing.1 < timing.2.1 ∧ timing.2.1 < (mean + 1) * timing.1 ∧
      t.service.timing.find? port.val = none ∧ t.events = s.events) ∧
    (key ∉ s.service.laneHeld → exec (.directHoldRelease src dst cls) s = .next s) ∧
    (key ∈ s.service.laneHeld → ∃ t, exec (.directHoldRelease src dst cls) s = .next t ∧ key ∉ t.service.laneHeld ∧
      (∀ k, k ≠ key → (k ∈ t.service.laneHeld ↔ k ∈ s.service.laneHeld)) ∧ s.time.net ≤ t.time.net ∧ t.ladle = s.ladle ∧
      t.holdsLane src.val dst.val cls.val = false)

/-- Clauses of R192, R197 to R199, R224: ladle ports. A swap is armed only for a STANDBY spare on a lit supply and a port in service or failed that no
other swap names, a return only of a serving swap; what fails is FAILED and parked, and what recovers goes back to its place;
ports park far from their slots and are back 20 us before them, a spare that takes over at an activation among them. What is coming
in through a port that fails is discarded. -/
def Sys2Proof.Claims.LadlePorts : Prop :=
  ∀ (s : State) (m : Master) (sp : Fin 4) (src : Fin 64) (port : Fin 68) (ready : Bool),
    let spare := s.fld (F.portState (64 + sp.val))
    let own := s.fld (F.portState src.val)
    let named := ∃ o, o < 4 ∧ o ≠ sp.val ∧ s.fld (F.ladSwapState o) ≠ 0 ∧ s.fld (F.ladSwapFrom o) = src.val
    let may := spare = 1 ∧ 16 ∉ s.ladle.dark ∧ (own = 0 ∨ own = 2) ∧ s.fld (F.portSubst src.val) = src.val ∧ ¬named
    let back := s.fld (F.ladSwapState sp.val) = 2 ∧ s.fld (F.ladSwapFrom sp.val) = src.val ∧ own = 3
    let logged : Out := .next (s.logAccess (regAccess m (R.ladSwap sp.val)) 8)
    let far := ∀ t, s.nextSlot port.val = some t → s.time.net + 100000 < t
    let due := (∃ h, s.heats.armed = some h ∧ port.val - 64 ∈ h.swaps) ∨ s.heats.armed = none ∧ s.heats.waitingRun.isSome = true
    let takes := 64 ≤ port.val ∧ s.fld (F.ladSwapState (port.val - 64)) = 1 ∧ s.flag (F.ladSwapEn (port.val - 64)) = true ∧ due
    let mine := s.fld (F.portState port.val) = 0 ∨ s.fld (F.portState port.val) = 1 ∧ takes
    let idle := s.dev ≠ 2 ∨ s.flag F.heatSchedHost = true ∨ ∀ k, k < 4 → s.fld (F.ladSwapState k) ≠ 1
    let parks := s.portOpen port.val = true ∧ s.flag F.lsvCtrlParkEn = true ∧ usesPort s.slotPerm port.val = false ∧ far
    (Admitted s m (R.ladSwap sp.val) →
      (s.bus.hand = none → ¬may → exec (.swapArm m sp src) s = logged) ∧ (s.bus.hand = none → ¬back → exec (.swapReturn m sp src) s = logged) ∧
      (may → ∃ t, exec (.swapArm m sp src) s = .next t ∧ t.fld (F.ladSwapState sp.val) = 1 ∧ t.fld (F.ladSwapFrom sp.val) = src.val ∧
        t.flag (F.ladSwapEn sp.val) = true ∧ t.fld (F.portState src.val) = own ∧ t.fld (F.portState (64 + sp.val)) = 1 ∧
        ∀ i, 1 ≤ i → i ≤ 8 → i ∈ t.moulds.owed ∨ ∃ r ∈ t.moulds.waiting, r.who = .engine ∧ r.target = i) ∧
      (back → ∃ t, exec (.swapReturn m sp src) s = .next t ∧ t.fld (F.ladSwapState sp.val) = 1 ∧ t.fld (F.ladSwapFrom sp.val) = src.val ∧
        t.flag (F.ladSwapEn sp.val) = false ∧ t.fld (F.portState src.val) = 3)) ∧
    (Quiet s → NoRecovery s 32 → s.flag F.ladCtrlAutoSwap = false → idle → ∃ t, exec (.ladlePortFail false port) s = .next t ∧
      t.fld (F.portState port.val) = 2 ∧ port.val ∈ t.ladle.badEngines ∧ t.ladle.dark = s.ladle.dark ∧
      (s.fld (F.portState port.val) ≠ 2 → t.flag (F.portParked port.val) = true ∧ Noted s t 0x2000 2 1 (word (port.val + 2 ^ 24))) ∧
      (s.fld (F.portState port.val) ≠ 2 → s.burstNow port.val = none → ∀ id f e, s.ladle.frames.find? id = some f → f.coming = some e →
        s.time.net < e → f.port = port.val → t.ladle.frames.find? id = none) ∧
      ∀ p, p < 68 → p ≠ port.val → t.fld (F.portState p) = s.fld (F.portState p)) ∧
    (Quiet s → s.fld (F.portState src.val) = 2 → src.val / 4 ∉ s.ladle.dark → (∀ k, k < 4 → s.fld (F.ladSwapState k) = 0) →
      ∃ t, exec (.ladlePortRecover false ⟨src.val, by omega⟩) s = .next t ∧ t.fld (F.portState src.val) = 0 ∧
        src.val ∉ t.ladle.badEngines ∧ Noted s t 0x2000 0 2 (word (src.val + 2 * 2 ^ 24))) ∧
    (¬parks → exec (.portPark port) s = .next s) ∧
    (parks → ∃ t, exec (.portPark port) s = .next t ∧ t.flag (F.portParked port.val) = true ∧ Counted s t (F.lsvCntCount 6) 1 ∧
      { t with regs := s.regs } = s) ∧
    (¬mine ∨ s.flag (F.portParked port.val) = false → exec (.portUnpark port ready) s = .next s) ∧
    (∀ at_, mine → s.flag (F.portParked port.val) = true → s.dev = 2 → s.flag F.lsvCtrlParkEn = true →
      s.nextSlot port.val = some at_ → Quiet s → NoRecovery s 3 →
      (ready = true → ∃ t, exec (.portUnpark port ready) s = .next t ∧ t.flag (F.portParked port.val) = false ∧
        t.time.net = max s.time.net (at_ - 20000) ∧ t.events = s.events) ∧
      (ready = false → ∃ t, exec (.portUnpark port ready) s = .next t ∧ t.flag (F.portParked port.val) = true ∧
        t.time.net = max s.time.net at_ ∧ Noted s t 0x304 2 0 (word port.val)))

/-- Clauses of R201, R207, R208, R212 to R215, R222, R345: the buffer. Errors in SRAM and riser, prefetch, copies of multicast frames made, held,
admitted and dropped, a gap in a resequenced flow skipped, a cut-through frame stomped, a group committed, and the refill of the
shapers. -/
def Sys2Proof.Claims.LadleBuffer : Prop :=
  ∀ (s : State) (m : Master) (v : Word) (q : Fin 17408) (mq : Fin 1024) (g : Fin 16384) (dst : Fin 512) (flow : Fin 2097152) (bank : Fin 64)
    (region : Fin 128) (frame : Nat) (fixed : Bool),
    let wants := s.riserUp = true ∧ s.queueSeg q.val = true ∧ s.queueOnchip q.val < 64 * s.fld (F.ladProfPf (s.queue q.val).inForce) ∧
      s.ladle.reading.find? q.val = none
    let held := s.holdHead g.val dst.val
    (∃ t, exec (.sramEccError bank frame true fixed) s = .next t ∧ t.ladle.frames = s.ladle.frames ∧ t.ladle.queues = s.ladle.queues ∧
      (Quiet s → NoRecovery s 32 → Counted s t (F.ladCntCount 9) 1)) ∧
    ((∀ f, s.ladle.frames.find? frame = some f → ∀ c ∈ f.cells, c / 16384 ≠ bank.val) → exec (.sramEccError bank frame false false) s = .next s) ∧
    (Quiet s → NoRecovery s 32 → ∃ t, exec (.sramEccError bank frame false true) s = .next t ∧ t.ladle = s.ladle ∧ Counted s t (F.ladCntCount 0) 1 ∧
      (∀ p out, s.burstNow p = some out → t.burstNow p =
        some (out.map fun x => if x.frame.any (fun c => c.1 == frame) then { x with trailer := ~~~(crc32 x.payload) } else x)) ∧
      Noted s t 0x2000 2 7 (word (bank.val + 7 * 2 ^ 24))) ∧
    (∀ f c, s.ladle.frames.find? frame = some f → c ∈ f.cells → c / 16384 = bank.val → Quiet s → NoRecovery s 32 →
      ∃ t, exec (.sramEccError bank frame false false) s = .next t ∧
      t.ladle.frames.find? frame = none ∧ (∀ k, .frame frame ∉ (t.queue k).entries) ∧ Counted s t (F.ladCntCount 11) 1 ∧
      Noted s t 0x2000 2 7 (word (bank.val + 7 * 2 ^ 24))) ∧
    (¬wants → exec (.riserPrefetch q) s = .next s) ∧
    (wants → exec (.riserPrefetch q) s = .next { s with ladle := { s.ladle with reading := s.ladle.reading.put q.val 3 } }) ∧
    (s.ladle.reading.find? q.val = none → exec (.riserReadDone q fixed false region) s = .next s) ∧
    (∀ n id f, s.ladle.reading.find? q.val = some n → s.segHead q.val = some (id, f) →
      ((s.allocate f.riser).length < f.riser → exec (.riserReadDone q fixed false region) s = .next s) ∧
      (f.riser ≤ (s.allocate f.riser).length → ∃ t, exec (.riserReadDone q false false region) s = .next t ∧
        t.ladle.frames.find? id = some { f with cells := f.cells ++ s.allocate f.riser, riser := 0 } ∧ t.ladle.reading.find? q.val = none ∧
        (∀ o, o ≠ id → t.ladle.frames.find? o = s.ladle.frames.find? o) ∧ t.ladle.queues = s.ladle.queues) ∧
      (1 < n → exec (.riserReadDone q fixed true region) s =
        .next { s with ladle := { s.ladle with reading := s.ladle.reading.put q.val (n - 1) } }) ∧
      (n ≤ 1 → Quiet s → NoRecovery s 32 → ∃ t, exec (.riserReadDone q fixed true region) s = .next t ∧ t.ladle.frames.find? id = none ∧
        Counted s t (F.ladCntCount 10) 1 ∧ Noted s t 0x2000 2 6 (word (region.val + 6 * 2 ^ 24)))) ∧
    (∀ id f rest, (s.queue (16384 + mq.val)).entries = .frame id :: rest → s.ladle.frames.find? id = some f → (∀ p ∈ s.ladle.frames, p.2.coming = none) →
      let grp := s.group (f.flow - 0x1FC000)
      let qd := s.classQueue dst.val f.cls (0x1FC000 + (f.flow - 0x1FC000))
      grp.valid = true → grp.dests = 2 ^ dst.val → dst.val ≠ f.src → s.queueDepth qd < 64 * s.fld F.ladMcCtrlAdmit → s.ladle.hold = [] →
      ∃ t, exec (.mcReplicate mq) s = .next t ∧ (t.queue (16384 + mq.val)).entries = rest ∧
        (t.queue qd).entries = (s.queue qd).entries ++ [.frame id] ∧ (∃ x, t.ladle.frames.find? id = some x ∧ x.refs = 1)) ∧
    (held = none → exec (.mcHoldAdmit g dst) s = .next s ∧ exec (.mcDrop g dst) s = .next s) ∧
    (∀ c f, held = some c → s.ladle.frames.find? c.frame = some f →
      let qd := s.classQueue dst.val f.cls (0x1FC000 + g.val)
      (64 * s.fld F.ladMcCtrlAdmit ≤ s.queueDepth qd → exec (.mcHoldAdmit g dst) s = .next s) ∧
      (s.queueDepth qd < 64 * s.fld F.ladMcCtrlAdmit → f.coming = none → ∃ t, exec (.mcHoldAdmit g dst) s = .next t ∧
        (t.queue qd).entries = (s.queue qd).entries ++ [.frame c.frame] ∧ t.ladle.hold = dropHeld c s.ladle.hold ∧
        t.ladle.frames = s.ladle.frames ∧ t.regs = s.regs) ∧
      (f.refs = 1 → f.coming = none → Quiet s → NoRecovery s 32 → ∃ t, exec (.mcDrop g dst) s = .next t ∧
        t.ladle.frames.find? c.frame = none ∧ t.ladle.hold = dropHeld c s.ladle.hold ∧ Counted s t (F.ladCntCount 8) 1 ∧
        t.time.now = max s.time.now (c.since + 1000 * max 10 (min 10000 (s.fld F.ladMcCtrlHold))) ∧
        (t.group g.val).drops = min 0xFFFFFFFF ((s.group g.val).drops + 1) ∧ (t.group g.val).dests = (s.group g.val).dests)) ∧
    ((s.flow flow.val).held = [] → exec (.reseqSkip flow) s = .next s) ∧
    ((s.flow flow.val).held.length < s.reseqDepth → (∀ p ∈ (s.flow flow.val).held.head?, (s.flow flow.val).holdNs - p.2.2 < s.reseqTimeout) →
      exec (.reseqSkip flow) s = .next s) ∧
    (∀ a id z, (s.flow flow.val).held = [(a, id, z)] → a < 65536 → s.reseqTimeout ≤ (s.flow flow.val).holdNs - z → Quiet s → NoRecovery s 32 →
      ∃ t, exec (.reseqSkip flow) s = .next t ∧ (t.flow flow.val).held = [] ∧ (t.flow flow.val).exp = (a + 1) % 65536 ∧
        t.releasedOf (s.flow flow.val).dst = s.releasedOf (s.flow flow.val).dst ++ [id] ∧
        (t.flow flow.val).skips = min 0xFFFF ((s.flow flow.val).skips + 1) ∧ Counted s t (F.ladCntCount 6) 1 ∧
        Noted s t 0x2000 1 3 (word (flow.val + 3 * 2 ^ 24))) ∧
    (s.ladle.frames.find? frame = none → exec (.cutThroughStomp frame) s = .next s) ∧
    (∀ f, s.ladle.frames.find? frame = some f → f.coming = none → exec (.cutThroughStomp frame) s = .next s) ∧
    (∀ f, s.ladle.frames.find? frame = some f → f.coming.isSome = true → ∃ t, exec (.cutThroughStomp frame) s = .next t ∧
      t.ladle.frames.find? frame = none ∧ (∀ k, .frame frame ∉ (t.queue k).entries) ∧ Counted s t (F.ladCntCount 0) f.started) ∧
    (Admitted s m R.ladGrpCommit → v.getLsbD 31 = false → exec (.ladGrpCommit m v) s = .next s) ∧
    (Admitted s m R.ladGrpCommit → v.getLsbD 31 = true → ∃ t, exec (.ladGrpCommit m v) s = .next t ∧
      let old := s.group (v.toNat % 16384)
      let new := t.group (v.toNat % 16384)
      let w := fun (i : Nat) => s.ladle.shadow.get (fun _ => (0 : Word)) i
      (∀ d, d < 512 → new.dests.testBit d = (w (d / 32)).getLsbD (d % 32)) ∧ new.valid = (w 16).getLsbD 0 ∧ new.self = (w 16).getLsbD 1 ∧
      new.drops = old.drops ∧ (∀ o, o ≠ v.toNat % 16384 → t.group o = s.group o) ∧
      { t with ladle := { t.ladle with groups := s.ladle.groups } } = s) ∧
    (s.service.meter = none → ∃ t, exec .shaperRefill s = .next t ∧ s.time.net < t.time.net ∧ t.time.net ≤ s.time.net + 1280 ∧
      t.time.net % 1280 = 0 ∧ t.regs = s.regs ∧ t.ladle = s.ladle ∧
      ∀ k, k ∈ s.shapers → k < 16384 →
        let w := s.reg (R.lsvQshp k)
        let was := (s.service.inForce.get (fun _ => 0) k).toNat / 65536
        let content := s.service.bucket.get (fun _ => (0 : Int)) k
        t.service.inForce.get (fun _ => 0) k = w ∧
        t.service.bucket.get (fun _ => (0 : Int)) k =
          min (256 * ((w.toNat % 65536 : Nat) : Int)) (if w.toNat / 65536 = 0 ∨ was = 0 then 0 else content + 16 * (w.toNat / 65536 : Nat)))

/-- Clauses of R161, R183 to R189, R227 to R231: control traffic of the ladle plane. -/
def Obligations.LineCards : Prop := Claims.LineCards

/-- Clauses of R192, R197 to R199, R224: the ladle ports. -/
def Obligations.LadlePorts : Prop := Claims.LadlePorts

/-- Clauses of R201 to R222, R345: the ladle buffer. -/
def Obligations.LadleBuffer : Prop := Claims.LadleBuffer

/-! ## Jobs, claims and live change -/

/-- Clauses of R261, R290, Tables 12.13 to 12.16: doorbells and the ring's control. A doorbell value is taken when the ring is enabled and the span
of posted descriptors does not shorten; every other is discarded and logged. Clearing EN empties the ring. -/
def Sys2Proof.Claims.Doorbells : Prop :=
  ∀ (s : State) (m : Master) (p : Fin 2) (off : Nat) (v : Word),
    let n := 2 ^ max 4 (min 12 (s.fld (ringSize p.val)))
    let h := s.fld (ringHead p.val)
    let tail := s.fld (ringTail p.val)
    let new := v.toNat % 4096
    let fits := s.flag (ringEn p.val) = true ∧ new < n ∧ (tail + n - h) % n ≤ (new + n - h) % n
    let a : Access := { master := m, space := 2, addr := off, size := 4, write := true }
    let pf := m.toNat % 128 = 0x58 + p.val ∧ NoWait s m
    let ctrl := if p = 0 then R.jobRing0Ctrl else R.jobRing1Ctrl
    (¬(m.toNat % 128 = 0x58 ∨ m.toNat % 128 = 0x59) ∨ s.answers m = false → exec (.jobDoorbell m off v) s = .next s) ∧
    (pf → s.answers m = true → off = 0x1000 * p.val → fits → ∃ t, exec (.jobDoorbell m off v) s = .next t ∧
      t.fld (ringTail p.val) = new ∧ t.fld (ringHead p.val) = h ∧ (∀ o, o ≠ (ringTail p.val).off → t.reg o = s.reg o) ∧
      { t with regs := s.regs } = s) ∧
    (pf → s.answers m = true → off = 0x1000 * p.val → ¬fits → s.bus.hand = none →
      exec (.jobDoorbell m off v) s = .next (s.logAccess a 8)) ∧
    (pf → s.answers m = true → off = 0x1000 * (1 - p.val) → s.bus.hand = none → exec (.jobDoorbell m off v) s = .next (s.logAccess a 2)) ∧
    (pf → s.answers m = true → off ≠ 0 → off ≠ 0x1000 → s.bus.hand = none → exec (.jobDoorbell m off v) s = .next (s.logAccess a 1)) ∧
    (Admitted s m ctrl → ∃ t, exec (.jobRingCtrlWrite m p v) s = .next t ∧
      t.flag (ringEn p.val) = v.getLsbD 31 ∧ t.fld (ringSize p.val) = v.toNat % 16 ∧ t.flag F.cfgStatusDirty = true ∧
      (v.getLsbD 31 = true → t.fld (ringHead p.val) = h ∧ t.fld (ringTail p.val) = tail) ∧
      (v.getLsbD 31 = false → t.fld (ringHead p.val) = 0 ∧ t.fld (ringTail p.val) = 0) ∧
      (∀ o, o ≠ ctrl → o ≠ R.cfgStatus → o ≠ (ringHead p.val).off → t.reg o = s.reg o) ∧
      { t with regs := s.regs, bus := s.bus } = s)

/-- Clauses of R261, R263, Table 12.3: what is asked of every descriptor before its opcode. From a ring that is empty or not enabled nothing is
taken. Of PF1 every opcode but NOP and QUERY is PRIV, in START it is BUSY, and with a field marked zero not zero it is BAD_OPCODE;
it is written back so and has no effect. NOP is OK. That these are tried in this order is the model's choice (log 88). -/
def Sys2Proof.Claims.Descriptors : Prop :=
  ∀ (s : State) (i : Instr) (d : Desc) (always : Bool), descOf i = some (d, always) →
    let p := d.pf.val
    let idle := s.flag (ringEn p) = false ∨ s.fld (ringHead p) = s.fld (ringTail p)
    let refused := fun (result : Nat) => ∃ t, exec i s = .next t ∧ Answered s t d { result := result, state := 0xFF, id := 0, data := 0 } [] ∧
      { t.jobs with back := s.jobs.back } = s.jobs
    (idle → exec i s = .next s) ∧
    (¬idle → p = 1 → always = false → refused 2) ∧
    (¬idle → p = 0 → s.svc = 1 → always = false → refused 1) ∧
    (¬idle → ¬(always = false ∧ (p = 1 ∨ s.svc = 1)) → d.zeroOk = false → refused 3) ∧
    (¬idle → i = .nop d → d.zeroOk = true → refused 0)

/-- Clauses of R264, R265, R276, R377, Tables 12.2, 12.3, 12.5, 12.8: LOAD_IMAGE and START. A type without R refuses RECOVERY, a full table, an
argument out of range, a state the type does not run in and an object that another job names each refuse the START with the result
of Table 12.3, and no job is created; otherwise a job is QUEUED under NEXT_ID, and NEXT_ID and USED follow. The order of the checks
is the model's choice (log 88). -/
def Sys2Proof.Claims.Starts : Prop :=
  ∀ (s : State) (d : Desc) (tiles : BitVec 16) (image : HeatImage) (count : BitVec 16) (entries : List LibEntry) (kind : Fin 16) (slotB : Bool)
    (regions : BitVec 128) (index : Fin 8192) (restore port : Bool) (bank : Fin 64) (region : Fin 128) (flask : Fin 64) (core : Fin 128)
    (type : Fin 4) (tile : Fin 16) (channel : Fin 64) (ret : Bool) (imageKind : Fin 65536) (len : BitVec 32), Accepted s d →
    let holdOrRun := s.dev = 1 ∨ s.dev = 2
    let number := if type.val = 0 ∧ core.val < 72 then some core.val else if type.val = 1 ∧ core.val < 8 then some (72 + core.val)
      else if type.val = 2 ∧ core.val < 2 then some (80 + core.val) else none
    let own := s.spareFor tile.val channel.val
    let rows : List StartRow := [
      ⟨.startCalFull d tiles, .calFull tiles.toNat, false, tiles ≠ 0, s.dev = 1 ∧ s.svc ≠ 0, none⟩,
      ⟨.startCalTransfer d tiles, .calTransfer tiles.toNat, false, tiles ≠ 0, holdOrRun ∧ (s.svc = 0 ∨ s.svc = 2), none⟩,
      ⟨.startHeatLoad d image, .heatLoad image, false, 1 ≤ image.records.length ∧ image.records.length ≤ 4096,
        s.dev = 2 ∧ s.flag F.heatSchedHost = true, some image.entries.length⟩,
      ⟨.startMouldLib d count entries, .mouldLib (entries.take count.toNat), false, 1 ≤ count.toNat ∧ count.toNat ≤ 8183, holdOrRun,
        some (min count.toNat entries.length)⟩,
      ⟨.startFwActivate d kind slotB, .fwActivate kind.val slotB, false, 1 ≤ kind.val ∧ kind.val ≤ 3,
        holdOrRun ∧ (kind.val = 1 → s.standbyReady = true), some (if kind.val = 2 then 64 else 1)⟩,
      ⟨.startSurvey d restore, .survey restore, false, True, s.dev = 1 ∧ (s.svc = 2 ∨ s.svc = 3), none⟩,
      ⟨.startRiserScrub d regions, .riserScrub regions.toNat, false, True, s.dev = 2, none⟩,
      ⟨.startElemRetire d index restore port, .elemRetire index.val restore port, true,
        index.val < (if port then 592 else 5152), holdOrRun, some 1⟩,
      ⟨.startBankRetire d bank, .bankRetire bank.val, true, True, holdOrRun, none⟩,
      ⟨.startRegionRetire d region, .regionRetire region.val, true, True, s.dev = 2, none⟩,
      ⟨.startFlaskMove d flask core, .flaskMove flask.val core.val, true,
        core.val < 72 ∧ (s.flaskCore flask.val = core.val ∨ s.coreTaken core.val = false), holdOrRun, some 1⟩,
      ⟨.startCoreRestart d core type, .coreRestart (number.getD 0), true, number ≠ none, holdOrRun, some 1⟩,
      ⟨.startAdcTakeover d tile channel ret, .adcTakeover tile.val channel.val ret, true, channel.val < 45 ∧
        (ret = false ∧ own = none ∨ ret = true ∧ ∃ sp, own = some sp ∧ (s.jobs.claim (8 + 3 * tile.val + sp)).standing = true), holdOrRun, some 1⟩]
    let image : List StartRow := if 1 ≤ imageKind.val ∧ imageKind.val ≤ 3 then [⟨.loadImage d imageKind len slotB,
      .imageLoad imageKind.val slotB, false, 0 < len.toNat ∧ len.toNat ≤ 0x800000, s.fld (slotFld imageKind.val slotB) ≠ 2, some 1⟩] else []
    (imageKind.val = 0 ∨ 3 < imageKind.val → ∃ t, exec (.loadImage d imageKind len slotB) s = .next t ∧
      Answered s t d { result := 3, state := 0xFF, id := 0, data := 0 } [] ∧ { t.jobs with back := s.jobs.back } = s.jobs) ∧
    ∀ r ∈ rows ++ image,
      let refused := fun (result : Nat) => ∃ t, exec r.cmd s = .next t ∧ Answered s t d { result := result, state := 0xFF, id := 0, data := 0 } [] ∧
        { t.jobs with back := s.jobs.back } = s.jobs
      let badClass := d.recovery = true ∧ r.recovery = false
      let full := 32 ≤ s.jobs.table.length
      let named := ∃ j ∈ s.jobs.table, j.state.terminal = false ∧ ∃ o, o ∈ r.kind.objects ∧ o ∈ j.kind.objects
      let id := s.fld F.jobActiveNextId
      (badClass → refused 9) ∧ (¬badClass → full → refused 6) ∧ (¬badClass → ¬full → ¬r.args → refused 4) ∧
      (¬badClass → ¬full → r.args → ¬r.runs → refused 5) ∧ (¬badClass → ¬full → r.args → r.runs → named → refused 8) ∧
      (¬badClass → ¬full → r.args → r.runs → ¬named → ∃ t j, exec r.cmd s = .next t ∧
        Answered s t d { result := 0, state := 0, id := id, data := 0 } [R.jobActive] ∧ t.jobs.table.getLast? = some j ∧
        t.jobs.table.length = s.jobs.table.length + 1 ∧ (d.recovery = false → t.jobs.table = s.jobs.table ++ [j]) ∧
        j.id = id ∧ j.kind = r.kind ∧ j.state = .queued ∧ j.evt = d.evt ∧ j.recovery = d.recovery ∧ j.progress = 0 ∧ j.cause = 0 ∧
        j.past = false ∧ (∀ n, r.total = some n → j.total = n) ∧ t.fld F.jobActiveNextId = id % 65535 + 1 ∧
        t.fld F.jobActiveUsed = s.jobs.table.length + 1 ∧ (j.needs = [] → t.jobs.claims = s.jobs.claims))

/-- Clauses of R266, R267, R264, Table 12.2: SUSPEND, RESUME, CANCEL and QUERY, each by the state of the job it names; NO_JOB without one. A job
past its last safe point runs on. QUERY shows progress, objects, the claim awaited, the cause and half the tag, and frees the
entry of a job that is over. -/
def Sys2Proof.Claims.JobOpcodes : Prop :=
  ∀ (s : State) (d : Desc) (id : BitVec 16),
    let key := id.toNat
    let none' := s.job key = none
    let kept := fun (i : Instr) (w : WriteBack) => ∃ t, exec i s = .next t ∧ Answered s t d w [] ∧ { t.jobs with back := s.jobs.back } = s.jobs
    let changed := fun (i : Instr) (w : WriteBack) (j : Job) => ∃ t, exec i s = .next t ∧ Answered s t d w [] ∧ t.job key = some j ∧
      (∀ k, k ≠ key → t.job k = s.job k) ∧ t.jobs.claims = s.jobs.claims
    (Accepted s d → none' → ∀ i ∈ [Instr.suspend d id, .resume d id, .cancel d id], kept i ⟨7, 0xFF, 0, 0⟩) ∧
    (Posted s d → none' → kept (.query d id) ⟨7, 0xFF, 0, 0⟩) ∧
    (∀ j, s.job key = some j →
      let ended := j.state = .done ∨ j.state = .failed ∨ j.state = .cancelled
      let closed := ended ∨ j.state = .cancelling ∨ j.state = .running ∧ j.past = true
      let now := fun (result : Nat) (st : JobState) => (⟨result, st.code, j.id, 0⟩ : WriteBack)
      (Accepted s d → closed → kept (.suspend d id) (now 5 j.state) ∧ kept (.cancel d id) (now 5 j.state)) ∧
      (Accepted s d → ¬closed →
        let st := if j.state = .queued then JobState.suspended else if j.state = .running then .suspending else j.state
        changed (.suspend d id) (now 0 st) { j with hostSusp := true, state := st }) ∧
      (Accepted s d → ¬(j.state = .suspending ∨ j.state = .suspended) → kept (.resume d id) (now 5 j.state)) ∧
      (Accepted s d → j.state = .suspending → changed (.resume d id) (now 0 .suspending) { j with hostSusp := false }) ∧
      (Accepted s d → j.state = .suspended → j.preempted = false ∨ s.met j = true →
        ∃ t, exec (.resume d id) s = .next t ∧ Answered s t d (now 0 .queued) [] ∧ t.jobs.claims = s.jobs.claims ∧
          t.job key = some { j with hostSusp := false, preempted := false, state := .queued }) ∧
      (Accepted s d → j.state = .suspended → j.preempted = true → s.met { j with hostSusp := false } = false →
        changed (.resume d id) (now 0 .suspended) { j with hostSusp := false }) ∧
      (Accepted s d → j.state = .running ∧ j.past = false ∨ j.state = .suspending →
        changed (.cancel d id) (now 0 .cancelling) { j with state := .cancelling }) ∧
      (Accepted s d → j.state = .queued ∨ j.state = .suspended → (∀ p, s.passOf key = some p → p.bare = p) →
        (∀ b, j.kind = .fwActivate 2 b → j.progress = 0) → ∃ t, exec (.cancel d id) s = .next t ∧
        t.jobs.back.find? (s.fld (ringHead 0)) = some (now 0 .cancelled) ∧
        t.job key = some { j with state := .cancelled, cause := 0, endedAt := s.time.now, lost := [] } ∧
        (∀ r rc, r < 71 → (t.jobs.claim r).holder = some (.job j.id rc) → (t.jobs.claim r).standing = true) ∧
        (s.jobs.table = [j] → Room s → j.evt = true → Told s t 0x500 0 0 (word (j.id + 7 * 65536)))) ∧
      (Posted s d →
        let data := min 65535 j.progress + 65536 * min 65535 j.total + 2 ^ 32 * s.awaited j + 2 ^ 40 * j.cause + 2 ^ 48 * (d.tag.toNat % 65536)
        (¬ended → kept (.query d id) ⟨0, j.state.code, j.id, data⟩) ∧
        (ended → ∃ t, exec (.query d id) s = .next t ∧ Answered s t d ⟨0, j.state.code, j.id, data⟩ [R.jobActive] ∧
          (∀ x, x ∈ t.jobs.table ↔ x ∈ s.jobs.table ∧ x.id ≠ key) ∧ t.fld F.jobActiveUsed = t.jobs.table.length % 64 ∧
          t.jobs.claims = s.jobs.claims)))

/-- Clauses of R268, R272, R273: COMMIT_CONFIG writes the running CRC to CFG_REF unless another was expected. A host claim is granted when free and
otherwise joins the FIFO, BUSY; a release frees or withdraws; what is released goes to the head of its FIFO, and a host served
late is told. -/
def Sys2Proof.Claims.ClaimsAndConfig : Prop :=
  ∀ (s : State) (d : Desc) (use : Bool) (expect : Word) (res : Fin 256) (r : Fin 71),
    let crc := s.configCrc
    let kept := fun (i : Instr) (w : WriteBack) => ∃ t, exec i s = .next t ∧ Answered s t d w [] ∧ { t.jobs with back := s.jobs.back } = s.jobs
    let c := s.jobs.claim res.val
    let nobody := c.holder = none ∧ c.fifo = []
    let moved := fun (i : Instr) (result : Nat) (c : Claim) => ∃ t, exec i s = .next t ∧ Answered s t d ⟨result, 0xFF, 0, 0⟩ [] ∧
      t.jobs.claim res.val = c ∧ (∀ x, x ≠ res.val → t.jobs.claim x = s.jobs.claim x) ∧ t.jobs.table = s.jobs.table
    (Accepted s d → use = true ∧ expect ≠ crc → kept (.commitConfig d use expect) ⟨10, 0xFF, 0, crc.toNat⟩) ∧
    (Accepted s d → ¬(use = true ∧ expect ≠ crc) → ∃ t, exec (.commitConfig d use expect) s = .next t ∧
      Answered s t d ⟨0, 0xFF, 0, crc.toNat⟩ [R.cfgRef, R.cfgStatus] ∧ t.reg R.cfgRef = crc ∧ t.flag F.cfgStatusDirty = false ∧
      t.flag F.cfgStatusArmed = true ∧ { t.jobs with back := s.jobs.back } = s.jobs) ∧
    (Accepted s d → 70 < res.val → ∀ i ∈ [Instr.claim d res, .release d res], kept i ⟨4, 0xFF, 0, 0⟩) ∧
    (Accepted s d → res.val ≤ 70 →
      (nobody → moved (.claim d res) 0 { c with holder := some .host }) ∧
      (c.holder = some .host → kept (.claim d res) ⟨0, 0xFF, 0, 0⟩) ∧
      (¬nobody → c.holder ≠ some .host → .host ∉ c.fifo → moved (.claim d res) 1 { c with fifo := c.fifo ++ [.host] }) ∧
      (c.holder = some .host → moved (.release d res) 0 { c with holder := none, standing := false }) ∧
      (c.holder ≠ some .host → .host ∈ c.fifo → moved (.release d res) 0 { c with fifo := c.fifo.filter (· ≠ .host) }) ∧
      (c.holder ≠ some .host → .host ∉ c.fifo → kept (.release d res) ⟨5, 0xFF, 0, 0⟩)) ∧
    let g := s.jobs.claim r.val
    (g.holder ≠ none ∨ g.fifo = [] → exec (.claimGrant r) s = .next s) ∧
    (∀ rest, g.holder = none → g.fifo = .host :: rest → Room s → ∃ t, exec (.claimGrant r) s = .next t ∧
      t.jobs.claim r.val = { g with holder := some .host, fifo := rest } ∧ (∀ x, x ≠ r.val → t.jobs.claim x = s.jobs.claim x) ∧
      Noted s t 0x500 0 0 (word (0xFFFF + r.val * 65536))) ∧
    (∀ rest id rc j, g.holder = none → g.fifo = .job id rc :: rest → s.job id = some j → j.state.terminal = false →
      ∃ t, exec (.claimGrant r) s = .next t ∧ t.jobs.claim r.val = { g with holder := some (.job id rc), fifo := rest } ∧
        (j.state ≠ .suspended → t.jobs.table = s.jobs.table) ∧ { t with jobs := s.jobs } = s)

/-- Clauses of R265 to R267, R269, R274, Table 12.4: a QUEUED job that holds its minimum claims runs; at a safe point a job whose state was left is
FAILED, a CANCELLING one CANCELLED, and a SUSPENDING one SUSPENDED, giving up what preempted it; a running one goes on, and one of
a single safe point is past it. A job past its last safe point has none. -/
def Sys2Proof.Claims.SafePoints : Prop :=
  ∀ (s : State) (id : BitVec 16) (progress : Nat),
    let key := id.toNat
    let run := Instr.jobRun id
    let safe := Instr.jobSafePoint id progress
    (s.job key = none → exec run s = .next s ∧ exec safe s = .next s) ∧
    (∀ j, s.job key = some j →
      let lone := s.jobs.table = [j] ∧ j.kind.runsIn s.dev s.svc = true ∧ Room s
      let n := if j.kind.counts = true ∨ progress < j.progress ∨ j.total < progress then j.progress else progress
      let stops := j.past = false ∧ s.compiling key = false ∧ j.stateLeft = false
      let still := (∀ p, s.passOf key = some p → p.bare = p) ∧ (∀ b, j.kind = .fwActivate 2 b → n = 0)
      (j.state ≠ .queued ∨ s.met j = false → exec run s = .next s) ∧
      (j.state = .queued → s.met j = true → lone → ∃ t, exec run s = .next t ∧ t.job key = some { j with state := .running } ∧
        t.jobs.claims = s.jobs.claims ∧ (∀ m, j.kind = .calFull m → t.flag F.calStatusBusy = true ∧ (s.passOf key = none →
          ∃ p, t.passOf key = some p ∧ p.pos = 0 ∧ p.tiles = maskTiles m ∧ p.refOk = some (decide (s.refReads = 0)))) ∧
        (∀ b, j.kind = .survey b → t.fabric = 3) ∧
        (∀ es e, j.kind = .mouldLib es → es[j.progress]? = some e → s.compiling key = false → j.cause = 0 →
          ∃ r ∈ t.moulds.waiting, r.who = .library key ∧ r.target = e.target.toNat ∧ r.base = e.base.map BitVec.toNat ∧
            r.assign = e.assign.map BitVec.toNat ∧ r.tag = word key)) ∧
      (j.past = true ∨ s.compiling key = true ∨ (j.state ≠ .running ∧ j.state ≠ .suspending ∧ j.state ≠ .cancelling) →
        exec safe s = .next s) ∧
      (j.past = false → s.compiling key = false → j.stateLeft = true → j.state = .running → still →
        ∃ t x, exec safe s = .next t ∧ t.job key = some x ∧ x.state = .failed ∧ x.cause = 1 ∧ x.kind = j.kind) ∧
      (stops → j.state = .cancelling → still → ∃ t x, exec safe s = .next t ∧ t.job key = some x ∧ x.state = .cancelled ∧ x.cause = 0 ∧
        x.progress = n ∧ x.endedAt = s.time.now ∧ (lone → j.evt = true → Told s t 0x500 0 0 (word (j.id + 7 * 65536)))) ∧
      (stops → j.state = .suspending → j.hostSusp = true → lone → still → ∃ t x, exec safe s = .next t ∧ t.job key = some x ∧
        x.state = .suspended ∧ x.progress = n ∧ (j.lost = [] → t.jobs.claims = s.jobs.claims)) ∧
      (∀ r, stops → j.state = .suspending → lone → still → j.lost = [r] → s.holds key r = true → ∃ t, exec safe s = .next t ∧
        (t.jobs.claim r).holder = none ∧ .job key j.recovery ∈ (t.jobs.claim r).fifo ∧
        ∀ x, x ≠ r → t.jobs.claim x = s.jobs.claim x) ∧
      (stops → j.state = .running → (∃ i a b, j.kind = .elemRetire i a b) ∨ (∃ c, j.kind = .coreRestart c) →
        ∃ t, exec safe s = .next t ∧ t.job key = some { j with progress := n, past := true } ∧ t.jobs.claims = s.jobs.claims) ∧
      (∀ k b, stops → j.state = .running → j.kind = .imageLoad k b → ∃ t, exec safe s = .next t ∧
        t.job key = some { j with progress := n, past := true } ∧ t.fld (slotFld k b) = 0) ∧
      (stops → j.state = .running → (∃ m, j.kind = .riserScrub m) ∨ (∃ m, j.kind = .calTransfer m ∧ n = j.progress) →
        ∃ t, exec safe s = .next t ∧ t.job key = some { j with progress := n } ∧ { t with jobs := s.jobs } = s) ∧
      (∀ m tile, stops → j.state = .running → j.kind = .calTransfer m → n = j.progress + 1 → (maskTiles m)[j.progress / 644]? = some tile →
        exec safe s = .next ((s.changeJob key fun j => { j with progress := n }).transfer (644 * tile + j.progress % 644))) ∧
      (∀ b, stops → j.state = .running → j.kind = .bankRetire b → ∃ t, exec safe s = .next t ∧ t.job key = some { j with progress := n } ∧
        b ∈ t.ladle.retiringBanks ∧ t.ladle.queues = s.ladle.queues ∧ (n = j.progress → t.ladle.frames = s.ladle.frames) ∧
        (∀ f x, n = j.progress + 1 → b ∈ s.goneBanks → (s.inBank b).head? = some f → s.ladle.frames.find? f = some x →
          s.onchipCells + x.cells.length + 16384 * s.goneBanks.length ≤ 64 * 16384 → (∀ o, o ≠ f → t.ladle.frames.find? o = s.ladle.frames.find? o) ∧
            ∃ y, t.ladle.frames.find? f = some y ∧ { y with cells := x.cells } = x ∧ y.cells.length = x.cells.length ∧
              ∀ c ∈ y.cells, c / 16384 ≠ b)) ∧
      (∀ r, stops → j.state = .running → j.kind = .regionRetire r → ∃ t, exec safe s = .next t ∧
        t.job key = some { j with progress := n } ∧ r ∈ t.ladle.retiringRegions ∧
        { t with jobs := s.jobs, ladle := { t.ladle with retiringRegions := s.ladle.retiringRegions } } = s))

/-- Clauses of R55, R201, R208, R253, R264, R267, R270, R273, R276: the work of a job ends. A job that does not run is as before; one that failed shows its cause;
a finished one is DONE with what its work changes, its claims released but a standing one, and its end told as R264 says; 10 s
later its entry is freed. -/
def Sys2Proof.Claims.JobEnds : Prop :=
  ∀ (s : State) (id : BitVec 16) (c : Fin 16),
    let key := id.toNat
    let ends := Instr.jobComplete id .done
    (s.job key = none → ∀ i ∈ [ends, .jobComplete id (.failed c), .jobEntryFree id], exec i s = .next s) ∧
    (∀ j, s.job key = some j →
      let runs := j.state = .running ∨ j.state = .suspending ∨ j.state = .cancelling
      let calm := Room s ∧ (s.dev ≠ 1 ∨ s.jobs.table = [j])
      let still := (∀ p, s.passOf key = some p → p.bare = p) ∧ (∀ b, j.kind = .fwActivate 2 b → j.progress = 0)
      let released := fun (t : State) => ∀ r rc, r < 71 → (t.jobs.claim r).holder = some (.job j.id rc) → (t.jobs.claim r).standing = true
      let endsAs := fun (t : State) (st : JobState) (cause : Nat) => ∃ x, t.job key = some x ∧ x.state = st ∧ x.cause = cause ∧
        x.endedAt = s.time.now ∧ x.kind = j.kind ∧ released t
      let done := fun (what : State → Prop) => calm → ∃ t, exec ends s = .next t ∧ endsAs t .done 0 ∧ what t ∧
        (j.evt = true → Told s t 0x500 0 0 (word (j.id + 5 * 65536)))
      (¬runs → exec ends s = .next s ∧ exec (.jobComplete id (.failed c)) s = .next s) ∧
      (runs → j.cause = 0 → still → ∃ t, exec (.jobComplete id (.failed c)) s = .next t ∧ endsAs t .failed c.val ∧
        (calm → NoRecovery s 5 → Told s t 0x500 1 0 (word (j.id + 6 * 65536 + c.val * 1048576)))) ∧
      (runs → j.cause ≠ 0 → still → ∀ i ∈ [ends, .jobComplete id (.failed c)], ∃ t, exec i s = .next t ∧ endsAs t .failed j.cause) ∧
      (runs → j.cause = 0 → (∃ m, j.kind = .calTransfer m ∧ j.progress = j.total) ∨ (∃ m, j.kind = .riserScrub m) → done fun t => t.ladle = s.ladle ∧ t.tiles = s.tiles) ∧
      (∀ b, j.cause = 0 → j.kind = .bankRetire b → b ∉ s.ladle.retiringBanks → exec ends s = .next s) ∧
      (∀ b, runs → j.cause = 0 → j.kind = .bankRetire b → b ∈ s.ladle.retiringBanks → s.inBank b = [] → done fun t =>
        t.inBank b = [] ∧ ∀ x, x ∈ t.ladle.retiredBanks ↔ x = b ∨ x ∈ s.ladle.retiredBanks) ∧
      (∀ r, runs → j.cause = 0 → j.kind = .regionRetire r → r ∈ s.ladle.retiringRegions → done fun t =>
        ∀ x, x ∈ t.ladle.retiredRegions ↔ x = r ∨ x ∈ s.ladle.retiredRegions) ∧
      (∀ k b, runs → j.cause = 0 → j.kind = .imageLoad k b → j.past = true → done fun t => t.fld (slotFld k b) = 1) ∧
      (∀ b, runs → j.cause = 0 → j.kind = .fwActivate 2 b → j.progress = 64 → done fun t =>
        t.fld (slotFld 2 b) = 2 ∧ (s.fld (slotFld 2 !b) = 2 → t.fld (slotFld 2 !b) = 1)) ∧
      (∀ k, runs → j.cause = 0 → j.kind = .coreRestart k → j.past = true → k < 82 → s.bus.bursts = [] → done fun t =>
        ∀ die : Die, let x := t.core (k + 128 * die.code)
          let old := s.core (k + 128 * die.code)
          x.pc = 0 ∧ x.halted = false ∧ x.inTrap = false ∧ x.user = false ∧ x.mem = old.mem ∧ x.code = old.code ∧ ∀ i, i < 32 → x.r i = 0) ∧
      (∀ i, runs → j.cause = 0 → j.kind = .elemRetire i false true → j.past = true → done fun t =>
        ∀ x, x ∈ t.moulds.retiredPorts ↔ x = i ∨ x ∈ s.moulds.retiredPorts) ∧
      (∀ i port, runs → j.cause = 0 → j.kind = .elemRetire i false port → j.past = false → exec ends s = .next s) ∧
      (∀ f k, runs → j.cause = 0 → j.kind = .flaskMove f k → j.past = true → s.flaskCore f = k → s.fld (F.loopFlaskMapState f) = 0 → 64 ≤ k → k < 72 →
        s.holds key (k - 64) = true → s.coreTaken k = true → done fun t => (t.jobs.claim (k - 64)).standing = true ∧ t.holds key (k - 64) = true) ∧
      (j.state.terminal = false → exec (.jobEntryFree id) s = .next s) ∧
      (j.state.terminal = true → ∃ t, exec (.jobEntryFree id) s = .next t ∧ t.time.now = max s.time.now (j.endedAt + 10000000000) ∧
        (∀ x, x ∈ t.jobs.table ↔ x ∈ s.jobs.table ∧ x.id ≠ key) ∧ t.fld F.jobActiveUsed = t.jobs.table.length % 64 ∧
        t.jobs.claims = s.jobs.claims))

/-- Clauses of R278, Table 12.22: JOB_FLOW_EDIT with GO changes the masked bits of VALID, RESEQ and HEAVY_PIN of one flow together, and nothing
else; without GO it has no effect. -/
def Sys2Proof.Claims.FlowEdits : Prop :=
  ∀ (s : State) (m : Master) (v : Word), Admitted s m R.jobFlowEdit →
    let f := v.toNat % 2097152
    let old := s.flow f
    (v.getLsbD 31 = false → exec (.jobFlowEdit m v) s = .next s) ∧
    (v.getLsbD 31 = true → ∃ t, exec (.jobFlowEdit m v) s = .next t ∧
      t.flow f = { old with valid := if v.getLsbD 27 then v.getLsbD 30 else old.valid, reseq := if v.getLsbD 26 then v.getLsbD 29 else old.reseq,
                            pin := if v.getLsbD 25 then v.getLsbD 28 else old.pin } ∧
      (∀ o, o ≠ f → t.flow o = s.flow o) ∧ { t with ladle := { t.ladle with flows := s.ladle.flows } } = s)

/-- Clauses of R261, R263, R264, R276, R377: doorbells, descriptors and the opcodes that start jobs. -/
def Obligations.JobRings : Prop := Claims.Doorbells ∧ Claims.Descriptors ∧ Claims.Starts

/-- Clauses of R264, R266 to R268, R272, R273: opcodes on jobs, claims and the configuration. -/
def Obligations.JobOpcodes : Prop := Claims.JobOpcodes ∧ Claims.ClaimsAndConfig

/-- Clauses of R264 to R278: jobs at their safe points and their ends, and flow edits. -/
def Obligations.JobWork : Prop := Claims.SafePoints ∧ Claims.JobEnds ∧ Claims.FlowEdits

/-! ## Cope and drag -/

/-- Clauses of R316 to R318, R322 to R325, R331: heartbeats, self-test, link and copy. A heartbeat loss is counted and starts an arbitration, or makes
one of the same edge its own; a health bit stands, and removes a ready standby or keeps a die out; CRC failures beyond the
limit set LINK; the standby takes what was streamed before a frame boundary 200 ns after it, and is lost with the link. -/
def Sys2Proof.Claims.Detection : Prop :=
  ∀ (s : State) (d : Die) (bit : Fin 8),
    let word' := s.fld (healthFld d) ||| 2 ^ bit.val
    let cope := if d = .cope then word' else s.fld F.cdHealthCope
    let drag := if d = .drag then word' else s.fld F.cdHealthDrag
    let hw := bit = 0 ∨ bit = 1 ∨ bit = 3 ∨ bit = 4
    let recent := s.time.now :: (s.cd.crcFails.get (fun _ => []) d.code).filter (fun t => s.time.now < t + 1000000)
    let beyond := max 1 (min 255 (s.fld F.cdCtrlCrclim)) < recent.length
    let due := ∀ t, s.cd.crcEvent = some t → t + 1000000000 ≤ s.time.now
    (∃ t, exec .heartbeatLoss s = .next t ∧ Counted s t F.cdCountsHbloss 1 ∧ { t with regs := s.regs, cd := s.cd } = s ∧
      (s.cd.arb = none → s.cd.gap = none → t.cd.arb = some { trigger := 2, start := s.time.now, tile := 0 } ∧ t.flag F.cdStatusArb = true) ∧
      (s.cd.arb = none → s.cd.gap ≠ none → t.cd = s.cd) ∧
      (∀ a, s.cd.arb = some a → t.cd = { s.cd with arb := some (if a.start = s.time.now then { a with trigger := 2 } else a) })) ∧
    exec .dieWatchdogExpire s = .next { s with cd := { s.cd with silent := true } } ∧
    (bit = 7 → exec (.healthFault d bit) s = .next s) ∧
    (bit ≠ 7 → d = s.activeDie ∨ s.standbyReady = false → ∃ t, exec (.healthFault d bit) s = .next t ∧ t.fld (healthFld d) = word' ∧
      t.fld F.cdStatusStby = (if d ≠ s.activeDie ∧ hw then 3 else s.fld F.cdStatusStby) ∧ { t with regs := s.regs } = s ∧
      ∀ o, o ≠ R.cdHealth → o ≠ R.cdStatus → t.reg o = s.reg o) ∧
    (bit ≠ 7 → d ≠ s.activeDie → s.standbyReady = true → Quiet s → NoRecovery s 14 → ∃ t, exec (.healthFault d bit) s = .next t ∧
      Lost s t 0 0 cope drag ∧ Rejoins s t) ∧
    (¬beyond → due → Quiet s → NoRecovery s 14 → ∃ t, exec (.linkCrcFail d) s = .next t ∧ Counted s t F.cdCopyStatResent 1 ∧
      t.cd.crcFails.get (fun _ => []) d.code = recent ∧ t.cd.crcEvent = some s.time.now ∧ t.reg R.cdHealth = s.reg R.cdHealth ∧
      Noted s t 0xE01 1 8 (cdWord (s.fld F.cdStatusActive) 0 (s.fld F.cdHealthCope) (s.fld F.cdHealthDrag) 0)) ∧
    (¬beyond → ¬due → ∃ t, exec (.linkCrcFail d) s = .next t ∧ Counted s t F.cdCopyStatResent 1 ∧ { t with regs := s.regs, cd := s.cd } = s) ∧
    (beyond → ¬due → d = s.activeDie ∨ s.standbyReady = false → ∃ t, exec (.linkCrcFail d) s = .next t ∧
      t.fld (healthFld d) = s.fld (healthFld d) ||| 4 ∧ t.events = s.events) ∧
    (s.standbyReady = false → exec .standbyCopyApply s = .next s) ∧
    (s.cd.stream = [] → exec .standbyCopyApply s = .next s) ∧
    (∀ e, s.standbyReady = true → s.cd.stream = [e] → e.unit < 72 → ∃ t, exec .standbyCopyApply s = .next t ∧ t.cd.stream = [] ∧
      t.time.net = max s.time.net ((e.at_ / 6400 + 1) * 6400 + 200) ∧
      t.getWord e.unit s.standbyDie e.offset = e.word ∧ (s.getWord e.unit s.standbyDie e.offset = e.word → t.regs = s.regs) ∧
      (s.getWord e.unit s.standbyDie e.offset ≠ e.word → Counted s t F.cdCopyStatDiff 1) ∧
      (∀ id, id ≠ e.unit + 128 * s.standbyDie.code → t.core id = s.core id) ∧
      { t with regs := s.regs, cores := s.cores, cd := s.cd, time := s.time, moulds := s.moulds } = s) ∧
    (s.standbyReady = false → ∃ t, exec .copeDragLinkDown s = .next t ∧ t.flag F.cdStatusLinkUp = false ∧
      t.fld F.cdStatusStby = (if s.fld F.cdStatusStby = 3 then 3 else 0) ∧ { t with regs := s.regs } = s) ∧
    (s.standbyReady = true → Quiet s → NoRecovery s 14 → ∃ t, exec .copeDragLinkDown s = .next t ∧ t.flag F.cdStatusLinkUp = false ∧
      t.fld F.cdStatusStby = 0 ∧ Lost s t 0 0 (s.fld F.cdHealthCope) (s.fld F.cdHealthDrag) ∧ t.cores = s.cores)

/-- Clauses of R324, R325, Table 15.3: the arbiter's decision. A die fails with any bit of its word set, unreported it is SILENT, and a heartbeat loss
fails the active die whatever its word. Switch-over, standby removed, unresolved or shakeout follow, each with its event. While
the halves of the arbiter disagree no switch-over is made; that the arbitration then waits is the model's choice (log 48). -/
def Sys2Proof.Claims.ArbitrationOutcomes : Prop :=
  ∀ (s : State) (copeWord dragWord : Option Byte) (a : Arbitration),
    let bits := fun (w : Option Byte) => match w with
      | some b => b.toNat % 128
      | none => 0x20
    let cope := s.fld F.cdHealthCope ||| bits copeWord
    let drag := s.fld F.cdHealthDrag ||| bits dragWord
    let (own, other) := if s.fld F.cdStatusActive = 0 then (cope, drag) else (drag, cope)
    let fails := a.trigger = 2 ∨ own ≠ 0
    let tile := if a.trigger = 1 then a.tile else 0
    let decide' := Instr.arbitrationDecision copeWord dragWord
    let data := fun (active : Nat) => cdWord active a.trigger cope drag tile
    let act := s.fld F.cdStatusActive
    (s.cd.arb = none → exec decide' s = .next s) ∧
    (s.cd.arb = some a → fails → other = 0 → s.standbyReady = true → s.cd.disagree = false → Quiet s → NoRecovery s 14 → s.heats.decomposing = false →
      s.events.replay.length + 64 ≤ 4096 → ∃ t, exec decide' s = .next t ∧ Switched s t ∧
        Told s t 0xE00 2 1 (data (1 - act)) ∧ t.reg R.cdLast = data (1 - act)) ∧
    (s.cd.arb = some a → fails → other = 0 → s.standbyReady = true → s.cd.disagree = true → ∃ t, exec decide' s = .next t ∧
      t.cd = s.cd ∧ t.fld F.cdStatusActive = act ∧ t.events = s.events) ∧
    (s.cd.arb = some a → fails → ¬(other = 0 ∧ s.standbyReady = true) → Quiet s → ∃ t, exec decide' s = .next t ∧
      t.power.shake.isSome = true ∧ t.fld F.glbStateKeepCause = 2 ∧ t.flag F.glbStateTrans = true ∧ t.cd.arb = none ∧
      t.fld F.cdStatusActive = act ∧ Told s t 0xE00 4 6 (data act) ∧ t.reg R.cdLast = data act) ∧
    (s.cd.arb = some a → ¬fails → s.standbyReady = false → ∃ t, exec decide' s = .next t ∧ t.cd = { s.cd with arb := none } ∧
      t.flag F.cdStatusArb = false ∧ t.fld F.cdStatusStby = s.fld F.cdStatusStby ∧ t.events = s.events) ∧
    (s.cd.arb = some a → ¬fails → other ≠ 0 → s.standbyReady = true → Quiet s → NoRecovery s 14 → ∃ t, exec decide' s = .next t ∧
      t.cd.arb = none ∧ t.fld F.cdStatusActive = act ∧ Lost s t a.trigger tile cope drag ∧ Rejoins s t) ∧
    (s.cd.arb = some a → ¬fails → other = 0 → s.standbyReady = true → Quiet s → NoRecovery s 14 → ∃ t, exec decide' s = .next t ∧
      t.cd = { s.cd with arb := none } ∧ t.standbyReady = true ∧ t.fld F.cdStatusActive = act ∧ Counted s t F.cdCountsUnres 1 ∧
      Noted s t 0xE00 3 3 (data act) ∧ t.reg R.cdLast = data act)

/-- Clauses of R325, R326, R328, R330, Table 15.10: CD_CMD is answered BUSY, NOT_READY or STATE, or accepted; a planned switch-over is made when the
staging banks of the next pour have sealed; at Fr the gap ends and the former active die is reset. -/
def Sys2Proof.Claims.SwitchOvers : Prop :=
  ∀ (s : State) (m : Master),
    let busy := s.cd.arb ≠ none ∨ s.cd.gap ≠ none
    let answered := fun (i : Instr) (cmd result : Nat) => ∃ t, exec i s = .next t ∧ t.fld F.cdCmdStatResult = result ∧
      t.fld F.cdCmdStatCmd = cmd ∧ (∀ o, o ≠ R.cdCmdStat → t.reg o = s.reg o) ∧ { t with regs := s.regs } = s
    let sealed' := (∃ st, s.moulds.staged = some st ∧ st.sealedTiles.length = 16) ∨ s.moulds.staged = none ∧ s.dev = 0
    (Admitted s m R.cdCmd →
      (busy → answered (.cdSwitch m) 1 1 ∧ answered (.cdRemove m) 2 1 ∧ answered (.cdRejoin m) 3 1) ∧
      (¬busy → s.standbyReady = false → answered (.cdSwitch m) 1 2 ∧ answered (.cdRemove m) 2 3) ∧
      (¬busy → s.standbyReady = true → answered (.cdRejoin m) 3 3) ∧
      (¬busy → s.standbyReady = true → ∃ t, exec (.cdSwitch m) s = .next t ∧ t.cd = { s.cd with planned := some 3 } ∧
        t.fld F.cdCmdStatResult = 0 ∧ t.fld F.cdCmdStatCmd = 1 ∧ { t with regs := s.regs, cd := s.cd } = s) ∧
      (¬busy → s.standbyReady = true → Quiet s → NoRecovery s 14 → ∃ t, exec (.cdRemove m) s = .next t ∧ t.fld F.cdCmdStatResult = 0 ∧
        t.fld F.cdCmdStatCmd = 2 ∧ t.fld F.cdStatusStby = 3 ∧ t.cd.waitRejoin = true ∧ DieReset t s.standbyDie ∧
        Lost s t 3 0 (s.fld F.cdHealthCope) (s.fld F.cdHealthDrag)) ∧
      (¬busy → s.standbyReady = false → s.fld F.cdStatusStby ≠ 3 → answered (.cdRejoin m) 3 0) ∧
      (¬busy → s.fld F.cdStatusStby = 3 → ∃ t, exec (.cdRejoin m) s = .next t ∧ t.fld F.cdStatusStby = 0 ∧ t.fld F.cdCmdStatResult = 0 ∧
        t.fld F.cdCmdStatCmd = 3 ∧ t.cd = { s.cd with waitRejoin := false })) ∧
    (s.cd.planned = none → exec .plannedSwitch s = .next s) ∧
    (∀ trigger, s.cd.planned = some trigger →
      (s.standbyReady = false → exec .plannedSwitch s = .next { s with cd := { s.cd with planned := none } }) ∧
      (s.standbyReady = true → busy ∨ s.cd.disagree = true ∨ ¬sealed' → exec .plannedSwitch s = .next s) ∧
      (s.standbyReady = true → ¬busy → s.cd.disagree = false → sealed' → Quiet s → s.heats.decomposing = false →
        s.events.replay.length + 64 ≤ 4096 → ∃ t, exec .plannedSwitch s = .next t ∧ Switched s t ∧
          Told s t 0xE00 0 2 (cdWord (1 - s.fld F.cdStatusActive) trigger (s.fld F.cdHealthCope) (s.fld F.cdHealthDrag) 0))) ∧
    (s.cd.gap = none → exec .switchOverResume s = .next s) ∧
    (∀ d fr, s.cd.gap = some (d, fr) → ∃ t, exec .switchOverResume s = .next t ∧ t.time.net = max s.time.net fr ∧ t.cd.gap = none ∧
      t.flag F.cdStatusGap = false ∧ t.fld F.cdStatusActive = s.fld F.cdStatusActive ∧ Rejoins s t ∧ t.events = s.events)

/-- Clauses of R314, R316, R317: a standby that may be ready becomes so: it holds the active die's memories and shared SRAM, its records are
mirrored, and STANDBY_READY is noted; a die told to stay out, of another image level or with a health bit does not. The halves of
the arbiter that come to disagree raise ARBITER. -/
def Sys2Proof.Claims.StandbyReadiness : Prop :=
  ∀ (s : State),
    let busy := s.cd.arb ≠ none ∨ s.cd.gap ≠ none
    let blocked := s.standbyReady = true ∨ busy ∨ s.cd.waitRejoin = true ∨ s.cd.compatOk = false ∨ s.fld (healthFld s.standbyDie) ≠ 0
    let a := s.activeDie.code
    let b := s.standbyDie.code
    let data := cdWord (s.fld F.cdStatusActive) 0 (s.fld F.cdHealthCope) (s.fld F.cdHealthDrag) 0
    (blocked → exec .standbyReady s = .next s) ∧
    (¬blocked → Quiet s → ∃ t, exec .standbyReady s = .next t ∧ t.standbyReady = true ∧ t.flag F.cdStatusLinkUp = true ∧ Compared t true ∧
      (∀ n, n < 82 → (t.core (n + 128 * b)).mem = (s.core (n + 128 * a)).mem ∧ (t.core (n + 128 * b)).code = (s.core (n + 128 * a)).code ∧
        t.core (n + 128 * a) = s.core (n + 128 * a)) ∧
      (s.bus.sram.wf (fun _ => 0) = true → ∀ x, x < 2 ^ 24 →
        t.bus.sram.get (fun _ => 0) (x + b * 2 ^ 24) = s.bus.sram.get (fun _ => 0) (x + a * 2 ^ 24) ∧
        t.bus.sram.get (fun _ => 0) (x + a * 2 ^ 24) = s.bus.sram.get (fun _ => 0) (x + a * 2 ^ 24)) ∧
      t.events.replay = t.events.buffer ∧ (∀ c ∈ t.faults.standing, c.source ≠ 0xE00) ∧ Noted s t 0xE00 0 5 data) ∧
    (s.cd.disagree = true → exec .arbiterDisagree s = .next s) ∧
    (s.cd.disagree = false → Quiet s → NoRecovery s 14 → ∃ t, exec .arbiterDisagree s = .next t ∧ t.cd = { s.cd with disagree := true } ∧
      Noted s t 0xE00 3 7 data ∧ t.fld F.cdStatusActive = s.fld F.cdStatusActive) ∧
    exec .arbiterAgree s = .next { s with cd := { s.cd with disagree := false } }

/-- Clauses of R314, R316 to R318, R322 to R325, R331: detection, and the readiness of the standby. -/
def Obligations.CopeAndDragStandby : Prop := Claims.Detection ∧ Claims.StandbyReadiness

/-- Clauses of R324 to R330: arbitration, switch-over and the commands of CD_CMD. -/
def Obligations.CopeAndDragSwitching : Prop := Claims.ArbitrationOutcomes ∧ Claims.SwitchOvers

/-! ## Faults, thermal monitor, access lock -/

/-- Clauses of R334, R335, R337, R340: fault status. A status bit written 1 clears alone, unless its condition still stands: then it sets again with a
new record and count. ERR_N is released when its pulse ends unless FLT_ERR_HOLD keeps it low. A rail out of range is a C3 fault
that stands. -/
def Sys2Proof.Claims.FaultStatus : Prop :=
  ∀ (s : State) (m : Master) (n : Fin 96) (bits : BitVec 4) (rail : Fin 6),
    let clear := Instr.faultStatusClear m n bits
    let named := fun (k : Nat) => 1 ≤ k ∧ k ≤ 4 ∧ bits.getLsbD (k - 1) = true
    let held := s.flag F.fltErrHoldLow = true ∨ s.flag F.fltErrHoldAuto = true ∧
      ∃ g k, g < 96 ∧ 1 ≤ k ∧ k ≤ 4 ∧ s.flag (F.fltStat g k) = true ∧ (s.fld (F.fltAct g k)).testBit 0 = true
    (Admitted s m (R.fltSrc n.val) → (∀ c ∈ s.faults.standing, c.source / 256 ≠ n.val ∧ c.source ≠ 0x410) →
      ∃ t, exec clear s = .next t ∧ t.events = s.events ∧
        (∀ k, 1 ≤ k → k ≤ 4 → t.flag (F.fltStat n.val k) = (s.flag (F.fltStat n.val k) && !bits.getLsbD (k - 1))) ∧
        (∀ k, 1 ≤ k → k ≤ 4 → t.fld (F.fltAct n.val k) = s.fld (F.fltAct n.val k)) ∧ t.fld (F.fltSrcCount n.val) = s.fld (F.fltSrcCount n.val) ∧
        (∀ p, p ∈ t.power.recover ↔ p ∈ s.power.recover ∧ ¬(p.1 = n.val ∧ named p.2)) ∧
        (∀ o, o ≠ R.fltSrc n.val → o ≠ R.cfgStatus → t.reg o = s.reg o)) ∧
    (∀ c, Admitted s m (R.fltSrc n.val) → s.faults.standing = [c] → c.source / 256 = n.val → c.source ≠ 0x410 → named c.cls → Quiet s →
      (s.fld (F.fltAct n.val c.cls)).testBit 2 = false →
      ∃ t, exec clear s = .next t ∧ t.flag (F.fltStat n.val c.cls) = true ∧ Counted s t (F.fltSrcCount n.val) 1 ∧
        Noted s t c.source c.cls c.kind c.data) ∧
    (s.faults.pulseEnd = none → exec .errPulseEnd s = .next s) ∧
    (∀ e, s.faults.pulseEnd = some e → ∃ t, exec .errPulseEnd s = .next t ∧ t.time.now = max s.time.now e ∧ t.faults.pulseEnd = none ∧
      (t.faults.errLow = true ↔ s.faults.errLow = true ∧ held) ∧ t.regs = s.regs ∧ t.events = s.events) ∧
    (Quiet s → NoRecovery s 3 → ∃ t, exec (.railFault rail) s = .next t ∧ rail.val ∈ t.power.badRails ∧
      (∃ c ∈ t.faults.standing, c.source = 0x301 ∧ c.cls = 3 ∧ c.data = word rail.val) ∧ t.flag (F.fltStat 3 3) = true ∧
      Counted s t (F.fltSrcCount 3) 1 ∧ Noted s t 0x301 3 0 (word rail.val) ∧
      ((s.fld (F.fltAct 3 3)).testBit 0 = true → t.faults.errLow = true ∧ t.faults.pulseEnd = some (s.time.now + 10000)))

/-- Clauses of R342, R343, R345, R346: a conversion of the sixteen channels, each ms. A channel shows its reading, or 0x8000 when it is off or in
fault; a fault and a reading at its limit stand until they end; the hottest selected channel sets the admission rate, and the start
of throttling is noted with a full meter; a reading of 110 degC on an internal channel shuts the engine down, until all are below
100 degC. -/
def Sys2Proof.Claims.Thermal : Prop :=
  ∀ (s : State) (readings : List (Option Int)), s.svc = 0 →
    let on := fun (ch : Nat) => ch < 12 ∨ s.fld (F.thmExtType (ch - 12)) = 1 ∨ s.fld (F.thmExtType (ch - 12)) = 2
    let valid := fun (ch : Nat) (x : Int) => on ch ∧ readings.getD ch none = some x ∧ -640 ≤ x ∧ x ≤ 2400
    let bad := fun (ch : Nat) => on ch ∧ ∀ x, ¬valid ch x
    let limit := fun (ch : Nat) => signed 16 (s.fld (F.thmChLimit ch))
    let stands := fun (s : State) (src : Nat) => ∃ c ∈ s.faults.standing, c.source = src
    let code := fun (ch : Nat) (x : Int) => word ((x % 65536).toNat + ch * 65536)
    let selected := fun (ch : Nat) => ch < 16 ∧ (s.fld F.thmThrMaskMask).testBit ch = true
    let hottest := fun (p : Nat → Prop) (x : Int) => (∃ ch, p ch ∧ valid ch x) ∧ ∀ ch y, p ch → valid ch y → y ≤ x
    let knee := max 640 (min 1680 (signed 16 (s.fld F.thmCtrlKnee)))
    let slope : Int := ((min 100 (s.fld F.thmCtrlSlope) : Nat) : Int)
    let floor : Int := ((max 1 (min 100 (s.fld F.thmCtrlFloor)) : Nat) : Int)
    let old := s.fld F.thmStatusAdmit
    let run := Instr.thermalConversion readings
    let shut := ∃ ch x, ch < 12 ∧ valid ch x ∧ 1760 ≤ x
    (∃ t, exec run s = .next t ∧ t.time.now = (s.time.now / 1000000 + 1) * 1000000 ∧
      (∀ ch x, ch < 16 → valid ch x → t.fld (F.thmChTemp ch) = (x % 65536).toNat) ∧
      (∀ ch, ch < 16 → (∀ x, ¬valid ch x) → t.fld (F.thmChTemp ch) = 0x8000) ∧
      (∀ ch, ch < 16 → (stands t (0x420 + ch) ↔ bad ch)) ∧
      (∀ ch, ch < 16 → (stands t (0x400 + ch) ↔ ∃ x, valid ch x ∧ limit ch ≤ x)) ∧
      (∀ x, hottest (· < 12) x → t.fld F.thmStatusMax = (x % 65536).toNat) ∧
      (∀ x, hottest selected x →
        t.fld F.thmStatusAdmit = (max floor ((1600 - slope * max 0 (x - knee)).tdiv 16)).toNat) ∧
      (Quiet s → ∀ ch, ch < 16 → bad ch → ¬stands s (0x420 + ch) → Told s t (0x420 + ch) 2 0 (word (0x8000 + ch * 65536))) ∧
      (Quiet s → ∀ ch x, ch < 16 → valid ch x → limit ch ≤ x → ¬stands s (0x400 + ch) → Told s t (0x400 + ch) 1 0 (code ch x)) ∧
      (100 ≤ old → t.fld F.thmStatusAdmit < 100 → t.service.meter = some (4 * (81920 * (t.fld F.thmStatusAdmit : Int))) ∧
        (Quiet s → Told s t 0x411 0 0 (word (t.fld F.thmStatusAdmit)))) ∧
      (old < 100 → t.fld F.thmStatusAdmit < 100 → t.service.meter = s.service.meter) ∧
      (old < 100 → 100 ≤ t.fld F.thmStatusAdmit → t.service.meter = none) ∧
      (¬shut → s.power.shake = none → NoRecovery s 4 → t.power = s.power) ∧
      (stands s 0x410 → (∀ ch x, ch < 12 → valid ch x → x < 1600) → ¬stands t 0x410)) ∧
    (∀ c x, c < 12 → valid c x → 1760 ≤ x → (∀ ch y, ch < c → valid ch y → y < 1760) → ¬stands s 0x410 → Quiet s →
      ∃ t, exec run s = .next t ∧ t.power.shake.isSome = true ∧ t.fld F.glbStateKeepCause = 3 ∧ t.power.fastClocks = false ∧
        t.power.ladleClock = false ∧ t.fld F.thmStatusShutCh = c ∧ t.faults.errLow = true ∧ (4, 4) ∈ t.power.recover ∧ stands t 0x410 ∧
        Told s t 0x410 4 0 (code c x))

/-- Clauses of R356, R357, R359, R360: the access lock beside attempts to open it. Only PF0 and the debug port command it; a challenge stands for 60 s;
a lockout and an open period end when due; closing resets the debug port and is noted. -/
def Sys2Proof.Claims.LockLife : Prop :=
  ∀ (s : State) (m : Master) (entropy : BitVec 128) (scope : Fin 4) (len : Fin 64),
    let may := Admitted s m R.lockCmd ∧ (m.toNat % 128 = 0x58 ∨ m.toNat % 128 = 0x5E)
    let free' := s.bus.bursts = [] ∧ s.bus.locked = none
    let scopeNow := if s.flag F.lockStatusFactory then 3 else 1
    let closed := fun (t : State) => t.lockOpen = false ∧ t.flag F.lockStatusFactory = false ∧ t.lock.openUntil = 0 ∧
      Noted s t 0x3100 0 4 (word (16 * scopeNow + 256 * s.fld F.lockStatusFails))
    (Admitted s m R.lockCmd → ¬(m.toNat % 128 = 0x58 ∨ m.toNat % 128 = 0x5E) → s.bus.hand = none →
      ∀ i ∈ [Instr.challenge m entropy, .respondG m scope, .respondC m scope, .password m len, .close m],
        exec i s = .next (s.logAccess (regAccess m R.lockCmd) 5)) ∧
    (may → ∃ t, exec (.challenge m entropy) s = .next t ∧ t.flag F.lockStatusChal = true ∧
      (∀ i, i < 4 → t.reg (R.lockChal i) = entropy.extractLsb' (32 * i) 32) ∧ t.lock.chalUntil = s.time.now + 60000000000 ∧
      t.lockOpen = s.lockOpen ∧ t.events = s.events) ∧
    (may → s.lockOpen = false → exec (.close m) s = .next s) ∧
    (may → s.lockOpen = true → free' → Quiet s → ∃ t, exec (.close m) s = .next t ∧ closed t ∧ t.time = s.time) ∧
    (s.flag F.lockStatusChal = false → exec .challengeExpire s = .next s) ∧
    (s.flag F.lockStatusChal = true → ∃ t, exec .challengeExpire s = .next t ∧ t.time.now = max s.time.now s.lock.chalUntil ∧
      t.flag F.lockStatusChal = false ∧ (∀ i, i < 4 → t.reg (R.lockChal i) = 0) ∧ t.events = s.events) ∧
    (s.lock.lockoutUntil = none → exec .lockoutEnd s = .next s) ∧
    (∀ e, s.lock.lockoutUntil = some e → ∃ t, exec .lockoutEnd s = .next t ∧ t.time.now = max s.time.now e ∧
      t.flag F.lockStatusLockout = false ∧ t.lock.lockoutUntil = none ∧ t.fld F.lockStatusFails = s.fld F.lockStatusFails) ∧
    (s.lockOpen = false → exec .lockOpenExpire s = .next s) ∧
    (s.lockOpen = true → free' → Quiet s → ∃ t, exec .lockOpenExpire s = .next t ∧ t.time.now = max s.time.now s.lock.openUntil ∧ closed t)

/-- Clauses of R357 to R360, Table 17.8: attempts. Refused uncounted in a lockout, without a valid challenge, with nothing provisioned or with a scope
the method cannot open; the right response opens the scope for LOCK_CTRL.MIN minutes and clears FAILS; a wrong one counts, and
from the third on begins a lockout of 10 x 2^(FAILS - 3) minutes, up to 10,240. Challenge and response are gone afterwards. -/
def Sys2Proof.Claims.LockAttempts : Prop :=
  ∀ (s : State) (m : Master) (scope : Fin 4) (len : Fin 64),
    Admitted s m R.lockCmd → (m.toNat % 128 = 0x58 ∨ m.toNat % 128 = 0x5E) →
    let asked := s.chalBytes ++ s.serialBytes ++ [BitVec.ofNat 8 scope.val]
    let lockout := s.flag F.lockStatusLockout = true
    let fails := min 15 (s.fld F.lockStatusFails + 1)
    -- command, method, scope, a challenge is needed, something is provisioned, the method opens the scope, the response is right
    ∀ r ∈ ([(.respondG m scope, 1, scope.val, true, True, scope = 1 ∨ scope = 3, s.respBytes = Sha.hmac Config.gernaumKey asked),
        (.respondC m scope, 2, scope.val, true, s.flag F.glbCapsChalKey = true, scope = 1, s.respBytes = Sha.hmac Config.customerKey asked),
        (.password m len, 3, 1, false, s.flag F.glbCapsPassword = true, True, 1 ≤ len.val ∧ len.val ≤ 32 ∧
          Sha.sha256 (s.serialBytes ++ s.respBytes.take len.val) = Config.passwordDigest)] :
        List (Instr × Nat × Nat × Bool × Prop × Prop × Prop)),
      let (cmd, method, sc, needs, provisioned, opens, right) := r
      let stale := needs = true ∧ s.flag F.lockStatusChal = false
      let refused := fun (result : Nat) => ∃ t, exec cmd s = .next t ∧ Spent t ∧ t.fld F.lockStatusResult = result ∧
        t.fld F.lockStatusFails = s.fld F.lockStatusFails ∧ t.lockOpen = s.lockOpen ∧ t.events = s.events
      (lockout → refused 3) ∧ (¬lockout → stale → refused 4) ∧ (¬lockout → ¬stale → ¬provisioned → refused 5) ∧
      (¬lockout → ¬stale → provisioned → ¬opens → refused 6) ∧
      (¬lockout → ¬stale → provisioned → opens → Quiet s → NoRecovery s 49 → ∃ t, exec cmd s = .next t ∧ Spent t ∧
        (right → t.fld F.lockStatusResult = 1 ∧ t.lockOpen = true ∧ (t.flag F.lockStatusFactory = true ↔ sc = 3) ∧
          t.fld F.lockStatusFails = 0 ∧ t.lock.openUntil = s.time.now + 60000000000 * max 1 (min 1440 (s.fld F.lockCtrlMin)) ∧
          Noted s t 0x3100 0 1 (word (method + 16 * sc))) ∧
        (¬right → t.fld F.lockStatusResult = 2 ∧ t.fld F.lockStatusFails = fails ∧ t.lockOpen = s.lockOpen ∧
          Told s t 0x3100 1 2 (word (method + 16 * sc + 256 * fails)) ∧
          (fails < 3 → t.flag F.lockStatusLockout = false ∧ t.lock.lockoutUntil = s.lock.lockoutUntil) ∧
          (3 ≤ fails → t.flag F.lockStatusLockout = true ∧ Told s t 0x3100 2 3 (word (method + 16 * sc + 256 * fails)) ∧
            t.lock.lockoutUntil = some (s.time.now + 60000000000 * min 10240 (10 * 2 ^ (fails - 3))))))

/-- Clauses of R334 to R346: fault status, ERR_N, rails, and the thermal monitor. -/
def Obligations.FaultsAndThermal : Prop := Claims.FaultStatus ∧ Claims.Thermal

/-- Clauses of R356 to R360: the access lock. -/
def Obligations.AccessLock : Prop := Claims.LockLife ∧ Claims.LockAttempts
end

