-- ==== Sys2Proof/Laws/SMap.lean ====
section
/-!
SUPPORT. The laws of sparse maps: what a lookup answers after a change, and that every change keeps the canonical form.
-/
namespace Sys2Proof.Machine

theorem SMap.find?_erase_same {α : Type} (m : SMap α) (k : Nat) : (m.erase k).find? k = none := by
  induction m with
  | nil => rfl
  | cons p m ih =>
    obtain ⟨j, v⟩ := p
    by_cases h : j = k
    · simp [SMap.erase, h, ih]
    · simp [SMap.erase, h, SMap.find?, ih]

theorem SMap.find?_erase_other {α : Type} (m : SMap α) {k j : Nat} (h : j ≠ k) : (m.erase k).find? j = m.find? j := by
  induction m with
  | nil => rfl
  | cons p m ih =>
    obtain ⟨i, v⟩ := p
    by_cases hi : i = k
    · subst hi
      have : i ≠ j := fun e => h e.symm
      simp [SMap.erase, SMap.find?, this, ih]
    · by_cases hj : i = j
      · subst hj; simp [SMap.erase, hi, SMap.find?]
      · simp [SMap.erase, SMap.find?, hi, hj, ih]

theorem SMap.find?_insert_same {α : Type} (m : SMap α) (k : Nat) (v : α) (h : m.find? k = none) :
    (m.insert k v).find? k = some v := by
  induction m with
  | nil => simp [SMap.insert, SMap.find?]
  | cons p m ih =>
    obtain ⟨j, w⟩ := p
    by_cases hj : j = k
    · simp [SMap.find?, hj] at h
    · have h' : SMap.find? m k = none := by rw [SMap.find?, if_neg hj] at h; exact h
      by_cases hk : k < j
      · simp [SMap.insert, hk, SMap.find?]
      · simp [SMap.insert, hk, SMap.find?, hj, ih h']

theorem SMap.find?_insert_other {α : Type} (m : SMap α) {k j : Nat} (v : α) (h : j ≠ k) :
    (m.insert k v).find? j = m.find? j := by
  induction m with
  | nil => simp [SMap.insert, SMap.find?, h.symm]
  | cons p m ih =>
    obtain ⟨i, w⟩ := p
    by_cases hk : k < i
    · simp [SMap.insert, hk, SMap.find?, h.symm]
    · by_cases hi : i = j
      · subst hi; simp [SMap.insert, hk, SMap.find?]
      · simp [SMap.insert, hk, SMap.find?, hi, ih]

theorem SMap.find?_put_same {α : Type} (m : SMap α) (k : Nat) (v : α) : (m.put k v).find? k = some v :=
  SMap.find?_insert_same _ k v (SMap.find?_erase_same m k)

theorem SMap.find?_put_other {α : Type} (m : SMap α) {k j : Nat} (v : α) (h : j ≠ k) : (m.put k v).find? j = m.find? j := by
  rw [SMap.put, SMap.find?_insert_other _ v h, SMap.find?_erase_other _ h]

/-- A lookup after a change of the same key answers the new value. -/
theorem SMap.get_set_same {α : Type} [DecidableEq α] (d : Nat → α) (m : SMap α) (k : Nat) (v : α) :
    (m.set d k v).get d k = v := by
  by_cases h : v = d k
  · simp [SMap.set, SMap.get, h, SMap.find?_erase_same]
  · simp [SMap.set, SMap.get, h, SMap.find?_put_same]

/-- A lookup of any other key answers as before. -/
theorem SMap.get_set_other {α : Type} [DecidableEq α] (d : Nat → α) (m : SMap α) {k j : Nat} (v : α) (h : j ≠ k) :
    (m.set d k v).get d j = m.get d j := by
  by_cases hv : v = d k
  · simp [SMap.set, SMap.get, hv, SMap.find?_erase_other _ h]
  · simp [SMap.set, SMap.get, hv, SMap.find?_put_other _ v h]

/-- Both cases of a lookup after a change. -/
theorem SMap.get_set {α : Type} [DecidableEq α] (d : Nat → α) (m : SMap α) (k j : Nat) (v : α) :
    (m.set d k v).get d j = if j = k then v else m.get d j := by
  by_cases h : j = k
  · simp [h, SMap.get_set_same]
  · simp [h, SMap.get_set_other]

/-! ## The canonical form -/

theorem SMap.rising_weaken {α : Type} {a b : Nat} (m : SMap α) (hab : a ≤ b) (h : m.risingFrom b = true) :
    m.risingFrom a = true := by
  cases m with
  | nil => rfl
  | cons p m =>
    obtain ⟨j, v⟩ := p
    simp only [SMap.risingFrom, Bool.and_eq_true, decide_eq_true_eq] at h ⊢
    exact ⟨by omega, h.2⟩

theorem SMap.rising_erase {α : Type} (k : Nat) : ∀ (b : Nat) (m : SMap α), m.risingFrom b = true → (m.erase k).risingFrom b = true
  | _, [], _ => rfl
  | b, (j, v) :: m, h => by
    simp only [SMap.risingFrom, Bool.and_eq_true, decide_eq_true_eq] at h
    by_cases hj : j = k
    · simp only [SMap.erase, hj, if_true]
      exact SMap.rising_erase k b m (SMap.rising_weaken m (by omega) h.2)
    · simp only [SMap.erase, hj, if_false, SMap.risingFrom, Bool.and_eq_true, decide_eq_true_eq]
      exact ⟨h.1, SMap.rising_erase k (j + 1) m h.2⟩

theorem SMap.rising_insert {α : Type} (k : Nat) (v : α) : ∀ (b : Nat) (m : SMap α), b ≤ k → m.risingFrom b = true →
    m.find? k = none → (m.insert k v).risingFrom b = true
  | b, [], hb, _, _ => by simpa [SMap.insert, SMap.risingFrom] using hb
  | b, (j, w) :: m, hb, h, hf => by
    simp only [SMap.risingFrom, Bool.and_eq_true, decide_eq_true_eq] at h
    by_cases hj : j = k
    · simp [SMap.find?, hj] at hf
    · have hf' : SMap.find? m k = none := by rw [SMap.find?, if_neg hj] at hf; exact hf
      by_cases hk : k < j
      · simp only [SMap.insert, hk, if_true, SMap.risingFrom, Bool.and_eq_true, decide_eq_true_eq]
        exact ⟨hb, by omega, h.2⟩
      · simp only [SMap.insert, hk, if_false, SMap.risingFrom, Bool.and_eq_true, decide_eq_true_eq]
        exact ⟨h.1, SMap.rising_insert k v (j + 1) m (by omega) h.2 hf'⟩

theorem SMap.all_erase {α : Type} (k : Nat) (p : Nat × α → Bool) (m : SMap α) (h : m.all p = true) :
    (m.erase k).all p = true := by
  induction m with
  | nil => rfl
  | cons q m ih =>
    obtain ⟨j, v⟩ := q
    simp only [List.all_cons, Bool.and_eq_true] at h
    by_cases hj : j = k
    · simp only [SMap.erase, hj, if_true]; exact ih h.2
    · simp only [SMap.erase, hj, if_false, List.all_cons, Bool.and_eq_true]; exact ⟨h.1, ih h.2⟩

theorem SMap.all_insert {α : Type} (k : Nat) (v : α) (p : Nat × α → Bool) (m : SMap α) (h : m.all p = true)
    (hv : p (k, v) = true) : (m.insert k v).all p = true := by
  induction m with
  | nil => simp [SMap.insert, hv]
  | cons q m ih =>
    obtain ⟨j, w⟩ := q
    simp only [List.all_cons, Bool.and_eq_true] at h
    by_cases hk : k < j
    · simp [SMap.insert, hk, hv, h.1, h.2]
    · simp only [SMap.insert, hk, if_false, List.all_cons, Bool.and_eq_true]; exact ⟨h.1, ih h.2⟩

/-- A change keeps the canonical form. -/
theorem SMap.wf_set {α : Type} [DecidableEq α] (d : Nat → α) (m : SMap α) (k : Nat) (v : α) (h : m.wf d = true) :
    (m.set d k v).wf d = true := by
  simp only [SMap.wf, Bool.and_eq_true] at h ⊢
  by_cases hv : v = d k
  · simp only [SMap.set, hv, if_true]
    exact ⟨SMap.rising_erase k 0 m h.1, SMap.all_erase k _ m h.2⟩
  · simp only [SMap.set, hv, if_false, SMap.put]
    exact ⟨SMap.rising_insert k v 0 _ (Nat.zero_le _) (SMap.rising_erase k 0 m h.1) (SMap.find?_erase_same m k),
      SMap.all_insert k v _ _ (SMap.all_erase k _ m h.2) (by simpa using hv)⟩

/-- A change by a function keeps the canonical form. -/
theorem SMap.wf_modify {α : Type} [DecidableEq α] (d : Nat → α) (m : SMap α) (k : Nat) (f : α → α) (h : m.wf d = true) :
    (m.modify d k f).wf d = true :=
  SMap.wf_set d m k _ h

end Sys2Proof.Machine
end

