-- ==== Sys2Proof/Laws/Keeps.lean ====
section
/-!
SUPPORT. What every operation of the model leaves in order: the queue of commands, and the canonical form of the register
file. One lemma for each operation, over the lemmas of the operations it is made of.
-/
namespace Sys2Proof.Machine

/-- A state whose queue is `q` and whose register file is canonical. -/
def Keeps (q : List Instr) (s : State) : Prop := s.pending = q ∧ s.canonical = true

theorem keeps_fold {q : List Instr} {s : State} (h : Keeps q s) : s.pending = q ∧ s.regs.wf resetWord = true := h

theorem keeps_mk {q p : List Instr} {f : Nat} {r : SMap Word} {t po e fa m ti l c ca h la se j cd lo b} :
    Keeps q (State.mk p f r t po e fa m ti l c ca h la se j cd lo b) ↔ p = q ∧ r.wf resetWord = true := Iff.rfl

/-- A reset that loses every register keeps the queue. -/
theorem keeps_lost {q : List Instr} {s : State} (h : Keeps q s) {f t po e fa m ti l c ca he la se j cd lo b} :
    Keeps q (State.mk s.pending f State.reset.regs t po e fa m ti l c ca he la se j cd lo b) :=
  ⟨h.1, rfl⟩

theorem keeps_ite {q : List Instr} {p : Prop} [Decidable p] {s t : State} (hs : Keeps q s) (ht : Keeps q t) :
    Keeps q (if p then s else t) := by
  split
  · exact hs
  · exact ht

theorem keeps_foldl {q : List Instr} {α : Type} (f : State → α → State) (hf : ∀ s x, Keeps q s → Keeps q (f s x)) :
    ∀ (l : List α) (s : State), Keeps q s → Keeps q (l.foldl f s)
  | [], _, h => h
  | x :: l, s, h => keeps_foldl f hf l (f s x) (hf s x h)

theorem setReg_keeps {q : List Instr} (s : State) (off : Nat) (v : Word) (h : Keeps q s) : Keeps q (s.setReg off v) :=
  ⟨h.1, SMap.wf_set _ _ _ _ h.2⟩

theorem setFld_keeps {q : List Instr} (s : State) (f : Fld) (v : Nat) (h : Keeps q s) : Keeps q (s.setFld f v) :=
  setReg_keeps _ _ _ h

theorem keeps_snd {q : List Instr} {α : Type} {p : α × State} {a : α} {t : State} (e : p = (a, t)) (h : Keeps q p.2) :
    Keeps q t := by
  subst e
  exact h

theorem keeps_fst {q : List Instr} {α : Type} {p : State × α} {a : α} {t : State} (e : p = (t, a)) (h : Keeps q p.1) :
    Keeps q t := by
  subst e
  exact h

/-- The same of a state that an operation answers, if it answers one. -/
def KeepsOpt (q : List Instr) (o : Option State) : Prop := ∀ t, o = some t → Keeps q t

theorem keepsOpt_none {q : List Instr} : KeepsOpt q none := fun _ e => by cases e

theorem keepsOpt_some {q : List Instr} {s : State} (h : Keeps q s) : KeepsOpt q (some s) := fun t e => by
  injection e with e
  subst e
  exact h

theorem keepsOpt_ite {q : List Instr} {p : Prop} [Decidable p] {a b : Option State} (ha : KeepsOpt q a) (hb : KeepsOpt q b) :
    KeepsOpt q (if p then a else b) := by
  split
  · exact ha
  · exact hb

theorem keepsOpt_map {q : List Instr} {α : Type} {f : α → State} (hf : ∀ x, Keeps q (f x)) (o : Option α) :
    KeepsOpt q (o.map f) := by
  intro t e
  cases o with
  | none => cases e
  | some x =>
    injection e with e
    subst e
    exact hf x

theorem keepsOpt_get {q : List Instr} {o : Option State} {t : State} (e : o = some t) (h : KeepsOpt q o) : Keeps q t := h t e

/-- The same of an operation that answers a number and a state, if it answers. -/
def KeepsSum (q : List Instr) (o : Option (Nat × State)) : Prop := ∀ c t, o = some (c, t) → Keeps q t

theorem keepsSum_none {q : List Instr} : KeepsSum q none := fun _ _ e => by cases e

theorem keepsSum_some {q : List Instr} {p : Nat × State} (h : Keeps q p.2) : KeepsSum q (some p) := fun c t e => by
  cases e
  exact h

theorem keepsSum_ite {q : List Instr} {p : Prop} [Decidable p] {a b : Option (Nat × State)} (ha : KeepsSum q a)
    (hb : KeepsSum q b) : KeepsSum q (if p then a else b) := by
  split
  · exact ha
  · exact hb

theorem keepsFill_fst {q : List Instr} {α : Type} {p : Fill × α} {b : Fill} {a : α} (e : p = (b, a)) (h : Keeps q p.1.s) :
    Keeps q b.s := by
  subst e
  exact h

theorem keepsFill_foldl {q : List Instr} {α : Type} (f : Fill → α → Fill) (hf : ∀ b x, Keeps q b.s → Keeps q (f b x).s) :
    ∀ (l : List α) (b : Fill), Keeps q b.s → Keeps q (l.foldl f b).s
  | [], _, h => h
  | x :: l, b, h => keepsFill_foldl f hf l (f b x) (hf b x h)

end Sys2Proof.Machine
end

