-- ==== Sys2Proof/Laws/KeepsControl.lean ====
section
/-!
SUPPORT. The queue and the register file kept by the event controller, the bus, the access lock, the timebase and the pair of control dies: one lemma for each operation,
proved over those of the operations it is made of.
-/
namespace Sys2Proof.Machine

set_option linter.all false

/-! ## Machine/Ops.lean -/

theorem count_keeps {Q : List Instr} (s : State) (f : Fld) (n : Nat) (hk : Keeps Q s) : Keeps Q (State.count s f n) := by
  simp only [State.count]
  with_reducible repeat' (first | assumption | apply setFld_keeps | dsimp only)

theorem elapse_keeps {Q : List Instr} (s : State) (d : Nat) (hk : Keeps Q s) : Keeps Q (State.elapse s d) := by
  simp only [State.elapse]
  with_reducible repeat' (first | assumption | (simp only [keeps_mk]; apply keeps_fold) | dsimp only)

theorem untilNow_keeps {Q : List Instr} (s : State) (t : Nat) (hk : Keeps Q s) : Keeps Q (State.untilNow s t) := by
  simp only [State.untilNow]
  with_reducible repeat' (first | assumption | apply keeps_ite | apply elapse_keeps | split | dsimp only)

theorem untilNet_keeps {Q : List Instr} (s : State) (t : Nat) (hk : Keeps Q s) : Keeps Q (State.untilNet s t) := by
  simp only [State.untilNet]
  with_reducible repeat' (first | assumption | apply keeps_ite | (simp only [keeps_mk]; apply keeps_fold) | split | dsimp only)

theorem freeWord_keeps {Q : List Instr} (s : State) (hk : Keeps Q s) : Keeps Q (State.freeWord s).2 := by
  simp only [State.freeWord]
  with_reducible repeat' (first | assumption | (simp only [keeps_mk]; apply keeps_fold) | dsimp only)

theorem freeNat_keeps {Q : List Instr} (s : State) (hk : Keeps Q s) : Keeps Q (State.freeNat s).2 := by
  simp only [State.freeNat]
  with_reducible repeat' (first | assumption | (simp only [keeps_mk]; apply keeps_fold) | dsimp only)

theorem errPulse_keeps {Q : List Instr} (s : State) (hk : Keeps Q s) : Keeps Q (State.errPulse s) := by
  simp only [State.errPulse]
  with_reducible repeat' (first
    | assumption | apply keeps_ite | apply count_keeps | (simp only [keeps_mk]; apply keeps_fold) | split | dsimp only)

theorem latch_keeps {Q : List Instr} (s : State) (c : ShakeCause) (hk : Keeps Q s) : Keeps Q (State.latch s c) := by
  simp only [State.latch]
  with_reducible repeat' (first
    | assumption | apply keeps_ite | apply errPulse_keeps | apply setFld_keeps | (simp only [keeps_mk]; apply keeps_fold)
    | split | dsimp only)

theorem faultStatus_keeps {Q : List Instr} (s : State) (n cls : Nat) (hk : Keeps Q s) : Keeps Q (State.faultStatus s n cls) :=
  by
  simp only [State.faultStatus]
  with_reducible repeat' (first
    | assumption | apply keeps_ite | apply setFld_keeps | apply count_keeps | apply errPulse_keeps | apply latch_keeps
    | (simp only [keeps_mk]; apply keeps_fold) | split | dsimp only)

theorem lose_keeps {Q : List Instr} (s : State) (t : Nat) (hk : Keeps Q s) : Keeps Q (State.lose s t) := by
  simp only [State.lose]
  with_reducible repeat' (first
    | assumption | apply keeps_ite | apply faultStatus_keeps | (simp only [keeps_mk]; apply keeps_fold) | split | dsimp only)

theorem post_keeps {Q : List Instr} (s : State) (r : EvRec) (ts : List Nat) (hk : Keeps Q s) : Keeps Q (State.post s r ts) := by
  simp only [State.post]
  with_reducible repeat' (first
    | assumption | apply keeps_ite | apply lose_keeps | apply count_keeps | apply setFld_keeps
    | (apply keeps_foldl; intro _ _ _) | (simp only [keeps_mk]; apply keeps_fold) | split | dsimp only)

theorem record_keeps {Q : List Instr} (s : State) (src cls kind : Nat) (data : Word) (hk : Keeps Q s) : Keeps Q (State.record s
  src cls kind data) := by
  simp only [State.record]
  with_reducible repeat' (first
    | assumption | apply keeps_ite | apply post_keeps | apply faultStatus_keeps | split | dsimp only)

theorem dropRequests_keeps {Q : List Instr} (s : State) (id : Nat) (hk : Keeps Q s) : Keeps Q (State.dropRequests s id) := by
  simp only [State.dropRequests]
  with_reducible repeat' (first | assumption | intro _ | (simp only [keeps_mk]; apply keeps_fold) | dsimp only)

theorem endRetiring_keeps {Q : List Instr} (s : State) (k : JobKind) (hk : Keeps Q s) : Keeps Q (State.endRetiring s k) := by
  simp only [State.endRetiring]
  with_reducible repeat' (first | assumption | (simp only [keeps_mk]; apply keeps_fold) | split | dsimp only)

theorem endJobRecord_keeps {Q : List Instr} (s : State) (j : Job) (st : JobState) (cause : Nat) (hk : Keeps Q s) : Keeps Q
  (State.endJobRecord s j st cause) := by
  simp only [State.endJobRecord]
  with_reducible repeat' (first
    | assumption | intro _ | apply keeps_ite | apply dropRequests_keeps | apply endRetiring_keeps | apply record_keeps
    | (simp only [keeps_mk]; apply keeps_fold) | split | dsimp only)

theorem endAllJobs_keeps {Q : List Instr} (s : State) (hk : Keeps Q s) : Keeps Q (State.endAllJobs s) := by
  simp only [State.endAllJobs]
  with_reducible repeat' (first
    | assumption | intro _ | apply keeps_ite | apply endJobRecord_keeps | (apply keeps_foldl; intro _ _ _) | split
    | dsimp only)

theorem clearBanks_keeps {Q : List Instr} (s : State) (hk : Keeps Q s) : Keeps Q (State.clearBanks s) := by
  simp only [State.clearBanks]
  with_reducible repeat' (first | assumption | apply setReg_keeps | (simp only [keeps_mk]; apply keeps_fold) | dsimp only)

theorem settle_keeps {Q : List Instr} (s : State) (hk : Keeps Q s) : Keeps Q (State.settle s) := by
  simp only [State.settle]
  with_reducible repeat' (first
    | assumption | apply keeps_ite | apply endAllJobs_keeps | apply record_keeps | apply clearBanks_keeps
    | apply setFld_keeps | (simp only [keeps_mk]; apply keeps_fold) | split | dsimp only)

theorem raise_keeps {Q : List Instr} (s : State) (src cls kind : Nat) (data : Word) (hk : Keeps Q s) : Keeps Q (State.raise s
  src cls kind data) := by
  simp only [State.raise]
  with_reducible repeat' (first | assumption | apply record_keeps | apply settle_keeps | dsimp only)

theorem shakeFor_keeps {Q : List Instr} (s : State) (c : ShakeCause) (hk : Keeps Q s) : Keeps Q (State.shakeFor s c) := by
  simp only [State.shakeFor]
  with_reducible repeat' (first | assumption | apply latch_keeps | apply settle_keeps | dsimp only)

theorem raiseStanding_keeps {Q : List Instr} (s : State) (src cls kind : Nat) (data : Word) (hk : Keeps Q s) : Keeps Q
  (State.raiseStanding s src cls kind data) := by
  simp only [State.raiseStanding]
  with_reducible repeat' (first
    | assumption | intro _ | apply raise_keeps | (simp only [keeps_mk]; apply keeps_fold) | dsimp only)

theorem endStanding_keeps {Q : List Instr} (s : State) (src : Nat) (hk : Keeps Q s) : Keeps Q (State.endStanding s src) := by
  simp only [State.endStanding]
  with_reducible repeat' (first | assumption | intro _ | (simp only [keeps_mk]; apply keeps_fold) | dsimp only)

theorem calBusy_keeps {Q : List Instr} (s : State) (hk : Keeps Q s) : Keeps Q (State.calBusy s) := by
  simp only [State.calBusy]
  with_reducible repeat' (first | assumption | intro _ | apply setFld_keeps | dsimp only)

theorem leaveJob_keeps {Q : List Instr} (s : State) (j : Job) (hk : Keeps Q s) : Keeps Q (State.leaveJob s j) := by
  simp only [State.leaveJob]
  with_reducible repeat' (first
    | assumption | intro _ | apply keeps_ite | apply endJobRecord_keeps | (simp only [keeps_mk]; apply keeps_fold) | split
    | dsimp only)

theorem leaveJobs_keeps {Q : List Instr} (s : State) (hk : Keeps Q s) : Keeps Q (State.leaveJobs s) := by
  simp only [State.leaveJobs]
  with_reducible repeat' (first
    | assumption | intro _ | apply leaveJob_keeps | apply calBusy_keeps | (apply keeps_foldl; intro _ _ _) | dsimp only)

theorem noteChanges_keeps {Q : List Instr} (s : State) (old : Word) (hk : Keeps Q s) : Keeps Q (State.noteChanges s old) := by
  simp only [State.noteChanges]
  with_reducible repeat' (first | assumption | intro _ | apply keeps_ite | apply raise_keeps | split | dsimp only)

theorem withNotes_keeps {Q : List Instr} (s : State) (f : State → State) (hkf : ∀ x0, Keeps Q x0 → Keeps Q (f x0)) (hk : Keeps Q
  s) : Keeps Q (State.withNotes s f) := by
  simp only [State.withNotes]
  with_reducible repeat' (first
    | assumption | intro _ | apply leaveJobs_keeps | apply noteChanges_keeps | apply hkf | dsimp only)

theorem setCore_keeps {Q : List Instr} (s : State) (id : Nat) (c : Core) (hk : Keeps Q s) : Keeps Q (State.setCore s id c) := by
  simp only [State.setCore]
  with_reducible repeat' (first | assumption | intro _ | (simp only [keeps_mk]; apply keeps_fold) | dsimp only)

theorem setTile_keeps {Q : List Instr} (s : State) (t : Nat) (x : Tile) (hk : Keeps Q s) : Keeps Q (State.setTile s t x) := by
  simp only [State.setTile]
  with_reducible repeat' (first | assumption | intro _ | (simp only [keeps_mk]; apply keeps_fold) | dsimp only)

theorem capture_keeps {Q : List Instr} (s : State) (a : Access) (kind : Nat) (hk : Keeps Q s) : Keeps Q (State.capture s a kind)
  := by
  simp only [State.capture]
  with_reducible repeat' (first
    | assumption | apply keeps_ite | apply count_keeps | apply setFld_keeps | apply setReg_keeps | split | dsimp only)

theorem logAccess_keeps {Q : List Instr} (s : State) (a : Access) (kind : Nat) (hk : Keeps Q s) : Keeps Q (State.logAccess s a
  kind) := by
  simp only [State.logAccess]
  with_reducible repeat' (first
    | assumption | apply keeps_ite | apply capture_keeps | apply count_keeps | apply raise_keeps
    | (simp only [keeps_mk]; apply keeps_fold) | split | dsimp only)

theorem refuse_keeps {Q : List Instr} (s : State) (a : Access) (kind : Nat) (hk : Keeps Q s) : Keeps Q (State.refuse s a kind)
  := by
  simp only [State.refuse]
  with_reducible repeat' (first
    | assumption | apply keeps_ite | apply logAccess_keeps | (simp only [keeps_mk]; apply keeps_fold) | split | dsimp only)

theorem inHand_keeps {Q : List Instr} (s : State) (a : Access) (f : State → State) (hkf : ∀ x0, Keeps Q x0 → Keeps Q (f x0)) (hk
  : Keeps Q s) : Keeps Q (State.inHand s a f) := by
  simp only [State.inHand]
  with_reducible repeat' (first | assumption | intro _ | apply hkf | (simp only [keeps_mk]; apply keeps_fold) | dsimp only)

theorem hostWaits_keeps {Q : List Instr} (s : State) (m : Master) (hk : Keeps Q s) : Keeps Q (State.hostWaits s m) := by
  simp only [State.hostWaits]
  with_reducible repeat' (first
    | assumption | apply keeps_ite | apply untilNet_keeps | (simp only [keeps_mk]; apply keeps_fold) | split | dsimp only)

theorem markDirty_keeps {Q : List Instr} (s : State) (off : Nat) (hk : Keeps Q s) : Keeps Q (State.markDirty s off) := by
  simp only [State.markDirty]
  with_reducible repeat' (first
    | assumption | apply keeps_ite | apply setFld_keeps | (simp only [keeps_mk]; apply keeps_fold) | split | dsimp only)

theorem atReg_keeps {Q : List Instr} (s : State) (m : Master) (off : Nat) (effect : State → State) (hkeffect : ∀ x0, Keeps Q x0
  → Keeps Q (effect x0)) (hk : Keeps Q s) : Keeps Q (State.atReg s m off effect) := by
  simp only [State.atReg]
  with_reducible repeat' (first
    | assumption | intro _ | apply keeps_ite | apply hostWaits_keeps | apply refuse_keeps | apply hkeffect | split
    | dsimp only)

theorem refuseReg_keeps {Q : List Instr} (s : State) (m : Master) (off : Nat) (hk : Keeps Q s) : Keeps Q (State.refuseReg s m
  off) := by
  simp only [State.refuseReg]
  with_reducible repeat' (first | assumption | apply refuse_keeps | dsimp only)

theorem pend_keeps {Q : List Instr} (s : State) (id bit : Nat) (hk : Keeps Q s) : Keeps Q (State.pend s id bit) := by
  simp only [State.pend]
  with_reducible repeat' (first | assumption | apply setCore_keeps | (simp only [keeps_mk]; apply keeps_fold) | dsimp only)

theorem resetMaster_keeps {Q : List Instr} (s : State) (m : Master) (hk : Keeps Q s) : Keeps Q (State.resetMaster s m) := by
  simp only [State.resetMaster]
  with_reducible repeat' (first
    | assumption | intro _ | apply keeps_ite | apply setFld_keeps | apply refuse_keeps | apply freeWord_keeps
    | apply logAccess_keeps | refine keeps_snd (by assumption) ?_ | (simp only [keeps_mk]; apply keeps_fold) | split
    | dsimp only)

/-! ## Machine/Events.lean -/

theorem putWord_keeps {Q : List Instr} (s : State) (unit : Nat) (d : Die) (a : Nat) (w : Word) (hk : Keeps Q s) : Keeps Q
  (State.putWord s unit d a w) := by
  simp only [State.putWord]
  with_reducible repeat' (first
    | assumption | apply keeps_ite | apply setCore_keeps | (simp only [keeps_mk]; apply keeps_fold) | split | dsimp only)

theorem storeWord_keeps {Q : List Instr} (s : State) (unit : Nat) (d : Die) (a : Nat) (w : Word) (hk : Keeps Q s) : Keeps Q
  (State.storeWord s unit d a w) := by
  simp only [State.storeWord]
  with_reducible repeat' (first
    | assumption | apply keeps_ite | apply putWord_keeps | (simp only [keeps_mk]; apply keeps_fold) | split | dsimp only)

theorem signal_keeps {Q : List Instr} (s : State) (t : Nat) (hk : Keeps Q s) : Keeps Q (State.signal s t) := by
  simp only [State.signal]
  with_reducible repeat' (first
    | assumption | intro _ | apply keeps_ite | apply pend_keeps | (simp only [keeps_mk]; apply keeps_fold) | split
    | dsimp only)

theorem signalDue_keeps {Q : List Instr} (s : State) (t : Nat) (hk : Keeps Q s) : Keeps Q (State.signalDue s t) := by
  simp only [State.signalDue]
  with_reducible repeat' (first
    | assumption | intro _ | apply keeps_ite | apply signal_keeps | (simp only [keeps_mk]; apply keeps_fold) | split
    | dsimp only)

theorem evaluate_keeps {Q : List Instr} (s : State) (t : Nat) (hk : Keeps Q s) : Keeps Q (State.evaluate s t) := by
  simp only [State.evaluate]
  with_reducible repeat' (first
    | assumption | intro _ | apply keeps_ite | apply signalDue_keeps | (simp only [keeps_mk]; apply keeps_fold) | split
    | dsimp only)

theorem storeRecord_keeps {Q : List Instr} (s : State) (t l place : Nat) (ws : List Word) (hk : Keeps Q s) : Keeps Q
  (State.storeRecord s t l place ws) := by
  simp only [State.storeRecord]
  with_reducible repeat' (first
    | assumption | intro _ | apply keeps_ite | apply storeWord_keeps | (apply keeps_foldl; intro _ _ _) | split | dsimp only)

theorem writeRecord_keeps {Q : List Instr} (s : State) (t : Nat) (p : Pending) (hk : Keeps Q s) : Keeps Q (State.writeRecord s t
  p) := by
  simp only [State.writeRecord]
  with_reducible repeat' (first
    | assumption | apply keeps_ite | apply record_keeps | apply setFld_keeps | apply storeRecord_keeps
    | (simp only [keeps_mk]; apply keeps_fold) | split | dsimp only)

theorem ringWrite_keeps {Q : List Instr} (s : State) (t : Nat) (hk : Keeps Q s) : Keeps Q (State.ringWrite s t) := by
  simp only [State.ringWrite]
  with_reducible repeat' (first
    | assumption | apply keeps_ite | apply writeRecord_keeps | apply evaluate_keeps
    | (simp only [keeps_mk]; apply keeps_fold) | split | dsimp only)

theorem execEventRingWrite_keeps {Q : List Instr} (t : Fin 4) (s : State) (hk : Keeps Q s) : ∀ ans, execEventRingWrite t s =
  .next ans → Keeps Q ans := by
  intro ans e
  injection e with e
  subst e
  with_reducible repeat' (first | assumption | apply ringWrite_keeps | dsimp only)

theorem accept_keeps {Q : List Instr} (s : State) (t : Nat) (hk : Keeps Q s) : Keeps Q (State.accept s t) := by
  simp only [State.accept]
  with_reducible repeat' (first
    | assumption | intro _ | apply setReg_keeps | apply evaluate_keeps | (simp only [keeps_mk]; apply keeps_fold) | split
    | dsimp only)

theorem execEvtAccept_keeps {Q : List Instr} (m : Master) (t : Fin 4) (s : State) (hk : Keeps Q s) : ∀ ans, execEvtAccept m t s
  = .next ans → Keeps Q ans := by
  intro ans e
  injection e with e
  subst e
  with_reducible repeat' (first
    | assumption | apply keeps_ite | apply hostWaits_keeps | apply accept_keeps | split | dsimp only)

theorem eoi_keeps {Q : List Instr} (s : State) (t : Nat) (hk : Keeps Q s) : Keeps Q (State.eoi s t) := by
  simp only [State.eoi]
  with_reducible repeat' (first
    | assumption | intro _ | apply keeps_ite | apply count_keeps | apply raise_keeps | apply signal_keeps
    | (simp only [keeps_mk]; apply keeps_fold) | split | dsimp only)

theorem eoiBy_keeps {Q : List Instr} (s : State) (m : Master) (t : Nat) (hk : Keeps Q s) : Keeps Q (State.eoiBy s m t) := by
  simp only [State.eoiBy]
  with_reducible repeat' (first | assumption | apply keeps_ite | apply eoi_keeps | apply refuseReg_keeps | split | dsimp only)

theorem execEvtEoi_keeps {Q : List Instr} (m : Master) (t : Fin 4) (s : State) (hk : Keeps Q s) : ∀ ans, execEvtEoi m t s =
  .next ans → Keeps Q ans := by
  intro ans e
  injection e with e
  subst e
  with_reducible repeat' (first | assumption | intro _ | apply atReg_keeps | apply eoiBy_keeps | dsimp only)

theorem execHoldoffExpire_keeps {Q : List Instr} (t : Fin 4) (s : State) (hk : Keeps Q s) : ∀ ans, execHoldoffExpire t s = .next
  ans → Keeps Q ans := by
  intro ans e
  injection e with e
  subst e
  with_reducible repeat' (first
    | assumption | intro _ | apply untilNow_keeps | apply signal_keeps | (simp only [keeps_mk]; apply keeps_fold) | split
    | dsimp only)

theorem moveRecords_keeps {Q : List Instr} (s : State) (t u : Nat) (hk : Keeps Q s) : Keeps Q (State.moveRecords s t u) := by
  simp only [State.moveRecords]
  with_reducible repeat' (first
    | assumption | intro _ | apply keeps_ite | (simp only [keeps_mk]; apply keeps_fold) | split | dsimp only)

theorem redirWrite_keeps {Q : List Instr} (s : State) (m : Master) (t : Nat) (v : Word) (hk : Keeps Q s) : Keeps Q
  (State.redirWrite s m t v) := by
  simp only [State.redirWrite]
  with_reducible repeat' (first
    | assumption | apply keeps_ite | apply setFld_keeps | apply markDirty_keeps | apply moveRecords_keeps
    | apply refuseReg_keeps | split | dsimp only)

theorem execEvtRedirWrite_keeps {Q : List Instr} (m : Master) (t : Fin 4) (v : Word) (s : State) (hk : Keeps Q s) : ∀ ans,
  execEvtRedirWrite m t v s = .next ans → Keeps Q ans := by
  intro ans e
  injection e with e
  subst e
  with_reducible repeat' (first | assumption | intro _ | apply atReg_keeps | apply redirWrite_keeps | dsimp only)

theorem execEvtFallback_keeps {Q : List Instr} (t : Fin 2) (s : State) (hk : Keeps Q s) : ∀ ans, execEvtFallback t s = .next ans
  → Keeps Q ans := by
  intro ans e
  injection e with e
  subst e
  with_reducible repeat' (first
    | assumption | intro _ | apply keeps_ite | apply untilNow_keeps | apply moveRecords_keeps
    | (simp only [keeps_mk]; apply keeps_fold) | split | dsimp only)

theorem clearRing_keeps {Q : List Instr} (s : State) (t l : Nat) (hk : Keeps Q s) : Keeps Q (State.clearRing s t l) := by
  simp only [State.clearRing]
  with_reducible repeat' (first | assumption | apply setFld_keeps | apply setReg_keeps | dsimp only)

theorem ringCtrlWrite_keeps {Q : List Instr} (s : State) (t l : Nat) (v : Word) (hk : Keeps Q s) : Keeps Q (State.ringCtrlWrite
  s t l v) := by
  simp only [State.ringCtrlWrite]
  with_reducible repeat' (first
    | assumption | apply keeps_ite | apply setFld_keeps | apply markDirty_keeps | apply clearRing_keeps
    | apply evaluate_keeps | split | dsimp only)

theorem execEvtRingCtrlWrite_keeps {Q : List Instr} (m : Master) (t : Fin 4) (l : Fin 8) (v : Word) (s : State) (hk : Keeps Q s)
  : ∀ ans, execEvtRingCtrlWrite m t l v s = .next ans → Keeps Q ans := by
  intro ans e
  injection e with e
  subst e
  with_reducible repeat' (first | assumption | intro _ | apply atReg_keeps | apply ringCtrlWrite_keeps | dsimp only)

theorem ringHeadWrite_keeps {Q : List Instr} (s : State) (t l : Nat) (v : Word) (hk : Keeps Q s) : Keeps Q (State.ringHeadWrite
  s t l v) := by
  simp only [State.ringHeadWrite]
  with_reducible repeat' (first
    | assumption | intro _ | apply keeps_ite | apply record_keeps | apply setFld_keeps | apply evaluate_keeps
    | (apply keeps_foldl; intro _ _ _) | (simp only [keeps_mk]; apply keeps_fold) | split | dsimp only)

theorem execEvtRingHeadWrite_keeps {Q : List Instr} (m : Master) (t : Fin 4) (l : Fin 8) (v : Word) (s : State) (hk : Keeps Q s)
  : ∀ ans, execEvtRingHeadWrite m t l v s = .next ans → Keeps Q ans := by
  intro ans e
  injection e with e
  subst e
  with_reducible repeat' (first | assumption | intro _ | apply atReg_keeps | apply ringHeadWrite_keeps | dsimp only)

theorem setAvailable_keeps {Q : List Instr} (s : State) (t : Nat) (a : Bool) (hk : Keeps Q s) : Keeps Q (State.setAvailable s t
  a) := by
  simp only [State.setAvailable]
  with_reducible repeat' (first
    | assumption | intro _ | apply keeps_ite | (simp only [keeps_mk]; apply keeps_fold) | split | dsimp only)

theorem execPfAvailabilityChange_keeps {Q : List Instr} (pf : Fin 2) (available : Bool) (s : State) (hk : Keeps Q s) : ∀ ans,
  execPfAvailabilityChange pf available s = .next ans → Keeps Q ans := by
  intro ans e
  injection e with e
  subst e
  with_reducible repeat' (first
    | assumption | apply keeps_ite | apply setAvailable_keeps | (simp only [keeps_mk]; apply keeps_fold) | split
    | dsimp only)

/-! ## Machine/Timebase.lean -/

theorem setErr_keeps {Q : List Instr} (s : State) (n : Nat) (hk : Keeps Q s) : Keeps Q (State.setErr s n) := by
  simp only [State.setErr]
  with_reducible repeat' (first | assumption | apply keeps_ite | apply setFld_keeps | split | dsimp only)

theorem refreshErr_keeps {Q : List Instr} (s : State) (hk : Keeps Q s) : Keeps Q (State.refreshErr s) := by
  simp only [State.refreshErr]
  with_reducible repeat' (first
    | assumption | apply keeps_ite | apply setErr_keeps | (simp only [keeps_mk]; apply keeps_fold) | split | dsimp only)

theorem timeEvent_keeps {Q : List Instr} (s : State) (cls kind : Nat) (hk : Keeps Q s) : Keeps Q (State.timeEvent s cls kind) :=
  by
  simp only [State.timeEvent]
  with_reducible repeat' (first | assumption | apply refreshErr_keeps | apply raise_keeps | dsimp only)

theorem moveNet_keeps {Q : List Instr} (s : State) (by_ : Int) (hk : Keeps Q s) : Keeps Q (State.moveNet s by_) := by
  simp only [State.moveNet]
  with_reducible repeat' (first | assumption | (simp only [keeps_mk]; apply keeps_fold) | dsimp only)

theorem stepNet_keeps {Q : List Instr} (s : State) (by_ : Int) (hk : Keeps Q s) : Keeps Q (State.stepNet s by_) := by
  simp only [State.stepNet]
  with_reducible repeat' (first
    | assumption | intro _ | apply setTile_keeps | apply moveNet_keeps | (apply keeps_foldl; intro _ _ _)
    | (simp only [keeps_mk]; apply keeps_fold) | dsimp only)

theorem stepTime_keeps {Q : List Instr} (s : State) (e : Pulse) (sec : Nat) (hk : Keeps Q s) : Keeps Q (State.stepTime s e sec)
  := by
  simp only [State.stepTime]
  with_reducible repeat' (first
    | assumption | apply stepNet_keeps | apply setFld_keeps | apply setErr_keeps | apply count_keeps
    | (simp only [keeps_mk]; apply keeps_fold) | dsimp only)

theorem correct_keeps {Q : List Instr} (s : State) (e : Pulse) (hk : Keeps Q s) : Keeps Q (State.correct s e) := by
  simp only [State.correct]
  with_reducible repeat' (first
    | assumption | apply keeps_ite | apply moveNet_keeps | apply setFld_keeps | apply setErr_keeps | apply refreshErr_keeps
    | (simp only [keeps_mk]; apply keeps_fold) | split | dsimp only)

theorem takeMsg_keeps {Q : List Instr} (s : State) (hk : Keeps Q s) : Keeps Q (State.takeMsg s) := by
  simp only [State.takeMsg]
  with_reducible repeat' (first | assumption | (simp only [keeps_mk]; apply keeps_fold) | dsimp only)

theorem stepWait_keeps {Q : List Instr} (s : State) (off : Int) (hk : Keeps Q s) : Keeps Q (State.stepWait s off) := by
  simp only [State.stepWait]
  with_reducible repeat' (first
    | assumption | apply keeps_ite | apply setFld_keeps | apply setErr_keeps | apply timeEvent_keeps
    | (simp only [keeps_mk]; apply keeps_fold) | split | dsimp only)

theorem badEdge_keeps {Q : List Instr} (s : State) (hk : Keeps Q s) : Keeps Q (State.badEdge s) := by
  simp only [State.badEdge]
  with_reducible repeat' (first | assumption | apply count_keeps | dsimp only)

theorem edgeAcquire_keeps {Q : List Instr} (s : State) (e : Pulse) (hk : Keeps Q s) : Keeps Q (State.edgeAcquire s e) := by
  simp only [State.edgeAcquire]
  with_reducible repeat' (first
    | assumption | apply keeps_ite | apply badEdge_keeps | apply correct_keeps | apply count_keeps
    | (simp only [keeps_mk]; apply keeps_fold) | split | dsimp only)

theorem edgeLocked_keeps {Q : List Instr} (s : State) (e : Pulse) (hk : Keeps Q s) : Keeps Q (State.edgeLocked s e) := by
  simp only [State.edgeLocked]
  with_reducible repeat' (first
    | assumption | apply keeps_ite | apply badEdge_keeps | apply correct_keeps | apply count_keeps | apply stepWait_keeps
    | apply stepTime_keeps | (simp only [keeps_mk]; apply keeps_fold) | split | dsimp only)

theorem edgeHoldover_keeps {Q : List Instr} (s : State) (e : Pulse) (hk : Keeps Q s) : Keeps Q (State.edgeHoldover s e) := by
  simp only [State.edgeHoldover]
  with_reducible repeat' (first
    | assumption | apply keeps_ite | apply stepTime_keeps | apply setFld_keeps | apply refreshErr_keeps | apply count_keeps
    | apply stepWait_keeps | (simp only [keeps_mk]; apply keeps_fold) | split | dsimp only)

theorem edgeStepWait_keeps {Q : List Instr} (s : State) (e : Pulse) (hk : Keeps Q s) : Keeps Q (State.edgeStepWait s e) := by
  simp only [State.edgeStepWait]
  with_reducible repeat' (first
    | assumption | apply keeps_ite | apply stepTime_keeps | apply stepWait_keeps | (simp only [keeps_mk]; apply keeps_fold)
    | split | dsimp only)

theorem ppsEdge_keeps {Q : List Instr} (s : State) (err : Int) (hk : Keeps Q s) : Keeps Q (State.ppsEdge s err) := by
  simp only [State.ppsEdge]
  with_reducible repeat' (first
    | assumption | apply keeps_ite | apply untilNet_keeps | apply count_keeps | apply stepTime_keeps
    | apply edgeAcquire_keeps | apply edgeLocked_keeps | apply edgeHoldover_keeps | apply edgeStepWait_keeps
    | apply takeMsg_keeps | (simp only [keeps_mk]; apply keeps_fold) | split | dsimp only)

theorem execPpsEdge_keeps {Q : List Instr} (errNs : Int) (s : State) (hk : Keeps Q s) : ∀ ans, execPpsEdge errNs s = .next ans →
  Keeps Q ans := by
  intro ans e
  injection e with e
  subst e
  with_reducible repeat' (first | assumption | apply ppsEdge_keeps | dsimp only)

theorem todMessage_keeps {Q : List Instr} (s : State) (bs : List Byte) (inWindow : Bool) (hk : Keeps Q s) : Keeps Q
  (State.todMessage s bs inWindow) := by
  simp only [State.todMessage]
  with_reducible repeat' (first
    | assumption | apply keeps_ite | apply setFld_keeps | apply count_keeps | (simp only [keeps_mk]; apply keeps_fold)
    | split | dsimp only)

theorem execTodMessage_keeps {Q : List Instr} (bytes : List Byte) (inWindow : Bool) (s : State) (hk : Keeps Q s) : ∀ ans,
  execTodMessage bytes inWindow s = .next ans → Keeps Q ans := by
  intro ans e
  injection e with e
  subst e
  with_reducible repeat' (first | assumption | apply todMessage_keeps | dsimp only)

theorem execTimeLocked_keeps {Q : List Instr} (s : State) (hk : Keeps Q s) : ∀ ans, execTimeLocked s = .next ans → Keeps Q ans
  := by
  intro ans e
  injection e with e
  subst e
  with_reducible repeat' (first
    | assumption | apply keeps_ite | apply count_keeps | apply setFld_keeps | apply timeEvent_keeps
    | (simp only [keeps_mk]; apply keeps_fold) | split | dsimp only)

theorem ppsTimeout_keeps {Q : List Instr} (s : State) (hk : Keeps Q s) : Keeps Q (State.ppsTimeout s) := by
  simp only [State.ppsTimeout]
  with_reducible repeat' (first
    | assumption | apply keeps_ite | apply untilNow_keeps | apply setFld_keeps | apply count_keeps | apply refreshErr_keeps
    | apply timeEvent_keeps | (simp only [keeps_mk]; apply keeps_fold) | split | dsimp only)

theorem execPpsTimeout_keeps {Q : List Instr} (s : State) (hk : Keeps Q s) : ∀ ans, execPpsTimeout s = .next ans → Keeps Q ans
  := by
  intro ans e
  injection e with e
  subst e
  with_reducible repeat' (first | assumption | apply ppsTimeout_keeps | dsimp only)

theorem execHoldLimit_keeps {Q : List Instr} (s : State) (hk : Keeps Q s) : ∀ ans, execHoldLimit s = .next ans → Keeps Q ans :=
  by
  intro ans e
  injection e with e
  subst e
  with_reducible repeat' (first
    | assumption | apply keeps_ite | apply untilNow_keeps | apply timeEvent_keeps | (simp only [keeps_mk]; apply keeps_fold)
    | split | dsimp only)

theorem execRefclkLoss_keeps {Q : List Instr} (s : State) (hk : Keeps Q s) : ∀ ans, execRefclkLoss s = .next ans → Keeps Q ans
  := by
  intro ans e
  injection e with e
  subst e
  with_reducible repeat' (first
    | assumption | apply keeps_ite | apply setFld_keeps | apply raiseStanding_keeps
    | (simp only [keeps_mk]; apply keeps_fold) | split | dsimp only)

theorem execRefclkReturn_keeps {Q : List Instr} (s : State) (hk : Keeps Q s) : ∀ ans, execRefclkReturn s = .next ans → Keeps Q
  ans := by
  intro ans e
  injection e with e
  subst e
  with_reducible repeat' (first
    | assumption | apply keeps_ite | apply setFld_keeps | apply endStanding_keeps | (simp only [keeps_mk]; apply keeps_fold)
    | split | dsimp only)

theorem latchTime_keeps {Q : List Instr} (s : State) (r : Nat → Nat) (t : Nat) (hk : Keeps Q s) : Keeps Q (State.latchTime s r
  t) := by
  simp only [State.latchTime]
  with_reducible repeat' (first | assumption | apply setReg_keeps | dsimp only)

theorem execTimNow0Read_keeps {Q : List Instr} (m : Master) (s : State) (hk : Keeps Q s) : ∀ ans, execTimNow0Read m s = .next
  ans → Keeps Q ans := by
  intro ans e
  injection e with e
  subst e
  with_reducible repeat' (first
    | assumption | apply keeps_ite | apply hostWaits_keeps | apply latchTime_keeps | split | dsimp only)

theorem execHeatAct0Read_keeps {Q : List Instr} (m : Master) (s : State) (hk : Keeps Q s) : ∀ ans, execHeatAct0Read m s = .next
  ans → Keeps Q ans := by
  intro ans e
  injection e with e
  subst e
  with_reducible repeat' (first
    | assumption | apply keeps_ite | apply hostWaits_keeps | apply latchTime_keeps | split | dsimp only)

/-! ## Machine/BusMatrix.lean -/

theorem execDebugLock_keeps {Q : List Instr} (port : Fin 256) (s : State) (hk : Keeps Q s) : ∀ ans, execDebugLock port s = .next
  ans → Keeps Q ans := by
  intro ans e
  injection e with e
  subst e
  with_reducible repeat' (first
    | assumption | apply keeps_ite | apply refuse_keeps | apply setFld_keeps | (simp only [keeps_mk]; apply keeps_fold)
    | split | dsimp only)

theorem execBusLockForced_keeps {Q : List Instr} (s : State) (hk : Keeps Q s) : ∀ ans, execBusLockForced s = .next ans → Keeps Q
  ans := by
  intro ans e
  injection e with e
  subst e
  with_reducible repeat' (first
    | assumption | apply setFld_keeps | apply refuse_keeps | (simp only [keeps_mk]; apply keeps_fold) | split | dsimp only)

theorem remapWrite_keeps {Q : List Instr} (s : State) (m : Master) (v : Word) (hk : Keeps Q s) : Keeps Q (State.remapWrite s m
  v) := by
  simp only [State.remapWrite]
  with_reducible repeat' (first | assumption | apply keeps_ite | apply setFld_keeps | apply refuse_keeps | split | dsimp only)

theorem execBusRemapWrite_keeps {Q : List Instr} (m : Master) (v : Word) (s : State) (hk : Keeps Q s) : ∀ ans, execBusRemapWrite
  m v s = .next ans → Keeps Q ans := by
  intro ans e
  injection e with e
  subst e
  with_reducible repeat' (first | assumption | intro _ | apply atReg_keeps | apply remapWrite_keeps | dsimp only)

theorem sliceWrite_keeps {Q : List Instr} (s : State) (m : Master) (v : Word) (hk : Keeps Q s) : Keeps Q (State.sliceWrite s m
  v) := by
  simp only [State.sliceWrite]
  with_reducible repeat' (first
    | assumption | apply keeps_ite | apply refuse_keeps | apply setReg_keeps | apply markDirty_keeps | split | dsimp only)

theorem execBusSliceWrite_keeps {Q : List Instr} (m : Master) (v : Word) (s : State) (hk : Keeps Q s) : ∀ ans, execBusSliceWrite
  m v s = .next ans → Keeps Q ans := by
  intro ans e
  injection e with e
  subst e
  with_reducible repeat' (first | assumption | intro _ | apply atReg_keeps | apply sliceWrite_keeps | dsimp only)

theorem execBusBooted_keeps {Q : List Instr} (m : Master) (s : State) (hk : Keeps Q s) : ∀ ans, execBusBooted m s = .next ans →
  Keeps Q ans := by
  intro ans e
  injection e with e
  subst e
  with_reducible repeat' (first | assumption | apply keeps_ite | apply setFld_keeps | split | dsimp only)

theorem execDebugPortReset_keeps {Q : List Instr} (s : State) (hk : Keeps Q s) : ∀ ans, execDebugPortReset s = .next ans → Keeps
  Q ans := by
  intro ans e
  injection e with e
  subst e
  with_reducible repeat' (first | assumption | apply resetMaster_keeps | dsimp only)

theorem smbusRead_keeps {Q : List Instr} (s : State) (off n : Nat) (hk : Keeps Q s) : Keeps Q (State.smbusRead s off n) := by
  simp only [State.smbusRead]
  with_reducible repeat' (first | assumption | apply keeps_ite | (simp only [keeps_mk]; apply keeps_fold) | split | dsimp only)

theorem execSmbusReadByte_keeps {Q : List Instr} (cmd : Byte) (s : State) (hk : Keeps Q s) : ∀ ans, execSmbusReadByte cmd s =
  .next ans → Keeps Q ans := by
  intro ans e
  injection e with e
  subst e
  with_reducible repeat' (first | assumption | apply smbusRead_keeps | dsimp only)

theorem execSmbusReadWord_keeps {Q : List Instr} (cmd : Byte) (s : State) (hk : Keeps Q s) : ∀ ans, execSmbusReadWord cmd s =
  .next ans → Keeps Q ans := by
  intro ans e
  injection e with e
  subst e
  with_reducible repeat' (first | assumption | apply smbusRead_keeps | dsimp only)

theorem execSmbusBlockRead_keeps {Q : List Instr} (_cmd : Byte) (s : State) (hk : Keeps Q s) : ∀ ans, execSmbusBlockRead _cmd s
  = .next ans → Keeps Q ans := by
  intro ans e
  injection e with e
  subst e
  with_reducible repeat' (first | assumption | apply smbusRead_keeps | dsimp only)

theorem execSmbusWrite_keeps {Q : List Instr} (_cmd : Byte) (s : State) (hk : Keeps Q s) : ∀ ans, execSmbusWrite _cmd s = .next
  ans → Keeps Q ans := by
  intro ans e
  injection e with e
  subst e
  with_reducible repeat' (first | assumption | (simp only [keeps_mk]; apply keeps_fold) | dsimp only)

theorem execSmbusWindowRefresh_keeps {Q : List Instr} (s : State) (hk : Keeps Q s) : ∀ ans, execSmbusWindowRefresh s = .next ans
  → Keeps Q ans := by
  intro ans e
  injection e with e
  subst e
  with_reducible repeat' (first | assumption | (simp only [keeps_mk]; apply keeps_fold) | dsimp only)

/-! ## Machine/AccessLock.lean -/

theorem atLock_keeps {Q : List Instr} (s : State) (m : Master) (effect : State → State) (hkeffect : ∀ x0, Keeps Q x0 → Keeps Q
  (effect x0)) (hk : Keeps Q s) : Keeps Q (State.atLock s m effect) := by
  simp only [State.atLock]
  with_reducible repeat' (first
    | assumption | intro _ | apply keeps_ite | apply atReg_keeps | apply refuse_keeps | apply hkeffect | split | dsimp only)

theorem dropChallenge_keeps {Q : List Instr} (s : State) (hk : Keeps Q s) : Keeps Q (State.dropChallenge s) := by
  simp only [State.dropChallenge]
  with_reducible repeat' (first
    | assumption | intro _ | apply setReg_keeps | apply setFld_keeps | (apply keeps_foldl; intro _ _ _)
    | (simp only [keeps_mk]; apply keeps_fold) | dsimp only)

theorem dropResponse_keeps {Q : List Instr} (s : State) (hk : Keeps Q s) : Keeps Q (State.dropResponse s) := by
  simp only [State.dropResponse]
  with_reducible repeat' (first | assumption | intro _ | apply setReg_keeps | (apply keeps_foldl; intro _ _ _) | dsimp only)

theorem challenge_keeps {Q : List Instr} (s : State) (entropy : BitVec 128) (hk : Keeps Q s) : Keeps Q (State.challenge s
  entropy) := by
  simp only [State.challenge]
  with_reducible repeat' (first
    | assumption | intro _ | apply setReg_keeps | apply setFld_keeps | (apply keeps_foldl; intro _ _ _)
    | (simp only [keeps_mk]; apply keeps_fold) | dsimp only)

theorem execChallenge_keeps {Q : List Instr} (m : Master) (entropy : BitVec 128) (s : State) (hk : Keeps Q s) : ∀ ans,
  execChallenge m entropy s = .next ans → Keeps Q ans := by
  intro ans e
  injection e with e
  subst e
  with_reducible repeat' (first | assumption | intro _ | apply atLock_keeps | apply challenge_keeps | dsimp only)

theorem startLockout_keeps {Q : List Instr} (s : State) (hk : Keeps Q s) : Keeps Q (State.startLockout s) := by
  simp only [State.startLockout]
  with_reducible repeat' (first | assumption | apply setFld_keeps | (simp only [keeps_mk]; apply keeps_fold) | dsimp only)

theorem lockFails_keeps {Q : List Instr} (s : State) (method scope : Nat) (hk : Keeps Q s) : Keeps Q (State.lockFails s method
  scope) := by
  simp only [State.lockFails]
  with_reducible repeat' (first
    | assumption | apply keeps_ite | apply count_keeps | apply setFld_keeps | apply raise_keeps | apply startLockout_keeps
    | split | dsimp only)

theorem lockOpens_keeps {Q : List Instr} (s : State) (method scope : Nat) (hk : Keeps Q s) : Keeps Q (State.lockOpens s method
  scope) := by
  simp only [State.lockOpens]
  with_reducible repeat' (first
    | assumption | apply setFld_keeps | apply raise_keeps | (simp only [keeps_mk]; apply keeps_fold) | dsimp only)

theorem attempt_keeps {Q : List Instr} (s : State) (method scope : Nat) (needChal provisioned scopeOk : Bool) (good : Bool) (hk
  : Keeps Q s) : Keeps Q (State.attempt s method scope needChal provisioned scopeOk good) := by
  simp only [State.attempt]
  with_reducible repeat' (first
    | assumption | apply keeps_ite | apply dropChallenge_keeps | apply dropResponse_keeps | apply setFld_keeps
    | apply lockOpens_keeps | apply lockFails_keeps | split | dsimp only)

theorem respondG_keeps {Q : List Instr} (s : State) (scope : Nat) (hk : Keeps Q s) : Keeps Q (State.respondG s scope) := by
  simp only [State.respondG]
  with_reducible repeat' (first | assumption | apply attempt_keeps | dsimp only)

theorem execRespondG_keeps {Q : List Instr} (m : Master) (scope : Fin 4) (s : State) (hk : Keeps Q s) : ∀ ans, execRespondG m
  scope s = .next ans → Keeps Q ans := by
  intro ans e
  injection e with e
  subst e
  with_reducible repeat' (first | assumption | intro _ | apply atLock_keeps | apply respondG_keeps | dsimp only)

theorem respondC_keeps {Q : List Instr} (s : State) (scope : Nat) (hk : Keeps Q s) : Keeps Q (State.respondC s scope) := by
  simp only [State.respondC]
  with_reducible repeat' (first | assumption | apply attempt_keeps | dsimp only)

theorem execRespondC_keeps {Q : List Instr} (m : Master) (scope : Fin 4) (s : State) (hk : Keeps Q s) : ∀ ans, execRespondC m
  scope s = .next ans → Keeps Q ans := by
  intro ans e
  injection e with e
  subst e
  with_reducible repeat' (first | assumption | intro _ | apply atLock_keeps | apply respondC_keeps | dsimp only)

theorem password_keeps {Q : List Instr} (s : State) (len : Nat) (hk : Keeps Q s) : Keeps Q (State.password s len) := by
  simp only [State.password]
  with_reducible repeat' (first | assumption | apply attempt_keeps | dsimp only)

theorem execPassword_keeps {Q : List Instr} (m : Master) (len : Fin 64) (s : State) (hk : Keeps Q s) : ∀ ans, execPassword m len
  s = .next ans → Keeps Q ans := by
  intro ans e
  injection e with e
  subst e
  with_reducible repeat' (first | assumption | intro _ | apply atLock_keeps | apply password_keeps | dsimp only)

theorem lockCloses_keeps {Q : List Instr} (s : State) (hk : Keeps Q s) : Keeps Q (State.lockCloses s) := by
  simp only [State.lockCloses]
  with_reducible repeat' (first
    | assumption | apply keeps_ite | apply setFld_keeps | apply raise_keeps | apply resetMaster_keeps
    | (simp only [keeps_mk]; apply keeps_fold) | split | dsimp only)

theorem execClose_keeps {Q : List Instr} (m : Master) (s : State) (hk : Keeps Q s) : ∀ ans, execClose m s = .next ans → Keeps Q
  ans := by
  intro ans e
  injection e with e
  subst e
  with_reducible repeat' (first | assumption | intro _ | apply atLock_keeps | apply lockCloses_keeps | dsimp only)

theorem execChallengeExpire_keeps {Q : List Instr} (s : State) (hk : Keeps Q s) : ∀ ans, execChallengeExpire s = .next ans →
  Keeps Q ans := by
  intro ans e
  injection e with e
  subst e
  with_reducible repeat' (first
    | assumption | apply keeps_ite | apply untilNow_keeps | apply dropChallenge_keeps | split | dsimp only)

theorem execLockoutEnd_keeps {Q : List Instr} (s : State) (hk : Keeps Q s) : ∀ ans, execLockoutEnd s = .next ans → Keeps Q ans
  := by
  intro ans e
  injection e with e
  subst e
  with_reducible repeat' (first
    | assumption | apply untilNow_keeps | apply setFld_keeps | (simp only [keeps_mk]; apply keeps_fold) | split | dsimp only)

theorem execLockOpenExpire_keeps {Q : List Instr} (s : State) (hk : Keeps Q s) : ∀ ans, execLockOpenExpire s = .next ans → Keeps
  Q ans := by
  intro ans e
  injection e with e
  subst e
  with_reducible repeat' (first
    | assumption | apply keeps_ite | apply untilNow_keeps | apply lockCloses_keeps | split | dsimp only)

/-! ## Machine/CopeDrag.lean -/

theorem setCompare_keeps {Q : List Instr} (s : State) (on : Bool) (hk : Keeps Q s) : Keeps Q (State.setCompare s on) := by
  simp only [State.setCompare]
  with_reducible repeat' (first
    | assumption | intro _ | apply setFld_keeps | apply setTile_keeps | (apply keeps_foldl; intro _ _ _)
    | (simp only [keeps_mk]; apply keeps_fold) | dsimp only)

theorem loseStandby_keeps {Q : List Instr} (s : State) (stby trigger tile : Nat) (hk : Keeps Q s) : Keeps Q (State.loseStandby s
  stby trigger tile) := by
  simp only [State.loseStandby]
  with_reducible repeat' (first
    | assumption | apply keeps_ite | apply setFld_keeps | apply setCompare_keeps | apply raise_keeps
    | apply raiseStanding_keeps | (simp only [keeps_mk]; apply keeps_fold) | split | dsimp only)

theorem startArb_keeps {Q : List Instr} (s : State) (trigger tile : Nat) (hk : Keeps Q s) : Keeps Q (State.startArb s trigger
  tile) := by
  simp only [State.startArb]
  with_reducible repeat' (first | assumption | apply setFld_keeps | (simp only [keeps_mk]; apply keeps_fold) | dsimp only)

theorem mismatch_keeps {Q : List Instr} (s : State) (tile : Nat) (hk : Keeps Q s) : Keeps Q (State.mismatch s tile) := by
  simp only [State.mismatch]
  with_reducible repeat' (first | assumption | apply keeps_ite | apply count_keeps | apply startArb_keeps | split | dsimp only)

theorem execHeartbeatLoss_keeps {Q : List Instr} (s : State) (hk : Keeps Q s) : ∀ ans, execHeartbeatLoss s = .next ans → Keeps Q
  ans := by
  intro ans e
  injection e with e
  subst e
  with_reducible repeat' (first
    | assumption | apply keeps_ite | apply count_keeps | apply startArb_keeps | (simp only [keeps_mk]; apply keeps_fold)
    | split | dsimp only)

theorem execDieWatchdogExpire_keeps {Q : List Instr} (s : State) (hk : Keeps Q s) : ∀ ans, execDieWatchdogExpire s = .next ans →
  Keeps Q ans := by
  intro ans e
  injection e with e
  subst e
  with_reducible repeat' (first | assumption | (simp only [keeps_mk]; apply keeps_fold) | dsimp only)

theorem applyWord_keeps {Q : List Instr} (s : State) (e : Streamed) (hk : Keeps Q s) : Keeps Q (State.applyWord s e) := by
  simp only [State.applyWord]
  with_reducible repeat' (first | assumption | apply keeps_ite | apply count_keeps | apply putWord_keeps | split | dsimp only)

theorem applyBefore_keeps {Q : List Instr} (s : State) (f : Nat) (hk : Keeps Q s) : Keeps Q (State.applyBefore s f) := by
  simp only [State.applyBefore]
  with_reducible repeat' (first
    | assumption | intro _ | apply applyWord_keeps | (apply keeps_foldl; intro _ _ _)
    | (simp only [keeps_mk]; apply keeps_fold) | dsimp only)

theorem applyStream_keeps {Q : List Instr} (s : State) (hk : Keeps Q s) : Keeps Q (State.applyStream s) := by
  simp only [State.applyStream]
  with_reducible repeat' (first
    | assumption | apply applyWord_keeps | (apply keeps_foldl; intro _ _ _) | (simp only [keeps_mk]; apply keeps_fold)
    | dsimp only)

theorem freshTarget_keeps {Q : List Instr} (s : State) (t : Nat) (hk : Keeps Q s) : Keeps Q (State.freshTarget s t) := by
  simp only [State.freshTarget]
  with_reducible repeat' (first
    | assumption | intro _ | apply setReg_keeps | (apply keeps_foldl; intro _ _ _)
    | (simp only [keeps_mk]; apply keeps_fold) | dsimp only)

theorem replayEvents_keeps {Q : List Instr} (s : State) (hk : Keeps Q s) : Keeps Q (State.replayEvents s) := by
  simp only [State.replayEvents]
  with_reducible repeat' (first
    | assumption | intro _ | apply post_keeps | apply record_keeps | apply freshTarget_keeps
    | (apply keeps_foldl; intro _ _ _) | (simp only [keeps_mk]; apply keeps_fold) | dsimp only)

theorem abandonDecomposition_keeps {Q : List Instr} (s : State) (hk : Keeps Q s) : Keeps Q (State.abandonDecomposition s) := by
  simp only [State.abandonDecomposition]
  with_reducible repeat' (first
    | assumption | intro _ | apply keeps_ite | apply freeWord_keeps | apply raise_keeps
    | refine keeps_snd (by assumption) ?_ | (simp only [keeps_mk]; apply keeps_fold) | split | dsimp only)

theorem gapStaging_keeps {Q : List Instr} (s : State) (hk : Keeps Q s) : Keeps Q (State.gapStaging s) := by
  simp only [State.gapStaging]
  with_reducible repeat' (first | assumption | apply keeps_ite | (simp only [keeps_mk]; apply keeps_fold) | split | dsimp only)

theorem toSlotEdge_keeps {Q : List Instr} (s : State) (hk : Keeps Q s) : Keeps Q (State.toSlotEdge s) := by
  simp only [State.toSlotEdge]
  with_reducible repeat' (first | assumption | apply untilNet_keeps | dsimp only)

theorem switchOver_keeps {Q : List Instr} (s : State) (hk : Keeps Q s) : Keeps Q (State.switchOver s) := by
  simp only [State.switchOver]
  with_reducible repeat' (first
    | assumption | apply applyStream_keeps | apply gapStaging_keeps | apply setFld_keeps | apply setCompare_keeps
    | apply count_keeps | apply replayEvents_keeps | apply abandonDecomposition_keeps
    | (simp only [keeps_mk]; apply keeps_fold) | dsimp only)

theorem report_keeps {Q : List Instr} (s : State) (d : Die) (w : Option Byte) (hk : Keeps Q s) : Keeps Q (State.report s d w) :=
  by
  simp only [State.report]
  with_reducible repeat' (first
    | assumption | apply setFld_keeps | (simp only [keeps_mk]; apply keeps_fold) | split | dsimp only)

theorem resetDie_keeps {Q : List Instr} (s : State) (d : Die) (hk : Keeps Q s) : Keeps Q (State.resetDie s d) := by
  simp only [State.resetDie]
  with_reducible repeat' (first
    | assumption | intro _ | apply setFld_keeps | (simp only [keeps_mk]; apply keeps_fold) | dsimp only)

theorem resetStandby_keeps {Q : List Instr} (s : State) (hk : Keeps Q s) : Keeps Q (State.resetStandby s) := by
  simp only [State.resetStandby]
  with_reducible repeat' (first
    | assumption | apply keeps_ite | apply resetDie_keeps | apply setFld_keeps | (simp only [keeps_mk]; apply keeps_fold)
    | split | dsimp only)

theorem removeStandby_keeps {Q : List Instr} (s : State) (trigger tile : Nat) (hk : Keeps Q s) : Keeps Q (State.removeStandby s
  trigger tile) := by
  simp only [State.removeStandby]
  with_reducible repeat' (first | assumption | apply loseStandby_keeps | apply resetStandby_keeps | dsimp only)

theorem decideArb_keeps {Q : List Instr} (s : State) (a : Arbitration) (cope drag : Option Byte) (hk : Keeps Q s) : Keeps Q
  (State.decideArb s a cope drag) := by
  simp only [State.decideArb]
  with_reducible repeat' (first
    | assumption | intro _ | apply keeps_ite | apply report_keeps | apply setFld_keeps | apply switchOver_keeps
    | apply setReg_keeps | apply raise_keeps | apply latch_keeps | apply removeStandby_keeps | apply count_keeps
    | (simp only [keeps_mk]; apply keeps_fold) | split | dsimp only)

theorem execArbitrationDecision_keeps {Q : List Instr} (copeWord dragWord : Option Byte) (s : State) (hk : Keeps Q s) : ∀ ans,
  execArbitrationDecision copeWord dragWord s = .next ans → Keeps Q ans := by
  intro ans e
  injection e with e
  subst e
  with_reducible repeat' (first
    | assumption | apply toSlotEdge_keeps | apply decideArb_keeps | (simp only [keeps_mk]; apply keeps_fold) | split
    | dsimp only)

theorem execSwitchOverResume_keeps {Q : List Instr} (s : State) (hk : Keeps Q s) : ∀ ans, execSwitchOverResume s = .next ans →
  Keeps Q ans := by
  intro ans e
  injection e with e
  subst e
  with_reducible repeat' (first
    | assumption | apply untilNet_keeps | apply setFld_keeps | apply resetStandby_keeps
    | (simp only [keeps_mk]; apply keeps_fold) | split | dsimp only)

theorem cdAnswer_keeps {Q : List Instr} (s : State) (cmd result : Nat) (hk : Keeps Q s) : Keeps Q (State.cdAnswer s cmd result)
  := by
  simp only [State.cdAnswer]
  with_reducible repeat' (first | assumption | apply setFld_keeps | dsimp only)

theorem cdSwitch_keeps {Q : List Instr} (s : State) (hk : Keeps Q s) : Keeps Q (State.cdSwitch s) := by
  simp only [State.cdSwitch]
  with_reducible repeat' (first
    | assumption | apply keeps_ite | apply cdAnswer_keeps | (simp only [keeps_mk]; apply keeps_fold) | split | dsimp only)

theorem execCdSwitch_keeps {Q : List Instr} (m : Master) (s : State) (hk : Keeps Q s) : ∀ ans, execCdSwitch m s = .next ans →
  Keeps Q ans := by
  intro ans e
  injection e with e
  subst e
  with_reducible repeat' (first | assumption | intro _ | apply atReg_keeps | apply cdSwitch_keeps | dsimp only)

theorem execPlannedSwitch_keeps {Q : List Instr} (s : State) (hk : Keeps Q s) : ∀ ans, execPlannedSwitch s = .next ans → Keeps Q
  ans := by
  intro ans e
  injection e with e
  subst e
  with_reducible repeat' (first
    | assumption | apply keeps_ite | apply toSlotEdge_keeps | apply switchOver_keeps | apply setReg_keeps
    | apply raise_keeps | (simp only [keeps_mk]; apply keeps_fold) | split | dsimp only)

theorem cdRemove_keeps {Q : List Instr} (s : State) (hk : Keeps Q s) : Keeps Q (State.cdRemove s) := by
  simp only [State.cdRemove]
  with_reducible repeat' (first
    | assumption | apply keeps_ite | apply cdAnswer_keeps | apply loseStandby_keeps | apply resetDie_keeps
    | (simp only [keeps_mk]; apply keeps_fold) | split | dsimp only)

theorem execCdRemove_keeps {Q : List Instr} (m : Master) (s : State) (hk : Keeps Q s) : ∀ ans, execCdRemove m s = .next ans →
  Keeps Q ans := by
  intro ans e
  injection e with e
  subst e
  with_reducible repeat' (first | assumption | intro _ | apply atReg_keeps | apply cdRemove_keeps | dsimp only)

theorem cdRejoin_keeps {Q : List Instr} (s : State) (hk : Keeps Q s) : Keeps Q (State.cdRejoin s) := by
  simp only [State.cdRejoin]
  with_reducible repeat' (first
    | assumption | apply keeps_ite | apply cdAnswer_keeps | apply setFld_keeps | (simp only [keeps_mk]; apply keeps_fold)
    | split | dsimp only)

theorem execCdRejoin_keeps {Q : List Instr} (m : Master) (s : State) (hk : Keeps Q s) : ∀ ans, execCdRejoin m s = .next ans →
  Keeps Q ans := by
  intro ans e
  injection e with e
  subst e
  with_reducible repeat' (first | assumption | intro _ | apply atReg_keeps | apply cdRejoin_keeps | dsimp only)

theorem copyDie_keeps {Q : List Instr} (s : State) (hk : Keeps Q s) : Keeps Q (State.copyDie s) := by
  simp only [State.copyDie]
  with_reducible repeat' (first
    | assumption | intro _ | apply setCore_keeps | (apply keeps_foldl; intro _ _ _)
    | (simp only [keeps_mk]; apply keeps_fold) | dsimp only)

theorem execStandbyReady_keeps {Q : List Instr} (s : State) (hk : Keeps Q s) : ∀ ans, execStandbyReady s = .next ans → Keeps Q
  ans := by
  intro ans e
  injection e with e
  subst e
  with_reducible repeat' (first
    | assumption | apply keeps_ite | apply copyDie_keeps | apply setFld_keeps | apply setCompare_keeps
    | apply endStanding_keeps | apply raise_keeps | (simp only [keeps_mk]; apply keeps_fold) | split | dsimp only)

theorem execArbiterDisagree_keeps {Q : List Instr} (s : State) (hk : Keeps Q s) : ∀ ans, execArbiterDisagree s = .next ans →
  Keeps Q ans := by
  intro ans e
  injection e with e
  subst e
  with_reducible repeat' (first
    | assumption | apply keeps_ite | apply raise_keeps | (simp only [keeps_mk]; apply keeps_fold) | split | dsimp only)

theorem execArbiterAgree_keeps {Q : List Instr} (s : State) (hk : Keeps Q s) : ∀ ans, execArbiterAgree s = .next ans → Keeps Q
  ans := by
  intro ans e
  injection e with e
  subst e
  with_reducible repeat' (first | assumption | (simp only [keeps_mk]; apply keeps_fold) | dsimp only)

theorem setHealth_keeps {Q : List Instr} (s : State) (d : Die) (bit : Nat) (hk : Keeps Q s) : Keeps Q (State.setHealth s d bit)
  := by
  simp only [State.setHealth]
  with_reducible repeat' (first
    | assumption | apply keeps_ite | apply setFld_keeps | apply removeStandby_keeps | split | dsimp only)

theorem execHealthFault_keeps {Q : List Instr} (d : Die) (bit : Fin 8) (s : State) (hk : Keeps Q s) : ∀ ans, execHealthFault d
  bit s = .next ans → Keeps Q ans := by
  intro ans e
  injection e with e
  subst e
  with_reducible repeat' (first | assumption | apply setHealth_keeps | dsimp only)

theorem linkCrcFail_keeps {Q : List Instr} (s : State) (d : Die) (hk : Keeps Q s) : Keeps Q (State.linkCrcFail s d) := by
  simp only [State.linkCrcFail]
  with_reducible repeat' (first
    | assumption | intro _ | apply keeps_ite | apply count_keeps | apply setHealth_keeps | apply raise_keeps
    | (simp only [keeps_mk]; apply keeps_fold) | split | dsimp only)

theorem execLinkCrcFail_keeps {Q : List Instr} (d : Die) (s : State) (hk : Keeps Q s) : ∀ ans, execLinkCrcFail d s = .next ans →
  Keeps Q ans := by
  intro ans e
  injection e with e
  subst e
  with_reducible repeat' (first | assumption | apply linkCrcFail_keeps | dsimp only)

theorem execStandbyCopyApply_keeps {Q : List Instr} (s : State) (hk : Keeps Q s) : ∀ ans, execStandbyCopyApply s = .next ans →
  Keeps Q ans := by
  intro ans e
  injection e with e
  subst e
  with_reducible repeat' (first
    | assumption | apply keeps_ite | apply untilNet_keeps | apply applyBefore_keeps
    | (simp only [keeps_mk]; apply keeps_fold) | split | dsimp only)

theorem execCopeDragLinkDown_keeps {Q : List Instr} (s : State) (hk : Keeps Q s) : ∀ ans, execCopeDragLinkDown s = .next ans →
  Keeps Q ans := by
  intro ans e
  injection e with e
  subst e
  with_reducible repeat' (first
    | assumption | apply keeps_ite | apply setFld_keeps | apply loseStandby_keeps | split | dsimp only)

end Sys2Proof.Machine
end

