-- ==== Sys2Proof/Laws/KeepsFabric.lean ====
section
/-!
SUPPORT. The queue and the register file kept by moulds and pours, tiles, loops and calibration: one lemma for each operation,
proved over those of the operations it is made of.
-/
namespace Sys2Proof.Machine

set_option linter.all false

/-! ## Machine/Moulds.lean -/

theorem setMould_keeps {Q : List Instr} (s : State) (i : Nat) (m : Mould) (hk : Keeps Q s) : Keeps Q (State.setMould s i m) :=
  by
  simp only [State.setMould]
  with_reducible repeat' (first | assumption | intro _ | (simp only [keeps_mk]; apply keeps_fold) | dsimp only)

theorem rejectEntry_keeps {Q : List Instr} (s : State) (target who reason output : Nat) (tag : Word) (hk : Keeps Q s) : Keeps Q
  (State.rejectEntry s target who reason output tag) := by
  simp only [State.rejectEntry]
  with_reducible repeat' (first
    | assumption | intro _ | apply keeps_ite | apply count_keeps | apply setFld_keeps
    | (simp only [keeps_mk]; apply keeps_fold) | split | dsimp only)

theorem invalidateBased_keeps {Q : List Instr} (s : State) (b : Nat) (hk : Keeps Q s) : Keeps Q (State.invalidateBased s b) :=
  by
  simp only [State.invalidateBased]
  with_reducible repeat' (first
    | assumption | intro _ | apply keeps_ite | (simp only [keeps_mk]; apply keeps_fold) | split | dsimp only)

theorem hostResult_keeps {Q : List Instr} (s : State) (target reason : Nat) (hk : Keeps Q s) : Keeps Q (State.hostResult s
  target reason) := by
  simp only [State.hostResult]
  with_reducible repeat' (first | assumption | apply keeps_ite | apply setFld_keeps | apply raise_keeps | split | dsimp only)

theorem accelDone_keeps {Q : List Instr} (s : State) (id : Nat) (hk : Keeps Q s) : Keeps Q (State.accelDone s id) := by
  simp only [State.accelDone]
  with_reducible repeat' (first
    | assumption | apply setCore_keeps | apply pend_keeps | (simp only [keeps_mk]; apply keeps_fold) | dsimp only)

theorem tellRequester_keeps {Q : List Instr} (s : State) (r : CompileReq) (reason : Nat) (hk : Keeps Q s) : Keeps Q
  (State.tellRequester s r reason) := by
  simp only [State.tellRequester]
  with_reducible repeat' (first
    | assumption | intro _ | apply keeps_ite | apply hostResult_keeps | apply storeWord_keeps | apply accelDone_keeps
    | (simp only [keeps_mk]; apply keeps_fold) | split | dsimp only)

theorem finishCompile_keeps {Q : List Instr} (s : State) (r : CompileReq) (hk : Keeps Q s) : Keeps Q (State.finishCompile s r)
  := by
  simp only [State.finishCompile]
  with_reducible repeat' (first
    | assumption | apply keeps_ite | apply invalidateBased_keeps | apply setMould_keeps | apply tellRequester_keeps
    | apply rejectEntry_keeps | (simp only [keeps_mk]; apply keeps_fold) | split | dsimp only)

theorem execCompileStart_keeps {Q : List Instr} (s : State) (hk : Keeps Q s) : ∀ ans, execCompileStart s = .next ans → Keeps Q
  ans := by
  intro ans e
  injection e with e
  subst e
  with_reducible repeat' (first | assumption | apply keeps_ite | (simp only [keeps_mk]; apply keeps_fold) | split | dsimp only)

theorem request_keeps {Q : List Instr} (s : State) (r : CompileReq) (hk : Keeps Q s) : Keeps Q (State.request s r) := by
  simp only [State.request]
  with_reducible repeat' (first | assumption | (simp only [keeps_mk]; apply keeps_fold) | dsimp only)

theorem requestReserved_keeps {Q : List Instr} (s : State) (i : Nat) (hk : Keeps Q s) : Keeps Q (State.requestReserved s i) :=
  by
  simp only [State.requestReserved]
  with_reducible repeat' (first | assumption | apply request_keeps | dsimp only)

theorem requestAllReserved_keeps {Q : List Instr} (s : State) (hk : Keeps Q s) : Keeps Q (State.requestAllReserved s) := by
  simp only [State.requestAllReserved]
  with_reducible repeat' (first | assumption | apply requestReserved_keeps | (apply keeps_foldl; intro _ _ _) | dsimp only)

theorem cmpReq_keeps {Q : List Instr} (s : State) (v : Word) (hk : Keeps Q s) : Keeps Q (State.cmpReq s v) := by
  simp only [State.cmpReq]
  with_reducible repeat' (first
    | assumption | intro _ | apply keeps_ite | apply setFld_keeps | apply request_keeps | split | dsimp only)

theorem execMldCmpReq_keeps {Q : List Instr} (m : Master) (v : Word) (s : State) (hk : Keeps Q s) : ∀ ans, execMldCmpReq m v s =
  .next ans → Keeps Q ans := by
  intro ans e
  injection e with e
  subst e
  with_reducible repeat' (first | assumption | intro _ | apply atReg_keeps | apply cmpReq_keeps | dsimp only)

theorem execReservedMouldRecompile_keeps {Q : List Instr} (mould : Fin 9) (s : State) (hk : Keeps Q s) : ∀ ans,
  execReservedMouldRecompile mould s = .next ans → Keeps Q ans := by
  intro ans e
  injection e with e
  subst e
  with_reducible repeat' (first
    | assumption | apply keeps_ite | apply requestReserved_keeps | (simp only [keeps_mk]; apply keeps_fold) | split
    | dsimp only)

theorem recompileReserved_keeps {Q : List Instr} (s : State) (hk : Keeps Q s) : Keeps Q (State.recompileReserved s) := by
  simp only [State.recompileReserved]
  with_reducible repeat' (first
    | assumption | intro _ | apply keeps_ite | apply requestReserved_keeps | (apply keeps_foldl; intro _ _ _)
    | (simp only [keeps_mk]; apply keeps_fold) | split | dsimp only)

theorem stage_keeps {Q : List Instr} (s : State) (mould pourAt : Nat) (toHold : Bool) (hk : Keeps Q s) : Keeps Q (State.stage s
  mould pourAt toHold) := by
  simp only [State.stage]
  with_reducible repeat' (first
    | assumption | intro _ | apply keeps_ite | apply setFld_keeps | apply setTile_keeps | (apply keeps_foldl; intro _ _ _)
    | (simp only [keeps_mk]; apply keeps_fold) | split | dsimp only)

theorem seal_keeps {Q : List Instr} (s : State) (t : Nat) (hk : Keeps Q s) : Keeps Q (State.seal s t) := by
  simp only [State.seal]
  with_reducible repeat' (first
    | assumption | intro _ | apply keeps_ite | apply setFld_keeps | (apply keeps_foldl; intro _ _ _)
    | (simp only [keeps_mk]; apply keeps_fold) | split | dsimp only)

theorem execTileSeal_keeps {Q : List Instr} (t : Fin 16) (s : State) (hk : Keeps Q s) : ∀ ans, execTileSeal t s = .next ans →
  Keeps Q ans := by
  intro ans e
  injection e with e
  subst e
  with_reducible repeat' (first | assumption | apply seal_keeps | dsimp only)

theorem execDitherGateOff_keeps {Q : List Instr} (s : State) (hk : Keeps Q s) : ∀ ans, execDitherGateOff s = .next ans → Keeps Q
  ans := by
  intro ans e
  injection e with e
  subst e
  with_reducible repeat' (first
    | assumption | apply keeps_ite | apply untilNet_keeps | (simp only [keeps_mk]; apply keeps_fold) | split | dsimp only)

theorem execDitherResume_keeps {Q : List Instr} (s : State) (hk : Keeps Q s) : ∀ ans, execDitherResume s = .next ans → Keeps Q
  ans := by
  intro ans e
  injection e with e
  subst e
  with_reducible repeat' (first
    | assumption | apply keeps_ite | apply untilNet_keeps | (simp only [keeps_mk]; apply keeps_fold) | split | dsimp only)

theorem pourTile_keeps {Q : List Instr} (s : State) (t : Nat) (hk : Keeps Q s) : Keeps Q (State.pourTile s t) := by
  simp only [State.pourTile]
  with_reducible repeat' (first
    | assumption | intro _ | apply setTile_keeps | (apply keeps_foldl; intro _ _ _)
    | (simp only [keeps_mk]; apply keeps_fold) | dsimp only)

theorem unstage_keeps {Q : List Instr} (s : State) (hk : Keeps Q s) : Keeps Q (State.unstage s) := by
  simp only [State.unstage]
  with_reducible repeat' (first
    | assumption | intro _ | apply keeps_ite | apply setFld_keeps | apply setTile_keeps | (apply keeps_foldl; intro _ _ _)
    | (simp only [keeps_mk]; apply keeps_fold) | split | dsimp only)

theorem beginSlot_keeps {Q : List Instr} (s : State) (held : Bool) (hk : Keeps Q s) : Keeps Q (State.beginSlot s held) := by
  simp only [State.beginSlot]
  with_reducible repeat' (first
    | assumption | apply keeps_ite | apply setFld_keeps | (simp only [keeps_mk]; apply keeps_fold) | split | dsimp only)

theorem pourMade_keeps {Q : List Instr} (s : State) (st : Staged) (hk : Keeps Q s) : Keeps Q (State.pourMade s st) := by
  simp only [State.pourMade]
  with_reducible repeat' (first
    | assumption | apply pourTile_keeps | apply setFld_keeps | apply setReg_keeps | apply unstage_keeps
    | apply beginSlot_keeps | (apply keeps_foldl; intro _ _ _) | (simp only [keeps_mk]; apply keeps_fold) | dsimp only)

theorem pourHeld_keeps {Q : List Instr} (s : State) (st : Staged) (cause : Nat) (hk : Keeps Q s) : Keeps Q (State.pourHeld s st
  cause) := by
  simp only [State.pourHeld]
  with_reducible repeat' (first
    | assumption | apply keeps_ite | apply setFld_keeps | apply count_keeps | apply setReg_keeps | apply unstage_keeps
    | apply beginSlot_keeps | apply raise_keeps | (simp only [keeps_mk]; apply keeps_fold) | split | dsimp only)

theorem duePoured_keeps {Q : List Instr} (s : State) (st : Staged) (hk : Keeps Q s) : Keeps Q (State.duePoured s st) := by
  simp only [State.duePoured]
  with_reducible repeat' (first
    | assumption | apply pourHeld_keeps | apply pourMade_keeps | (simp only [keeps_mk]; apply keeps_fold) | split
    | dsimp only)

theorem endRepour_keeps {Q : List Instr} (s : State) (hk : Keeps Q s) : Keeps Q (State.endRepour s) := by
  simp only [State.endRepour]
  with_reducible repeat' (first | assumption | apply keeps_ite | apply setFld_keeps | split | dsimp only)

/-! ## Machine/Pilot.lean -/

theorem dropWindows_keeps {Q : List Instr} (s : State) (hk : Keeps Q s) : Keeps Q (State.dropWindows s) := by
  simp only [State.dropWindows]
  with_reducible repeat' (first | assumption | (simp only [keeps_mk]; apply keeps_fold) | dsimp only)

theorem pilotCtrl_keeps {Q : List Instr} (s : State) (v : Word) (hk : Keeps Q s) : Keeps Q (State.pilotCtrl s v) := by
  simp only [State.pilotCtrl]
  with_reducible repeat' (first
    | assumption | apply keeps_ite | apply setFld_keeps | apply markDirty_keeps | apply dropWindows_keeps | split
    | dsimp only)

theorem execPilotCtrlWrite_keeps {Q : List Instr} (m : Master) (v : Word) (s : State) (hk : Keeps Q s) : ∀ ans,
  execPilotCtrlWrite m v s = .next ans → Keeps Q ans := by
  intro ans e
  injection e with e
  subst e
  with_reducible repeat' (first | assumption | intro _ | apply atReg_keeps | apply pilotCtrl_keeps | dsimp only)

theorem contribute_keeps {Q : List Instr} (s : State) (out : Nat) (corr : Int) (power : Nat) (hk : Keeps Q s) : Keeps Q
  (State.contribute s out corr power) := by
  simp only [State.contribute]
  with_reducible repeat' (first | assumption | apply keeps_ite | (simp only [keeps_mk]; apply keeps_fold) | split | dsimp only)

theorem judge_keeps {Q : List Instr} (s : State) (sum : Int) (power : Nat) (hk : Keeps Q s) : Keeps Q (State.judge s sum
  power).2 := by
  simp only [State.judge]
  with_reducible repeat' (first
    | assumption | apply keeps_ite | apply freeNat_keeps | refine keeps_snd (by assumption) ?_ | split | dsimp only)

theorem recordVerdict_keeps {Q : List Instr} (s : State) (out v rho : Nat) (hk : Keeps Q s) : Keeps Q (State.recordVerdict s out
  v rho) := by
  simp only [State.recordVerdict]
  with_reducible repeat' (first
    | assumption | apply keeps_ite | apply setReg_keeps | (simp only [keeps_mk]; apply keeps_fold) | split | dsimp only)

theorem verdict_keeps {Q : List Instr} (s : State) (out : Nat) (hk : Keeps Q s) : Keeps Q (State.verdict s out) := by
  simp only [State.verdict]
  with_reducible repeat' (first
    | assumption | apply keeps_ite | apply judge_keeps | apply count_keeps | apply recordVerdict_keeps | apply raise_keeps
    | refine keeps_snd (by assumption) ?_ | (simp only [keeps_mk]; apply keeps_fold) | split | dsimp only)

theorem execPilotVerdict_keeps {Q : List Instr} (out : Fin 592) (s : State) (hk : Keeps Q s) : ∀ ans, execPilotVerdict out s =
  .next ans → Keeps Q ans := by
  intro ans e
  injection e with e
  subst e
  with_reducible repeat' (first | assumption | apply verdict_keeps | dsimp only)

/-! ## Machine/Tiles.lean -/

theorem setHold_keeps {Q : List Instr} (s : State) (loop cause : Nat) (on : Bool) (hk : Keeps Q s) : Keeps Q (State.setHold s
  loop cause on) := by
  simp only [State.setHold]
  with_reducible repeat' (first
    | assumption | intro _ | apply keeps_ite | (simp only [keeps_mk]; apply keeps_fold) | split | dsimp only)

theorem beginSpan_keeps {Q : List Instr} (s : State) (t j : Nat) (to12 : Bool) (hk : Keeps Q s) : Keeps Q (State.beginSpan s t j
  to12) := by
  simp only [State.beginSpan]
  with_reducible repeat' (first
    | assumption | apply setTile_keeps | apply setHold_keeps | (simp only [keeps_mk]; apply keeps_fold) | dsimp only)

theorem loadSpan_keeps {Q : List Instr} (s : State) (t j : Nat) (to12 : Bool) (hk : Keeps Q s) : Keeps Q (State.loadSpan s t j
  to12) := by
  simp only [State.loadSpan]
  with_reducible repeat' (first
    | assumption | intro _ | apply keeps_ite | apply setTile_keeps | (simp only [keeps_mk]; apply keeps_fold) | split
    | dsimp only)

theorem spanWrite_keeps {Q : List Instr} (s : State) (t j : Nat) (hk : Keeps Q s) : Keeps Q (State.spanWrite s t j) := by
  simp only [State.spanWrite]
  with_reducible repeat' (first
    | assumption | intro _ | apply keeps_ite | apply setTile_keeps | apply loadSpan_keeps | apply beginSpan_keeps
    | (simp only [keeps_mk]; apply keeps_fold) | split | dsimp only)

theorem spanWord_keeps {Q : List Instr} (s : State) (t n : Nat) (v : Word) (hk : Keeps Q s) : Keeps Q (State.spanWord s t n v)
  := by
  simp only [State.spanWord]
  with_reducible repeat' (first
    | assumption | intro _ | apply keeps_ite | apply setReg_keeps | apply markDirty_keeps | apply spanWrite_keeps
    | (apply keeps_foldl; intro _ _ _) | split | dsimp only)

theorem execSpanChangeStart_keeps {Q : List Instr} (m : Master) (t : Fin 16) (n : Fin 21) (v : Word) (s : State) (hk : Keeps Q
  s) : ∀ ans, execSpanChangeStart m t n v s = .next ans → Keeps Q ans := by
  intro ans e
  injection e with e
  subst e
  with_reducible repeat' (first | assumption | intro _ | apply atReg_keeps | apply spanWord_keeps | dsimp only)

theorem spanEnd_keeps {Q : List Instr} (s : State) (t j : Nat) (hk : Keeps Q s) : Keeps Q (State.spanEnd s t j) := by
  simp only [State.spanEnd]
  with_reducible repeat' (first
    | assumption | apply keeps_ite | apply untilNow_keeps | apply loadSpan_keeps | apply setHold_keeps
    | apply beginSpan_keeps | (simp only [keeps_mk]; apply keeps_fold) | split | dsimp only)

theorem slewStep_keeps {Q : List Instr} (s : State) (t : Nat) (heater : Bool) (hk : Keeps Q s) : Keeps Q (State.slewStep s t
  heater) := by
  simp only [State.slewStep]
  with_reducible repeat' (first
    | assumption | intro _ | apply keeps_ite | apply untilNow_keeps | apply setTile_keeps | (apply keeps_foldl; intro _ _ _)
    | (simp only [keeps_mk]; apply keeps_fold) | split | dsimp only)

theorem execSlewStep_keeps {Q : List Instr} (t : Fin 16) (heater : Bool) (s : State) (hk : Keeps Q s) : ∀ ans, execSlewStep t
  heater s = .next ans → Keeps Q ans := by
  intro ans e
  injection e with e
  subst e
  with_reducible repeat' (first | assumption | apply slewStep_keeps | dsimp only)

theorem setSpareAt_keeps {Q : List Instr} (s : State) (t sp : Nat) (at_ : Option Nat) (hk : Keeps Q s) : Keeps Q
  (State.setSpareAt s t sp at_) := by
  simp only [State.setSpareAt]
  with_reducible repeat' (first
    | assumption | apply setTile_keeps | (simp only [keeps_mk]; apply keeps_fold) | split | dsimp only)

theorem spareDone_keeps {Q : List Instr} (s : State) (t sp : Nat) (hk : Keeps Q s) : Keeps Q (State.spareDone s t sp) := by
  simp only [State.spareDone]
  with_reducible repeat' (first
    | assumption | apply keeps_ite | apply setFld_keeps | apply setSpareAt_keeps | split | dsimp only)

theorem spareStop_keeps {Q : List Instr} (s : State) (hk : Keeps Q s) : Keeps Q (State.spareStop s) := by
  simp only [State.spareStop]
  with_reducible repeat' (first | assumption | intro _ | apply spareDone_keeps | (apply keeps_foldl; intro _ _ _) | dsimp only)

theorem spareRound_keeps {Q : List Instr} (s : State) (t sp f : Nat) (hk : Keeps Q s) : Keeps Q (State.spareRound s t sp f) :=
  by
  simp only [State.spareRound]
  with_reducible repeat' (first
    | assumption | apply keeps_ite | apply setFld_keeps | apply setSpareAt_keeps | apply spareDone_keeps
    | (simp only [keeps_mk]; apply keeps_fold) | split | dsimp only)

theorem roundStart_keeps {Q : List Instr} (s : State) (t : Nat) (roundD : Bool) (hk : Keeps Q s) : Keeps Q (State.roundStart s t
  roundD) := by
  simp only [State.roundStart]
  with_reducible repeat' (first
    | assumption | intro _ | apply spareRound_keeps | apply setTile_keeps | (apply keeps_foldl; intro _ _ _)
    | (simp only [keeps_mk]; apply keeps_fold) | dsimp only)

theorem zeroReference_keeps {Q : List Instr} (s : State) (t a : Nat) (raw : BitVec 14) (hk : Keeps Q s) : Keeps Q
  (State.zeroReference s t a raw) := by
  simp only [State.zeroReference]
  with_reducible repeat' (first | assumption | apply setFld_keeps | dsimp only)

theorem countOvr_keeps {Q : List Instr} (s : State) (t : Nat) (range : Int) (hk : Keeps Q s) : Keeps Q (State.countOvr s t
  range) := by
  simp only [State.countOvr]
  with_reducible repeat' (first | assumption | apply keeps_ite | apply count_keeps | split | dsimp only)

theorem convert_keeps {Q : List Instr} (s : State) (t a : Nat) (raw : BitVec 14) (range : Int) (hk : Keeps Q s) : Keeps Q
  (State.convert s t a raw range) := by
  simp only [State.convert]
  with_reducible repeat' (first
    | assumption | apply keeps_ite | apply settle_keeps | apply untilNet_keeps | apply countOvr_keeps
    | apply zeroReference_keeps | apply setTile_keeps | (simp only [keeps_mk]; apply keeps_fold) | split | dsimp only)

theorem execAdcConversion_keeps {Q : List Instr} (t : Fin 16) (ch : Fin 48) (raw : BitVec 14) (range : Int) (s : State) (hk :
  Keeps Q s) : ∀ ans, execAdcConversion t ch raw range s = .next ans → Keeps Q ans := by
  intro ans e
  injection e with e
  subst e
  with_reducible repeat' (first | assumption | apply convert_keeps | dsimp only)

theorem queueUrgent_keeps {Q : List Instr} (s : State) (t : Nat) (u : Urgent) (hk : Keeps Q s) : Keeps Q (State.queueUrgent s t
  u) := by
  simp only [State.queueUrgent]
  with_reducible repeat' (first | assumption | apply setTile_keeps | (simp only [keeps_mk]; apply keeps_fold) | dsimp only)

theorem urgentReply_keeps {Q : List Instr} (s : State) (t : Nat) (u : Urgent) (hk : Keeps Q s) : Keeps Q (State.urgentReply s t
  u) := by
  simp only [State.urgentReply]
  with_reducible repeat' (first | assumption | apply keeps_ite | apply setFld_keeps | split | dsimp only)

theorem displaceUrgent_keeps {Q : List Instr} (s : State) (t : Nat) (u : Urgent) (hk : Keeps Q s) : Keeps Q
  (State.displaceUrgent s t u) := by
  simp only [State.displaceUrgent]
  with_reducible repeat' (first
    | assumption | apply keeps_ite | apply setTile_keeps | apply count_keeps | apply urgentReply_keeps
    | (simp only [keeps_mk]; apply keeps_fold) | split | dsimp only)

theorem urgent_keeps {Q : List Instr} (s : State) (t mon : Nat) (dc : Bool) (who : Fin 3) (core : Nat) (hk : Keeps Q s) : Keeps
  Q (State.urgent s t mon dc who core).1 := by
  simp only [State.urgent]
  with_reducible repeat' (first
    | assumption | apply keeps_ite | apply displaceUrgent_keeps | apply count_keeps | apply queueUrgent_keeps | split
    | dsimp only)

theorem urgReq_keeps {Q : List Instr} (s : State) (t : Nat) (v : Word) (hk : Keeps Q s) : Keeps Q (State.urgReq s t v) := by
  simp only [State.urgReq]
  with_reducible repeat' (first
    | assumption | apply keeps_ite | apply setFld_keeps | apply count_keeps | apply urgent_keeps
    | refine keeps_fst (by assumption) ?_ | (simp only [keeps_mk]; apply keeps_fold) | split | dsimp only)

theorem execTileUrgReq_keeps {Q : List Instr} (m : Master) (t : Fin 16) (v : Word) (s : State) (hk : Keeps Q s) : ∀ ans,
  execTileUrgReq m t v s = .next ans → Keeps Q ans := by
  intro ans e
  injection e with e
  subst e
  with_reducible repeat' (first | assumption | intro _ | apply atReg_keeps | apply urgReq_keeps | dsimp only)

theorem urgentDone_keeps {Q : List Instr} (s : State) (t : Nat) (u : Urgent) (w : Word) (hk : Keeps Q s) : Keeps Q
  (State.urgentDone s t u w) := by
  simp only [State.urgentDone]
  with_reducible repeat' (first
    | assumption | apply keeps_ite | apply setReg_keeps | apply setFld_keeps | apply setCore_keeps | apply urgent_keeps
    | refine keeps_fst (by assumption) ?_ | (simp only [keeps_mk]; apply keeps_fold) | split | dsimp only)

theorem urgentConvert_keeps {Q : List Instr} (s : State) (t a : Nat) (raw : BitVec 14) (range : Int) (hk : Keeps Q s) : Keeps Q
  (State.urgentConvert s t a raw range) := by
  simp only [State.urgentConvert]
  with_reducible repeat' (first
    | assumption | apply keeps_ite | apply urgent_keeps | apply settle_keeps | apply untilNet_keeps | apply countOvr_keeps
    | apply setTile_keeps | apply urgentDone_keeps | refine keeps_fst (by assumption) ?_
    | (simp only [keeps_mk]; apply keeps_fold) | split | dsimp only)

theorem execUrgentResult_keeps {Q : List Instr} (t : Fin 16) (ch : Fin 48) (raw : BitVec 14) (range : Int) (s : State) (hk :
  Keeps Q s) : ∀ ans, execUrgentResult t ch raw range s = .next ans → Keeps Q ans := by
  intro ans e
  injection e with e
  subst e
  with_reducible repeat' (first | assumption | apply urgentConvert_keeps | dsimp only)

theorem spareWrite_keeps {Q : List Instr} (s : State) (m : Master) (t sp : Nat) (en : Bool) (src : Nat) (hk : Keeps Q s) : Keeps
  Q (State.spareWrite s m t sp en src) := by
  simp only [State.spareWrite]
  with_reducible repeat' (first
    | assumption | apply keeps_ite | apply refuseReg_keeps | apply setFld_keeps | apply markDirty_keeps
    | apply setSpareAt_keeps | split | dsimp only)

theorem execSpareTakeover_keeps {Q : List Instr} (m : Master) (t : Fin 16) (sp : Fin 3) (src : Fin 64) (s : State) (hk : Keeps Q
  s) : ∀ ans, execSpareTakeover m t sp src s = .next ans → Keeps Q ans := by
  intro ans e
  injection e with e
  subst e
  with_reducible repeat' (first | assumption | intro _ | apply atReg_keeps | apply spareWrite_keeps | dsimp only)

theorem execSpareReturn_keeps {Q : List Instr} (m : Master) (t : Fin 16) (sp : Fin 3) (src : Fin 64) (s : State) (hk : Keeps Q
  s) : ∀ ans, execSpareReturn m t sp src s = .next ans → Keeps Q ans := by
  intro ans e
  injection e with e
  subst e
  with_reducible repeat' (first | assumption | intro _ | apply atReg_keeps | apply spareWrite_keeps | dsimp only)

theorem spareSwitch_keeps {Q : List Instr} (s : State) (t sp : Nat) (hk : Keeps Q s) : Keeps Q (State.spareSwitch s t sp) := by
  simp only [State.spareSwitch]
  with_reducible repeat' (first
    | assumption | apply keeps_ite | apply untilNet_keeps | apply setFld_keeps | apply spareDone_keeps
    | (simp only [keeps_mk]; apply keeps_fold) | split | dsimp only)

theorem execSpareSwitch_keeps {Q : List Instr} (t : Fin 16) (sp : Fin 3) (s : State) (hk : Keeps Q s) : ∀ ans, execSpareSwitch t
  sp s = .next ans → Keeps Q ans := by
  intro ans e
  injection e with e
  subst e
  with_reducible repeat' (first | assumption | apply spareSwitch_keeps | dsimp only)

theorem actuate_keeps {Q : List Instr} (s : State) (t key : Nat) (v : Int) (hk : Keeps Q s) : Keeps Q (State.actuate s t key v)
  := by
  simp only [State.actuate]
  with_reducible repeat' (first
    | assumption | intro _ | apply setTile_keeps | (simp only [keeps_mk]; apply keeps_fold) | dsimp only)

theorem zeroElement_keeps {Q : List Instr} (s : State) (e : Nat) (hk : Keeps Q s) : Keeps Q (State.zeroElement s e) := by
  simp only [State.zeroElement]
  with_reducible repeat' (first
    | assumption | intro _ | apply setTile_keeps | (simp only [keeps_mk]; apply keeps_fold) | dsimp only)

theorem writesDue_keeps {Q : List Instr} (s : State) (t : Nat) (hk : Keeps Q s) : Keeps Q (State.writesDue s t) := by
  simp only [State.writesDue]
  with_reducible repeat' (first
    | assumption | intro _ | apply keeps_ite | apply pend_keeps | apply actuate_keeps | apply setTile_keeps
    | (apply keeps_foldl; intro _ _ _) | (simp only [keeps_mk]; apply keeps_fold) | split | dsimp only)

theorem applyPending_keeps {Q : List Instr} (s : State) (t : Nat) (hk : Keeps Q s) : Keeps Q (State.applyPending s t) := by
  simp only [State.applyPending]
  with_reducible repeat' (first
    | assumption | intro _ | apply pend_keeps | apply untilNet_keeps | apply writesDue_keeps
    | (simp only [keeps_mk]; apply keeps_fold) | split | dsimp only)

theorem actuatorWrite_keeps {Q : List Instr} (s : State) (d : Die) (t key : Nat) (v0 : Int) (hk : Keeps Q s) : Keeps Q
  (State.actuatorWrite s d t key v0) := by
  simp only [State.actuatorWrite]
  with_reducible repeat' (first
    | assumption | apply keeps_ite | apply writesDue_keeps | apply setTile_keeps | apply count_keeps | apply actuate_keeps
    | apply pend_keeps | (simp only [keeps_mk]; apply keeps_fold) | split | dsimp only)

theorem execActuatorWrite_keeps {Q : List Instr} (d : Die) (t : Fin 16) (heater : Bool) (ch : Fin 681) (v : Int) (s : State) (hk
  : Keeps Q s) : ∀ ans, execActuatorWrite d t heater ch v s = .next ans → Keeps Q ans := by
  intro ans e
  injection e with e
  subst e
  with_reducible repeat' (first | assumption | apply keeps_ite | apply actuatorWrite_keeps | split | dsimp only)

theorem outputMismatch_keeps {Q : List Instr} (s : State) (t : Nat) (heater : Bool) (ch : Nat) (hk : Keeps Q s) : Keeps Q
  (State.outputMismatch s t heater ch) := by
  simp only [State.outputMismatch]
  with_reducible repeat' (first
    | assumption | intro _ | apply keeps_ite | apply setTile_keeps | apply setFld_keeps | apply count_keeps
    | apply mismatch_keeps | (simp only [keeps_mk]; apply keeps_fold) | split | dsimp only)

theorem execOutputMismatch_keeps {Q : List Instr} (t : Fin 16) (heater : Bool) (ch : Fin 681) (s : State) (hk : Keeps Q s) : ∀
  ans, execOutputMismatch t heater ch s = .next ans → Keeps Q ans := by
  intro ans e
  injection e with e
  subst e
  with_reducible repeat' (first | assumption | apply outputMismatch_keeps | split | dsimp only)

theorem putHolds_keeps {Q : List Instr} (s : State) (id f : Nat) (hk : Keeps Q s) : Keeps Q (State.putHolds s id f) := by
  simp only [State.putHolds]
  with_reducible repeat' (first | assumption | apply setCore_keeps | (simp only [keeps_mk]; apply keeps_fold) | dsimp only)

theorem deliverTo_keeps {Q : List Instr} (s : State) (seq f : Nat) (ws cs : List Word) (p : Nat × Nat) (hk : Keeps Q s) : Keeps
  Q (State.deliverTo s seq f ws cs p) := by
  simp only [State.deliverTo]
  with_reducible repeat' (first
    | assumption | apply keeps_ite | apply putHolds_keeps | apply setCore_keeps | (simp only [keeps_mk]; apply keeps_fold)
    | split | dsimp only)

theorem frameDelivery_keeps {Q : List Instr} (s : State) (t f : Nat) (hk : Keeps Q s) : Keeps Q (State.frameDelivery s t f) :=
  by
  simp only [State.frameDelivery]
  with_reducible repeat' (first
    | assumption | intro _ | apply keeps_ite | apply deliverTo_keeps | apply setTile_keeps
    | (apply keeps_foldl; intro _ _ _) | (simp only [keeps_mk]; apply keeps_fold) | split | dsimp only)

theorem vhtrWindow_keeps {Q : List Instr} (s : State) (t mv : Nat) (hk : Keeps Q s) : Keeps Q (State.vhtrWindow s t mv) := by
  simp only [State.vhtrWindow]
  with_reducible repeat' (first
    | assumption | intro _ | apply keeps_ite | apply untilNet_keeps | apply setTile_keeps | apply setFld_keeps
    | apply endStanding_keeps | (simp only [keeps_mk]; apply keeps_fold) | split | dsimp only)

theorem execVhtrWindow_keeps {Q : List Instr} (t : Fin 16) (mv : BitVec 16) (s : State) (hk : Keeps Q s) : ∀ ans, execVhtrWindow
  t mv s = .next ans → Keeps Q ans := by
  intro ans e
  injection e with e
  subst e
  with_reducible repeat' (first | assumption | apply vhtrWindow_keeps | dsimp only)

theorem execVhtrFault_keeps {Q : List Instr} (t : Fin 16) (s : State) (hk : Keeps Q s) : ∀ ans, execVhtrFault t s = .next ans →
  Keeps Q ans := by
  intro ans e
  injection e with e
  subst e
  with_reducible repeat' (first | assumption | intro _ | apply keeps_ite | apply raiseStanding_keeps | split | dsimp only)

theorem endSpans_keeps {Q : List Instr} (s : State) (t : Nat) (hk : Keeps Q s) : Keeps Q (State.endSpans s t) := by
  simp only [State.endSpans]
  with_reducible repeat' (first | assumption | intro _ | apply setHold_keeps | (apply keeps_foldl; intro _ _ _) | dsimp only)

theorem assertZero_keeps {Q : List Instr} (s : State) (since : Nat) (hk : Keeps Q s) : Keeps Q (State.assertZero s since) := by
  simp only [State.assertZero]
  with_reducible repeat' (first
    | assumption | intro _ | apply keeps_ite | apply endSpans_keeps | apply setTile_keeps | apply setFld_keeps
    | (apply keeps_foldl; intro _ _ _) | (simp only [keeps_mk]; apply keeps_fold) | split | dsimp only)

theorem releaseZero_keeps {Q : List Instr} (s : State) (hk : Keeps Q s) : Keeps Q (State.releaseZero s) := by
  simp only [State.releaseZero]
  with_reducible repeat' (first
    | assumption | intro _ | apply setReg_keeps | apply setTile_keeps | apply setFld_keeps
    | (apply keeps_foldl; intro _ _ _) | (simp only [keeps_mk]; apply keeps_fold) | dsimp only)

/-! ## Machine/Loops.lean -/

theorem storeImage_keeps {Q : List Instr} (s : State) (core : Nat) (d : Die) (p : Nat) (m : Image) (hk : Keeps Q s) : Keeps Q
  (State.storeImage s core d p m) := by
  simp only [State.storeImage]
  with_reducible repeat' (first
    | assumption | intro _ | apply keeps_ite | apply storeWord_keeps | (apply keeps_foldl; intro _ _ _) | split | dsimp only)

theorem changeLoop_keeps {Q : List Instr} (s : State) (l : Nat) (f : Image → Image) (hk : Keeps Q s) : Keeps Q (State.changeLoop
  s l f) := by
  simp only [State.changeLoop]
  with_reducible repeat' (first | assumption | intro _ | apply storeImage_keeps | (apply keeps_foldl; intro _ _ _) | dsimp only)

theorem loopEvent_keeps {Q : List Instr} (s : State) (cls cause l : Nat) (hk : Keeps Q s) : Keeps Q (State.loopEvent s cls cause
  l) := by
  simp only [State.loopEvent]
  with_reducible repeat' (first | assumption | apply raise_keeps | dsimp only)

theorem endStarved_keeps {Q : List Instr} (s : State) (l : Nat) (ok : Bool) (hk : Keeps Q s) : Keeps Q (State.endStarved s l ok)
  := by
  simp only [State.endStarved]
  with_reducible repeat' (first | assumption | apply keeps_ite | (simp only [keeps_mk]; apply keeps_fold) | split | dsimp only)

theorem passOne_keeps {Q : List Instr} (s : State) (d : Die) (core f : Nat) (h : PassFrame) (l : Nat) (hk : Keeps Q s) : Keeps Q
  (State.passOne s d core f h l) := by
  simp only [State.passOne]
  with_reducible repeat' (first
    | assumption | apply keeps_ite | apply storeImage_keeps | apply endStarved_keeps | apply actuatorWrite_keeps
    | apply loopEvent_keeps | split | dsimp only)

theorem passTwo_keeps {Q : List Instr} (s : State) (d : Die) (core f : Nat) (h : PassFrame) (l : Nat) (hk : Keeps Q s) : Keeps Q
  (State.passTwo s d core f h l) := by
  simp only [State.passTwo]
  with_reducible repeat' (first
    | assumption | apply keeps_ite | apply storeImage_keeps | apply endStarved_keeps | apply actuatorWrite_keeps | split
    | dsimp only)

theorem setPset_keeps {Q : List Instr} (s : State) (i : Nat) (hk : Keeps Q s) : Keeps Q (State.setPset s i) := by
  simp only [State.setPset]
  with_reducible repeat' (first | assumption | intro _ | apply keeps_ite | apply changeLoop_keeps | split | dsimp only)

theorem setPsets_keeps {Q : List Instr} (s : State) (hk : Keeps Q s) : Keeps Q (State.setPsets s) := by
  simp only [State.setPsets]
  with_reducible repeat' (first | assumption | apply setPset_keeps | (apply keeps_foldl; intro _ _ _) | dsimp only)

theorem movePoint_keeps {Q : List Instr} (s : State) (e : Nat) (bar : Bool) (v : Int) (hk : Keeps Q s) : Keeps Q
  (State.movePoint s e bar v) := by
  simp only [State.movePoint]
  with_reducible repeat' (first
    | assumption | intro _ | apply keeps_ite | apply storeWord_keeps | (apply keeps_foldl; intro _ _ _) | split | dsimp only)

theorem setPathLoop_keeps {Q : List Instr} (s : State) (o : Nat) (x : PathLoop) (hk : Keeps Q s) : Keeps Q (State.setPathLoop s
  o x) := by
  simp only [State.setPathLoop]
  with_reducible repeat' (first | assumption | intro _ | (simp only [keeps_mk]; apply keeps_fold) | dsimp only)

theorem revertProbe_keeps {Q : List Instr} (s : State) (o : Nat) (hk : Keeps Q s) : Keeps Q (State.revertProbe s o) := by
  simp only [State.revertProbe]
  with_reducible repeat' (first
    | assumption | apply movePoint_keeps | apply setPathLoop_keeps | (simp only [keeps_mk]; apply keeps_fold) | split
    | dsimp only)

theorem pathProbe_keeps {Q : List Instr} (s : State) (o mould rho : Nat) (hk : Keeps Q s) : Keeps Q (State.pathProbe s o mould
  rho) := by
  simp only [State.pathProbe]
  with_reducible repeat' (first
    | assumption | apply keeps_ite | apply setPathLoop_keeps | apply movePoint_keeps
    | (simp only [keeps_mk]; apply keeps_fold) | split | dsimp only)

theorem pathDecide_keeps {Q : List Instr} (s : State) (o mould rho : Nat) (hk : Keeps Q s) : Keeps Q (State.pathDecide s o mould
  rho) := by
  simp only [State.pathDecide]
  with_reducible repeat' (first
    | assumption | apply keeps_ite | apply setPathLoop_keeps | apply revertProbe_keeps
    | (simp only [keeps_mk]; apply keeps_fold) | split | dsimp only)

theorem pathLevel_keeps {Q : List Instr} (s : State) (o mould : Nat) (tooMuch tooLittle : Bool) (hk : Keeps Q s) : Keeps Q
  (State.pathLevel s o mould tooMuch tooLittle) := by
  simp only [State.pathLevel]
  with_reducible repeat' (first
    | assumption | apply keeps_ite | apply setPathLoop_keeps | apply movePoint_keeps
    | (simp only [keeps_mk]; apply keeps_fold) | split | dsimp only)

theorem pathFigures_keeps {Q : List Instr} (s : State) (o input a p : Nat) (hk : Keeps Q s) : Keeps Q (State.pathFigures s o
  input a p) := by
  simp only [State.pathFigures]
  with_reducible repeat' (first | assumption | apply keeps_ite | apply setFld_keeps | split | dsimp only)

theorem pathUpdate_keeps {Q : List Instr} (s : State) (o : Nat) (hk : Keeps Q s) : Keeps Q (State.pathUpdate s o) := by
  simp only [State.pathUpdate]
  with_reducible repeat' (first
    | assumption | intro _ | apply keeps_ite | apply setFld_keeps | apply revertProbe_keeps | apply pathFigures_keeps
    | apply pathProbe_keeps | apply pathDecide_keeps | apply pathLevel_keeps | (simp only [keeps_mk]; apply keeps_fold)
    | split | dsimp only)

theorem passPaths_keeps {Q : List Instr} (s : State) (f : Nat) (h : PassFrame) (hk : Keeps Q s) : Keeps Q (State.passPaths s f
  h) := by
  simp only [State.passPaths]
  with_reducible repeat' (first
    | assumption | intro _ | apply keeps_ite | apply pathUpdate_keeps | (apply keeps_foldl; intro _ _ _)
    | (simp only [keeps_mk]; apply keeps_fold) | split | dsimp only)

theorem passEnds_keeps {Q : List Instr} (s : State) (core f cycles : Nat) (hk : Keeps Q s) : Keeps Q (State.passEnds s core f
  cycles) := by
  simp only [State.passEnds]
  with_reducible repeat' (first
    | assumption | intro _ | apply keeps_ite | apply setFld_keeps | (apply keeps_foldl; intro _ _ _)
    | (simp only [keeps_mk]; apply keeps_fold) | split | dsimp only)

theorem loopPass_keeps {Q : List Instr} (s : State) (d : Die) (core cycles : Nat) (hk : Keeps Q s) : Keeps Q (State.loopPass s d
  core cycles) := by
  simp only [State.loopPass]
  with_reducible repeat' (first
    | assumption | intro _ | apply keeps_ite | apply untilNet_keeps | apply setCore_keeps | apply passOne_keeps
    | apply passTwo_keeps | apply passPaths_keeps | apply passEnds_keeps | (apply keeps_foldl; intro _ _ _)
    | (simp only [keeps_mk]; apply keeps_fold) | split | dsimp only)

theorem execLoopPass_keeps {Q : List Instr} (d : Die) (k : Fin 72) (cycles : Nat) (s : State) (hk : Keeps Q s) : ∀ ans,
  execLoopPass d k cycles s = .next ans → Keeps Q ans := by
  intro ans e
  injection e with e
  subst e
  with_reducible repeat' (first | assumption | apply loopPass_keeps | dsimp only)

theorem countLoops_keeps {Q : List Instr} (s : State) (hk : Keeps Q s) : Keeps Q (State.countLoops s) := by
  simp only [State.countLoops]
  with_reducible repeat' (first | assumption | intro _ | apply setReg_keeps | dsimp only)

theorem execLoopLockAcquired_keeps {Q : List Instr} (loop : Fin 10896) (s : State) (hk : Keeps Q s) : ∀ ans,
  execLoopLockAcquired loop s = .next ans → Keeps Q ans := by
  intro ans e
  injection e with e
  subst e
  with_reducible repeat' (first | assumption | intro _ | apply keeps_ite | apply changeLoop_keeps | split | dsimp only)

theorem execLockLoss_keeps {Q : List Instr} (loop : Fin 10896) (s : State) (hk : Keeps Q s) : ∀ ans, execLockLoss loop s = .next
  ans → Keeps Q ans := by
  intro ans e
  injection e with e
  subst e
  with_reducible repeat' (first
    | assumption | intro _ | apply keeps_ite | apply changeLoop_keeps | apply loopEvent_keeps | split | dsimp only)

theorem execLockTimeout_keeps {Q : List Instr} (loop : Fin 10896) (s : State) (hk : Keeps Q s) : ∀ ans, execLockTimeout loop s =
  .next ans → Keeps Q ans := by
  intro ans e
  injection e with e
  subst e
  with_reducible repeat' (first
    | assumption | intro _ | apply keeps_ite | apply changeLoop_keeps | apply loopEvent_keeps | split | dsimp only)

theorem execPinned_keeps {Q : List Instr} (loop : Fin 10896) (s : State) (hk : Keeps Q s) : ∀ ans, execPinned loop s = .next ans
  → Keeps Q ans := by
  intro ans e
  injection e with e
  subst e
  with_reducible repeat' (first
    | assumption | intro _ | apply keeps_ite | apply changeLoop_keeps | apply loopEvent_keeps | split | dsimp only)

theorem execStarved_keeps {Q : List Instr} (loop : Fin 10896) (s : State) (hk : Keeps Q s) : ∀ ans, execStarved loop s = .next
  ans → Keeps Q ans := by
  intro ans e
  injection e with e
  subst e
  with_reducible repeat' (first
    | assumption | apply keeps_ite | apply loopEvent_keeps | (simp only [keeps_mk]; apply keeps_fold) | split | dsimp only)

theorem execLoopOverrun_keeps {Q : List Instr} (k : Fin 72) (s : State) (hk : Keeps Q s) : ∀ ans, execLoopOverrun k s = .next
  ans → Keeps Q ans := by
  intro ans e
  injection e with e
  subst e
  with_reducible repeat' (first | assumption | apply count_keeps | apply raise_keeps | dsimp only)

theorem beginHandover_keeps {Q : List Instr} (s : State) (f next : Nat) (hk : Keeps Q s) : Keeps Q (State.beginHandover s f
  next) := by
  simp only [State.beginHandover]
  with_reducible repeat' (first | assumption | apply setFld_keeps | (simp only [keeps_mk]; apply keeps_fold) | dsimp only)

theorem handover_keeps {Q : List Instr} (s : State) (m : Master) (f next shadow : Nat) (hk : Keeps Q s) : Keeps Q
  (State.handover s m f next shadow) := by
  simp only [State.handover]
  with_reducible repeat' (first
    | assumption | intro _ | apply keeps_ite | apply setFld_keeps | apply refuseReg_keeps | apply beginHandover_keeps
    | split | dsimp only)

theorem execFlaskHandover_keeps {Q : List Instr} (m : Master) (f : Fin 64) (next : Fin 128) (shadow : Fin 16) (s : State) (hk :
  Keeps Q s) : ∀ ans, execFlaskHandover m f next shadow s = .next ans → Keeps Q ans := by
  intro ans e
  injection e with e
  subst e
  with_reducible repeat' (first | assumption | intro _ | apply atReg_keeps | apply handover_keeps | dsimp only)

theorem handoverCopy_keeps {Q : List Instr} (s : State) (f : Nat) (hk : Keeps Q s) : Keeps Q (State.handoverCopy s f) := by
  simp only [State.handoverCopy]
  with_reducible repeat' (first
    | assumption | intro _ | apply keeps_ite | apply setCore_keeps | apply setFld_keeps | (apply keeps_foldl; intro _ _ _)
    | (simp only [keeps_mk]; apply keeps_fold) | split | dsimp only)

theorem execHandoverCopy_keeps {Q : List Instr} (f : Fin 64) (s : State) (hk : Keeps Q s) : ∀ ans, execHandoverCopy f s = .next
  ans → Keeps Q ans := by
  intro ans e
  injection e with e
  subst e
  with_reducible repeat' (first | assumption | apply handoverCopy_keeps | dsimp only)

theorem handoverSwap_keeps {Q : List Instr} (s : State) (f : Nat) (hk : Keeps Q s) : Keeps Q (State.handoverSwap s f) := by
  simp only [State.handoverSwap]
  with_reducible repeat' (first
    | assumption | intro _ | apply keeps_ite | apply untilNet_keeps | apply setFld_keeps
    | (simp only [keeps_mk]; apply keeps_fold) | split | dsimp only)

theorem execHandoverSwap_keeps {Q : List Instr} (f : Fin 64) (s : State) (hk : Keeps Q s) : ∀ ans, execHandoverSwap f s = .next
  ans → Keeps Q ans := by
  intro ans e
  injection e with e
  subst e
  with_reducible repeat' (first | assumption | apply handoverSwap_keeps | dsimp only)

theorem loopCmd_keeps {Q : List Instr} (s : State) (m : Master) (cmd l : Nat) (hk : Keeps Q s) : Keeps Q (State.loopCmd s m cmd
  l) := by
  simp only [State.loopCmd]
  with_reducible repeat' (first
    | assumption | apply keeps_ite | apply refuseReg_keeps | (simp only [keeps_mk]; apply keeps_fold) | split | dsimp only)

theorem execLoopCmdOpen_keeps {Q : List Instr} (m : Master) (index : Fin 16384) (s : State) (hk : Keeps Q s) : ∀ ans,
  execLoopCmdOpen m index s = .next ans → Keeps Q ans := by
  intro ans e
  injection e with e
  subst e
  with_reducible repeat' (first | assumption | intro _ | apply atReg_keeps | apply loopCmd_keeps | dsimp only)

theorem execLoopCmdClose_keeps {Q : List Instr} (m : Master) (index : Fin 16384) (s : State) (hk : Keeps Q s) : ∀ ans,
  execLoopCmdClose m index s = .next ans → Keeps Q ans := by
  intro ans e
  injection e with e
  subst e
  with_reducible repeat' (first | assumption | intro _ | apply atReg_keeps | apply loopCmd_keeps | dsimp only)

theorem execLoopCmdHold_keeps {Q : List Instr} (m : Master) (index : Fin 16384) (s : State) (hk : Keeps Q s) : ∀ ans,
  execLoopCmdHold m index s = .next ans → Keeps Q ans := by
  intro ans e
  injection e with e
  subst e
  with_reducible repeat' (first | assumption | intro _ | apply atReg_keeps | apply loopCmd_keeps | dsimp only)

theorem execLoopCmdRelease_keeps {Q : List Instr} (m : Master) (index : Fin 16384) (s : State) (hk : Keeps Q s) : ∀ ans,
  execLoopCmdRelease m index s = .next ans → Keeps Q ans := by
  intro ans e
  injection e with e
  subst e
  with_reducible repeat' (first | assumption | intro _ | apply atReg_keeps | apply loopCmd_keeps | dsimp only)

theorem loopEffect_keeps {Q : List Instr} (s : State) (cmd l : Nat) (hk : Keeps Q s) : Keeps Q (State.loopEffect s cmd l) := by
  simp only [State.loopEffect]
  with_reducible repeat' (first
    | assumption | intro _ | apply keeps_ite | apply changeLoop_keeps | apply setHold_keeps | apply putHolds_keeps
    | (apply keeps_foldl; intro _ _ _) | split | dsimp only)

theorem loopEffects_keeps {Q : List Instr} (s : State) (hk : Keeps Q s) : Keeps Q (State.loopEffects s) := by
  simp only [State.loopEffects]
  with_reducible repeat' (first
    | assumption | intro _ | apply untilNet_keeps | apply loopEffect_keeps | (apply keeps_foldl; intro _ _ _)
    | (simp only [keeps_mk]; apply keeps_fold) | split | dsimp only)

theorem execLoopCmdEffect_keeps {Q : List Instr} (s : State) (hk : Keeps Q s) : ∀ ans, execLoopCmdEffect s = .next ans → Keeps Q
  ans := by
  intro ans e
  injection e with e
  subst e
  with_reducible repeat' (first | assumption | apply loopEffects_keeps | dsimp only)

theorem lockAll_keeps {Q : List Instr} (s : State) (hk : Keeps Q s) : Keeps Q (State.lockAll s) := by
  simp only [State.lockAll]
  with_reducible repeat' (first
    | assumption | intro _ | apply keeps_ite | apply setHold_keeps | apply changeLoop_keeps
    | (apply keeps_foldl; intro _ _ _) | split | dsimp only)

theorem openAll_keeps {Q : List Instr} (s : State) (hk : Keeps Q s) : Keeps Q (State.openAll s) := by
  simp only [State.openAll]
  with_reducible repeat' (first
    | assumption | intro _ | apply keeps_ite | apply changeLoop_keeps | (apply keeps_foldl; intro _ _ _) | split
    | dsimp only)

theorem holdAll_keeps {Q : List Instr} (s : State) (hk : Keeps Q s) : Keeps Q (State.holdAll s) := by
  simp only [State.holdAll]
  with_reducible repeat' (first | assumption | intro _ | apply setHold_keeps | (apply keeps_foldl; intro _ _ _) | dsimp only)

theorem execPilotContribution_keeps {Q : List Instr} (out : Fin 592) (corr : Int) (power : Nat) (s : State) (hk : Keeps Q s) : ∀
  ans, execPilotContribution out corr power s = .next ans → Keeps Q ans := by
  intro ans e
  injection e with e
  subst e
  with_reducible repeat' (first
    | assumption | apply keeps_ite | apply verdict_keeps | apply contribute_keeps | split | dsimp only)

/-! ## Machine/Coefficients.lean -/

theorem withLosses_keeps {Q : List Instr} (s : State) (hk : Keeps Q s) : Keeps Q (State.withLosses s) := by
  simp only [State.withLosses]
  with_reducible repeat' (first
    | assumption | intro _ | apply keeps_ite | (apply keeps_foldl; intro _ _ _) | (simp only [keeps_mk]; apply keeps_fold)
    | split | dsimp only)

theorem measure_keeps {Q : List Instr} (s : State) (r : Measured) (factory fettling : Bool) (hk : Keeps Q s) : Keeps Q
  (State.measure s r factory fettling).2 := by
  simp only [State.measure]
  with_reducible repeat' (first
    | assumption | intro _ | apply keeps_ite | apply freeNat_keeps | apply withLosses_keeps
    | refine keeps_snd (by assumption) ?_ | split | dsimp only)

theorem calRaise_keeps {Q : List Instr} (s : State) (cls : Nat) (hk : Keeps Q s) : Keeps Q (State.calRaise s cls) := by
  simp only [State.calRaise]
  with_reducible repeat' (first
    | assumption | apply freeWord_keeps | apply raise_keeps | refine keeps_snd (by assumption) ?_ | split | dsimp only)

theorem chainEntry_keeps {Q : List Instr} (s : State) (n : Nat) (hk : Keeps Q s) : Keeps Q (State.chainEntry s n) := by
  simp only [State.chainEntry]
  with_reducible repeat' (first | assumption | intro _ | (simp only [keeps_mk]; apply keeps_fold) | split | dsimp only)

theorem figures_keeps {Q : List Instr} (s : State) (r : Result) (old : Word) (hk : Keeps Q s) : Keeps Q (State.figures s r
  old).2 := by
  simp only [State.figures]
  with_reducible repeat' (first
    | assumption | apply keeps_ite | apply freeWord_keeps | refine keeps_snd (by assumption) ?_ | split | dsimp only)

theorem setQuality_keeps {Q : List Instr} (s : State) (q o : Nat) (f : Word → Word) (hk : Keeps Q s) : Keeps Q (State.setQuality
  s q o f) := by
  simp only [State.setQuality]
  with_reducible repeat' (first | assumption | intro _ | (simp only [keeps_mk]; apply keeps_fold) | split | dsimp only)

theorem updateQuality_keeps {Q : List Instr} (s : State) (r : Result) (untraced fail : Bool) (hk : Keeps Q s) : Keeps Q
  (State.updateQuality s r untraced fail) := by
  simp only [State.updateQuality]
  with_reducible repeat' (first
    | assumption | intro _ | apply keeps_ite | apply figures_keeps | refine keeps_snd (by assumption) ?_
    | (simp only [keeps_mk]; apply keeps_fold) | split | dsimp only)

theorem countWaiting_keeps {Q : List Instr} (s : State) (hk : Keeps Q s) : Keeps Q (State.countWaiting s) := by
  simp only [State.countWaiting]
  with_reducible repeat' (first | assumption | apply setFld_keeps | dsimp only)

theorem setCodes_keeps {Q : List Instr} (s : State) (e : Nat) (new : Codes) (adjust : Bool) (hk : Keeps Q s) : Keeps Q
  (State.setCodes s e new adjust) := by
  simp only [State.setCodes]
  with_reducible repeat' (first
    | assumption | intro _ | apply keeps_ite | (simp only [keeps_mk]; apply keeps_fold) | split | dsimp only)

theorem reload_keeps {Q : List Instr} (s : State) (e : Nat) (hk : Keeps Q s) : Keeps Q (State.reload s e) := by
  simp only [State.reload]
  with_reducible repeat' (first
    | assumption | intro _ | apply keeps_ite | apply setTile_keeps | (simp only [keeps_mk]; apply keeps_fold) | split
    | dsimp only)

theorem applyHeff_keeps {Q : List Instr} (s : State) (e : Nat) (v : Int) (hk : Keeps Q s) : Keeps Q (State.applyHeff s e v) :=
  by
  simp only [State.applyHeff]
  with_reducible repeat' (first
    | assumption | intro _ | apply keeps_ite | apply freeNat_keeps | apply changeLoop_keeps
    | refine keeps_snd (by assumption) ?_ | split | dsimp only)

theorem applyAdc_keeps {Q : List Instr} (s : State) (q o : Nat) (v : Int) (hk : Keeps Q s) : Keeps Q (State.applyAdc s q o v) :=
  by
  simp only [State.applyAdc]
  with_reducible repeat' (first | assumption | apply keeps_ite | apply setFld_keeps | split | dsimp only)

theorem inForceNow_keeps {Q : List Instr} (s : State) (r : Result) (step : Bool) (hk : Keeps Q s) : Keeps Q (State.inForceNow s
  r step) := by
  simp only [State.inForceNow]
  with_reducible repeat' (first
    | assumption | intro _ | apply keeps_ite | apply setCodes_keeps | apply reload_keeps | apply applyHeff_keeps
    | apply changeLoop_keeps | apply applyAdc_keeps | apply setPsets_keeps | apply setPset_keeps
    | (simp only [keeps_mk]; apply keeps_fold) | split | dsimp only)

theorem commitResult_keeps {Q : List Instr} (s : State) (r : Result) (hk : Keeps Q s) : Keeps Q (State.commitResult s r) := by
  simp only [State.commitResult]
  with_reducible repeat' (first
    | assumption | apply keeps_ite | apply countWaiting_keeps | apply inForceNow_keeps
    | (simp only [keeps_mk]; apply keeps_fold) | split | dsimp only)

theorem chainResult_keeps {Q : List Instr} (s : State) (r : Result) (hk : Keeps Q s) : Keeps Q (State.chainResult s r) := by
  simp only [State.chainResult]
  with_reducible repeat' (first | assumption | apply keeps_ite | apply chainEntry_keeps | split | dsimp only)

theorem countFails_keeps {Q : List Instr} (s : State) (num key : Nat) (fail : Bool) (data : Word) (hk : Keeps Q s) : Keeps Q
  (State.countFails s num key fail data) := by
  simp only [State.countFails]
  with_reducible repeat' (first
    | assumption | intro _ | apply keeps_ite | apply raise_keeps | (simp only [keeps_mk]; apply keeps_fold) | split
    | dsimp only)

theorem checkResult_keeps {Q : List Instr} (s : State) (r : Result) (num : Nat) (up untraced : Bool) (hk : Keeps Q s) : Keeps Q
  (State.checkResult s r num up untraced) := by
  simp only [State.checkResult]
  with_reducible repeat' (first
    | assumption | apply keeps_ite | apply updateQuality_keeps | apply commitResult_keeps | apply chainResult_keeps
    | apply count_keeps | apply raise_keeps | apply countFails_keeps | split | dsimp only)

theorem nextFrame_keeps {Q : List Instr} (s : State) (hk : Keeps Q s) : Keeps Q (State.nextFrame s) := by
  simp only [State.nextFrame]
  with_reducible repeat' (first | assumption | apply untilNet_keeps | dsimp only)

theorem applyInstant_keeps {Q : List Instr} (s : State) (q o : Nat) (hk : Keeps Q s) : KeepsOpt Q (State.applyInstant s q o) :=
  by
  simp only [State.applyInstant]
  with_reducible repeat' (first
    | assumption | apply keeps_ite | apply untilNet_keeps | apply nextFrame_keeps | intro _ | exact keepsOpt_none
    | apply keepsOpt_some | apply keepsOpt_ite | (apply keepsOpt_map; intro _) | (simp only [keeps_mk]; apply keeps_fold)
    | split | dsimp only)

theorem applyKey_keeps {Q : List Instr} (s : State) (k : Nat) (hk : Keeps Q s) : Keeps Q (State.applyKey s k) := by
  simp only [State.applyKey]
  with_reducible repeat' (first
    | assumption | apply countWaiting_keeps | apply inForceNow_keeps | (simp only [keeps_mk]; apply keeps_fold) | split
    | dsimp only)

theorem calApply_keeps {Q : List Instr} (s : State) (q o : Nat) (hk : Keeps Q s) : Keeps Q (State.calApply s q o) := by
  simp only [State.calApply]
  with_reducible repeat' (first
    | assumption | apply applyInstant_keeps | apply applyKey_keeps | (apply keeps_foldl; intro _ _ _)
    | refine keepsOpt_get (by assumption) ?_ | (simp only [keeps_mk]; apply keeps_fold) | split | dsimp only)

theorem execCalApply_keeps {Q : List Instr} (quantity : Fin 16) (object : Nat) (s : State) (hk : Keeps Q s) : ∀ ans,
  execCalApply quantity object s = .next ans → Keeps Q ans := by
  intro ans e
  injection e with e
  subst e
  with_reducible repeat' (first | assumption | apply calApply_keeps | dsimp only)

theorem applyServed_keeps {Q : List Instr} (s : State) (t a : Nat) (hk : Keeps Q s) : Keeps Q (State.applyServed s t a) := by
  simp only [State.applyServed]
  with_reducible repeat' (first | assumption | apply applyKey_keeps | dsimp only)

theorem dropCell_keeps {Q : List Instr} (s : State) (c : Nat) (hk : Keeps Q s) : Keeps Q (State.dropCell s c) := by
  simp only [State.dropCell]
  with_reducible repeat' (first
    | assumption | intro _ | apply countWaiting_keeps | (simp only [keeps_mk]; apply keeps_fold) | dsimp only)

theorem integratorAdjust_keeps {Q : List Instr} (s : State) (e : Nat) (hk : Keeps Q s) : Keeps Q (State.integratorAdjust s e) :=
  by
  simp only [State.integratorAdjust]
  with_reducible repeat' (first
    | assumption | intro _ | apply keeps_ite | apply nextFrame_keeps | apply changeLoop_keeps
    | (simp only [keeps_mk]; apply keeps_fold) | split | dsimp only)

theorem execCalIntegratorAdjust_keeps {Q : List Instr} (element : Fin 10304) (s : State) (hk : Keeps Q s) : ∀ ans,
  execCalIntegratorAdjust element s = .next ans → Keeps Q ans := by
  intro ans e
  injection e with e
  subst e
  with_reducible repeat' (first | assumption | apply integratorAdjust_keeps | dsimp only)

theorem transfer_keeps {Q : List Instr} (s : State) (e : Nat) (hk : Keeps Q s) : Keeps Q (State.transfer s e) := by
  simp only [State.transfer]
  with_reducible repeat' (first | assumption | apply keeps_ite | apply checkResult_keeps | split | dsimp only)

theorem transferFrom_keeps {Q : List Instr} (s : State) (tiles : List Nat) (lo hi : Nat) (hk : Keeps Q s) : Keeps Q
  (State.transferFrom s tiles lo hi) := by
  simp only [State.transferFrom]
  with_reducible repeat' (first
    | assumption | intro _ | apply transfer_keeps | (apply keeps_foldl; intro _ _ _)
    | (simp only [keeps_mk]; apply keeps_fold) | split | dsimp only)

theorem legWrite_keeps {Q : List Instr} (s : State) (m : Master) (off : Nat) (f : Nat → Result) (hk : Keeps Q s) : Keeps Q
  (State.legWrite s m off f) := by
  simp only [State.legWrite]
  with_reducible repeat' (first
    | assumption | apply keeps_ite | apply refuseReg_keeps | apply checkResult_keeps
    | (simp only [keeps_mk]; apply keeps_fold) | split | dsimp only)

theorem legWrite0_keeps {Q : List Instr} (s : State) (m : Master) (v : Word) (hk : Keeps Q s) : Keeps Q (State.legWrite0 s m v)
  := by
  simp only [State.legWrite0]
  with_reducible repeat' (first | assumption | intro _ | apply legWrite_keeps | dsimp only)

theorem execCalLegData0Write_keeps {Q : List Instr} (m : Master) (v : Word) (s : State) (hk : Keeps Q s) : ∀ ans,
  execCalLegData0Write m v s = .next ans → Keeps Q ans := by
  intro ans e
  injection e with e
  subst e
  with_reducible repeat' (first | assumption | intro _ | apply atReg_keeps | apply legWrite0_keeps | dsimp only)

theorem legWrite1_keeps {Q : List Instr} (s : State) (m : Master) (v : Word) (hk : Keeps Q s) : Keeps Q (State.legWrite1 s m v)
  := by
  simp only [State.legWrite1]
  with_reducible repeat' (first
    | assumption | intro _ | apply legWrite_keeps | (simp only [keeps_mk]; apply keeps_fold) | dsimp only)

theorem execCalLegData1Write_keeps {Q : List Instr} (m : Master) (v : Word) (s : State) (hk : Keeps Q s) : ∀ ans,
  execCalLegData1Write m v s = .next ans → Keeps Q ans := by
  intro ans e
  injection e with e
  subst e
  with_reducible repeat' (first | assumption | intro _ | apply atReg_keeps | apply legWrite1_keeps | dsimp only)

/-! ## Machine/Claims.lean -/

theorem returnSpare_keeps {Q : List Instr} (s : State) (t sp : Nat) (hk : Keeps Q s) : Keeps Q (State.returnSpare s t sp) := by
  simp only [State.returnSpare]
  with_reducible repeat' (first
    | assumption | apply keeps_ite | apply spareSwitch_keeps | apply applyServed_keeps | apply spareWrite_keeps | split
    | dsimp only)

theorem takeSpare_keeps {Q : List Instr} (s : State) (used : List (Nat × Nat)) (held : List Nat) (t a : Nat) (hk : Keeps Q s) :
  Keeps Q (State.takeSpare s used held t a).2 := by
  simp only [State.takeSpare]
  with_reducible repeat' (first
    | assumption | apply keeps_ite | apply spareSwitch_keeps | apply returnSpare_keeps | apply spareWrite_keeps | split
    | dsimp only)

theorem handFlask_keeps {Q : List Instr} (s : State) (f core : Nat) (hk : Keeps Q s) : Keeps Q (State.handFlask s f core) := by
  simp only [State.handFlask]
  with_reducible repeat' (first
    | assumption | apply keeps_ite | apply beginHandover_keeps | apply handoverCopy_keeps | apply handoverSwap_keeps
    | (simp only [keeps_mk]; apply keeps_fold) | split | dsimp only)

theorem renewFlask_keeps {Q : List Instr} (s : State) (spare f : Nat) (hk : Keeps Q s) : Keeps Q (State.renewFlask s spare f) :=
  by
  simp only [State.renewFlask]
  with_reducible repeat' (first | assumption | apply keeps_ite | apply handFlask_keeps | split | dsimp only)

theorem setLive_keeps {Q : List Instr} (s : State) (e : Nat) (v : Int) (shown : Nat) (hk : Keeps Q s) : Keeps Q (State.setLive s
  e v shown) := by
  simp only [State.setLive]
  with_reducible repeat' (first
    | assumption | intro _ | apply setTile_keeps | (simp only [keeps_mk]; apply keeps_fold) | dsimp only)

theorem holdPartner_keeps {Q : List Instr} (s : State) (e : Nat) (hk : Keeps Q s) : Keeps Q (State.holdPartner s e) := by
  simp only [State.holdPartner]
  with_reducible repeat' (first | assumption | intro _ | apply setHold_keeps | apply setLive_keeps | dsimp only)

theorem freePartner_keeps {Q : List Instr} (s : State) (p : CalPass) (hk : Keeps Q s) : Keeps Q (State.freePartner s p) := by
  simp only [State.freePartner]
  with_reducible repeat' (first
    | assumption | apply keeps_ite | apply setHold_keeps | apply setLive_keeps | (simp only [keeps_mk]; apply keeps_fold)
    | split | dsimp only)

theorem undoPass_keeps {Q : List Instr} (s : State) (p : CalPass) (hk : Keeps Q s) : Keeps Q (State.undoPass s p) := by
  simp only [State.undoPass]
  with_reducible repeat' (first
    | assumption | intro _ | apply keeps_ite | apply freePartner_keeps | apply changeLoop_keeps | apply handFlask_keeps
    | apply returnSpare_keeps | (apply keeps_foldl; intro _ _ _) | (simp only [keeps_mk]; apply keeps_fold) | split
    | dsimp only)

theorem setPass_keeps {Q : List Instr} (s : State) (p : CalPass) (hk : Keeps Q s) : Keeps Q (State.setPass s p) := by
  simp only [State.setPass]
  with_reducible repeat' (first
    | assumption | intro _ | apply keeps_ite | (simp only [keeps_mk]; apply keeps_fold) | split | dsimp only)

theorem settlePass_keeps {Q : List Instr} (s : State) (job : Nat) (hk : Keeps Q s) : Keeps Q (State.settlePass s job) := by
  simp only [State.settlePass]
  with_reducible repeat' (first
    | assumption | apply undoPass_keeps | apply setPass_keeps | (simp only [keeps_mk]; apply keeps_fold) | split
    | dsimp only)

theorem fettleNext_keeps {Q : List Instr} (s : State) (n : Nat) (hk : Keeps Q s) : Keeps Q (State.fettleNext s n) := by
  simp only [State.fettleNext]
  with_reducible repeat' (first
    | assumption | apply keeps_ite | apply setFld_keeps | (simp only [keeps_mk]; apply keeps_fold) | split | dsimp only)

theorem fettleReturn_keeps {Q : List Instr} (s : State) (hk : Keeps Q s) : Keeps Q (State.fettleReturn s) := by
  simp only [State.fettleReturn]
  with_reducible repeat' (first
    | assumption | intro _ | apply returnSpare_keeps | (apply keeps_foldl; intro _ _ _)
    | (simp only [keeps_mk]; apply keeps_fold) | dsimp only)

theorem changeJob_keeps {Q : List Instr} (s : State) (id : Nat) (f : Job → Job) (hk : Keeps Q s) : Keeps Q (State.changeJob s id
  f) := by
  simp only [State.changeJob]
  with_reducible repeat' (first | assumption | (simp only [keeps_mk]; apply keeps_fold) | dsimp only)

theorem setClaim_keeps {Q : List Instr} (s : State) (r : Nat) (c : Claim) (hk : Keeps Q s) : Keeps Q (State.setClaim s r c) :=
  by
  simp only [State.setClaim]
  with_reducible repeat' (first | assumption | (simp only [keeps_mk]; apply keeps_fold) | dsimp only)

theorem freeClaim_keeps {Q : List Instr} (s : State) (r : Nat) (hk : Keeps Q s) : Keeps Q (State.freeClaim s r) := by
  simp only [State.freeClaim]
  with_reducible repeat' (first | assumption | apply setClaim_keeps | (simp only [keeps_mk]; apply keeps_fold) | dsimp only)

theorem requeue_keeps {Q : List Instr} (s : State) (id : Nat) (hk : Keeps Q s) : Keeps Q (State.requeue s id) := by
  simp only [State.requeue]
  with_reducible repeat' (first
    | assumption | intro _ | apply keeps_ite | apply changeJob_keeps | (simp only [keeps_mk]; apply keeps_fold) | split
    | dsimp only)

theorem giveUp_keeps {Q : List Instr} (s : State) (j : Job) (hk : Keeps Q s) : Keeps Q (State.giveUp s j) := by
  simp only [State.giveUp]
  with_reducible repeat' (first
    | assumption | intro _ | apply keeps_ite | apply freeClaim_keeps | apply setClaim_keeps | apply settlePass_keeps
    | apply changeJob_keeps | apply requeue_keeps | (apply keeps_foldl; intro _ _ _)
    | (simp only [keeps_mk]; apply keeps_fold) | split | dsimp only)

theorem preempt_keeps {Q : List Instr} (s : State) (j : Job) (r : Nat) (hk : Keeps Q s) : Keeps Q (State.preempt s j r) := by
  simp only [State.preempt]
  with_reducible repeat' (first
    | assumption | intro _ | apply keeps_ite | apply changeJob_keeps | apply giveUp_keeps
    | (simp only [keeps_mk]; apply keeps_fold) | split | dsimp only)

theorem engineYields_keeps {Q : List Instr} (s : State) (r : Nat) (hk : Keeps Q s) : Keeps Q (State.engineYields s r) := by
  simp only [State.engineYields]
  with_reducible repeat' (first
    | assumption | apply keeps_ite | apply settlePass_keeps | apply fettleReturn_keeps | apply fettleNext_keeps
    | apply freeClaim_keeps | apply setClaim_keeps | (simp only [keeps_mk]; apply keeps_fold) | split | dsimp only)

theorem claimFor_keeps {Q : List Instr} (s : State) (w : Claimant) (n : Need) (hk : Keeps Q s) : Keeps Q (State.claimFor s w n)
  := by
  simp only [State.claimFor]
  with_reducible repeat' (first
    | assumption | intro _ | apply keeps_ite | apply setClaim_keeps | (apply keeps_foldl; intro _ _ _)
    | (simp only [keeps_mk]; apply keeps_fold) | split | dsimp only)

theorem claimNeed_keeps {Q : List Instr} (s : State) (j : Job) (n : Need) (hk : Keeps Q s) : Keeps Q (State.claimNeed s j n) :=
  by
  simp only [State.claimNeed]
  with_reducible repeat' (first
    | assumption | intro _ | apply keeps_ite | apply claimFor_keeps | apply preempt_keeps | apply engineYields_keeps
    | (simp only [keeps_mk]; apply keeps_fold) | split | dsimp only)

theorem claimAll_keeps {Q : List Instr} (s : State) (j : Job) (hk : Keeps Q s) : Keeps Q (State.claimAll s j) := by
  simp only [State.claimAll]
  with_reducible repeat' (first | assumption | intro _ | apply claimNeed_keeps | (apply keeps_foldl; intro _ _ _) | dsimp only)

theorem trimTo_keeps {Q : List Instr} (s : State) (w : Claimant) (keep : List Nat) (below : Nat) (hk : Keeps Q s) : Keeps Q
  (State.trimTo s w keep below) := by
  simp only [State.trimTo]
  with_reducible repeat' (first
    | assumption | intro _ | apply keeps_ite | apply freeClaim_keeps | apply setClaim_keeps
    | (apply keeps_foldl; intro _ _ _) | (simp only [keeps_mk]; apply keeps_fold) | split | dsimp only)

theorem trim_keeps {Q : List Instr} (s : State) (j : Job) (hk : Keeps Q s) : Keeps Q (State.trim s j) := by
  simp only [State.trim]
  with_reducible repeat' (first | assumption | apply trimTo_keeps | dsimp only)

theorem engineReleases_keeps {Q : List Instr} (s : State) (hk : Keeps Q s) : Keeps Q (State.engineReleases s) := by
  simp only [State.engineReleases]
  with_reducible repeat' (first | assumption | apply trimTo_keeps | dsimp only)

theorem grant_keeps {Q : List Instr} (s : State) (r : Nat) (hk : Keeps Q s) : Keeps Q (State.grant s r) := by
  simp only [State.grant]
  with_reducible repeat' (first
    | assumption | intro _ | apply keeps_ite | apply setClaim_keeps | apply raise_keeps | apply freeClaim_keeps
    | apply requeue_keeps | (apply keeps_foldl; intro _ _ _) | (simp only [keeps_mk]; apply keeps_fold) | split | dsimp only)

theorem execClaimGrant_keeps {Q : List Instr} (resource : Fin 71) (s : State) (hk : Keeps Q s) : ∀ ans, execClaimGrant resource
  s = .next ans → Keeps Q ans := by
  intro ans e
  injection e with e
  subst e
  with_reducible repeat' (first | assumption | apply grant_keeps | dsimp only)

/-! ## Machine/Calibration.lean -/

theorem refCheck_keeps {Q : List Instr} (s : State) (up : Bool) (hk : Keeps Q s) : Keeps Q (State.refCheck s up) := by
  simp only [State.refCheck]
  with_reducible repeat' (first | assumption | apply keeps_ite | apply setFld_keeps | apply calRaise_keeps | split | dsimp only)

theorem passRef_keeps {Q : List Instr} (s : State) (job : Nat) (hk : Keeps Q s) : Keeps Q (State.passRef s job) := by
  simp only [State.passRef]
  with_reducible repeat' (first
    | assumption | apply keeps_ite | apply refCheck_keeps | apply setPass_keeps | (simp only [keeps_mk]; apply keeps_fold)
    | split | dsimp only)

theorem vrefCheck_keeps {Q : List Instr} (s : State) (uv : Int) (hk : Keeps Q s) : Keeps Q (State.vrefCheck s uv) := by
  simp only [State.vrefCheck]
  with_reducible repeat' (first | assumption | apply keeps_ite | apply setFld_keeps | apply calRaise_keeps | split | dsimp only)

theorem setUntraced_keeps {Q : List Instr} (s : State) (ts : List Nat) (hk : Keeps Q s) : Keeps Q (State.setUntraced s ts) := by
  simp only [State.setUntraced]
  with_reducible repeat' (first | assumption | apply setFld_keeps | (simp only [keeps_mk]; apply keeps_fold) | dsimp only)

theorem recordTemps_keeps {Q : List Instr} (s : State) (ts : List Nat) (hk : Keeps Q s) : Keeps Q (State.recordTemps s ts) := by
  simp only [State.recordTemps]
  with_reducible repeat' (first
    | assumption | intro _ | (apply keeps_foldl; intro _ _ _) | (simp only [keeps_mk]; apply keeps_fold) | dsimp only)

theorem surveyFabric_keeps {Q : List Instr} (s : State) (hk : Keeps Q s) : Keeps Q (State.surveyFabric s) := by
  simp only [State.surveyFabric]
  with_reducible repeat' (first
    | assumption | intro _ | apply keeps_ite | apply withNotes_keeps | apply setFld_keeps | split | dsimp only)

theorem holdMould_keeps {Q : List Instr} (s : State) (hk : Keeps Q s) : Keeps Q (State.holdMould s).2 := by
  simp only [State.holdMould]
  with_reducible repeat' (first | assumption | apply keeps_ite | apply raise_keeps | split | dsimp only)

theorem askHold_keeps {Q : List Instr} (s : State) (hk : Keeps Q s) : Keeps Q (State.askHold s) := by
  simp only [State.askHold]
  with_reducible repeat' (first
    | assumption | apply holdMould_keeps | refine keeps_snd (by assumption) ?_ | (simp only [keeps_mk]; apply keeps_fold)
    | split | dsimp only)

theorem askCalPour_keeps {Q : List Instr} (s : State) (hk : Keeps Q s) : Keeps Q (State.askCalPour s) := by
  simp only [State.askCalPour]
  with_reducible repeat' (first
    | assumption | intro _ | apply keeps_ite | apply freeNat_keeps | refine keeps_snd (by assumption) ?_
    | (simp only [keeps_mk]; apply keeps_fold) | split | dsimp only)

theorem tileDone_keeps {Q : List Instr} (s : State) (p : CalPass) (t : Nat) (hk : Keeps Q s) : Keeps Q (State.tileDone s p t) :=
  by
  simp only [State.tileDone]
  with_reducible repeat' (first
    | assumption | apply keeps_ite | apply recordTemps_keeps | apply setUntraced_keeps | split | dsimp only)

theorem passTo_keeps {Q : List Instr} (s : State) (job n : Nat) (hk : Keeps Q s) : Keeps Q (State.passTo s job n) := by
  simp only [State.passTo]
  with_reducible repeat' (first
    | assumption | intro _ | apply keeps_ite | apply settlePass_keeps | apply tileDone_keeps | apply setPass_keeps
    | apply changeJob_keeps | (apply keeps_foldl; intro _ _ _) | (simp only [keeps_mk]; apply keeps_fold) | split
    | dsimp only)

theorem startPass_keeps {Q : List Instr} (s : State) (job : Nat) (up : Bool) (tiles : List Nat) (hk : Keeps Q s) : Keeps Q
  (State.startPass s job up tiles) := by
  simp only [State.startPass]
  with_reducible repeat' (first
    | assumption | intro _ | apply keeps_ite | apply passRef_keeps | (simp only [keeps_mk]; apply keeps_fold) | split
    | dsimp only)

theorem dropPass_keeps {Q : List Instr} (s : State) (job : Nat) (hk : Keeps Q s) : Keeps Q (State.dropPass s job) := by
  simp only [State.dropPass]
  with_reducible repeat' (first
    | assumption | intro _ | apply keeps_ite | apply settlePass_keeps | apply engineReleases_keeps | apply askHold_keeps
    | (simp only [keeps_mk]; apply keeps_fold) | split | dsimp only)

theorem endPass_keeps {Q : List Instr} (s : State) (job : Nat) (hk : Keeps Q s) : Keeps Q (State.endPass s job) := by
  simp only [State.endPass]
  with_reducible repeat' (first
    | assumption | apply passTo_keeps | apply dropPass_keeps | (simp only [keeps_mk]; apply keeps_fold) | split | dsimp only)

theorem passClaims_keeps {Q : List Instr} (s : State) (job n : Nat) (hk : Keeps Q s) : Keeps Q (State.passClaims s job n) := by
  simp only [State.passClaims]
  with_reducible repeat' (first
    | assumption | intro _ | apply keeps_ite | apply claimFor_keeps | apply trimTo_keeps | apply claimNeed_keeps
    | apply trim_keeps | (apply keeps_foldl; intro _ _ _) | (simp only [keeps_mk]; apply keeps_fold) | split | dsimp only)

theorem enterChannel_keeps {Q : List Instr} (s : State) (p : CalPass) (t a : Nat) (hk : Keeps Q s) : Keeps Q (State.enterChannel
  s p t a) := by
  simp only [State.enterChannel]
  with_reducible repeat' (first
    | assumption | intro _ | apply keeps_ite | apply takeSpare_keeps | apply setPass_keeps | apply returnSpare_keeps
    | (apply keeps_foldl; intro _ _ _) | refine keeps_snd (by assumption) ?_ | (simp only [keeps_mk]; apply keeps_fold)
    | split | dsimp only)

theorem enterFlask_keeps {Q : List Instr} (s : State) (p : CalPass) (f : Nat) (hk : Keeps Q s) : Keeps Q (State.enterFlask s p
  f) := by
  simp only [State.enterFlask]
  with_reducible repeat' (first
    | assumption | apply keeps_ite | apply handFlask_keeps | apply setPass_keeps | (simp only [keeps_mk]; apply keeps_fold)
    | split | dsimp only)

theorem enterElement_keeps {Q : List Instr} (s : State) (p : CalPass) (e : Nat) (hk : Keeps Q s) : Keeps Q (State.enterElement s
  p e) := by
  simp only [State.enterElement]
  with_reducible repeat' (first
    | assumption | intro _ | apply keeps_ite | apply freePartner_keeps | apply changeLoop_keeps | apply holdPartner_keeps
    | apply setPass_keeps | (simp only [keeps_mk]; apply keeps_fold) | split | dsimp only)

theorem enterStep_keeps {Q : List Instr} (s : State) (job q o : Nat) (hk : Keeps Q s) : Keeps Q (State.enterStep s job q o) :=
  by
  simp only [State.enterStep]
  with_reducible repeat' (first
    | assumption | apply keeps_ite | apply enterChannel_keeps | apply enterFlask_keeps | apply enterElement_keeps
    | apply askCalPour_keeps | (simp only [keeps_mk]; apply keeps_fold) | split | dsimp only)

theorem takeResult_keeps {Q : List Instr} (s : State) (p : CalPass) (r : Measured) (hk : Keeps Q s) : Keeps Q (State.takeResult
  s p r) := by
  simp only [State.takeResult]
  with_reducible repeat' (first
    | assumption | intro _ | apply keeps_ite | apply setQuality_keeps | apply vrefCheck_keeps | apply setPass_keeps
    | apply measure_keeps | apply checkResult_keeps | refine keeps_snd (by assumption) ?_
    | (simp only [keeps_mk]; apply keeps_fold) | split | dsimp only)

theorem passResult_keeps {Q : List Instr} (s : State) (job : Nat) (r : Measured) (hk : Keeps Q s) : Keeps Q (State.passResult s
  job r) := by
  simp only [State.passResult]
  with_reducible repeat' (first
    | assumption | apply keeps_ite | apply passRef_keeps | apply passTo_keeps | apply passClaims_keeps
    | apply enterStep_keeps | apply takeResult_keeps | apply endPass_keeps | apply calBusy_keeps | apply surveyFabric_keeps
    | (simp only [keeps_mk]; apply keeps_fold) | split | dsimp only)

theorem fettleResult_keeps {Q : List Instr} (s : State) (r : Measured) (hk : Keeps Q s) : Keeps Q (State.fettleResult s r) := by
  simp only [State.fettleResult]
  with_reducible repeat' (first
    | assumption | apply keeps_ite | apply vrefCheck_keeps | apply measure_keeps | apply checkResult_keeps
    | apply takeSpare_keeps | refine keeps_snd (by assumption) ?_ | (simp only [keeps_mk]; apply keeps_fold) | split
    | dsimp only)

theorem calResult_keeps {Q : List Instr} (s : State) (r : Measured) (hk : Keeps Q s) : Keeps Q (State.calResult s r) := by
  simp only [State.calResult]
  with_reducible repeat' (first
    | assumption | apply keeps_ite | apply passResult_keeps | apply fettleResult_keeps
    | (simp only [keeps_mk]; apply keeps_fold) | split | dsimp only)

theorem execCalResult_keeps {Q : List Instr} (r : Measured) (s : State) (hk : Keeps Q s) : ∀ ans, execCalResult r s = .next ans
  → Keeps Q ans := by
  intro ans e
  injection e with e
  subst e
  with_reducible repeat' (first | assumption | apply calResult_keeps | dsimp only)

theorem startDelta_keeps {Q : List Instr} (s : State) (ts : List Nat) (hk : Keeps Q s) : Keeps Q (State.startDelta s ts) := by
  simp only [State.startDelta]
  with_reducible repeat' (first
    | assumption | apply keeps_ite | apply setPass_keeps | apply startPass_keeps | apply calBusy_keeps
    | apply surveyFabric_keeps | (simp only [keeps_mk]; apply keeps_fold) | split | dsimp only)

theorem deltaTrigger_keeps {Q : List Instr} (s : State) (hk : Keeps Q s) : Keeps Q (State.deltaTrigger s) := by
  simp only [State.deltaTrigger]
  with_reducible repeat' (first
    | assumption | apply keeps_ite | apply startDelta_keeps | apply setFld_keeps | (simp only [keeps_mk]; apply keeps_fold)
    | split | dsimp only)

theorem startWaitingDelta_keeps {Q : List Instr} (s : State) (hk : Keeps Q s) : Keeps Q (State.startWaitingDelta s) := by
  simp only [State.startWaitingDelta]
  with_reducible repeat' (first
    | assumption | apply keeps_ite | apply setFld_keeps | apply startDelta_keeps | (simp only [keeps_mk]; apply keeps_fold)
    | split | dsimp only)

theorem fettleStop_keeps {Q : List Instr} (s : State) (hk : Keeps Q s) : Keeps Q (State.fettleStop s) := by
  simp only [State.fettleStop]
  with_reducible repeat' (first
    | assumption | apply keeps_ite | apply fettleReturn_keeps | apply engineReleases_keeps
    | (simp only [keeps_mk]; apply keeps_fold) | split | dsimp only)

theorem fettleEnter_keeps {Q : List Instr} (s : State) (hk : Keeps Q s) : Keeps Q (State.fettleEnter s) := by
  simp only [State.fettleEnter]
  with_reducible repeat' (first
    | assumption | apply keeps_ite | apply claimFor_keeps | apply fettleReturn_keeps | apply engineReleases_keeps
    | apply refCheck_keeps | apply fettleNext_keeps | (simp only [keeps_mk]; apply keeps_fold) | split | dsimp only)

theorem fettle_keeps {Q : List Instr} (s : State) (hk : Keeps Q s) : Keeps Q (State.fettle s) := by
  simp only [State.fettle]
  with_reducible repeat' (first
    | assumption | apply keeps_ite | apply fettleEnter_keeps | apply fettleNext_keeps | apply fettleStop_keeps | split
    | dsimp only)

theorem execFettleObject_keeps {Q : List Instr} (s : State) (hk : Keeps Q s) : ∀ ans, execFettleObject s = .next ans → Keeps Q
  ans := by
  intro ans e
  injection e with e
  subst e
  with_reducible repeat' (first | assumption | apply fettle_keeps | dsimp only)

theorem beginPass_keeps {Q : List Instr} (s : State) (hk : Keeps Q s) : Keeps Q (State.beginPass s) := by
  simp only [State.beginPass]
  with_reducible repeat' (first
    | assumption | apply setFld_keeps | apply startPass_keeps | (simp only [keeps_mk]; apply keeps_fold) | dsimp only)

theorem endMeasuring_keeps {Q : List Instr} (s : State) (hk : Keeps Q s) : Keeps Q (State.endMeasuring s) := by
  simp only [State.endMeasuring]
  with_reducible repeat' (first | assumption | apply settlePass_keeps | dsimp only)

end Sys2Proof.Machine
end

