-- ==== Sys2Proof/Laws/KeepsLadle.lean ====
section
/-!
SUPPORT. The queue and the register file kept by the ladle plane: one lemma for each operation,
proved over those of the operations it is made of.
-/
namespace Sys2Proof.Machine

set_option linter.all false

/-! ## Machine/Ladle.lean -/

theorem ladleEvent_keeps {Q : List Instr} (s : State) (cls code obj : Nat) (hk : Keeps Q s) : Keeps Q (State.ladleEvent s cls
  code obj) := by
  simp only [State.ladleEvent]
  with_reducible repeat' (first | assumption | apply raise_keeps | dsimp only)

theorem ladCount_keeps {Q : List Instr} (s : State) (n k : Nat) (hk : Keeps Q s) : Keeps Q (State.ladCount s n k) := by
  simp only [State.ladCount]
  with_reducible repeat' (first | assumption | apply count_keeps | dsimp only)

theorem lsvCount_keeps {Q : List Instr} (s : State) (n k : Nat) (hk : Keeps Q s) : Keeps Q (State.lsvCount s n k) := by
  simp only [State.lsvCount]
  with_reducible repeat' (first | assumption | apply count_keeps | dsimp only)

theorem park_keeps {Q : List Instr} (s : State) (p : Nat) (hk : Keeps Q s) : Keeps Q (State.park s p) := by
  simp only [State.park]
  with_reducible repeat' (first | assumption | apply keeps_ite | apply setFld_keeps | apply lsvCount_keeps | split | dsimp only)

theorem parkAll_keeps {Q : List Instr} (s : State) (hk : Keeps Q s) : Keeps Q (State.parkAll s) := by
  simp only [State.parkAll]
  with_reducible repeat' (first | assumption | apply park_keeps | (apply keeps_foldl; intro _ _ _) | dsimp only)

theorem setQueue_keeps {Q : List Instr} (s : State) (q : Nat) (x : Queue) (hk : Keeps Q s) : Keeps Q (State.setQueue s q x) :=
  by
  simp only [State.setQueue]
  with_reducible repeat' (first | assumption | intro _ | (simp only [keeps_mk]; apply keeps_fold) | dsimp only)

theorem putFrame_keeps {Q : List Instr} (s : State) (id : Nat) (f : Frame) (hk : Keeps Q s) : Keeps Q (State.putFrame s id f) :=
  by
  simp only [State.putFrame]
  with_reducible repeat' (first | assumption | (simp only [keeps_mk]; apply keeps_fold) | dsimp only)

theorem setFlow_keeps {Q : List Instr} (s : State) (f : Nat) (x : Flow) (hk : Keeps Q s) : Keeps Q (State.setFlow s f x) := by
  simp only [State.setFlow]
  with_reducible repeat' (first | assumption | intro _ | (simp only [keeps_mk]; apply keeps_fold) | dsimp only)

theorem setGroup_keeps {Q : List Instr} (s : State) (g : Nat) (x : Group) (hk : Keeps Q s) : Keeps Q (State.setGroup s g x) :=
  by
  simp only [State.setGroup]
  with_reducible repeat' (first | assumption | intro _ | (simp only [keeps_mk]; apply keeps_fold) | dsimp only)

theorem migrate_keeps {Q : List Instr} (s : State) (b id : Nat) (hk : Keeps Q s) : Keeps Q (State.migrate s b id) := by
  simp only [State.migrate]
  with_reducible repeat' (first
    | assumption | intro _ | apply keeps_ite | apply putFrame_keeps | (apply keeps_foldl; intro _ _ _)
    | (simp only [keeps_mk]; apply keeps_fold) | split | dsimp only)

theorem moveMark_keeps {Q : List Instr} (s : State) (c : Nat) (hk : Keeps Q s) : Keeps Q (State.moveMark s c) := by
  simp only [State.moveMark]
  with_reducible repeat' (first
    | assumption | intro _ | apply keeps_ite | (simp only [keeps_mk]; apply keeps_fold) | split | dsimp only)

theorem migrateMarks_keeps {Q : List Instr} (s : State) (b : Nat) (hk : Keeps Q s) : Keeps Q (State.migrateMarks s b) := by
  simp only [State.migrateMarks]
  with_reducible repeat' (first | assumption | intro _ | apply moveMark_keeps | (apply keeps_foldl; intro _ _ _) | dsimp only)

theorem setCtl_keeps {Q : List Instr} (s : State) (d : Nat) (l : List Ctl) (hk : Keeps Q s) : Keeps Q (State.setCtl s d l) := by
  simp only [State.setCtl]
  with_reducible repeat' (first | assumption | intro _ | (simp only [keeps_mk]; apply keeps_fold) | dsimp only)

theorem queueCtl_keeps {Q : List Instr} (s : State) (d : Nat) (c : Ctl) (hk : Keeps Q s) : Keeps Q (State.queueCtl s d c) := by
  simp only [State.queueCtl]
  with_reducible repeat' (first | assumption | apply setCtl_keeps | dsimp only)

theorem sendFlow_keeps {Q : List Instr} (s : State) (stop : Bool) (d : Nat) (hk : Keeps Q s) : Keeps Q (State.sendFlow s stop d)
  := by
  simp only [State.sendFlow]
  with_reducible repeat' (first | assumption | intro _ | apply setCtl_keeps | dsimp only)

theorem withGlobal_keeps {Q : List Instr} (s : State) (f : State → State) (hkf : ∀ x0, Keeps Q x0 → Keeps Q (f x0)) (hk : Keeps
  Q s) : Keeps Q (State.withGlobal s f) := by
  simp only [State.withGlobal]
  with_reducible repeat' (first
    | assumption | intro _ | apply keeps_ite | apply sendFlow_keeps | apply ladCount_keeps | apply setFld_keeps | apply hkf
    | (apply keeps_foldl; intro _ _ _) | split | dsimp only)

theorem balancePair_keeps {Q : List Instr} (s : State) (key : Nat) (hk : Keeps Q s) : Keeps Q (State.balancePair s key) := by
  simp only [State.balancePair]
  with_reducible repeat' (first
    | assumption | intro _ | apply keeps_ite | apply ladCount_keeps | apply sendFlow_keeps
    | (simp only [keeps_mk]; apply keeps_fold) | split | dsimp only)

theorem balance_keeps {Q : List Instr} (s : State) (hk : Keeps Q s) : Keeps Q (State.balance s) := by
  simp only [State.balance]
  with_reducible repeat' (first
    | assumption | intro _ | apply setFld_keeps | apply balancePair_keeps | apply withGlobal_keeps
    | (apply keeps_foldl; intro _ _ _) | (simp only [keeps_mk]; apply keeps_fold) | dsimp only)

theorem setActive_keeps {Q : List Instr} (s : State) (d : Nat) (l : List Nat) (hk : Keeps Q s) : Keeps Q (State.setActive s d l)
  := by
  simp only [State.setActive]
  with_reducible repeat' (first | assumption | intro _ | (simp only [keeps_mk]; apply keeps_fold) | dsimp only)

theorem setDeficit_keeps {Q : List Instr} (s : State) (q : Nat) (v : Int) (hk : Keeps Q s) : Keeps Q (State.setDeficit s q v) :=
  by
  simp only [State.setDeficit]
  with_reducible repeat' (first | assumption | intro _ | (simp only [keeps_mk]; apply keeps_fold) | dsimp only)

theorem joinActive_keeps {Q : List Instr} (s : State) (q : Nat) (hk : Keeps Q s) : Keeps Q (State.joinActive s q) := by
  simp only [State.joinActive]
  with_reducible repeat' (first
    | assumption | intro _ | apply keeps_ite | apply setActive_keeps | apply setDeficit_keeps
    | (simp only [keeps_mk]; apply keeps_fold) | split | dsimp only)

theorem passVisit_keeps {Q : List Instr} (s : State) (d q : Nat) (hk : Keeps Q s) : Keeps Q (State.passVisit s d q) := by
  simp only [State.passVisit]
  with_reducible repeat' (first | assumption | (simp only [keeps_mk]; apply keeps_fold) | dsimp only)

theorem leaveActive_keeps {Q : List Instr} (s : State) (q : Nat) (hk : Keeps Q s) : Keeps Q (State.leaveActive s q) := by
  simp only [State.leaveActive]
  with_reducible repeat' (first
    | assumption | apply keeps_ite | apply passVisit_keeps | apply setActive_keeps | apply setDeficit_keeps | split
    | dsimp only)

theorem enqueue_keeps {Q : List Instr} (s : State) (q : Nat) (e : QEntry) (hk : Keeps Q s) : Keeps Q (State.enqueue s q e) := by
  simp only [State.enqueue]
  with_reducible repeat' (first
    | assumption | apply setQueue_keeps | apply joinActive_keeps | (simp only [keeps_mk]; apply keeps_fold) | dsimp only)

theorem dequeue_keeps {Q : List Instr} (s : State) (q : Nat) (hk : Keeps Q s) : Keeps Q (State.dequeue s q) := by
  simp only [State.dequeue]
  with_reducible repeat' (first | assumption | apply setQueue_keeps | (simp only [keeps_mk]; apply keeps_fold) | dsimp only)

theorem unlink_keeps {Q : List Instr} (s : State) (id : Nat) (hk : Keeps Q s) : Keeps Q (State.unlink s id) := by
  simp only [State.unlink]
  with_reducible repeat' (first
    | assumption | intro _ | apply keeps_ite | apply leaveActive_keeps | (apply keeps_foldl; intro _ _ _)
    | (simp only [keeps_mk]; apply keeps_fold) | split | dsimp only)

theorem freeFrame_keeps {Q : List Instr} (s : State) (id : Nat) (hk : Keeps Q s) : Keeps Q (State.freeFrame s id) := by
  simp only [State.freeFrame]
  with_reducible repeat' (first | assumption | (simp only [keeps_mk]; apply keeps_fold) | dsimp only)

theorem discardFrame_keeps {Q : List Instr} (s : State) (id : Nat) (hk : Keeps Q s) : Keeps Q (State.discardFrame s id) := by
  simp only [State.discardFrame]
  with_reducible repeat' (first | assumption | apply unlink_keeps | apply freeFrame_keeps | dsimp only)

theorem copyGone_keeps {Q : List Instr} (s : State) (id : Nat) (hk : Keeps Q s) : Keeps Q (State.copyGone s id) := by
  simp only [State.copyGone]
  with_reducible repeat' (first
    | assumption | apply keeps_ite | apply freeFrame_keeps | apply putFrame_keeps | (simp only [keeps_mk]; apply keeps_fold)
    | split | dsimp only)

theorem arrived_keeps {Q : List Instr} (s : State) (id : Nat) (hk : Keeps Q s) : Keeps Q (State.arrived s id) := by
  simp only [State.arrived]
  with_reducible repeat' (first
    | assumption | apply keeps_ite | apply freeFrame_keeps | apply putFrame_keeps | (simp only [keeps_mk]; apply keeps_fold)
    | split | dsimp only)

theorem closeArrived_keeps {Q : List Instr} (s : State) (src : Option Nat) (hk : Keeps Q s) : Keeps Q (State.closeArrived s src)
  := by
  simp only [State.closeArrived]
  with_reducible repeat' (first
    | assumption | intro _ | apply keeps_ite | apply arrived_keeps | apply balance_keeps | (apply keeps_foldl; intro _ _ _)
    | (simp only [keeps_mk]; apply keeps_fold) | split | dsimp only)

theorem discardAll_keeps {Q : List Instr} (s : State) (hk : Keeps Q s) : Keeps Q (State.discardAll s) := by
  simp only [State.discardAll]
  with_reducible repeat' (first
    | assumption | intro _ | apply balance_keeps | (simp only [keeps_mk]; apply keeps_fold) | dsimp only)

theorem execRiserPrefetch_keeps {Q : List Instr} (q : Fin 17408) (s : State) (hk : Keeps Q s) : ∀ ans, execRiserPrefetch q s =
  .next ans → Keeps Q ans := by
  intro ans e
  injection e with e
  subst e
  with_reducible repeat' (first | assumption | apply keeps_ite | (simp only [keeps_mk]; apply keeps_fold) | split | dsimp only)

theorem eccNote_keeps {Q : List Instr} (s : State) (obj : Nat) (hk : Keeps Q s) : Keeps Q (State.eccNote s obj) := by
  simp only [State.eccNote]
  with_reducible repeat' (first
    | assumption | apply keeps_ite | apply ladleEvent_keeps | (simp only [keeps_mk]; apply keeps_fold) | split | dsimp only)

theorem riserRead_keeps {Q : List Instr} (s : State) (q : Nat) (corrected uncorrectable : Bool) (region : Nat) (hk : Keeps Q s)
  : Keeps Q (State.riserRead s q corrected uncorrectable region) := by
  simp only [State.riserRead]
  with_reducible repeat' (first
    | assumption | apply keeps_ite | apply discardFrame_keeps | apply ladCount_keeps | apply balance_keeps
    | apply ladleEvent_keeps | apply putFrame_keeps | apply eccNote_keeps | (simp only [keeps_mk]; apply keeps_fold) | split
    | dsimp only)

theorem execRiserReadDone_keeps {Q : List Instr} (q : Fin 17408) (corrected uncorrectable : Bool) (region : Fin 128) (s : State)
  (hk : Keeps Q s) : ∀ ans, execRiserReadDone q corrected uncorrectable region s = .next ans → Keeps Q ans := by
  intro ans e
  injection e with e
  subst e
  with_reducible repeat' (first | assumption | apply riserRead_keeps | dsimp only)

theorem complement_keeps {Q : List Instr} (s : State) (id : Nat) (hk : Keeps Q s) : Keeps Q (State.complement s id) := by
  simp only [State.complement]
  with_reducible repeat' (first
    | assumption | intro _ | apply keeps_ite | (simp only [keeps_mk]; apply keeps_fold) | split | dsimp only)

theorem sramError_keeps {Q : List Instr} (s : State) (bank frame : Nat) (correctable headerLeft : Bool) (hk : Keeps Q s) : Keeps
  Q (State.sramError s bank frame correctable headerLeft) := by
  simp only [State.sramError]
  with_reducible repeat' (first
    | assumption | intro _ | apply keeps_ite | apply ladCount_keeps | apply eccNote_keeps | apply complement_keeps
    | apply ladleEvent_keeps | apply discardFrame_keeps | apply balance_keeps | split | dsimp only)

theorem execSramEccError_keeps {Q : List Instr} (bank : Fin 64) (frame : Nat) (correctable headerLeft : Bool) (s : State) (hk :
  Keeps Q s) : ∀ ans, execSramEccError bank frame correctable headerLeft s = .next ans → Keeps Q ans := by
  intro ans e
  injection e with e
  subst e
  with_reducible repeat' (first | assumption | apply sramError_keeps | dsimp only)

theorem grpCommit_keeps {Q : List Instr} (s : State) (v : Word) (hk : Keeps Q s) : Keeps Q (State.grpCommit s v) := by
  simp only [State.grpCommit]
  with_reducible repeat' (first
    | assumption | intro _ | apply keeps_ite | apply setGroup_keeps | (apply keeps_foldl; intro _ _ _)
    | (simp only [keeps_mk]; apply keeps_fold) | split | dsimp only)

theorem execLadGrpCommit_keeps {Q : List Instr} (m : Master) (v : Word) (s : State) (hk : Keeps Q s) : ∀ ans, execLadGrpCommit m
  v s = .next ans → Keeps Q ans := by
  intro ans e
  injection e with e
  subst e
  with_reducible repeat' (first | assumption | intro _ | apply atReg_keeps | apply grpCommit_keeps | dsimp only)

theorem dropCopy_keeps {Q : List Instr} (s : State) (g id : Nat) (hk : Keeps Q s) : Keeps Q (State.dropCopy s g id) := by
  simp only [State.dropCopy]
  with_reducible repeat' (first
    | assumption | apply keeps_ite | apply setGroup_keeps | apply ladCount_keeps | apply ladleEvent_keeps
    | apply copyGone_keeps | (simp only [keeps_mk]; apply keeps_fold) | split | dsimp only)

theorem makeCopy_keeps {Q : List Instr} (s : State) (g k id d : Nat) (hk : Keeps Q s) : Keeps Q (State.makeCopy s g k id d) :=
  by
  simp only [State.makeCopy]
  with_reducible repeat' (first
    | assumption | intro _ | apply keeps_ite | apply enqueue_keeps | apply dropCopy_keeps
    | (simp only [keeps_mk]; apply keeps_fold) | split | dsimp only)

theorem execMcDrop_keeps {Q : List Instr} (group : Fin 16384) (dst : Fin 512) (s : State) (hk : Keeps Q s) : ∀ ans, execMcDrop
  group dst s = .next ans → Keeps Q ans := by
  intro ans e
  injection e with e
  subst e
  with_reducible repeat' (first
    | assumption | apply untilNow_keeps | apply dropCopy_keeps | apply balance_keeps
    | (simp only [keeps_mk]; apply keeps_fold) | split | dsimp only)

theorem armSwap_keeps {Q : List Instr} (s : State) (sp j : Nat) (en : Bool) (hk : Keeps Q s) : Keeps Q (State.armSwap s sp j en)
  := by
  simp only [State.armSwap]
  with_reducible repeat' (first | assumption | apply setFld_keeps | apply recompileReserved_keeps | dsimp only)

theorem swapOn_keeps {Q : List Instr} (s : State) (m : Master) (sp src : Nat) (hk : Keeps Q s) : Keeps Q (State.swapOn s m sp
  src) := by
  simp only [State.swapOn]
  with_reducible repeat' (first
    | assumption | apply keeps_ite | apply armSwap_keeps | apply refuseReg_keeps | split | dsimp only)

theorem swapOff_keeps {Q : List Instr} (s : State) (m : Master) (sp src : Nat) (hk : Keeps Q s) : Keeps Q (State.swapOff s m sp
  src) := by
  simp only [State.swapOff]
  with_reducible repeat' (first
    | assumption | apply keeps_ite | apply armSwap_keeps | apply refuseReg_keeps | split | dsimp only)

theorem execSwapArm_keeps {Q : List Instr} (m : Master) (sp : Fin 4) (src : Fin 64) (s : State) (hk : Keeps Q s) : ∀ ans,
  execSwapArm m sp src s = .next ans → Keeps Q ans := by
  intro ans e
  injection e with e
  subst e
  with_reducible repeat' (first | assumption | intro _ | apply atReg_keeps | apply swapOn_keeps | dsimp only)

theorem execSwapReturn_keeps {Q : List Instr} (m : Master) (sp : Fin 4) (src : Fin 64) (s : State) (hk : Keeps Q s) : ∀ ans,
  execSwapReturn m sp src s = .next ans → Keeps Q ans := by
  intro ans e
  injection e with e
  subst e
  with_reducible repeat' (first | assumption | intro _ | apply atReg_keeps | apply swapOff_keeps | dsimp only)

theorem swapTakes_keeps {Q : List Instr} (s : State) (sp : Nat) (hk : Keeps Q s) : Keeps Q (State.swapTakes s sp) := by
  simp only [State.swapTakes]
  with_reducible repeat' (first
    | assumption | apply keeps_ite | apply setFld_keeps | apply park_keeps | apply ladleEvent_keeps | apply setClaim_keeps
    | (simp only [keeps_mk]; apply keeps_fold) | split | dsimp only)

theorem autoSwap_keeps {Q : List Instr} (s : State) (j : Nat) (hk : Keeps Q s) : Keeps Q (State.autoSwap s j) := by
  simp only [State.autoSwap]
  with_reducible repeat' (first
    | assumption | apply keeps_ite | apply setClaim_keeps | apply armSwap_keeps | (simp only [keeps_mk]; apply keeps_fold)
    | split | dsimp only)

theorem recoverPort_keeps {Q : List Instr} (s : State) (p : Nat) (hk : Keeps Q s) : Keeps Q (State.recoverPort s p) := by
  simp only [State.recoverPort]
  with_reducible repeat' (first
    | assumption | intro _ | apply keeps_ite | apply setFld_keeps | apply ladleEvent_keeps | split | dsimp only)

theorem portRecover_keeps {Q : List Instr} (s : State) (supply : Bool) (i : Nat) (hk : Keeps Q s) : Keeps Q (State.portRecover s
  supply i) := by
  simp only [State.portRecover]
  with_reducible repeat' (first
    | assumption | apply keeps_ite | apply recoverPort_keeps | (apply keeps_foldl; intro _ _ _)
    | (simp only [keeps_mk]; apply keeps_fold) | split | dsimp only)

theorem execLadlePortRecover_keeps {Q : List Instr} (supply : Bool) (index : Fin 68) (s : State) (hk : Keeps Q s) : ∀ ans,
  execLadlePortRecover supply index s = .next ans → Keeps Q ans := by
  intro ans e
  injection e with e
  subst e
  with_reducible repeat' (first | assumption | apply portRecover_keeps | dsimp only)

/-! ## Machine/LadleService.lean -/

theorem execDirectHoldRelease_keeps {Q : List Instr} (src dst : Fin 512) (cls : Fin 8) (s : State) (hk : Keeps Q s) : ∀ ans,
  execDirectHoldRelease src dst cls s = .next ans → Keeps Q ans := by
  intro ans e
  injection e with e
  subst e
  with_reducible repeat' (first
    | assumption | apply keeps_ite | apply untilNet_keeps | (simp only [keeps_mk]; apply keeps_fold) | split | dsimp only)

theorem setMarks_keeps {Q : List Instr} (s : State) (key : Nat) (l : List Mark) (hk : Keeps Q s) : Keeps Q (State.setMarks s key
  l) := by
  simp only [State.setMarks]
  with_reducible repeat' (first | assumption | intro _ | (simp only [keeps_mk]; apply keeps_fold) | dsimp only)

theorem laneMark_keeps {Q : List Instr} (s : State) (src dst cls : Nat) (serial : Word) (ladle : Bool) (hk : Keeps Q s) : Keeps
  Q (State.laneMark s src dst cls serial ladle) := by
  simp only [State.laneMark]
  with_reducible repeat' (first
    | assumption | apply keeps_ite | apply ladCount_keeps | apply lsvCount_keeps | apply ladleEvent_keeps
    | apply nextFrame_keeps | apply setMarks_keeps | apply enqueue_keeps | apply balance_keeps
    | (simp only [keeps_mk]; apply keeps_fold) | split | dsimp only)

theorem execLaneMark_keeps {Q : List Instr} (src dst : Fin 512) (cls : Fin 8) (serial : BitVec 32) (ladleSlot : Bool) (s :
  State) (hk : Keeps Q s) : ∀ ans, execLaneMark src dst cls serial ladleSlot s = .next ans → Keeps Q ans := by
  intro ans e
  injection e with e
  subst e
  with_reducible repeat' (first | assumption | apply laneMark_keeps | dsimp only)

theorem forgetSerial_keeps {Q : List Instr} (s : State) (serial : Word) (hk : Keeps Q s) : Keeps Q (State.forgetSerial s serial)
  := by
  simp only [State.forgetSerial]
  with_reducible repeat' (first | assumption | intro _ | (simp only [keeps_mk]; apply keeps_fold) | dsimp only)

theorem ladleActivate_keeps {Q : List Instr} (s : State) (h : Heat) (hk : Keeps Q s) : Keeps Q (State.ladleActivate s h) := by
  simp only [State.ladleActivate]
  with_reducible repeat' (first | assumption | intro _ | (simp only [keeps_mk]; apply keeps_fold) | dsimp only)

theorem ladleEnterRun_keeps {Q : List Instr} (s : State) (hk : Keeps Q s) : Keeps Q (State.ladleEnterRun s) := by
  simp only [State.ladleEnterRun]
  with_reducible repeat' (first
    | assumption | intro _ | apply keeps_ite | (simp only [keeps_mk]; apply keeps_fold) | split | dsimp only)

theorem charge_keeps {Q : List Instr} (s : State) (key size : Nat) (hk : Keeps Q s) : Keeps Q (State.charge s key size) := by
  simp only [State.charge]
  with_reducible repeat' (first
    | assumption | intro _ | apply keeps_ite | (simp only [keeps_mk]; apply keeps_fold) | split | dsimp only)

theorem refill_keeps {Q : List Instr} (s : State) (key : Nat) (hk : Keeps Q s) : Keeps Q (State.refill s key) := by
  simp only [State.refill]
  with_reducible repeat' (first
    | assumption | intro _ | apply keeps_ite | (simp only [keeps_mk]; apply keeps_fold) | split | dsimp only)

theorem meterXoff_keeps {Q : List Instr} (s : State) (hk : Keeps Q s) : Keeps Q (State.meterXoff s) := by
  simp only [State.meterXoff]
  with_reducible repeat' (first
    | assumption | intro _ | apply withGlobal_keeps | (simp only [keeps_mk]; apply keeps_fold) | split | dsimp only)

theorem execShaperRefill_keeps {Q : List Instr} (s : State) (hk : Keeps Q s) : ∀ ans, execShaperRefill s = .next ans → Keeps Q
  ans := by
  intro ans e
  injection e with e
  subst e
  with_reducible repeat' (first
    | assumption | apply keeps_ite | apply untilNet_keeps | apply refill_keeps | apply meterXoff_keeps
    | (apply keeps_foldl; intro _ _ _) | (simp only [keeps_mk]; apply keeps_fold) | split | dsimp only)

theorem fill_put_keeps {Q : List Instr} (b : Fill) (size : Nat) (x : Sent) (hk : Keeps Q b.s) : Keeps Q (Fill.put b size x).s :=
  by
  simp only [Fill.put]
  with_reducible repeat' (first
    | assumption | refine keepsFill_fst (by assumption) ?_ | (apply keepsFill_foldl; intro _ _ _)
    | (simp only [keeps_mk]; apply keeps_fold) | dsimp only)

theorem fill_nextSeq_keeps {Q : List Instr} (b : Fill) (hk : Keeps Q b.s) : Keeps Q b.nextSeq.2.s := hk

theorem fill_putOne_keeps {Q : List Instr} (b : Fill) (c : Ctl) (hk : Keeps Q b.s) : Keeps Q (Fill.putOne b c).s := by
  simp only [Fill.putOne]
  with_reducible repeat' (first
    | assumption | apply fill_nextSeq_keeps | apply fill_put_keeps | refine keepsFill_fst (by assumption) ?_
    | (apply keepsFill_foldl; intro _ _ _) | split | dsimp only)

theorem fill_putCtl_keeps {Q : List Instr} : ∀ (cs : List Ctl) (b : Fill), Keeps Q b.s → Keeps Q (b.putCtl cs).1.s
  | [], _, hk => hk
  | c :: cs, b, hk => by
    simp only [Fill.putCtl]
    split
    · exact fill_putCtl_keeps cs _ hk
    · exact hk

theorem fill_control_keeps {Q : List Instr} (b : Fill) (hk : Keeps Q b.s) : Keeps Q (Fill.control b).s := by
  simp only [Fill.control]
  with_reducible repeat' (first
    | assumption | intro _ | apply keeps_ite | apply fill_putCtl_keeps | apply setCtl_keeps
    | refine keepsFill_fst (by assumption) ?_ | (apply keepsFill_foldl; intro _ _ _)
    | (simp only [keeps_mk]; apply keeps_fold) | split | dsimp only)

theorem fill_sendMark_keeps {Q : List Instr} (b : Fill) (src dst cls : Nat) (serial : Word) (hk : Keeps Q b.s) : Keeps Q
  (Fill.sendMark b src dst cls serial).s := by
  simp only [Fill.sendMark]
  with_reducible repeat' (first
    | assumption | intro _ | apply setMarks_keeps | apply lsvCount_keeps | apply fill_nextSeq_keeps | apply fill_put_keeps
    | refine keepsFill_fst (by assumption) ?_ | (apply keepsFill_foldl; intro _ _ _)
    | (simp only [keeps_mk]; apply keeps_fold) | split | dsimp only)

theorem takeMark_keeps {Q : List Instr} (s : State) (src dst cls : Nat) (serial : Word) (hk : Keeps Q s) : Keeps Q
  (State.takeMark s src dst cls serial) := by
  simp only [State.takeMark]
  with_reducible repeat' (first
    | assumption | intro _ | apply dequeue_keeps | (simp only [keeps_mk]; apply keeps_fold) | split | dsimp only)

theorem fill_flush_keeps {Q : List Instr} (b : Fill) (hk : Keeps Q b.s) : Keeps Q (Fill.flush b).s := by
  simp only [Fill.flush]
  with_reducible repeat' (first
    | assumption | intro _ | apply keeps_ite | apply takeMark_keeps | apply fill_sendMark_keeps
    | (apply keeps_foldl; intro _ _ _) | refine keepsFill_fst (by assumption) ?_ | (apply keepsFill_foldl; intro _ _ _)
    | (simp only [keeps_mk]; apply keeps_fold) | split | dsimp only)

theorem fill_sendFrame_keeps {Q : List Instr} (b : Fill) (id : Nat) (f : Frame) (q : Nat) (hk : Keeps Q b.s) : Keeps Q
  (Fill.sendFrame b id f q).s := by
  simp only [Fill.sendFrame]
  with_reducible repeat' (first
    | assumption | apply keeps_ite | apply charge_keeps | apply putFrame_keeps | apply ladCount_keeps | apply copyGone_keeps
    | apply fill_put_keeps | apply fill_flush_keeps | refine keepsFill_fst (by assumption) ?_
    | (apply keepsFill_foldl; intro _ _ _) | (simp only [keeps_mk]; apply keeps_fold) | split | dsimp only)

theorem fill_releaseGo_keeps {Q : List Instr} : ∀ (ids : List Nat) (b : Fill) (blocked kept : List Nat), Keeps Q b.s →
    Keeps Q (b.releaseGo blocked kept ids).1.s
  | [], _, _, _, hk => hk
  | id :: ids, b, blocked, kept, hk => by
    simp only [Fill.releaseGo]
    split
    · exact fill_releaseGo_keeps ids _ _ _ hk
    · split
      · exact fill_releaseGo_keeps ids _ _ _ (fill_sendFrame_keeps _ _ _ _ hk)
      · exact fill_releaseGo_keeps ids _ _ _ hk

theorem setReleased_keeps {Q : List Instr} (s : State) (d : Nat) (l : List Nat) (hk : Keeps Q s) : Keeps Q (State.setReleased s
  d l) := by
  simp only [State.setReleased]
  with_reducible repeat' (first | assumption | intro _ | (simp only [keeps_mk]; apply keeps_fold) | dsimp only)

theorem fill_release_keeps {Q : List Instr} (b : Fill) (hk : Keeps Q b.s) : Keeps Q (Fill.release b).s := by
  simp only [Fill.release]
  with_reducible repeat' (first
    | assumption | apply fill_releaseGo_keeps | apply setReleased_keeps | refine keepsFill_fst (by assumption) ?_
    | (apply keepsFill_foldl; intro _ _ _) | (simp only [keeps_mk]; apply keeps_fold) | split | dsimp only)

theorem advance_keeps {Q : List Instr} (s : State) (flow exp : Nat) (hk : Keeps Q s) : Keeps Q (State.advance s flow exp) := by
  simp only [State.advance]
  with_reducible repeat' (first
    | assumption | intro _ | apply keeps_ite | apply setFlow_keeps | apply setReleased_keeps | apply freeFrame_keeps
    | apply ladCount_keeps | (apply keeps_foldl; intro _ _ _) | (simp only [keeps_mk]; apply keeps_fold) | split
    | dsimp only)

theorem fill_serveMark_keeps {Q : List Instr} (b : Fill) (q src dst cls : Nat) (serial : Word) (hk : Keeps Q b.s) : Keeps Q
  (Fill.serveMark b q src dst cls serial).1.s := by
  simp only [Fill.serveMark]
  with_reducible repeat' (first
    | assumption | intro _ | apply keeps_ite | apply dequeue_keeps | apply fill_sendMark_keeps | apply setMarks_keeps
    | refine keepsFill_fst (by assumption) ?_ | (apply keepsFill_foldl; intro _ _ _)
    | (simp only [keeps_mk]; apply keeps_fold) | split | dsimp only)

theorem fill_serveReseq_keeps {Q : List Instr} (b : Fill) (q id : Nat) (f : Frame) (hk : Keeps Q b.s) : Keeps Q (Fill.serveReseq
  b q id f).1.s := by
  simp only [Fill.serveReseq]
  with_reducible repeat' (first
    | assumption | intro _ | apply keeps_ite | apply dequeue_keeps | apply setReleased_keeps | apply advance_keeps
    | apply fill_sendFrame_keeps | apply fill_release_keeps | apply freeFrame_keeps | apply ladCount_keeps
    | apply fill_flush_keeps | apply setFlow_keeps | refine keepsFill_fst (by assumption) ?_
    | (apply keepsFill_foldl; intro _ _ _) | (simp only [keeps_mk]; apply keeps_fold) | split | dsimp only)

theorem fill_serveHead_keeps {Q : List Instr} (b : Fill) (q : Nat) (deficit : Option Int) (hk : Keeps Q b.s) : Keeps Q
  (Fill.serveHead b q deficit).1.s := by
  simp only [Fill.serveHead]
  with_reducible repeat' (first
    | assumption | intro _ | apply keeps_ite | apply fill_serveMark_keeps | apply dequeue_keeps | apply fill_sendFrame_keeps
    | apply fill_serveReseq_keeps | refine keepsFill_fst (by assumption) ?_ | (apply keepsFill_foldl; intro _ _ _)
    | (simp only [keeps_mk]; apply keeps_fold) | split | dsimp only)

theorem fill_strictQueue_keeps {Q : List Instr} (q : Nat) : ∀ (n : Nat) (b : Fill), Keeps Q b.s →
    Keeps Q (Fill.strictQueue q n b).s
  | 0, _, hk => hk
  | n + 1, b, hk => by
    have h1 := fill_serveHead_keeps b q none hk
    simp only [Fill.strictQueue]
    split
    · exact fill_strictQueue_keeps q n _ (keepsFill_fst (by assumption) h1)
    · exact fill_strictQueue_keeps q n _ (keepsFill_fst (by assumption) h1)
    · exact keepsFill_fst (by assumption) h1

theorem fill_visit_keeps {Q : List Instr} (q : Nat) : ∀ (n : Nat) (any : Bool) (b : Fill), Keeps Q b.s →
    Keeps Q (Fill.visit q n any b).1.s
  | 0, _, _, hk => hk
  | n + 1, any, b, hk => by
    have h1 := fill_serveHead_keeps b q (some (b.s.service.deficit.get (fun _ => (0 : Int)) q)) hk
    simp only [Fill.visit]
    split
    · exact fill_visit_keeps q n _ _ (setDeficit_keeps _ _ _ (keepsFill_fst (by assumption) h1))
    · exact fill_visit_keeps q n _ _ (keepsFill_fst (by assumption) h1)
    · exact lsvCount_keeps _ _ _ (keepsFill_fst (by assumption) h1)
    · exact keepsFill_fst (by assumption) h1

theorem fill_roundRobin_keeps {Q : List Instr} : ∀ (n idle : Nat) (b : Fill), Keeps Q b.s →
    Keeps Q (Fill.roundRobin n idle b).s
  | 0, _, _, hk => hk
  | n + 1, idle, b, hk => by
    simp only [Fill.roundRobin]
    split
    · exact hk
    · rename_i q rest _
      split
      · exact hk
      · apply fill_roundRobin_keeps n
        repeat' (first
          | with_reducible assumption
          | with_reducible apply leaveActive_keeps
          | with_reducible apply passVisit_keeps
          | with_reducible apply setDeficit_keeps
          | with_reducible apply fill_visit_keeps
          | split
          | dsimp only)

theorem fill_fill_keeps {Q : List Instr} (b : Fill) (hk : Keeps Q b.s) : Keeps Q (Fill.fill b).s := by
  simp only [Fill.fill]
  with_reducible repeat' (first
    | assumption | intro _ | apply fill_control_keeps | apply fill_release_keeps | apply fill_flush_keeps
    | apply fill_strictQueue_keeps | apply fill_roundRobin_keeps | (apply keeps_foldl; intro _ _ _)
    | refine keepsFill_fst (by assumption) ?_ | (apply keepsFill_foldl; intro _ _ _) | split | dsimp only)

theorem runTimers_keeps {Q : List Instr} (s : State) (flows : List Nat) (w : Nat) (hk : Keeps Q s) : Keeps Q (State.runTimers s
  flows w) := by
  simp only [State.runTimers]
  with_reducible repeat' (first
    | assumption | intro _ | apply keeps_ite | apply setFlow_keeps | (apply keeps_foldl; intro _ _ _)
    | (simp only [keeps_mk]; apply keeps_fold) | split | dsimp only)

theorem setBurst_keeps {Q : List Instr} (s : State) (p : Nat) (out : List Sent) (hk : Keeps Q s) : Keeps Q (State.setBurst s p
  out) := by
  simp only [State.setBurst]
  with_reducible repeat' (first
    | assumption | apply fill_put_keeps | refine keepsFill_fst (by assumption) ?_ | (apply keepsFill_foldl; intro _ _ _)
    | (simp only [keeps_mk]; apply keeps_fold) | split | dsimp only)

theorem burstSend_keeps {Q : List Instr} (s : State) (p d : Nat) (hk : Keeps Q s) : Keeps Q (State.burstSend s p d) := by
  simp only [State.burstSend]
  with_reducible repeat' (first
    | assumption | intro _ | apply keeps_ite | apply closeArrived_keeps | apply setBurst_keeps | apply fill_fill_keeps
    | apply runTimers_keeps | apply balance_keeps | refine keepsFill_fst (by assumption) ?_
    | (apply keepsFill_foldl; intro _ _ _) | split | dsimp only)

theorem execLadleBurstSend_keeps {Q : List Instr} (port : Fin 68) (output : Fin 592) (s : State) (hk : Keeps Q s) : ∀ ans,
  execLadleBurstSend port output s = .next ans → Keeps Q ans := by
  intro ans e
  injection e with e
  subst e
  with_reducible repeat' (first | assumption | apply burstSend_keeps | dsimp only)

theorem reseqSkip_keeps {Q : List Instr} (s : State) (f : Nat) (hk : Keeps Q s) : Keeps Q (State.reseqSkip s f) := by
  simp only [State.reseqSkip]
  with_reducible repeat' (first
    | assumption | intro _ | apply keeps_ite | apply setFlow_keeps | apply advance_keeps | apply ladCount_keeps
    | apply ladleEvent_keeps | (apply keeps_foldl; intro _ _ _) | (simp only [keeps_mk]; apply keeps_fold) | split
    | dsimp only)

theorem execReseqSkip_keeps {Q : List Instr} (flow : Fin 2097152) (s : State) (hk : Keeps Q s) : ∀ ans, execReseqSkip flow s =
  .next ans → Keeps Q ans := by
  intro ans e
  injection e with e
  subst e
  with_reducible repeat' (first | assumption | apply reseqSkip_keeps | dsimp only)

theorem countFlow_keeps {Q : List Instr} (s : State) (flow len : Nat) (mcast : Bool) (hk : Keeps Q s) : Keeps Q (State.countFlow
  s flow len mcast) := by
  simp only [State.countFlow]
  with_reducible repeat' (first
    | assumption | apply keeps_ite | apply setFlow_keeps | (simp only [keeps_mk]; apply keeps_fold) | split | dsimp only)

theorem learnFlow_keeps {Q : List Instr} (s : State) (f : DataFrame) (hk : Keeps Q s) : Keeps Q (State.learnFlow s f).1 := by
  simp only [State.learnFlow]
  with_reducible repeat' (first
    | assumption | apply keeps_ite | apply setFlow_keeps | apply ladCount_keeps | (simp only [keeps_mk]; apply keeps_fold)
    | split | dsimp only)

theorem storeFrame_keeps {Q : List Instr} (s : State) (q p' : Nat) (f : DataFrame) (setsExp against : Bool) (hk : Keeps Q s) :
  Keeps Q (State.storeFrame s q p' f setsExp against) := by
  simp only [State.storeFrame]
  with_reducible repeat' (first
    | assumption | intro _ | apply keeps_ite | apply ladCount_keeps | apply ladleEvent_keeps | apply nextFrame_keeps
    | apply putFrame_keeps | apply enqueue_keeps | apply balance_keeps | apply meterXoff_keeps
    | (simp only [keeps_mk]; apply keeps_fold) | split | dsimp only)

theorem cutInto_keeps {Q : List Instr} (s : State) (q d : Nat) (hk : Keeps Q s) : Keeps Q (State.cutInto s q d) := by
  simp only [State.cutInto]
  with_reducible repeat' (first
    | assumption | intro _ | apply keeps_ite | apply fill_serveHead_keeps | apply leaveActive_keeps | apply setBurst_keeps
    | apply balance_keeps | (apply keeps_foldl; intro _ _ _) | refine keepsFill_fst (by assumption) ?_
    | (apply keepsFill_foldl; intro _ _ _) | (simp only [keeps_mk]; apply keeps_fold) | split | dsimp only)

theorem ingressUnicast_keeps {Q : List Instr} (s : State) (p : Nat) (f : DataFrame) (hk : Keeps Q s) : Keeps Q
  (State.ingressUnicast s p f) := by
  simp only [State.ingressUnicast]
  with_reducible repeat' (first
    | assumption | apply keeps_ite | apply learnFlow_keeps | apply countFlow_keeps | apply lsvCount_keeps
    | apply storeFrame_keeps | apply cutInto_keeps | refine keeps_fst (by assumption) ?_
    | (simp only [keeps_mk]; apply keeps_fold) | split | dsimp only)

theorem ingressMulticast_keeps {Q : List Instr} (s : State) (p : Nat) (f : DataFrame) (hk : Keeps Q s) : Keeps Q
  (State.ingressMulticast s p f) := by
  simp only [State.ingressMulticast]
  with_reducible repeat' (first
    | assumption | apply keeps_ite | apply ladCount_keeps | apply countFlow_keeps | apply storeFrame_keeps | split
    | dsimp only)

theorem ingress_keeps {Q : List Instr} (s : State) (p : Nat) (f : DataFrame) (hk : Keeps Q s) : Keeps Q (State.ingress s p f) :=
  by
  simp only [State.ingress]
  with_reducible repeat' (first
    | assumption | apply keeps_ite | apply closeArrived_keeps | apply ingressMulticast_keeps | apply ingressUnicast_keeps
    | apply ladCount_keeps | split | dsimp only)

theorem execDataFrameIngress_keeps {Q : List Instr} (port : Fin 68) (f : DataFrame) (s : State) (hk : Keeps Q s) : ∀ ans,
  execDataFrameIngress port f s = .next ans → Keeps Q ans := by
  intro ans e
  injection e with e
  subst e
  with_reducible repeat' (first | assumption | apply ingress_keeps | dsimp only)

theorem replicate_keeps {Q : List Instr} (s : State) (q : Nat) (hk : Keeps Q s) : Keeps Q (State.replicate s q) := by
  simp only [State.replicate]
  with_reducible repeat' (first
    | assumption | intro _ | apply keeps_ite | apply dequeue_keeps | apply discardFrame_keeps | apply ladCount_keeps
    | apply balance_keeps | apply putFrame_keeps | apply freeFrame_keeps | apply makeCopy_keeps | apply cutInto_keeps
    | (apply keeps_foldl; intro _ _ _) | (simp only [keeps_mk]; apply keeps_fold) | split | dsimp only)

theorem execMcReplicate_keeps {Q : List Instr} (q : Fin 1024) (s : State) (hk : Keeps Q s) : ∀ ans, execMcReplicate q s = .next
  ans → Keeps Q ans := by
  intro ans e
  injection e with e
  subst e
  with_reducible repeat' (first | assumption | apply closeArrived_keeps | apply replicate_keeps | dsimp only)

theorem execMcHoldAdmit_keeps {Q : List Instr} (group : Fin 16384) (dst : Fin 512) (s : State) (hk : Keeps Q s) : ∀ ans,
  execMcHoldAdmit group dst s = .next ans → Keeps Q ans := by
  intro ans e
  injection e with e
  subst e
  with_reducible repeat' (first
    | assumption | apply keeps_ite | apply enqueue_keeps | apply cutInto_keeps | (simp only [keeps_mk]; apply keeps_fold)
    | split | dsimp only)

theorem stomp_keeps {Q : List Instr} (s : State) (id : Nat) (hk : Keeps Q s) : Keeps Q (State.stomp s id) := by
  simp only [State.stomp]
  with_reducible repeat' (first
    | assumption | apply keeps_ite | apply complement_keeps | apply discardFrame_keeps | apply ladCount_keeps
    | apply balance_keeps | (simp only [keeps_mk]; apply keeps_fold) | split | dsimp only)

theorem execCutThroughStomp_keeps {Q : List Instr} (frame : Nat) (s : State) (hk : Keeps Q s) : ∀ ans, execCutThroughStomp frame
  s = .next ans → Keeps Q ans := by
  intro ans e
  injection e with e
  subst e
  with_reducible repeat' (first | assumption | apply stomp_keeps | dsimp only)

theorem rxFrames_keeps {Q : List Instr} (p tag src : Nat) (ladle : Bool) : ∀ (xs : List RxFrame) (s : State), Keeps Q s →
    Keeps Q (s.rxFrames p tag src ladle xs)
  | [], _, hk => hk
  | x :: xs, s, hk => by
    simp only [State.rxFrames]
    repeat' (first
      | with_reducible assumption
      | with_reducible apply rxFrames_keeps p tag src ladle xs
      | with_reducible apply ladCount_keeps
      | with_reducible apply count_keeps
      | split)

theorem measureOffset_keeps {Q : List Instr} (s : State) (src : Nat) (ofs : Int) (hk : Keeps Q s) : Keeps Q (State.measureOffset
  s src ofs) := by
  simp only [State.measureOffset]
  with_reducible repeat' (first
    | assumption | intro _ | apply keeps_ite | apply fill_put_keeps | refine keepsFill_fst (by assumption) ?_
    | (apply keepsFill_foldl; intro _ _ _) | (simp only [keeps_mk]; apply keeps_fold) | split | dsimp only)

theorem burstReceive_keeps {Q : List Instr} (s : State) (p src : Nat) (offset : Int) (lanes : List RxLane) (hk : Keeps Q s) :
  Keeps Q (State.burstReceive s p src offset lanes) := by
  simp only [State.burstReceive]
  with_reducible repeat' (first
    | assumption | apply keeps_ite | apply measureOffset_keeps | apply count_keeps | apply ladCount_keeps
    | apply rxFrames_keeps | (simp only [keeps_mk]; apply keeps_fold) | split | dsimp only)

theorem execLadleBurstReceive_keeps {Q : List Instr} (port : Fin 68) (src : Fin 512) (offset : Int) (lanes : List RxLane) (s :
  State) (hk : Keeps Q s) : ∀ ans, execLadleBurstReceive port src offset lanes s = .next ans → Keeps Q ans := by
  intro ans e
  injection e with e
  subst e
  with_reducible repeat' (first | assumption | apply burstReceive_keeps | dsimp only)

theorem linkEvent_keeps {Q : List Instr} (s : State) (cls code port : Nat) (hk : Keeps Q s) : Keeps Q (State.linkEvent s cls
  code port) := by
  simp only [State.linkEvent]
  with_reducible repeat' (first | assumption | apply raise_keeps | dsimp only)

theorem notifyOne_keeps {Q : List Instr} (s : State) (h : Heat) (rs : List (BitVec 64)) (cancelled : Bool) (d : Nat) (hk : Keeps
  Q s) : Keeps Q (State.notifyOne s h rs cancelled d) := by
  simp only [State.notifyOne]
  with_reducible repeat' (first | assumption | apply setCtl_keeps | dsimp only)

theorem notifyAll_keeps {Q : List Instr} (s : State) (h : Heat) (rs : List (BitVec 64)) (cancelled : Bool) (hk : Keeps Q s) :
  Keeps Q (State.notifyAll s h rs cancelled) := by
  simp only [State.notifyAll]
  with_reducible repeat' (first | assumption | intro _ | apply notifyOne_keeps | (apply keeps_foldl; intro _ _ _) | dsimp only)

theorem helloFrom_keeps {Q : List Instr} (s : State) (port claimed : Nat) (need : Bool) (minGuard : Nat) (hk : Keeps Q s) :
  Keeps Q (State.helloFrom s port claimed need minGuard) := by
  simp only [State.helloFrom]
  with_reducible repeat' (first
    | assumption | apply keeps_ite | apply notifyOne_keeps | apply linkEvent_keeps | apply queueCtl_keeps
    | (simp only [keeps_mk]; apply keeps_fold) | split | dsimp only)

theorem execHello_keeps {Q : List Instr} (port : Fin 512) (claimed : BitVec 16) (needNotice : Bool) (minGuard : BitVec 16) (s :
  State) (hk : Keeps Q s) : ∀ ans, execHello port claimed needNotice minGuard s = .next ans → Keeps Q ans := by
  intro ans e
  injection e with e
  subst e
  with_reducible repeat' (first | assumption | apply keeps_ite | apply helloFrom_keeps | split | dsimp only)

theorem execDemand_keeps {Q : List Instr} (port : Fin 512) (entries : List (Fin 512 × BitVec 22)) (s : State) (hk : Keeps Q s) :
  ∀ ans, execDemand port entries s = .next ans → Keeps Q ans := by
  intro ans e
  injection e with e
  subst e
  with_reducible repeat' (first
    | assumption | intro _ | apply keeps_ite | (apply keeps_foldl; intro _ _ _) | (simp only [keeps_mk]; apply keeps_fold)
    | split | dsimp only)

theorem execErrorNote_keeps {Q : List Instr} (port : Fin 512) (code : Byte) (s : State) (hk : Keeps Q s) : ∀ ans, execErrorNote
  port code s = .next ans → Keeps Q ans := by
  intro ans e
  injection e with e
  subst e
  with_reducible repeat' (first | assumption | apply keeps_ite | apply linkEvent_keeps | split | dsimp only)

theorem execHelloSend_keeps {Q : List Instr} (s : State) (hk : Keeps Q s) : ∀ ans, execHelloSend s = .next ans → Keeps Q ans :=
  by
  intro ans e
  injection e with e
  subst e
  with_reducible repeat' (first
    | assumption | intro _ | apply keeps_ite | apply queueCtl_keeps | (apply keeps_foldl; intro _ _ _) | split | dsimp only)

theorem timeCheck_keeps {Q : List Instr} (s : State) (port : Nat) (hk : Keeps Q s) : Keeps Q (State.timeCheck s port) := by
  simp only [State.timeCheck]
  with_reducible repeat' (first
    | assumption | intro _ | apply keeps_ite | apply freeNat_keeps | apply queueCtl_keeps | apply linkEvent_keeps
    | refine keeps_snd (by assumption) ?_ | (simp only [keeps_mk]; apply keeps_fold) | split | dsimp only)

theorem execTimeCheckSend_keeps {Q : List Instr} (port : Fin 512) (s : State) (hk : Keeps Q s) : ∀ ans, execTimeCheckSend port s
  = .next ans → Keeps Q ans := by
  intro ans e
  injection e with e
  subst e
  with_reducible repeat' (first | assumption | apply keeps_ite | apply timeCheck_keeps | split | dsimp only)

theorem uncharge_keeps {Q : List Instr} (s : State) (key size : Nat) (hk : Keeps Q s) : Keeps Q (State.uncharge s key size) :=
  by
  simp only [State.uncharge]
  with_reducible repeat' (first
    | assumption | intro _ | apply keeps_ite | (simp only [keeps_mk]; apply keeps_fold) | split | dsimp only)

theorem takeBack_keeps {Q : List Instr} (s : State) (d id : Nat) (f : Frame) (hk : Keeps Q s) : Keeps Q (State.takeBack s d id
  f) := by
  simp only [State.takeBack]
  with_reducible repeat' (first
    | assumption | apply keeps_ite | apply putFrame_keeps | apply uncharge_keeps | apply setReleased_keeps
    | (simp only [keeps_mk]; apply keeps_fold) | split | dsimp only)

theorem uncountSeq_keeps {Q : List Instr} (s : State) (d : Nat) (h : BitVec 128) (hk : Keeps Q s) : Keeps Q (State.uncountSeq s
  d h) := by
  simp only [State.uncountSeq]
  with_reducible repeat' (first | assumption | intro _ | (simp only [keeps_mk]; apply keeps_fold) | dsimp only)

theorem unsend_keeps {Q : List Instr} (s : State) (x : Sent) (hk : Keeps Q s) : Keeps Q (State.unsend s x) := by
  simp only [State.unsend]
  with_reducible repeat' (first
    | assumption | intro _ | apply keeps_ite | apply takeBack_keeps | apply setCtl_keeps | apply uncountSeq_keeps
    | apply setMarks_keeps | apply setFld_keeps | (apply keeps_foldl; intro _ _ _)
    | (simp only [keeps_mk]; apply keeps_fold) | split | dsimp only)

theorem cutBurst_keeps {Q : List Instr} (s : State) (p : Nat) (hk : Keeps Q s) : Keeps Q (State.cutBurst s p) := by
  simp only [State.cutBurst]
  with_reducible repeat' (first
    | assumption | intro _ | apply keeps_ite | apply setBurst_keeps | apply unsend_keeps | (apply keeps_foldl; intro _ _ _)
    | (simp only [keeps_mk]; apply keeps_fold) | split | dsimp only)

theorem cutIngress_keeps {Q : List Instr} (s : State) (p : Nat) (hk : Keeps Q s) : Keeps Q (State.cutIngress s p) := by
  simp only [State.cutIngress]
  with_reducible repeat' (first
    | assumption | intro _ | apply closeArrived_keeps | apply stomp_keeps | apply ladCount_keeps
    | (apply keeps_foldl; intro _ _ _) | dsimp only)

theorem failPort_keeps {Q : List Instr} (s : State) (p : Nat) (hk : Keeps Q s) : Keeps Q (State.failPort s p) := by
  simp only [State.failPort]
  with_reducible repeat' (first
    | assumption | apply keeps_ite | apply cutIngress_keeps | apply cutBurst_keeps | apply setFld_keeps | apply park_keeps
    | apply ladleEvent_keeps | split | dsimp only)

theorem portFail_keeps {Q : List Instr} (s : State) (supply : Bool) (i : Nat) (hk : Keeps Q s) : Keeps Q (State.portFail s
  supply i) := by
  simp only [State.portFail]
  with_reducible repeat' (first
    | assumption | apply keeps_ite | apply failPort_keeps | apply autoSwap_keeps | (apply keeps_foldl; intro _ _ _)
    | (simp only [keeps_mk]; apply keeps_fold) | split | dsimp only)

theorem portPark_keeps {Q : List Instr} (s : State) (p : Nat) (hk : Keeps Q s) : Keeps Q (State.portPark s p) := by
  simp only [State.portPark]
  with_reducible repeat' (first
    | assumption | apply keeps_ite | apply park_keeps | (simp only [keeps_mk]; apply keeps_fold) | split | dsimp only)

theorem execPortPark_keeps {Q : List Instr} (port : Fin 68) (s : State) (hk : Keeps Q s) : ∀ ans, execPortPark port s = .next
  ans → Keeps Q ans := by
  intro ans e
  injection e with e
  subst e
  with_reducible repeat' (first | assumption | apply portPark_keeps | dsimp only)

theorem portUnpark_keeps {Q : List Instr} (s : State) (p : Nat) (ready : Bool) (hk : Keeps Q s) : Keeps Q (State.portUnpark s p
  ready) := by
  simp only [State.portUnpark]
  with_reducible repeat' (first
    | assumption | apply keeps_ite | apply setFld_keeps | apply untilNet_keeps | apply raise_keeps
    | (simp only [keeps_mk]; apply keeps_fold) | split | dsimp only)

theorem execPortUnpark_keeps {Q : List Instr} (port : Fin 68) (ready : Bool) (s : State) (hk : Keeps Q s) : ∀ ans,
  execPortUnpark port ready s = .next ans → Keeps Q ans := by
  intro ans e
  injection e with e
  subst e
  with_reducible repeat' (first | assumption | apply portUnpark_keeps | dsimp only)

end Sys2Proof.Machine
end

