-- ==== Sys2Proof/Laws/KeepsStates.lean ====
section
/-!
SUPPORT. The queue and the register file kept by faults, heats, start-up and the device states: one lemma for each operation,
proved over those of the operations it is made of.
-/
namespace Sys2Proof.Machine

set_option linter.all false

/-! ## Machine/Faults.lean -/

theorem errSettle_keeps {Q : List Instr} (s : State) (hk : Keeps Q s) : Keeps Q (State.errSettle s) := by
  simp only [State.errSettle]
  with_reducible repeat' (first | assumption | apply keeps_ite | (simp only [keeps_mk]; apply keeps_fold) | split | dsimp only)

theorem execErrPulseEnd_keeps {Q : List Instr} (s : State) (hk : Keeps Q s) : ∀ ans, execErrPulseEnd s = .next ans → Keeps Q ans
  := by
  intro ans e
  injection e with e
  subst e
  with_reducible repeat' (first
    | assumption | apply untilNow_keeps | apply errSettle_keeps | (simp only [keeps_mk]; apply keeps_fold) | split
    | dsimp only)

theorem clearStat_keeps {Q : List Instr} (s : State) (n k : Nat) (hk : Keeps Q s) : Keeps Q (State.clearStat s n k) := by
  simp only [State.clearStat]
  with_reducible repeat' (first | assumption | apply setFld_keeps | (simp only [keeps_mk]; apply keeps_fold) | dsimp only)

theorem clearStatus_keeps {Q : List Instr} (s : State) (n : Nat) (bits : BitVec 4) (hk : Keeps Q s) : Keeps Q (State.clearStatus
  s n bits) := by
  simp only [State.clearStatus]
  with_reducible repeat' (first
    | assumption | intro _ | apply clearStat_keeps | apply raise_keeps | apply errSettle_keeps
    | (apply keeps_foldl; intro _ _ _) | dsimp only)

theorem thermalKeeps_keeps {Q : List Instr} (s : State) (hk : Keeps Q s) : Keeps Q (State.thermalKeeps s) := by
  simp only [State.thermalKeeps]
  with_reducible repeat' (first
    | assumption | intro _ | apply keeps_ite | (simp only [keeps_mk]; apply keeps_fold) | split | dsimp only)

theorem execFaultStatusClear_keeps {Q : List Instr} (m : Master) (n : Fin 96) (bits : BitVec 4) (s : State) (hk : Keeps Q s) : ∀
  ans, execFaultStatusClear m n bits s = .next ans → Keeps Q ans := by
  intro ans e
  injection e with e
  subst e
  with_reducible repeat' (first
    | assumption | intro _ | apply atReg_keeps | apply clearStatus_keeps | apply thermalKeeps_keeps | apply markDirty_keeps
    | dsimp only)

theorem execRailFault_keeps {Q : List Instr} (rail : Fin 6) (s : State) (hk : Keeps Q s) : ∀ ans, execRailFault rail s = .next
  ans → Keeps Q ans := by
  intro ans e
  injection e with e
  subst e
  with_reducible repeat' (first
    | assumption | apply raiseStanding_keeps | (simp only [keeps_mk]; apply keeps_fold) | dsimp only)

theorem stand_keeps {Q : List Instr} (s : State) (holds : Bool) (src cls : Nat) (data : Word) (hk : Keeps Q s) : Keeps Q
  (State.stand s holds src cls data) := by
  simp only [State.stand]
  with_reducible repeat' (first
    | assumption | intro _ | apply keeps_ite | apply raiseStanding_keeps | apply endStanding_keeps
    | (simp only [keeps_mk]; apply keeps_fold) | split | dsimp only)

theorem thermChannel_keeps {Q : List Instr} (s : State) (ch : Nat) (r : Option Int) (hk : Keeps Q s) : Keeps Q
  (State.thermChannel s ch r) := by
  simp only [State.thermChannel]
  with_reducible repeat' (first
    | assumption | apply setFld_keeps | apply stand_keeps | (simp only [keeps_mk]; apply keeps_fold) | split | dsimp only)

theorem throttle_keeps {Q : List Instr} (s : State) (hk : Keeps Q s) : Keeps Q (State.throttle s) := by
  simp only [State.throttle]
  with_reducible repeat' (first
    | assumption | apply keeps_ite | apply setFld_keeps | apply raise_keeps | apply meterXoff_keeps
    | (simp only [keeps_mk]; apply keeps_fold) | split | dsimp only)

theorem shutdown_keeps {Q : List Instr} (s : State) (ch : Nat) (t : Int) (hk : Keeps Q s) : Keeps Q (State.shutdown s ch t) :=
  by
  simp only [State.shutdown]
  with_reducible repeat' (first
    | assumption | apply setFld_keeps | apply latch_keeps | apply raiseStanding_keeps | apply thermalKeeps_keeps
    | (simp only [keeps_mk]; apply keeps_fold) | dsimp only)

theorem shutCheck_keeps {Q : List Instr} (s : State) (hk : Keeps Q s) : Keeps Q (State.shutCheck s) := by
  simp only [State.shutCheck]
  with_reducible repeat' (first
    | assumption | intro _ | apply keeps_ite | apply shutdown_keeps | apply endStanding_keeps
    | (simp only [keeps_mk]; apply keeps_fold) | split | dsimp only)

theorem thermal_keeps {Q : List Instr} (s : State) (readings : List (Option Int)) (hk : Keeps Q s) : Keeps Q (State.thermal s
  readings) := by
  simp only [State.thermal]
  with_reducible repeat' (first
    | assumption | intro _ | apply untilNow_keeps | apply thermChannel_keeps | apply setFld_keeps | apply throttle_keeps
    | apply shutCheck_keeps | apply deltaTrigger_keeps | (apply keeps_foldl; intro _ _ _)
    | (simp only [keeps_mk]; apply keeps_fold) | split | dsimp only)

theorem execThermalConversion_keeps {Q : List Instr} (readings : List (Option Int)) (s : State) (hk : Keeps Q s) : ∀ ans,
  execThermalConversion readings s = .next ans → Keeps Q ans := by
  intro ans e
  injection e with e
  subst e
  with_reducible repeat' (first | assumption | apply thermal_keeps | dsimp only)

/-! ## Machine/Heats.lean -/

theorem heatNote_keeps {Q : List Instr} (s : State) (kind rest : Nat) (hk : Keeps Q s) : Keeps Q (State.heatNote s kind rest) :=
  by
  simp only [State.heatNote]
  with_reducible repeat' (first | assumption | apply raise_keeps | dsimp only)

theorem putRecord_keeps {Q : List Instr} (s : State) (i : Nat) (v : BitVec 64) (hk : Keeps Q s) : Keeps Q (State.putRecord s i
  v) := by
  simp only [State.putRecord]
  with_reducible repeat' (first | assumption | intro _ | (simp only [keeps_mk]; apply keeps_fold) | dsimp only)

theorem bankWrite_keeps {Q : List Instr} (s : State) (m : Master) (a : Access) (i : Nat) (v : BitVec 64) (hk : Keeps Q s) :
  Keeps Q (State.bankWrite s m a i v) := by
  simp only [State.bankWrite]
  with_reducible repeat' (first
    | assumption | apply keeps_ite | apply putRecord_keeps | apply refuse_keeps | split | dsimp only)

theorem execHeatBankWrite_keeps {Q : List Instr} (m : Master) (rec : Fin 4096) (v : BitVec 64) (s : State) (hk : Keeps Q s) : ∀
  ans, execHeatBankWrite m rec v s = .next ans → Keeps Q ans := by
  intro ans e
  injection e with e
  subst e
  with_reducible repeat' (first
    | assumption | apply keeps_ite | apply hostWaits_keeps | apply refuse_keeps | apply bankWrite_keeps | split | dsimp only)

theorem nextState_keeps {Q : List Instr} (s : State) (st : Nat) (hk : Keeps Q s) : Keeps Q (State.nextState s st) := by
  simp only [State.nextState]
  with_reducible repeat' (first | assumption | apply setReg_keeps | apply setFld_keeps | dsimp only)

theorem commitReturns_keeps {Q : List Instr} (s : State) (ok : Bool) (hk : Keeps Q s) : Keeps Q (State.commitReturns s ok) := by
  simp only [State.commitReturns]
  with_reducible repeat' (first
    | assumption | intro _ | apply keeps_ite | (simp only [keeps_mk]; apply keeps_fold) | split | dsimp only)

theorem heatReject_keeps {Q : List Instr} (s : State) (reason index : Nat) (out : Bool) (hk : Keeps Q s) : Keeps Q
  (State.heatReject s reason index out) := by
  simp only [State.heatReject]
  with_reducible repeat' (first
    | assumption | apply nextState_keeps | apply setFld_keeps | apply commitReturns_keeps | apply heatNote_keeps
    | dsimp only)

theorem heatArm_keeps {Q : List Instr} (s : State) (c : Commit) (rs : List (BitVec 64)) (a n : Nat) (hk : Keeps Q s) : Keeps Q
  (State.heatArm s c rs a n) := by
  simp only [State.heatArm]
  with_reducible repeat' (first
    | assumption | apply keeps_ite | apply nextState_keeps | apply setReg_keeps | apply latchTime_keeps
    | apply heatNote_keeps | apply notifyAll_keeps | apply commitReturns_keeps | (simp only [keeps_mk]; apply keeps_fold)
    | split | dsimp only)

theorem heatValidated_keeps {Q : List Instr} (s : State) (hk : Keeps Q s) : Keeps Q (State.heatValidated s) := by
  simp only [State.heatValidated]
  with_reducible repeat' (first
    | assumption | apply heatReject_keeps | apply heatArm_keeps | (simp only [keeps_mk]; apply keeps_fold) | split
    | dsimp only)

theorem execHeatValidated_keeps {Q : List Instr} (s : State) (hk : Keeps Q s) : ∀ ans, execHeatValidated s = .next ans → Keeps Q
  ans := by
  intro ans e
  injection e with e
  subst e
  with_reducible repeat' (first | assumption | apply heatValidated_keeps | dsimp only)

theorem cancelArmed_keeps {Q : List Instr} (s : State) (cause : Nat) (hk : Keeps Q s) : Keeps Q (State.cancelArmed s cause) :=
  by
  simp only [State.cancelArmed]
  with_reducible repeat' (first
    | assumption | apply nextState_keeps | apply forgetSerial_keeps | apply notifyAll_keeps | apply heatNote_keeps
    | (simp only [keeps_mk]; apply keeps_fold) | split | dsimp only)

theorem cancelBy_keeps {Q : List Instr} (s : State) (m : Master) (hk : Keeps Q s) : Keeps Q (State.cancelBy s m) := by
  simp only [State.cancelBy]
  with_reducible repeat' (first
    | assumption | apply keeps_ite | apply refuseReg_keeps | apply cancelArmed_keeps | split | dsimp only)

theorem execHeatCancel_keeps {Q : List Instr} (m : Master) (s : State) (hk : Keeps Q s) : ∀ ans, execHeatCancel m s = .next ans
  → Keeps Q ans := by
  intro ans e
  injection e with e
  subst e
  with_reducible repeat' (first | assumption | intro _ | apply atReg_keeps | apply cancelBy_keeps | dsimp only)

theorem takeSwaps_keeps {Q : List Instr} (s : State) (sps : List Nat) (hk : Keeps Q s) : Keeps Q (State.takeSwaps s sps) := by
  simp only [State.takeSwaps]
  with_reducible repeat' (first | assumption | apply swapTakes_keeps | (apply keeps_foldl; intro _ _ _) | dsimp only)

theorem activate_keeps {Q : List Instr} (s : State) (h : Heat) (hk : Keeps Q s) : Keeps Q (State.activate s h) := by
  simp only [State.activate]
  with_reducible repeat' (first
    | assumption | apply nextState_keeps | apply setReg_keeps | apply ladleActivate_keeps | apply takeSwaps_keeps
    | apply heatNote_keeps | (simp only [keeps_mk]; apply keeps_fold) | dsimp only)

theorem execHeatActivate_keeps {Q : List Instr} (s : State) (hk : Keeps Q s) : ∀ ans, execHeatActivate s = .next ans → Keeps Q
  ans := by
  intro ans e
  injection e with e
  subst e
  with_reducible repeat' (first
    | assumption | apply untilNet_keeps | apply activate_keeps | (simp only [keeps_mk]; apply keeps_fold) | split
    | dsimp only)

theorem planBase_keeps {Q : List Instr} (s : State) (q : Nat) (hk : Keeps Q s) : Keeps Q (State.planBase s q) := by
  simp only [State.planBase]
  with_reducible repeat' (first
    | assumption | intro _ | apply keeps_ite | apply setReg_keeps | apply heatNote_keeps | (apply keeps_foldl; intro _ _ _)
    | (simp only [keeps_mk]; apply keeps_fold) | split | dsimp only)

theorem startBase_keeps {Q : List Instr} (s : State) (h : Heat) (hk : Keeps Q s) : Keeps Q (State.startBase s h) := by
  simp only [State.startBase]
  with_reducible repeat' (first
    | assumption | intro _ | apply withNotes_keeps | apply setFld_keeps | apply setReg_keeps | apply ladleEnterRun_keeps
    | apply takeSwaps_keeps | apply heatNote_keeps | (simp only [keeps_mk]; apply keeps_fold) | dsimp only)

theorem execBaseHeatStart_keeps {Q : List Instr} (s : State) (hk : Keeps Q s) : ∀ ans, execBaseHeatStart s = .next ans → Keeps Q
  ans := by
  intro ans e
  injection e with e
  subst e
  with_reducible repeat' (first
    | assumption | apply keeps_ite | apply untilNet_keeps | apply startBase_keeps | (simp only [keeps_mk]; apply keeps_fold)
    | split | dsimp only)

theorem activateDue_keeps {Q : List Instr} (s : State) (t : Nat) (hk : Keeps Q s) : Keeps Q (State.activateDue s t) := by
  simp only [State.activateDue]
  with_reducible repeat' (first
    | assumption | apply keeps_ite | apply startBase_keeps | apply activate_keeps | (simp only [keeps_mk]; apply keeps_fold)
    | split | dsimp only)

theorem heatGo_keeps {Q : List Instr} (s0 : State) (host : Bool) (hk : Keeps Q s0) : Keeps Q (State.heatGo s0 host) := by
  simp only [State.heatGo]
  with_reducible repeat' (first
    | assumption | intro _ | apply keeps_ite | apply activateDue_keeps | apply heatNote_keeps
    | apply abandonDecomposition_keeps | apply setReg_keeps | apply setFld_keeps | (simp only [keeps_mk]; apply keeps_fold)
    | split | dsimp only)

theorem commitBy_keeps {Q : List Instr} (s : State) (m : Master) (hk : Keeps Q s) : Keeps Q (State.commitBy s m) := by
  simp only [State.commitBy]
  with_reducible repeat' (first
    | assumption | apply keeps_ite | apply heatGo_keeps | apply refuseReg_keeps | split | dsimp only)

theorem execHeatCommit_keeps {Q : List Instr} (m : Master) (s : State) (hk : Keeps Q s) : ∀ ans, execHeatCommit m s = .next ans
  → Keeps Q ans := by
  intro ans e
  injection e with e
  subst e
  with_reducible repeat' (first | assumption | intro _ | apply atReg_keeps | apply commitBy_keeps | dsimp only)

theorem freezeDemand_keeps {Q : List Instr} (s : State) (t : Nat) (whole : Bool) (hk : Keeps Q s) : Keeps Q (State.freezeDemand
  s t whole) := by
  simp only [State.freezeDemand]
  with_reducible repeat' (first
    | assumption | intro _ | apply keeps_ite | (apply keeps_foldl; intro _ _ _) | (simp only [keeps_mk]; apply keeps_fold)
    | split | dsimp only)

theorem policyRuns_keeps {Q : List Instr} (s : State) (hk : Keeps Q s) : Keeps Q (State.policyRuns s) := by
  simp only [State.policyRuns]
  with_reducible repeat' (first | assumption | intro _ | (simp only [keeps_mk]; apply keeps_fold) | dsimp only)

theorem matchDone_keeps {Q : List Instr} (s : State) (id desc : Nat) (hk : Keeps Q s) : Keeps Q (State.matchDone s id desc) :=
  by
  simp only [State.matchDone]
  with_reducible repeat' (first
    | assumption | intro _ | apply keeps_ite | apply storeWord_keeps | apply accelDone_keeps | apply freeNat_keeps
    | (apply keeps_foldl; intro _ _ _) | refine keeps_snd (by assumption) ?_ | (simp only [keeps_mk]; apply keeps_fold)
    | split | dsimp only)

/-! ## Machine/Policy.lean -/

theorem askMatch_keeps {Q : List Instr} (s : State) (d : Decomp) (hk : Keeps Q s) : Keeps Q (State.askMatch s d) := by
  simp only [State.askMatch]
  with_reducible repeat' (first | assumption | (simp only [keeps_mk]; apply keeps_fold) | split | dsimp only)

theorem decompose_keeps {Q : List Instr} (s : State) (hk : Keeps Q s) : Keeps Q (State.decompose s) := by
  simp only [State.decompose]
  with_reducible repeat' (first | assumption | apply keeps_ite | apply askMatch_keeps | split | dsimp only)

theorem epoch_keeps {Q : List Instr} (s : State) (hk : Keeps Q s) : Keeps Q (State.epoch s) := by
  simp only [State.epoch]
  with_reducible repeat' (first
    | assumption | intro _ | apply keeps_ite | apply untilNet_keeps | apply abandonDecomposition_keeps
    | apply freezeDemand_keeps | apply policyRuns_keeps | apply pend_keeps | apply decompose_keeps
    | (apply keeps_foldl; intro _ _ _) | split | dsimp only)

theorem execEpochBoundary_keeps {Q : List Instr} (s : State) (hk : Keeps Q s) : ∀ ans, execEpochBoundary s = .next ans → Keeps Q
  ans := by
  intro ans e
  injection e with e
  subst e
  with_reducible repeat' (first | assumption | apply epoch_keeps | dsimp only)

theorem policyMatched_keeps {Q : List Instr} (s : State) (hk : Keeps Q s) : Keeps Q (State.policyMatched s) := by
  simp only [State.policyMatched]
  with_reducible repeat' (first
    | assumption | apply freeNat_keeps | apply freeWord_keeps | apply request_keeps | refine keeps_snd (by assumption) ?_
    | (simp only [keeps_mk]; apply keeps_fold) | split | dsimp only)

theorem policyCommit_keeps {Q : List Instr} (s : State) (d : Decomp) (hk : Keeps Q s) : Keeps Q (State.policyCommit s d) := by
  simp only [State.policyCommit]
  with_reducible repeat' (first
    | assumption | intro _ | apply keeps_ite | apply heatGo_keeps | apply putRecord_keeps | apply setFld_keeps
    | (apply keeps_foldl; intro _ _ _) | split | dsimp only)

theorem policyCompiled_keeps {Q : List Instr} (s : State) (target reason : Nat) (hk : Keeps Q s) : Keeps Q (State.policyCompiled
  s target reason) := by
  simp only [State.policyCompiled]
  with_reducible repeat' (first
    | assumption | apply keeps_ite | apply policyCommit_keeps | apply askMatch_keeps
    | (simp only [keeps_mk]; apply keeps_fold) | split | dsimp only)

theorem repairCommit_keeps {Q : List Instr} (s0 : State) (r : Repair) (hk : Keeps Q s0) : Keeps Q (State.repairCommit s0 r) :=
  by
  simp only [State.repairCommit]
  with_reducible repeat' (first
    | assumption | intro _ | apply keeps_ite | apply heatGo_keeps | apply fill_put_keeps | apply putRecord_keeps
    | apply setFld_keeps | (apply keeps_foldl; intro _ _ _) | refine keepsFill_fst (by assumption) ?_
    | (apply keepsFill_foldl; intro _ _ _) | (simp only [keeps_mk]; apply keeps_fold) | split | dsimp only)

theorem repairNext_keeps {Q : List Instr} (s : State) (r : Repair) (hk : Keeps Q s) : Keeps Q (State.repairNext s r) := by
  simp only [State.repairNext]
  with_reducible repeat' (first
    | assumption | apply repairCommit_keeps | apply freeWord_keeps | apply request_keeps
    | refine keeps_snd (by assumption) ?_ | (simp only [keeps_mk]; apply keeps_fold) | split | dsimp only)

theorem beginRepair_keeps {Q : List Instr} (s : State) (hk : Keeps Q s) : Keeps Q (State.beginRepair s) := by
  simp only [State.beginRepair]
  with_reducible repeat' (first | assumption | intro _ | apply keeps_ite | apply repairNext_keeps | split | dsimp only)

theorem repairCompiled_keeps {Q : List Instr} (s : State) (r : Repair) (reason : Nat) (hk : Keeps Q s) : Keeps Q
  (State.repairCompiled s r reason) := by
  simp only [State.repairCompiled]
  with_reducible repeat' (first
    | assumption | apply keeps_ite | apply repairNext_keeps | (simp only [keeps_mk]; apply keeps_fold) | split | dsimp only)

theorem execLadlePortFail_keeps {Q : List Instr} (supply : Bool) (index : Fin 68) (s : State) (hk : Keeps Q s) : ∀ ans,
  execLadlePortFail supply index s = .next ans → Keeps Q ans := by
  intro ans e
  injection e with e
  subst e
  with_reducible repeat' (first
    | assumption | apply keeps_ite | apply portFail_keeps | apply beginRepair_keeps | split | dsimp only)

theorem policyDone_keeps {Q : List Instr} (s : State) (target reason : Nat) (hk : Keeps Q s) : Keeps Q (State.policyDone s
  target reason) := by
  simp only [State.policyDone]
  with_reducible repeat' (first
    | assumption | apply keeps_ite | apply repairCompiled_keeps | apply policyCompiled_keeps
    | (simp only [keeps_mk]; apply keeps_fold) | split | dsimp only)

theorem execCompileComplete_keeps {Q : List Instr} (s : State) (hk : Keeps Q s) : ∀ ans, execCompileComplete s = .next ans →
  Keeps Q ans := by
  intro ans e
  injection e with e
  subst e
  with_reducible repeat' (first
    | assumption | apply keeps_ite | apply finishCompile_keeps | apply policyDone_keeps
    | (simp only [keeps_mk]; apply keeps_fold) | split | dsimp only)

theorem execMatchComplete_keeps {Q : List Instr} (s : State) (hk : Keeps Q s) : ∀ ans, execMatchComplete s = .next ans → Keeps Q
  ans := by
  intro ans e
  injection e with e
  subst e
  with_reducible repeat' (first
    | assumption | apply matchDone_keeps | apply policyMatched_keeps | (simp only [keeps_mk]; apply keeps_fold) | split
    | dsimp only)

/-! ## Machine/StartUp.lean -/

theorem flashRegs_keeps {Q : List Instr} (s : State) (from_ : State) (hk : Keeps Q s) : Keeps Q (State.flashRegs s from_) := by
  simp only [State.flashRegs]
  with_reducible repeat' (first | assumption | intro _ | apply setFld_keeps | (apply keeps_foldl; intro _ _ _) | dsimp only)

theorem poweredOn_keeps {Q : List Instr} (s : State) (hk : Keeps Q s) : Keeps Q (State.poweredOn s) := by
  simp only [State.poweredOn]
  with_reducible repeat' (first
    | assumption | apply keeps_ite | apply flashRegs_keeps | apply startLockout_keeps | exact keeps_lost hk
    | (simp only [keeps_mk]; apply keeps_fold) | split | dsimp only)

theorem execPowerOn_keeps {Q : List Instr} (s : State) (hk : Keeps Q s) : ∀ ans, execPowerOn s = .next ans → Keeps Q ans := by
  intro ans e
  injection e with e
  subst e
  with_reducible repeat' (first | assumption | apply poweredOn_keeps | dsimp only)

theorem cold_keeps {Q : List Instr} (s : State) (hk : Keeps Q s) : Keeps Q (State.cold s) := by
  simp only [State.cold]
  with_reducible repeat' (first
    | assumption | intro _ | apply keeps_ite | apply setReg_keeps | apply setFld_keeps | apply flashRegs_keeps
    | exact keeps_lost hk | (simp only [keeps_mk]; apply keeps_fold) | split | dsimp only)

theorem execColdResetAssert_keeps {Q : List Instr} (rstN : Bool) (s : State) (hk : Keeps Q s) : ∀ ans, execColdResetAssert rstN
  s = .next ans → Keeps Q ans := by
  intro ans e
  injection e with e
  subst e
  with_reducible repeat' (first
    | assumption | apply keeps_ite | apply cold_keeps | (simp only [keeps_mk]; apply keeps_fold) | split | dsimp only)

theorem execPowerGood_keeps {Q : List Instr} (s : State) (hk : Keeps Q s) : ∀ ans, execPowerGood s = .next ans → Keeps Q ans :=
  by
  intro ans e
  injection e with e
  subst e
  with_reducible repeat' (first
    | assumption | apply keeps_ite | apply elapse_keeps | (simp only [keeps_mk]; apply keeps_fold) | split | dsimp only)

theorem atReset_keeps {Q : List Instr} (s : State) (m : Master) (key : BitVec 16) (effect : State → State) (hkeffect : ∀ x0,
  Keeps Q x0 → Keeps Q (effect x0)) (hk : Keeps Q s) : Keeps Q (State.atReset s m key effect) := by
  simp only [State.atReset]
  with_reducible repeat' (first
    | assumption | intro _ | apply keeps_ite | apply atReg_keeps | apply refuseReg_keeps | apply hkeffect | split
    | dsimp only)

theorem warmReset_keeps {Q : List Instr} (s : State) (hk : Keeps Q s) : Keeps Q (State.warmReset s) := by
  simp only [State.warmReset]
  with_reducible repeat' (first | assumption | apply keeps_ite | apply cold_keeps | apply shakeFor_keeps | split | dsimp only)

theorem execWarmReset_keeps {Q : List Instr} (m : Master) (key : BitVec 16) (s : State) (hk : Keeps Q s) : ∀ ans, execWarmReset
  m key s = .next ans → Keeps Q ans := by
  intro ans e
  injection e with e
  subst e
  with_reducible repeat' (first | assumption | intro _ | apply atReset_keeps | apply warmReset_keeps | dsimp only)

theorem execColdReset_keeps {Q : List Instr} (m : Master) (key : BitVec 16) (s : State) (hk : Keeps Q s) : ∀ ans, execColdReset
  m key s = .next ans → Keeps Q ans := by
  intro ans e
  injection e with e
  subst e
  with_reducible repeat' (first | assumption | intro _ | apply atReset_keeps | apply cold_keeps | dsimp only)

theorem activateSlot_keeps {Q : List Instr} (s : State) (k : Nat) (b : Bool) (hk : Keeps Q s) : Keeps Q (State.activateSlot s k
  b) := by
  simp only [State.activateSlot]
  with_reducible repeat' (first | assumption | apply keeps_ite | apply setFld_keeps | split | dsimp only)

theorem rcvLoad_keeps {Q : List Instr} (s : State) (m : Master) (kind : Nat) (b : Bool) (imageKind : Nat) (verifies flashOk :
  Bool) (hk : Keeps Q s) : Keeps Q (State.rcvLoad s m kind b imageKind verifies flashOk) := by
  simp only [State.rcvLoad]
  with_reducible repeat' (first
    | assumption | apply keeps_ite | apply refuseReg_keeps | apply setFld_keeps | apply activateSlot_keeps
    | apply cold_keeps | split | dsimp only)

theorem execRcvLoad_keeps {Q : List Instr} (m : Master) (key : BitVec 16) (kind : Fin 4) (slotB : Bool) (imageKind : Fin 256)
  (verifies flashOk : Bool) (s : State) (hk : Keeps Q s) : ∀ ans, execRcvLoad m key kind slotB imageKind verifies flashOk s =
  .next ans → Keeps Q ans := by
  intro ans e
  injection e with e
  subst e
  with_reducible repeat' (first | assumption | intro _ | apply atReset_keeps | apply rcvLoad_keeps | dsimp only)

theorem execVkeepLow_keeps {Q : List Instr} (s : State) (hk : Keeps Q s) : ∀ ans, execVkeepLow s = .next ans → Keeps Q ans := by
  intro ans e
  injection e with e
  subst e
  with_reducible repeat' (first | assumption | apply assertZero_keeps | (simp only [keeps_mk]; apply keeps_fold) | dsimp only)

theorem releaseHost_keeps {Q : List Instr} (s : State) (hk : Keeps Q s) : Keeps Q (State.releaseHost s) := by
  simp only [State.releaseHost]
  with_reducible repeat' (first
    | assumption | intro _ | apply keeps_ite | apply setClaim_keeps | (apply keeps_foldl; intro _ _ _)
    | (simp only [keeps_mk]; apply keeps_fold) | split | dsimp only)

theorem discardWaiting_keeps {Q : List Instr} (s : State) (pf : Nat) (hk : Keeps Q s) : Keeps Q (State.discardWaiting s pf) :=
  by
  simp only [State.discardWaiting]
  with_reducible repeat' (first
    | assumption | intro _ | apply count_keeps | (simp only [keeps_mk]; apply keeps_fold) | dsimp only)

theorem clearFunction_keeps {Q : List Instr} (s : State) (pf : Nat) (hk : Keeps Q s) : Keeps Q (State.clearFunction s pf) := by
  simp only [State.clearFunction]
  with_reducible repeat' (first
    | assumption | intro _ | apply clearRing_keeps | apply evaluate_keeps | apply discardWaiting_keeps
    | (apply keeps_foldl; intro _ _ _) | (simp only [keeps_mk]; apply keeps_fold) | dsimp only)

theorem functionOff_keeps {Q : List Instr} (s : State) (pf : Nat) (hk : Keeps Q s) : Keeps Q (State.functionOff s pf) := by
  simp only [State.functionOff]
  with_reducible repeat' (first | assumption | apply keeps_ite | apply setAvailable_keeps | split | dsimp only)

theorem execFunctionLevelReset_keeps {Q : List Instr} (pf : Fin 2) (s : State) (hk : Keeps Q s) : ∀ ans, execFunctionLevelReset
  pf s = .next ans → Keeps Q ans := by
  intro ans e
  injection e with e
  subst e
  with_reducible repeat' (first
    | assumption | intro _ | apply keeps_ite | apply clearFunction_keeps | apply resetMaster_keeps | apply functionOff_keeps
    | apply releaseHost_keeps | split | dsimp only)

theorem execLinkReset_keeps {Q : List Instr} (s : State) (hk : Keeps Q s) : ∀ ans, execLinkReset s = .next ans → Keeps Q ans :=
  by
  intro ans e
  injection e with e
  subst e
  with_reducible repeat' (first
    | assumption | intro _ | apply functionOff_keeps | apply releaseHost_keeps | (simp only [keeps_mk]; apply keeps_fold)
    | dsimp only)

theorem reject_keeps {Q : List Instr} (s : State) (reason : Nat) (hk : Keeps Q s) : Keeps Q (State.reject s reason) := by
  simp only [State.reject]
  with_reducible repeat' (first | assumption | apply count_keeps | apply setFld_keeps | apply raise_keeps | dsimp only)

theorem beginTrans_keeps {Q : List Instr} (s : State) (target : Nat) (hk : Keeps Q s) : Keeps Q (State.beginTrans s target) :=
  by
  simp only [State.beginTrans]
  with_reducible repeat' (first | assumption | apply setFld_keeps | dsimp only)

theorem endTrans_keeps {Q : List Instr} (s : State) (hk : Keeps Q s) : Keeps Q (State.endTrans s) := by
  simp only [State.endTrans]
  with_reducible repeat' (first | assumption | apply setFld_keeps | dsimp only)

theorem request'_keeps {Q : List Instr} (s : State) (effect : State → State) (hkeffect : ∀ x0, Keeps Q x0 → Keeps Q (effect x0))
  (hk : Keeps Q s) : Keeps Q (State.request' s effect) := by
  simp only [State.request']
  with_reducible repeat' (first
    | assumption | intro _ | apply keeps_ite | apply reject_keeps | apply hkeffect | split | dsimp only)

theorem execRequestKeep_keeps {Q : List Instr} (m : Master) (s : State) (hk : Keeps Q s) : ∀ ans, execRequestKeep m s = .next
  ans → Keeps Q ans := by
  intro ans e
  injection e with e
  subst e
  with_reducible repeat' (first | assumption | intro _ | apply atReg_keeps | apply shakeFor_keeps | dsimp only)

theorem loadParams_keeps {Q : List Instr} (s : State) (hk : Keeps Q s) : Keeps Q (State.loadParams s) := by
  simp only [State.loadParams]
  with_reducible repeat' (first
    | assumption | intro _ | apply changeLoop_keeps | (apply keeps_foldl; intro _ _ _)
    | (simp only [keeps_mk]; apply keeps_fold) | dsimp only)

theorem beginPowerUp_keeps {Q : List Instr} (s : State) (hk : Keeps Q s) : Keeps Q (State.beginPowerUp s) := by
  simp only [State.beginPowerUp]
  with_reducible repeat' (first
    | assumption | intro _ | apply openAll_keeps | apply beginPass_keeps | apply calBusy_keeps | apply withNotes_keeps
    | apply setFld_keeps | (simp only [keeps_mk]; apply keeps_fold) | dsimp only)

theorem beginHold_keeps {Q : List Instr} (s : State) (hk : Keeps Q s) : Keeps Q (State.beginHold s) := by
  simp only [State.beginHold]
  with_reducible repeat' (first
    | assumption | apply keeps_ite | apply beginTrans_keeps | apply releaseZero_keeps | apply requestAllReserved_keeps
    | apply loadParams_keeps | apply beginPowerUp_keeps | apply askHold_keeps | (simp only [keeps_mk]; apply keeps_fold)
    | split | dsimp only)

theorem holdFromKeep_keeps {Q : List Instr} (s : State) (hk : Keeps Q s) : Keeps Q (State.holdFromKeep s) := by
  simp only [State.holdFromKeep]
  with_reducible repeat' (first
    | assumption | apply keeps_ite | apply reject_keeps | apply beginHold_keeps | split | dsimp only)

theorem discardDrain_keeps {Q : List Instr} (s : State) (hk : Keeps Q s) : Keeps Q (State.discardDrain s) := by
  simp only [State.discardDrain]
  with_reducible repeat' (first | assumption | apply count_keeps | apply discardAll_keeps | dsimp only)

theorem endDrain_keeps {Q : List Instr} (s : State) (hk : Keeps Q s) : Keeps Q (State.endDrain s) := by
  simp only [State.endDrain]
  with_reducible repeat' (first | assumption | (simp only [keeps_mk]; apply keeps_fold) | dsimp only)

theorem beginDrain_keeps {Q : List Instr} (s : State) (hk : Keeps Q s) : Keeps Q (State.beginDrain s) := by
  simp only [State.beginDrain]
  with_reducible repeat' (first
    | assumption | intro _ | apply keeps_ite | apply beginTrans_keeps | apply cancelArmed_keeps | apply withGlobal_keeps
    | apply discardDrain_keeps | apply endDrain_keeps | (simp only [keeps_mk]; apply keeps_fold) | split | dsimp only)

theorem requestHold_keeps {Q : List Instr} (s : State) (hk : Keeps Q s) : Keeps Q (State.requestHold s) := by
  simp only [State.requestHold]
  with_reducible repeat' (first
    | assumption | apply keeps_ite | apply holdFromKeep_keeps | apply beginTrans_keeps | apply askHold_keeps
    | apply beginDrain_keeps | split | dsimp only)

theorem execRequestHold_keeps {Q : List Instr} (m : Master) (s : State) (hk : Keeps Q s) : ∀ ans, execRequestHold m s = .next
  ans → Keeps Q ans := by
  intro ans e
  injection e with e
  subst e
  with_reducible repeat' (first
    | assumption | intro _ | apply atReg_keeps | apply request'_keeps | apply requestHold_keeps | dsimp only)

theorem requestRun_keeps {Q : List Instr} (s : State) (hk : Keeps Q s) : Keeps Q (State.requestRun s) := by
  simp only [State.requestRun]
  with_reducible repeat' (first
    | assumption | apply keeps_ite | apply reject_keeps | apply beginTrans_keeps | apply planBase_keeps
    | (simp only [keeps_mk]; apply keeps_fold) | split | dsimp only)

theorem execRequestRun_keeps {Q : List Instr} (m : Master) (s : State) (hk : Keeps Q s) : ∀ ans, execRequestRun m s = .next ans
  → Keeps Q ans := by
  intro ans e
  injection e with e
  subst e
  with_reducible repeat' (first
    | assumption | intro _ | apply atReg_keeps | apply request'_keeps | apply requestRun_keeps | dsimp only)

theorem setService_keeps {Q : List Instr} (s : State) (svc : Nat) (hk : Keeps Q s) : Keeps Q (State.setService s svc) := by
  simp only [State.setService]
  with_reducible repeat' (first
    | assumption | intro _ | apply keeps_ite | apply withNotes_keeps | apply setFld_keeps | apply dropPass_keeps
    | apply calBusy_keeps | apply surveyFabric_keeps | split | dsimp only)

theorem requestService_keeps {Q : List Instr} (s : State) (svc : Nat) (hk : Keeps Q s) : Keeps Q (State.requestService s svc) :=
  by
  simp only [State.requestService]
  with_reducible repeat' (first
    | assumption | apply reject_keeps | apply setService_keeps | (simp only [keeps_mk]; apply keeps_fold) | split
    | dsimp only)

theorem requestTest_keeps {Q : List Instr} (s : State) (hk : Keeps Q s) : Keeps Q (State.requestTest s) := by
  simp only [State.requestTest]
  with_reducible repeat' (first | assumption | apply requestService_keeps | dsimp only)

theorem execRequestTest_keeps {Q : List Instr} (m : Master) (s : State) (hk : Keeps Q s) : ∀ ans, execRequestTest m s = .next
  ans → Keeps Q ans := by
  intro ans e
  injection e with e
  subst e
  with_reducible repeat' (first
    | assumption | intro _ | apply atReg_keeps | apply request'_keeps | apply requestTest_keeps | dsimp only)

theorem requestNormal_keeps {Q : List Instr} (s : State) (hk : Keeps Q s) : Keeps Q (State.requestNormal s) := by
  simp only [State.requestNormal]
  with_reducible repeat' (first | assumption | apply requestService_keeps | dsimp only)

theorem execRequestNormal_keeps {Q : List Instr} (m : Master) (s : State) (hk : Keeps Q s) : ∀ ans, execRequestNormal m s =
  .next ans → Keeps Q ans := by
  intro ans e
  injection e with e
  subst e
  with_reducible repeat' (first
    | assumption | intro _ | apply atReg_keeps | apply request'_keeps | apply requestNormal_keeps | dsimp only)

theorem requestDevice_keeps {Q : List Instr} (s : State) (dev : Nat) (hk : Keeps Q s) : Keeps Q (State.requestDevice s dev) :=
  by
  simp only [State.requestDevice]
  with_reducible repeat' (first
    | assumption | intro _ | apply keeps_ite | apply shakeFor_keeps | apply request'_keeps | apply requestHold_keeps
    | apply requestRun_keeps | apply reject_keeps | split | dsimp only)

theorem stateReq_keeps {Q : List Instr} (s : State) (v : Word) (hk : Keeps Q s) : Keeps Q (State.stateReq s v) := by
  simp only [State.stateReq]
  with_reducible repeat' (first
    | assumption | apply keeps_ite | apply reject_keeps | apply requestService_keeps | apply requestDevice_keeps | split
    | dsimp only)

theorem closeAll_keeps {Q : List Instr} (s : State) (hk : Keeps Q s) : Keeps Q (State.closeAll s) := by
  simp only [State.closeAll]
  with_reducible repeat' (first
    | assumption | apply keeps_ite | apply lockAll_keeps | (simp only [keeps_mk]; apply keeps_fold) | split | dsimp only)

theorem enterHold_keeps {Q : List Instr} (s : State) (hk : Keeps Q s) : Keeps Q (State.enterHold s) := by
  simp only [State.enterHold]
  with_reducible repeat' (first
    | assumption | intro _ | apply keeps_ite | apply withNotes_keeps | apply endTrans_keeps | apply setFld_keeps
    | apply startWaitingDelta_keeps | split | dsimp only)

theorem execHoldEntered_keeps {Q : List Instr} (s : State) (hk : Keeps Q s) : ∀ ans, execHoldEntered s = .next ans → Keeps Q ans
  := by
  intro ans e
  injection e with e
  subst e
  with_reducible repeat' (first | assumption | apply keeps_ite | apply enterHold_keeps | split | dsimp only)

theorem endPowerUp_keeps {Q : List Instr} (s : State) (hk : Keeps Q s) : Keeps Q (State.endPowerUp s) := by
  simp only [State.endPowerUp]
  with_reducible repeat' (first | assumption | apply endPass_keeps | apply calBusy_keeps | dsimp only)

theorem calPass_keeps {Q : List Instr} (s : State) (hk : Keeps Q s) : Keeps Q (State.calPass s) := by
  simp only [State.calPass]
  with_reducible repeat' (first
    | assumption | intro _ | apply endPowerUp_keeps | apply withNotes_keeps | apply setFld_keeps | dsimp only)

theorem execPowerUpCalPass_keeps {Q : List Instr} (s : State) (hk : Keeps Q s) : ∀ ans, execPowerUpCalPass s = .next ans → Keeps
  Q ans := by
  intro ans e
  injection e with e
  subst e
  with_reducible repeat' (first | assumption | apply keeps_ite | apply passRef_keeps | apply calPass_keeps | split | dsimp only)

theorem calFail_keeps {Q : List Instr} (s : State) (hk : Keeps Q s) : Keeps Q (State.calFail s) := by
  simp only [State.calFail]
  with_reducible repeat' (first
    | assumption | intro _ | apply keeps_ite | apply endMeasuring_keeps | apply askHold_keeps | apply endPowerUp_keeps
    | apply withNotes_keeps | apply endTrans_keeps | apply setFld_keeps | apply startWaitingDelta_keeps
    | apply calRaise_keeps | (simp only [keeps_mk]; apply keeps_fold) | split | dsimp only)

theorem execPowerUpCalFail_keeps {Q : List Instr} (s : State) (hk : Keeps Q s) : ∀ ans, execPowerUpCalFail s = .next ans → Keeps
  Q ans := by
  intro ans e
  injection e with e
  subst e
  with_reducible repeat' (first
    | assumption | apply keeps_ite | apply passRef_keeps | apply calFail_keeps | apply untilNow_keeps | split | dsimp only)

theorem execPowerUpCalRetry_keeps {Q : List Instr} (s : State) (hk : Keeps Q s) : ∀ ans, execPowerUpCalRetry s = .next ans →
  Keeps Q ans := by
  intro ans e
  injection e with e
  subst e
  with_reducible repeat' (first
    | assumption | apply keeps_ite | apply untilNow_keeps | apply beginPowerUp_keeps | split | dsimp only)

theorem execDrainComplete_keeps {Q : List Instr} (s : State) (hk : Keeps Q s) : ∀ ans, execDrainComplete s = .next ans → Keeps Q
  ans := by
  intro ans e
  injection e with e
  subst e
  with_reducible repeat' (first | assumption | apply keeps_ite | apply endDrain_keeps | split | dsimp only)

theorem execDrainTimeout_keeps {Q : List Instr} (s : State) (hk : Keeps Q s) : ∀ ans, execDrainTimeout s = .next ans → Keeps Q
  ans := by
  intro ans e
  injection e with e
  subst e
  with_reducible repeat' (first
    | assumption | apply keeps_ite | apply untilNow_keeps | apply discardDrain_keeps | apply endDrain_keeps
    | (simp only [keeps_mk]; apply keeps_fold) | split | dsimp only)

theorem runToHold_keeps {Q : List Instr} (s : State) (st : Staged) (hk : Keeps Q s) : Keeps Q (State.runToHold s st) := by
  simp only [State.runToHold]
  with_reducible repeat' (first
    | assumption | intro _ | apply untilNet_keeps | apply fettleStop_keeps | apply clearBanks_keeps | apply duePoured_keeps
    | apply parkAll_keeps | apply withGlobal_keeps | apply withNotes_keeps | apply endTrans_keeps | apply setFld_keeps
    | (simp only [keeps_mk]; apply keeps_fold) | dsimp only)

theorem execRunToHoldPour_keeps {Q : List Instr} (s : State) (hk : Keeps Q s) : ∀ ans, execRunToHoldPour s = .next ans → Keeps Q
  ans := by
  intro ans e
  injection e with e
  subst e
  with_reducible repeat' (first
    | assumption | apply keeps_ite | apply runToHold_keeps | (simp only [keeps_mk]; apply keeps_fold) | split | dsimp only)

theorem stagingStart_keeps {Q : List Instr} (s : State) (hk : Keeps Q s) : Keeps Q (State.stagingStart s) := by
  simp only [State.stagingStart]
  with_reducible repeat' (first
    | assumption | apply keeps_ite | apply endMeasuring_keeps | apply askHold_keeps | apply stage_keeps
    | apply untilNet_keeps | apply holdMould_keeps | refine keeps_snd (by assumption) ?_
    | (simp only [keeps_mk]; apply keeps_fold) | split | dsimp only)

theorem execStagingStart_keeps {Q : List Instr} (s : State) (hk : Keeps Q s) : ∀ ans, execStagingStart s = .next ans → Keeps Q
  ans := by
  intro ans e
  injection e with e
  subst e
  with_reducible repeat' (first | assumption | apply stagingStart_keeps | dsimp only)

theorem execPour_keeps {Q : List Instr} (s : State) (hk : Keeps Q s) : ∀ ans, execPour s = .next ans → Keeps Q ans := by
  intro ans e
  injection e with e
  subst e
  with_reducible repeat' (first
    | assumption | apply keeps_ite | apply untilNet_keeps | apply activateDue_keeps | apply duePoured_keeps
    | apply endRepour_keeps | apply closeAll_keeps | (simp only [keeps_mk]; apply keeps_fold) | split | dsimp only)

theorem execShakeout_keeps {Q : List Instr} (cause : ShakeCause) (s : State) (hk : Keeps Q s) : ∀ ans, execShakeout cause s =
  .next ans → Keeps Q ans := by
  intro ans e
  injection e with e
  subst e
  with_reducible repeat' (first | assumption | apply shakeFor_keeps | dsimp only)

theorem zeroHold_keeps {Q : List Instr} (s : State) (sh : Shake) (hk : Keeps Q s) : Keeps Q (State.zeroHold s sh) := by
  simp only [State.zeroHold]
  with_reducible repeat' (first
    | assumption | intro _ | apply untilNow_keeps | apply holdAll_keeps | apply assertZero_keeps | apply withNotes_keeps
    | apply setFld_keeps | (simp only [keeps_mk]; apply keeps_fold) | dsimp only)

theorem execZeroHold_keeps {Q : List Instr} (s : State) (hk : Keeps Q s) : ∀ ans, execZeroHold s = .next ans → Keeps Q ans := by
  intro ans e
  injection e with e
  subst e
  with_reducible repeat' (first
    | assumption | apply keeps_ite | apply zeroHold_keeps | (simp only [keeps_mk]; apply keeps_fold) | split | dsimp only)

theorem loseLadle_keeps {Q : List Instr} (s : State) (hk : Keeps Q s) : Keeps Q (State.loseLadle s) := by
  simp only [State.loseLadle]
  with_reducible repeat' (first
    | assumption | intro _ | apply setFld_keeps | (simp only [keeps_mk]; apply keeps_fold) | dsimp only)

theorem warm_keeps {Q : List Instr} (s : State) (hk : Keeps Q s) : Keeps Q (State.warm s) := by
  simp only [State.warm]
  with_reducible repeat' (first
    | assumption | intro _ | apply keeps_ite | apply setReg_keeps | apply setFld_keeps | apply calBusy_keeps
    | apply dropChallenge_keeps | apply dropResponse_keeps | apply lockCloses_keeps
    | (simp only [keeps_mk]; apply keeps_fold) | split | dsimp only)

theorem undoAll_keeps {Q : List Instr} (s : State) (hk : Keeps Q s) : Keeps Q (State.undoAll s) := by
  simp only [State.undoAll]
  with_reducible repeat' (first
    | assumption | apply undoPass_keeps | apply fettleStop_keeps | (apply keeps_foldl; intro _ _ _)
    | (simp only [keeps_mk]; apply keeps_fold) | dsimp only)

theorem shakeoutDone_keeps {Q : List Instr} (s : State) (sh : Shake) (hk : Keeps Q s) : Keeps Q (State.shakeoutDone s sh) := by
  simp only [State.shakeoutDone]
  with_reducible repeat' (first
    | assumption | intro _ | apply keeps_ite | apply untilNow_keeps | apply spareStop_keeps | apply undoAll_keeps
    | apply loseLadle_keeps | apply parkAll_keeps | apply withNotes_keeps | apply endTrans_keeps | apply setFld_keeps
    | apply warm_keeps | (simp only [keeps_mk]; apply keeps_fold) | split | dsimp only)

theorem execShakeoutComplete_keeps {Q : List Instr} (s : State) (hk : Keeps Q s) : ∀ ans, execShakeoutComplete s = .next ans →
  Keeps Q ans := by
  intro ans e
  injection e with e
  subst e
  with_reducible repeat' (first
    | assumption | apply keeps_ite | apply zeroHold_keeps | apply shakeoutDone_keeps
    | (simp only [keeps_mk]; apply keeps_fold) | split | dsimp only)

theorem bootOne_keeps {Q : List Instr} (s : State) (k : Nat) (a b : ImageSlot) (want : Option (BitVec 16)) (hk : Keeps Q s) :
  Keeps Q (State.bootOne s k a b want).2 := by
  simp only [State.bootOne]
  with_reducible repeat' (first
    | assumption | intro _ | apply keeps_ite | apply setFld_keeps | apply raise_keeps | (apply keeps_foldl; intro _ _ _)
    | (simp only [keeps_mk]; apply keeps_fold) | split | dsimp only)

theorem enterRecovery_keeps {Q : List Instr} (s : State) (hk : Keeps Q s) : Keeps Q (State.enterRecovery s) := by
  simp only [State.enterRecovery]
  with_reducible repeat' (first | assumption | apply setFld_keeps | dsimp only)

theorem boot_keeps {Q : List Instr} (s : State) (dieA dieB loopA loopB polA polB : ImageSlot) (otpOk : Bool) (hk : Keeps Q s) :
  Keeps Q (State.boot s dieA dieB loopA loopB polA polB otpOk) := by
  simp only [State.boot]
  with_reducible repeat' (first
    | assumption | apply keeps_ite | apply untilNow_keeps | apply setFld_keeps | apply raise_keeps | apply bootOne_keeps
    | apply enterRecovery_keeps | refine keeps_snd (by assumption) ?_ | (simp only [keeps_mk]; apply keeps_fold) | split
    | dsimp only)

theorem execBootComplete_keeps {Q : List Instr} (dieA dieB loopA loopB policyA policyB : ImageSlot) (otpOk : Bool) (s : State)
  (hk : Keeps Q s) : ∀ ans, execBootComplete dieA dieB loopA loopB policyA policyB otpOk s = .next ans → Keeps Q ans := by
  intro ans e
  injection e with e
  subst e
  with_reducible repeat' (first
    | assumption | apply keeps_ite | apply boot_keeps | apply untilNow_keeps | apply beginHold_keeps
    | (simp only [keeps_mk]; apply keeps_fold) | split | dsimp only)

/-! ## Machine/Frames.lean -/

theorem zeroDue_keeps {Q : List Instr} (s : State) (hk : Keeps Q s) : Keeps Q (State.zeroDue s) := by
  simp only [State.zeroDue]
  with_reducible repeat' (first
    | assumption | apply keeps_ite | apply zeroHold_keeps | (simp only [keeps_mk]; apply keeps_fold) | split | dsimp only)

theorem pourDue_keeps {Q : List Instr} (s : State) (hk : Keeps Q s) : Keeps Q (State.pourDue s) := by
  simp only [State.pourDue]
  with_reducible repeat' (first
    | assumption | apply keeps_ite | apply runToHold_keeps | apply activateDue_keeps | apply duePoured_keeps
    | apply endRepour_keeps | apply closeAll_keeps | (simp only [keeps_mk]; apply keeps_fold) | split | dsimp only)

theorem spansDue_keeps {Q : List Instr} (s : State) (t : Nat) (hk : Keeps Q s) : Keeps Q (State.spansDue s t) := by
  simp only [State.spansDue]
  with_reducible repeat' (first | assumption | intro _ | apply spanEnd_keeps | (apply keeps_foldl; intro _ _ _) | dsimp only)

theorem execSpanChangeEnd_keeps {Q : List Instr} (t : Fin 16) (j : Fin 644) (s : State) (hk : Keeps Q s) : ∀ ans,
  execSpanChangeEnd t j s = .next ans → Keeps Q ans := by
  intro ans e
  injection e with e
  subst e
  with_reducible repeat' (first
    | assumption | apply untilNow_keeps | apply zeroDue_keeps | apply pourDue_keeps | apply spanEnd_keeps
    | (simp only [keeps_mk]; apply keeps_fold) | split | dsimp only)

theorem execPendingWriteApply_keeps {Q : List Instr} (t : Fin 16) (s : State) (hk : Keeps Q s) : ∀ ans, execPendingWriteApply t
  s = .next ans → Keeps Q ans := by
  intro ans e
  injection e with e
  subst e
  with_reducible repeat' (first
    | assumption | intro _ | apply pend_keeps | apply untilNet_keeps | apply zeroDue_keeps | apply pourDue_keeps
    | apply spansDue_keeps | apply applyPending_keeps | (simp only [keeps_mk]; apply keeps_fold) | split | dsimp only)

theorem execAdcRoundStart_keeps {Q : List Instr} (t : Fin 16) (roundD : Bool) (s : State) (hk : Keeps Q s) : ∀ ans,
  execAdcRoundStart t roundD s = .next ans → Keeps Q ans := by
  intro ans e
  injection e with e
  subst e
  with_reducible repeat' (first
    | assumption | apply keeps_ite | apply untilNet_keeps | apply zeroDue_keeps | apply pourDue_keeps | apply spansDue_keeps
    | apply writesDue_keeps | apply roundStart_keeps | split | dsimp only)

theorem frameEdge_keeps {Q : List Instr} (s : State) (t : Nat) (hk : Keeps Q s) : Keeps Q (State.frameEdge s t) := by
  simp only [State.frameEdge]
  with_reducible repeat' (first
    | assumption | intro _ | apply keeps_ite | apply untilNet_keeps | apply zeroDue_keeps | apply pourDue_keeps
    | apply spansDue_keeps | apply writesDue_keeps | apply countLoops_keeps | apply frameDelivery_keeps | split | dsimp only)

theorem execFrameDelivery_keeps {Q : List Instr} (t : Fin 16) (s : State) (hk : Keeps Q s) : ∀ ans, execFrameDelivery t s =
  .next ans → Keeps Q ans := by
  intro ans e
  injection e with e
  subst e
  with_reducible repeat' (first | assumption | apply frameEdge_keeps | dsimp only)

end Sys2Proof.Machine
end

