-- ==== Sys2Proof/Laws/KeepsHost.lean ====
section
/-!
SUPPORT. The queue and the register file kept by jobs, registers and windows: one lemma for each operation,
proved over those of the operations it is made of.
-/
namespace Sys2Proof.Machine

set_option linter.all false

/-! ## Machine/Jobs.lean -/

theorem doorbell_keeps {Q : List Instr} (s : State) (a : Access) (p v : Nat) (hk : Keeps Q s) : Keeps Q (State.doorbell s a p v)
  := by
  simp only [State.doorbell]
  with_reducible repeat' (first | assumption | apply keeps_ite | apply setFld_keeps | apply refuse_keeps | split | dsimp only)

theorem execJobDoorbell_keeps {Q : List Instr} (m : Master) (off : Nat) (v : Word) (s : State) (hk : Keeps Q s) : ∀ ans,
  execJobDoorbell m off v s = .next ans → Keeps Q ans := by
  intro ans e
  injection e with e
  subst e
  with_reducible repeat' (first
    | assumption | apply keeps_ite | apply hostWaits_keeps | apply refuse_keeps | apply doorbell_keeps | split | dsimp only)

theorem jobRingCtrl_keeps {Q : List Instr} (s : State) (p : Nat) (v : Word) (hk : Keeps Q s) : Keeps Q (State.jobRingCtrl s p v)
  := by
  simp only [State.jobRingCtrl]
  with_reducible repeat' (first
    | assumption | apply keeps_ite | apply setFld_keeps | apply markDirty_keeps | split | dsimp only)

theorem execJobRingCtrlWrite_keeps {Q : List Instr} (m : Master) (p : Fin 2) (v : Word) (s : State) (hk : Keeps Q s) : ∀ ans,
  execJobRingCtrlWrite m p v s = .next ans → Keeps Q ans := by
  intro ans e
  injection e with e
  subst e
  with_reducible repeat' (first | assumption | intro _ | apply atReg_keeps | apply jobRingCtrl_keeps | dsimp only)

theorem take_keeps {Q : List Instr} (s : State) (d : Desc) (always : Bool) (effect : State → WriteBack × State) (hkeffect : ∀ x,
  Keeps Q x → Keeps Q (effect x).2) (hk : Keeps Q s) : Keeps Q (State.take s d always effect) := by
  simp only [State.take]
  with_reducible repeat' (first
    | assumption | intro _ | apply keeps_ite | apply freeNat_keeps | apply pend_keeps | apply fill_put_keeps
    | apply setFld_keeps | apply hkeffect | refine keepsFill_fst (by assumption) ?_ | (apply keepsFill_foldl; intro _ _ _)
    | refine keeps_snd (by assumption) ?_ | (simp only [keeps_mk]; apply keeps_fold) | split | dsimp only)

theorem execNop_keeps {Q : List Instr} (d : Desc) (s : State) (hk : Keeps Q s) : ∀ ans, execNop d s = .next ans → Keeps Q ans :=
  by
  intro ans e
  injection e with e
  subst e
  with_reducible repeat' (first | assumption | intro _ | apply take_keeps | dsimp only)

theorem hostClaim_keeps {Q : List Instr} (s : State) (r : Nat) (hk : Keeps Q s) : Keeps Q (State.hostClaim s r).2 := by
  simp only [State.hostClaim]
  with_reducible repeat' (first
    | assumption | apply keeps_ite | apply setClaim_keeps | (simp only [keeps_mk]; apply keeps_fold) | split | dsimp only)

theorem execClaim_keeps {Q : List Instr} (d : Desc) (resource : Fin 256) (s : State) (hk : Keeps Q s) : ∀ ans, execClaim d
  resource s = .next ans → Keeps Q ans := by
  intro ans e
  injection e with e
  subst e
  with_reducible repeat' (first
    | assumption | intro _ | apply take_keeps | apply hostClaim_keeps | refine keeps_snd (by assumption) ?_ | dsimp only)

theorem hostRelease_keeps {Q : List Instr} (s : State) (r : Nat) (hk : Keeps Q s) : Keeps Q (State.hostRelease s r).2 := by
  simp only [State.hostRelease]
  with_reducible repeat' (first
    | assumption | apply keeps_ite | apply freeClaim_keeps | apply setClaim_keeps | (simp only [keeps_mk]; apply keeps_fold)
    | split | dsimp only)

theorem execRelease_keeps {Q : List Instr} (d : Desc) (resource : Fin 256) (s : State) (hk : Keeps Q s) : ∀ ans, execRelease d
  resource s = .next ans → Keeps Q ans := by
  intro ans e
  injection e with e
  subst e
  with_reducible repeat' (first
    | assumption | intro _ | apply take_keeps | apply hostRelease_keeps | refine keeps_snd (by assumption) ?_ | dsimp only)

theorem countJobs_keeps {Q : List Instr} (s : State) (hk : Keeps Q s) : Keeps Q (State.countJobs s) := by
  simp only [State.countJobs]
  with_reducible repeat' (first | assumption | apply setFld_keeps | dsimp only)

theorem objectsOf_keeps {Q : List Instr} (s : State) (k : JobKind) (hk : Keeps Q s) : Keeps Q (State.objectsOf s k).2 := by
  simp only [State.objectsOf]
  with_reducible repeat' (first
    | assumption | intro _ | apply keeps_ite | apply freeNat_keeps | refine keeps_snd (by assumption) ?_
    | (simp only [keeps_mk]; apply keeps_fold) | split | dsimp only)

theorem startJob_keeps {Q : List Instr} (s : State) (d : Desc) (k : JobKind) (allowsRecovery argOk stateOk : Bool) (hk : Keeps Q
  s) : Keeps Q (State.startJob s d k allowsRecovery argOk stateOk).2 := by
  simp only [State.startJob]
  with_reducible repeat' (first
    | assumption | apply keeps_ite | apply objectsOf_keeps | apply setFld_keeps | apply claimAll_keeps
    | apply countJobs_keeps | refine keeps_snd (by assumption) ?_ | (simp only [keeps_mk]; apply keeps_fold) | split
    | dsimp only)

theorem execLoadImage_keeps {Q : List Instr} (d : Desc) (kind : Fin 65536) (len : BitVec 32) (slotB : Bool) (s : State) (hk :
  Keeps Q s) : ∀ ans, execLoadImage d kind len slotB s = .next ans → Keeps Q ans := by
  intro ans e
  injection e with e
  subst e
  with_reducible repeat' (first
    | assumption | intro _ | apply keeps_ite | apply take_keeps | apply startJob_keeps | refine keeps_snd (by assumption) ?_
    | split | dsimp only)

theorem execStartCalFull_keeps {Q : List Instr} (d : Desc) (tiles : BitVec 16) (s : State) (hk : Keeps Q s) : ∀ ans,
  execStartCalFull d tiles s = .next ans → Keeps Q ans := by
  intro ans e
  injection e with e
  subst e
  with_reducible repeat' (first
    | assumption | intro _ | apply take_keeps | apply startJob_keeps | refine keeps_snd (by assumption) ?_ | dsimp only)

theorem execStartCalTransfer_keeps {Q : List Instr} (d : Desc) (tiles : BitVec 16) (s : State) (hk : Keeps Q s) : ∀ ans,
  execStartCalTransfer d tiles s = .next ans → Keeps Q ans := by
  intro ans e
  injection e with e
  subst e
  with_reducible repeat' (first
    | assumption | intro _ | apply take_keeps | apply startJob_keeps | refine keeps_snd (by assumption) ?_ | dsimp only)

theorem execStartHeatLoad_keeps {Q : List Instr} (d : Desc) (image : HeatImage) (s : State) (hk : Keeps Q s) : ∀ ans,
  execStartHeatLoad d image s = .next ans → Keeps Q ans := by
  intro ans e
  injection e with e
  subst e
  with_reducible repeat' (first
    | assumption | intro _ | apply take_keeps | apply startJob_keeps | refine keeps_snd (by assumption) ?_ | dsimp only)

theorem execStartMouldLib_keeps {Q : List Instr} (d : Desc) (count : BitVec 16) (entries : List LibEntry) (s : State) (hk :
  Keeps Q s) : ∀ ans, execStartMouldLib d count entries s = .next ans → Keeps Q ans := by
  intro ans e
  injection e with e
  subst e
  with_reducible repeat' (first
    | assumption | intro _ | apply take_keeps | apply startJob_keeps | apply count_keeps
    | refine keeps_snd (by assumption) ?_ | dsimp only)

theorem execStartFwActivate_keeps {Q : List Instr} (d : Desc) (kind : Fin 16) (slotB : Bool) (s : State) (hk : Keeps Q s) : ∀
  ans, execStartFwActivate d kind slotB s = .next ans → Keeps Q ans := by
  intro ans e
  injection e with e
  subst e
  with_reducible repeat' (first
    | assumption | intro _ | apply take_keeps | apply startJob_keeps | refine keeps_snd (by assumption) ?_ | dsimp only)

theorem execStartSurvey_keeps {Q : List Instr} (d : Desc) (retiredOnly : Bool) (s : State) (hk : Keeps Q s) : ∀ ans,
  execStartSurvey d retiredOnly s = .next ans → Keeps Q ans := by
  intro ans e
  injection e with e
  subst e
  with_reducible repeat' (first
    | assumption | intro _ | apply take_keeps | apply startJob_keeps | refine keeps_snd (by assumption) ?_ | dsimp only)

theorem execStartRiserScrub_keeps {Q : List Instr} (d : Desc) (regions : BitVec 128) (s : State) (hk : Keeps Q s) : ∀ ans,
  execStartRiserScrub d regions s = .next ans → Keeps Q ans := by
  intro ans e
  injection e with e
  subst e
  with_reducible repeat' (first
    | assumption | intro _ | apply take_keeps | apply startJob_keeps | refine keeps_snd (by assumption) ?_ | dsimp only)

theorem execStartElemRetire_keeps {Q : List Instr} (d : Desc) (index : Fin 8192) (restore port : Bool) (s : State) (hk : Keeps Q
  s) : ∀ ans, execStartElemRetire d index restore port s = .next ans → Keeps Q ans := by
  intro ans e
  injection e with e
  subst e
  with_reducible repeat' (first
    | assumption | intro _ | apply keeps_ite | apply take_keeps | apply startJob_keeps | refine keeps_snd (by assumption) ?_
    | split | dsimp only)

theorem execStartBankRetire_keeps {Q : List Instr} (d : Desc) (bank : Fin 64) (s : State) (hk : Keeps Q s) : ∀ ans,
  execStartBankRetire d bank s = .next ans → Keeps Q ans := by
  intro ans e
  injection e with e
  subst e
  with_reducible repeat' (first
    | assumption | intro _ | apply take_keeps | apply startJob_keeps | refine keeps_snd (by assumption) ?_ | dsimp only)

theorem execStartRegionRetire_keeps {Q : List Instr} (d : Desc) (region : Fin 128) (s : State) (hk : Keeps Q s) : ∀ ans,
  execStartRegionRetire d region s = .next ans → Keeps Q ans := by
  intro ans e
  injection e with e
  subst e
  with_reducible repeat' (first
    | assumption | intro _ | apply take_keeps | apply startJob_keeps | refine keeps_snd (by assumption) ?_ | dsimp only)

theorem execStartFlaskMove_keeps {Q : List Instr} (d : Desc) (flask : Fin 64) (core : Fin 128) (s : State) (hk : Keeps Q s) : ∀
  ans, execStartFlaskMove d flask core s = .next ans → Keeps Q ans := by
  intro ans e
  injection e with e
  subst e
  with_reducible repeat' (first
    | assumption | intro _ | apply take_keeps | apply startJob_keeps | refine keeps_snd (by assumption) ?_ | dsimp only)

theorem execStartCoreRestart_keeps {Q : List Instr} (d : Desc) (number : Fin 128) (type : Fin 4) (s : State) (hk : Keeps Q s) :
  ∀ ans, execStartCoreRestart d number type s = .next ans → Keeps Q ans := by
  intro ans e
  injection e with e
  subst e
  with_reducible repeat' (first
    | assumption | intro _ | apply take_keeps | apply startJob_keeps | refine keeps_snd (by assumption) ?_ | dsimp only)

theorem execStartAdcTakeover_keeps {Q : List Instr} (d : Desc) (tile : Fin 16) (channel : Fin 64) (ret : Bool) (s : State) (hk :
  Keeps Q s) : ∀ ans, execStartAdcTakeover d tile channel ret s = .next ans → Keeps Q ans := by
  intro ans e
  injection e with e
  subst e
  with_reducible repeat' (first
    | assumption | intro _ | apply take_keeps | apply startJob_keeps | refine keeps_snd (by assumption) ?_
    | (simp only [keeps_mk]; apply keeps_fold) | split | dsimp only)

theorem renewFlasks_keeps {Q : List Instr} (s : State) (j : Job) (first n : Nat) (hk : Keeps Q s) : Keeps Q (State.renewFlasks s
  j first n) := by
  simp only [State.renewFlasks]
  with_reducible repeat' (first
    | assumption | intro _ | apply renewFlask_keeps | (apply keeps_foldl; intro _ _ _)
    | (simp only [keeps_mk]; apply keeps_fold) | split | dsimp only)

theorem endJob_keeps {Q : List Instr} (s : State) (j : Job) (st : JobState) (cause : Nat) (hk : Keeps Q s) : Keeps Q
  (State.endJob s j st cause) := by
  simp only [State.endJob]
  with_reducible repeat' (first
    | assumption | apply keeps_ite | apply dropPass_keeps | apply askHold_keeps | apply renewFlasks_keeps
    | apply loseStandby_keeps | apply resetDie_keeps | apply endJobRecord_keeps | apply calBusy_keeps
    | apply surveyFabric_keeps | (simp only [keeps_mk]; apply keeps_fold) | split | dsimp only)

theorem onJob_keeps {Q : List Instr} (s : State) (id : Nat) (f : Job → WriteBack × State) (hkf : ∀ x, Keeps Q (f x).2) (hk :
  Keeps Q s) : Keeps Q (State.onJob s id f).2 := by
  simp only [State.onJob]
  with_reducible repeat' (first
    | assumption | intro _ | apply hkf | refine keeps_snd (by assumption) ?_ | (simp only [keeps_mk]; apply keeps_fold)
    | split | dsimp only)

theorem suspendJob_keeps {Q : List Instr} (s : State) (j : Job) (hk : Keeps Q s) : Keeps Q (State.suspendJob s j).2 := by
  simp only [State.suspendJob]
  with_reducible repeat' (first
    | assumption | intro _ | apply keeps_ite | apply changeJob_keeps | (simp only [keeps_mk]; apply keeps_fold) | split
    | dsimp only)

theorem execSuspend_keeps {Q : List Instr} (d : Desc) (job : BitVec 16) (s : State) (hk : Keeps Q s) : ∀ ans, execSuspend d job
  s = .next ans → Keeps Q ans := by
  intro ans e
  injection e with e
  subst e
  with_reducible repeat' (first
    | assumption | intro _ | apply take_keeps | apply onJob_keeps | apply suspendJob_keeps
    | refine keeps_snd (by assumption) ?_ | dsimp only)

theorem resumeJob_keeps {Q : List Instr} (s : State) (j : Job) (hk : Keeps Q s) : Keeps Q (State.resumeJob s j).2 := by
  simp only [State.resumeJob]
  with_reducible repeat' (first
    | assumption | intro _ | apply keeps_ite | apply changeJob_keeps | apply requeue_keeps
    | (simp only [keeps_mk]; apply keeps_fold) | split | dsimp only)

theorem execResume_keeps {Q : List Instr} (d : Desc) (job : BitVec 16) (s : State) (hk : Keeps Q s) : ∀ ans, execResume d job s
  = .next ans → Keeps Q ans := by
  intro ans e
  injection e with e
  subst e
  with_reducible repeat' (first
    | assumption | intro _ | apply take_keeps | apply onJob_keeps | apply resumeJob_keeps
    | refine keeps_snd (by assumption) ?_ | dsimp only)

theorem cancelJob_keeps {Q : List Instr} (s : State) (j : Job) (hk : Keeps Q s) : Keeps Q (State.cancelJob s j).2 := by
  simp only [State.cancelJob]
  with_reducible repeat' (first
    | assumption | intro _ | apply keeps_ite | apply endJob_keeps | apply changeJob_keeps
    | (simp only [keeps_mk]; apply keeps_fold) | split | dsimp only)

theorem execCancel_keeps {Q : List Instr} (d : Desc) (job : BitVec 16) (s : State) (hk : Keeps Q s) : ∀ ans, execCancel d job s
  = .next ans → Keeps Q ans := by
  intro ans e
  injection e with e
  subst e
  with_reducible repeat' (first
    | assumption | intro _ | apply take_keeps | apply onJob_keeps | apply cancelJob_keeps
    | refine keeps_snd (by assumption) ?_ | dsimp only)

theorem freeEntry_keeps {Q : List Instr} (s : State) (id : Nat) (hk : Keeps Q s) : Keeps Q (State.freeEntry s id) := by
  simp only [State.freeEntry]
  with_reducible repeat' (first
    | assumption | intro _ | apply countJobs_keeps | (simp only [keeps_mk]; apply keeps_fold) | dsimp only)

theorem queryJob_keeps {Q : List Instr} (s : State) (tag : Word) (j : Job) (hk : Keeps Q s) : Keeps Q (State.queryJob s tag j).2
  := by
  simp only [State.queryJob]
  with_reducible repeat' (first | assumption | apply keeps_ite | apply freeEntry_keeps | split | dsimp only)

theorem execQuery_keeps {Q : List Instr} (d : Desc) (job : BitVec 16) (s : State) (hk : Keeps Q s) : ∀ ans, execQuery d job s =
  .next ans → Keeps Q ans := by
  intro ans e
  injection e with e
  subst e
  with_reducible repeat' (first
    | assumption | intro _ | apply take_keeps | apply onJob_keeps | apply queryJob_keeps
    | refine keeps_snd (by assumption) ?_ | dsimp only)

theorem commitConfig_keeps {Q : List Instr} (s : State) (useExpect : Bool) (expect : Word) (hk : Keeps Q s) : Keeps Q
  (State.commitConfig s useExpect expect).2 := by
  simp only [State.commitConfig]
  with_reducible repeat' (first
    | assumption | apply keeps_ite | apply setReg_keeps | apply setFld_keeps | (simp only [keeps_mk]; apply keeps_fold)
    | split | dsimp only)

theorem execCommitConfig_keeps {Q : List Instr} (d : Desc) (useExpect : Bool) (expect : BitVec 32) (s : State) (hk : Keeps Q s)
  : ∀ ans, execCommitConfig d useExpect expect s = .next ans → Keeps Q ans := by
  intro ans e
  injection e with e
  subst e
  with_reducible repeat' (first
    | assumption | intro _ | apply take_keeps | apply commitConfig_keeps | refine keeps_snd (by assumption) ?_ | dsimp only)

theorem crcPass_keeps {Q : List Instr} (s : State) (hk : Keeps Q s) : Keeps Q (State.crcPass s) := by
  simp only [State.crcPass]
  with_reducible repeat' (first
    | assumption | apply keeps_ite | apply setReg_keeps | apply setFld_keeps | apply count_keeps | apply raise_keeps
    | (simp only [keeps_mk]; apply keeps_fold) | split | dsimp only)

theorem execCfgCrcPass_keeps {Q : List Instr} (s : State) (hk : Keeps Q s) : ∀ ans, execCfgCrcPass s = .next ans → Keeps Q ans
  := by
  intro ans e
  injection e with e
  subst e
  with_reducible repeat' (first | assumption | apply crcPass_keeps | dsimp only)

theorem nextCompile_keeps {Q : List Instr} (s : State) (j : Job) (hk : Keeps Q s) : Keeps Q (State.nextCompile s j) := by
  simp only [State.nextCompile]
  with_reducible repeat' (first
    | assumption | apply keeps_ite | apply request_keeps | (simp only [keeps_mk]; apply keeps_fold) | split | dsimp only)

theorem runJob_keeps {Q : List Instr} (s : State) (id : Nat) (hk : Keeps Q s) : Keeps Q (State.runJob s id) := by
  simp only [State.runJob]
  with_reducible repeat' (first
    | assumption | intro _ | apply keeps_ite | apply changeJob_keeps | apply startPass_keeps | apply nextCompile_keeps
    | apply calBusy_keeps | apply surveyFabric_keeps | (simp only [keeps_mk]; apply keeps_fold) | split | dsimp only)

theorem execJobRun_keeps {Q : List Instr} (job : BitVec 16) (s : State) (hk : Keeps Q s) : ∀ ans, execJobRun job s = .next ans →
  Keeps Q ans := by
  intro ans e
  injection e with e
  subst e
  with_reducible repeat' (first | assumption | apply runJob_keeps | dsimp only)

theorem jobReg_keeps {Q : List Instr} (s : State) (off : Nat) (v : Word) (hk : Keeps Q s) : Keeps Q (State.jobReg s off v) := by
  simp only [State.jobReg]
  with_reducible repeat' (first
    | assumption | apply setReg_keeps | (simp only [keeps_mk]; apply keeps_fold) | split | dsimp only)

theorem loadHeat_keeps {Q : List Instr} (s : State) (im : HeatImage) (hk : Keeps Q s) : Keeps Q (State.loadHeat s im) := by
  simp only [State.loadHeat]
  with_reducible repeat' (first
    | assumption | intro _ | apply putRecord_keeps | apply jobReg_keeps | apply heatGo_keeps
    | (apply keeps_foldl; intro _ _ _) | dsimp only)

theorem recompileRecord_keeps {Q : List Instr} (s old : State) (gone : List Nat) (p : Nat × Mould) (hk : Keeps Q s) : Keeps Q
  (State.recompileRecord s old gone p) := by
  simp only [State.recompileRecord]
  with_reducible repeat' (first
    | assumption | apply keeps_ite | apply setMould_keeps | apply rejectEntry_keeps
    | (simp only [keeps_mk]; apply keeps_fold) | split | dsimp only)

theorem recompileLost_keeps {Q : List Instr} (s old : State) (gone : List Nat) (i : Nat) (hk : Keeps Q s) : Keeps Q
  (State.recompileLost s old gone i) := by
  simp only [State.recompileLost]
  with_reducible repeat' (first
    | assumption | apply keeps_ite | apply setMould_keeps | apply rejectEntry_keeps
    | (simp only [keeps_mk]; apply keeps_fold) | split | dsimp only)

theorem recompileAll_keeps {Q : List Instr} (s : State) (gone : List Nat) (hk : Keeps Q s) : Keeps Q (State.recompileAll s gone)
  := by
  simp only [State.recompileAll]
  with_reducible repeat' (first
    | assumption | intro _ | apply recompileLost_keeps | apply recompileRecord_keeps | (apply keeps_foldl; intro _ _ _)
    | (simp only [keeps_mk]; apply keeps_fold) | dsimp only)

theorem retireLoop_keeps {Q : List Instr} (s : State) (l : Nat) (restore : Bool) (hk : Keeps Q s) : Keeps Q (State.retireLoop s
  l restore) := by
  simp only [State.retireLoop]
  with_reducible repeat' (first
    | assumption | intro _ | apply keeps_ite | apply changeLoop_keeps | apply fill_put_keeps
    | refine keepsFill_fst (by assumption) ?_ | (apply keepsFill_foldl; intro _ _ _) | split | dsimp only)

theorem retire_keeps {Q : List Instr} (s : State) (i : Nat) (restore port : Bool) (hk : Keeps Q s) : KeepsOpt Q (State.retire s
  i restore port) := by
  simp only [State.retire]
  with_reducible repeat' (first
    | assumption | apply keeps_ite | apply retireLoop_keeps | apply recompileAll_keeps | apply dropCell_keeps
    | apply zeroElement_keeps | exact keepsOpt_none | apply keepsOpt_some | apply keepsOpt_ite
    | (apply keepsOpt_map; intro _) | (simp only [keeps_mk]; apply keeps_fold) | split | dsimp only)

theorem restartCore_keeps {Q : List Instr} (s : State) (n : Nat) (hk : Keeps Q s) : Keeps Q (State.restartCore s n) := by
  simp only [State.restartCore]
  with_reducible repeat' (first
    | assumption | intro _ | apply resetMaster_keeps | apply setCore_keeps | (apply keeps_foldl; intro _ _ _)
    | (simp only [keeps_mk]; apply keeps_fold) | dsimp only)

theorem pass_keeps {Q : List Instr} (s : State) (j : Job) (hk : Keeps Q s) : Keeps Q (State.pass s j) := by
  simp only [State.pass]
  with_reducible repeat' (first
    | assumption | intro _ | apply keeps_ite | apply changeJob_keeps | apply trim_keeps | apply claimAll_keeps
    | apply endJob_keeps | apply nextCompile_keeps | apply loadHeat_keeps | apply loseStandby_keeps | apply resetDie_keeps
    | apply setCore_keeps | apply setFld_keeps | apply beginHandover_keeps | apply spareWrite_keeps
    | (apply keeps_foldl; intro _ _ _) | (simp only [keeps_mk]; apply keeps_fold) | split | dsimp only)

theorem safePoint_keeps {Q : List Instr} (s : State) (id progress : Nat) (hk : Keeps Q s) : Keeps Q (State.safePoint s id
  progress) := by
  simp only [State.safePoint]
  with_reducible repeat' (first
    | assumption | intro _ | apply keeps_ite | apply changeJob_keeps | apply passTo_keeps | apply transferFrom_keeps
    | apply renewFlasks_keeps | apply take_keeps | apply migrate_keeps | apply endJob_keeps | apply giveUp_keeps
    | apply calBusy_keeps | apply surveyFabric_keeps | apply pass_keeps | (apply keeps_foldl; intro _ _ _)
    | (simp only [keeps_mk]; apply keeps_fold) | split | dsimp only)

theorem execJobSafePoint_keeps {Q : List Instr} (job : BitVec 16) (progress : Nat) (s : State) (hk : Keeps Q s) : ∀ ans,
  execJobSafePoint job progress s = .next ans → Keeps Q ans := by
  intro ans e
  injection e with e
  subst e
  with_reducible repeat' (first | assumption | apply safePoint_keeps | dsimp only)

theorem makeStanding_keeps {Q : List Instr} (s : State) (j : Job) (rs : List Nat) (hk : Keeps Q s) : Keeps Q (State.makeStanding
  s j rs) := by
  simp only [State.makeStanding]
  with_reducible repeat' (first
    | assumption | intro _ | apply keeps_ite | apply setClaim_keeps | (apply keeps_foldl; intro _ _ _)
    | (simp only [keeps_mk]; apply keeps_fold) | split | dsimp only)

theorem endStandings_keeps {Q : List Instr} (s : State) (hk : Keeps Q s) : Keeps Q (State.endStandings s) := by
  simp only [State.endStandings]
  with_reducible repeat' (first
    | assumption | intro _ | apply keeps_ite | apply freeClaim_keeps | (apply keeps_foldl; intro _ _ _) | split | dsimp only)

theorem finish_keeps {Q : List Instr} (s : State) (j : Job) (hk : Keeps Q s) : KeepsSum Q (State.finish s j) := by
  simp only [State.finish]
  with_reducible repeat' (first
    | assumption | apply keeps_ite | apply endPass_keeps | apply transferFrom_keeps | apply activateSlot_keeps
    | apply renewFlasks_keeps | apply retire_keeps | apply migrate_keeps | apply migrateMarks_keeps
    | apply makeStanding_keeps | apply endStandings_keeps | apply restartCore_keeps | apply setFld_keeps | intro _
    | (apply keeps_foldl; intro _ _ _) | exact keepsSum_none | apply keepsSum_some | apply keepsSum_ite
    | refine keepsOpt_get (by assumption) ?_ | (simp only [keeps_mk]; apply keeps_fold) | split | dsimp only)

theorem bootSlot_keeps {Q : List Instr} (s : State) (k : Nat) (b : Bool) (hk : Keeps Q s) : Keeps Q (State.bootSlot s k b) := by
  simp only [State.bootSlot]
  with_reducible repeat' (first | assumption | apply setFld_keeps | dsimp only)

theorem heatFailed_keeps {Q : List Instr} (s : State) (k : JobKind) (hk : Keeps Q s) : Keeps Q (State.heatFailed s k) := by
  simp only [State.heatFailed]
  with_reducible repeat' (first
    | assumption | apply keeps_ite | apply nextState_keeps | (simp only [keeps_mk]; apply keeps_fold) | split | dsimp only)

theorem slotRuns_keeps {Q : List Instr} (s : State) (k : JobKind) (hk : Keeps Q s) : Keeps Q (State.slotRuns s k) := by
  simp only [State.slotRuns]
  with_reducible repeat' (first
    | assumption | apply bootSlot_keeps | (simp only [keeps_mk]; apply keeps_fold) | split | dsimp only)

theorem completeJob_keeps {Q : List Instr} (s : State) (id : Nat) (result : JobEnd) (hk : Keeps Q s) :
    Keeps Q (s.completeJob id result) := by
  have hf := fun j => finish_keeps s j hk
  unfold State.completeJob
  split
  · exact hk
  · split
    · exact hk
    · split
      · exact endJob_keeps _ _ _ _ (heatFailed_keeps _ _ hk)
      · split
        · exact endJob_keeps _ _ _ _ hk
        · split
          · exact hk
          · exact endJob_keeps _ _ _ _ (changeJob_keeps _ _ _ (slotRuns_keeps _ _ (hf _ _ _ (by assumption))))
          · exact endJob_keeps _ _ _ _ (heatFailed_keeps _ _ (hf _ _ _ (by assumption)))

theorem execJobComplete_keeps {Q : List Instr} (job : BitVec 16) (result : JobEnd) (s : State) (hk : Keeps Q s) : ∀ ans,
  execJobComplete job result s = .next ans → Keeps Q ans := by
  intro ans e
  injection e with e
  subst e
  with_reducible repeat' (first | assumption | apply completeJob_keeps | dsimp only)

theorem execJobEntryFree_keeps {Q : List Instr} (job : BitVec 16) (s : State) (hk : Keeps Q s) : ∀ ans, execJobEntryFree job s =
  .next ans → Keeps Q ans := by
  intro ans e
  injection e with e
  subst e
  with_reducible repeat' (first
    | assumption | apply keeps_ite | apply untilNow_keeps | apply freeEntry_keeps | (simp only [keeps_mk]; apply keeps_fold)
    | split | dsimp only)

theorem flowEdit_keeps {Q : List Instr} (s : State) (v : Word) (hk : Keeps Q s) : Keeps Q (State.flowEdit s v) := by
  simp only [State.flowEdit]
  with_reducible repeat' (first
    | assumption | apply keeps_ite | apply setFlow_keeps | (simp only [keeps_mk]; apply keeps_fold) | split | dsimp only)

theorem execJobFlowEdit_keeps {Q : List Instr} (m : Master) (v : Word) (s : State) (hk : Keeps Q s) : ∀ ans, execJobFlowEdit m v
  s = .next ans → Keeps Q ans := by
  intro ans e
  injection e with e
  subst e
  with_reducible repeat' (first | assumption | intro _ | apply atReg_keeps | apply flowEdit_keeps | dsimp only)

/-! ## Machine/Registers.lean -/

theorem codeWrite_keeps {Q : List Instr} (s : State) (r : RegDesc) (off : Nat) (v : Word) (hk : Keeps Q s) : Keeps Q
  (State.codeWrite s r off v) := by
  simp only [State.codeWrite]
  with_reducible repeat' (first | assumption | apply setReg_keeps | apply markDirty_keeps | dsimp only)

theorem resetWrite_keeps {Q : List Instr} (s : State) (m : Master) (v : Word) (hk : Keeps Q s) : Keeps Q (State.resetWrite s m
  v) := by
  simp only [State.resetWrite]
  with_reducible repeat' (first
    | assumption | apply keeps_ite | apply refuseReg_keeps | apply warmReset_keeps | apply cold_keeps | apply freeNat_keeps
    | apply rcvLoad_keeps | refine keeps_snd (by assumption) ?_ | split | dsimp only)

theorem lockWrite_keeps {Q : List Instr} (s : State) (m : Master) (v : Word) (hk : Keeps Q s) : Keeps Q (State.lockWrite s m v)
  := by
  simp only [State.lockWrite]
  with_reducible repeat' (first
    | assumption | apply keeps_ite | apply refuse_keeps | apply freeWord_keeps | apply challenge_keeps
    | apply respondG_keeps | apply respondC_keeps | apply password_keeps | apply lockCloses_keeps
    | refine keeps_snd (by assumption) ?_ | (simp only [keeps_mk]; apply keeps_fold) | split | dsimp only)

theorem respWrite_keeps {Q : List Instr} (s : State) (m : Master) (off : Nat) (v : Word) (hk : Keeps Q s) : Keeps Q
  (State.respWrite s m off v) := by
  simp only [State.respWrite]
  with_reducible repeat' (first | assumption | apply keeps_ite | apply refuse_keeps | apply setReg_keeps | split | dsimp only)

theorem cdWrite_keeps {Q : List Instr} (s : State) (m : Master) (v : Word) (hk : Keeps Q s) : Keeps Q (State.cdWrite s m v) :=
  by
  simp only [State.cdWrite]
  with_reducible repeat' (first
    | assumption | apply keeps_ite | apply cdSwitch_keeps | apply cdRemove_keeps | apply cdRejoin_keeps
    | apply refuseReg_keeps | (simp only [keeps_mk]; apply keeps_fold) | split | dsimp only)

theorem commitWrite_keeps {Q : List Instr} (s : State) (m : Master) (v : Word) (hk : Keeps Q s) : Keeps Q (State.commitWrite s m
  v) := by
  simp only [State.commitWrite]
  with_reducible repeat' (first
    | assumption | apply keeps_ite | apply refuseReg_keeps | apply commitBy_keeps | apply cancelBy_keeps | split
    | dsimp only)

theorem schedWrite_keeps {Q : List Instr} (s : State) (r : RegDesc) (m : Master) (v : Word) (hk : Keeps Q s) : Keeps Q
  (State.schedWrite s r m v) := by
  simp only [State.schedWrite]
  with_reducible repeat' (first
    | assumption | apply keeps_ite | apply codeWrite_keeps | apply refuseReg_keeps | split | dsimp only)

theorem baseWrite_keeps {Q : List Instr} (s : State) (r : RegDesc) (off n : Nat) (v : Word) (hk : Keeps Q s) : Keeps Q
  (State.baseWrite s r off n v) := by
  simp only [State.baseWrite]
  with_reducible repeat' (first
    | assumption | apply keeps_ite | apply codeWrite_keeps | apply setFld_keeps | (simp only [keeps_mk]; apply keeps_fold)
    | split | dsimp only)

theorem nextWrite_keeps {Q : List Instr} (s : State) (r : RegDesc) (m : Master) (off : Nat) (v : Word) (hk : Keeps Q s) : Keeps
  Q (State.nextWrite s r m off v) := by
  simp only [State.nextWrite]
  with_reducible repeat' (first
    | assumption | apply keeps_ite | apply codeWrite_keeps | apply refuseReg_keeps | split | dsimp only)

theorem swapWrite_keeps {Q : List Instr} (s : State) (r : RegDesc) (m : Master) (off sp : Nat) (v : Word) (hk : Keeps Q s) :
  Keeps Q (State.swapWrite s r m off sp v) := by
  simp only [State.swapWrite]
  with_reducible repeat' (first
    | assumption | apply keeps_ite | apply codeWrite_keeps | apply swapOn_keeps | apply swapOff_keeps | split | dsimp only)

theorem queueCfgWrite_keeps {Q : List Instr} (s : State) (r : RegDesc) (off q : Nat) (v : Word) (hk : Keeps Q s) : Keeps Q
  (State.queueCfgWrite s r off q v) := by
  simp only [State.queueCfgWrite]
  with_reducible repeat' (first
    | assumption | apply keeps_ite | apply leaveActive_keeps | apply codeWrite_keeps | apply joinActive_keeps | split
    | dsimp only)

theorem ringBaseWrite_keeps {Q : List Instr} (s : State) (r : RegDesc) (m : Master) (off p : Nat) (low : Bool) (v : Word) (hk :
  Keeps Q s) : Keeps Q (State.ringBaseWrite s r m off p low v) := by
  simp only [State.ringBaseWrite]
  with_reducible repeat' (first
    | assumption | apply keeps_ite | apply refuseReg_keeps | apply codeWrite_keeps | split | dsimp only)

theorem eventBaseWrite_keeps {Q : List Instr} (s : State) (r : RegDesc) (m : Master) (off t l : Nat) (low : Bool) (v : Word) (hk
  : Keeps Q s) : Keeps Q (State.eventBaseWrite s r m off t l low v) := by
  simp only [State.eventBaseWrite]
  with_reducible repeat' (first
    | assumption | apply keeps_ite | apply refuseReg_keeps | apply codeWrite_keeps | split | dsimp only)

theorem sourceWrite_keeps {Q : List Instr} (s : State) (r : RegDesc) (off n : Nat) (v : Word) (hk : Keeps Q s) : Keeps Q
  (State.sourceWrite s r off n v) := by
  simp only [State.sourceWrite]
  with_reducible repeat' (first
    | assumption | intro _ | apply codeWrite_keeps | apply clearStatus_keeps | apply thermalKeeps_keeps
    | (simp only [keeps_mk]; apply keeps_fold) | dsimp only)

theorem busStatusWrite_keeps {Q : List Instr} (s : State) (r : RegDesc) (m : Master) (v : Word) (hk : Keeps Q s) : Keeps Q
  (State.busStatusWrite s r m v) := by
  simp only [State.busStatusWrite]
  with_reducible repeat' (first
    | assumption | apply keeps_ite | apply codeWrite_keeps | apply setFld_keeps | split | dsimp only)

theorem loopCmdWrite_keeps {Q : List Instr} (s : State) (m : Master) (v : Word) (hk : Keeps Q s) : Keeps Q (State.loopCmdWrite s
  m v) := by
  simp only [State.loopCmdWrite]
  with_reducible repeat' (first | assumption | apply keeps_ite | apply loopCmd_keeps | split | dsimp only)

theorem mapWrite_keeps {Q : List Instr} (s : State) (r : RegDesc) (m : Master) (off f : Nat) (v : Word) (hk : Keeps Q s) : Keeps
  Q (State.mapWrite s r m off f v) := by
  simp only [State.mapWrite]
  with_reducible repeat' (first
    | assumption | apply keeps_ite | apply handover_keeps | apply codeWrite_keeps | split | dsimp only)

theorem regEffect_keeps {Q : List Instr} (s : State) (m : Master) (r : RegDesc) (i j off : Nat) (v : Word) (hk : Keeps Q s) :
  Keeps Q (State.regEffect s m r i j off v) := by
  simp only [State.regEffect]
  with_reducible repeat' (first
    | assumption | apply keeps_ite | apply stateReq_keeps | apply resetWrite_keeps | apply ringBaseWrite_keeps
    | apply jobRingCtrl_keeps | apply flowEdit_keeps | apply schedWrite_keeps | apply baseWrite_keeps
    | apply nextWrite_keeps | apply commitWrite_keeps | apply pilotCtrl_keeps | apply cmpReq_keeps | apply loopCmd_keeps
    | apply loopCmdWrite_keeps | apply codeWrite_keeps | apply setPset_keeps | apply mapWrite_keeps | apply legWrite0_keeps
    | apply legWrite1_keeps | apply spanWord_keeps | apply urgReq_keeps | apply spareWrite_keeps | apply grpCommit_keeps
    | apply swapWrite_keeps | apply queueCfgWrite_keeps | apply remapWrite_keeps | apply sliceWrite_keeps
    | apply busStatusWrite_keeps | apply redirWrite_keeps | apply eoiBy_keeps | apply eventBaseWrite_keeps
    | apply ringCtrlWrite_keeps | apply ringHeadWrite_keeps | apply cdWrite_keeps | apply errSettle_keeps
    | apply sourceWrite_keeps | apply lockWrite_keeps | apply respWrite_keeps | split | dsimp only)

theorem writeReg_keeps {Q : List Instr} (s : State) (m : Master) (off : Nat) (v : Word) (hk : Keeps Q s) : Keeps Q
  (State.writeReg s m off v) := by
  simp only [State.writeReg]
  with_reducible repeat' (first
    | assumption | intro _ | apply keeps_ite | apply refuse_keeps | apply atReg_keeps | apply regEffect_keeps
    | (simp only [keeps_mk]; apply keeps_fold) | split | dsimp only)

theorem busWrite_keeps {Q : List Instr} (s : State) (m : Master) (w : BusWrite) (hk : Keeps Q s) : Keeps Q (State.busWrite s m
  w) := by
  simp only [State.busWrite]
  with_reducible repeat' (first
    | assumption | intro _ | apply keeps_ite | apply hostWaits_keeps | apply refuse_keeps | apply inHand_keeps
    | apply writeReg_keeps | (apply keeps_foldl; intro _ _ _) | (simp only [keeps_mk]; apply keeps_fold) | split
    | dsimp only)

theorem execRegisterWrite_keeps {Q : List Instr} (m : Master) (w : BusWrite) (s : State) (hk : Keeps Q s) : ∀ ans,
  execRegisterWrite m w s = .next ans → Keeps Q ans := by
  intro ans e
  injection e with e
  subst e
  with_reducible repeat' (first | assumption | apply busWrite_keeps | dsimp only)

theorem readReg_keeps {Q : List Instr} (s : State) (m : Master) (off : Nat) (hk : Keeps Q s) : Keeps Q (State.readReg s m off).2
  := by
  simp only [State.readReg]
  with_reducible repeat' (first
    | assumption | apply keeps_ite | apply refuse_keeps | apply accept_keeps | apply latchTime_keeps
    | (simp only [keeps_mk]; apply keeps_fold) | split | dsimp only)

/-! ## Machine/Windows.lean -/

theorem bankPiece_keeps {Q : List Instr} (s : State) (m : Master) (p : Piece) (off : Nat) (hk : Keeps Q s) : Keeps Q
  (State.bankPiece s m p off) := by
  simp only [State.bankPiece]
  with_reducible repeat' (first | assumption | intro _ | apply keeps_ite | apply bankWrite_keeps | split | dsimp only)

theorem queuePiece_keeps {Q : List Instr} (s : State) (p : Piece) (off : Nat) (hk : Keeps Q s) : Keeps Q (State.queuePiece s p
  off) := by
  simp only [State.queuePiece]
  with_reducible repeat' (first
    | assumption | apply keeps_ite | apply refuse_keeps | apply setQueue_keeps | (simp only [keeps_mk]; apply keeps_fold)
    | split | dsimp only)

theorem groupPiece_keeps {Q : List Instr} (s : State) (p : Piece) (off : Nat) (hk : Keeps Q s) : Keeps Q (State.groupPiece s p
  off) := by
  simp only [State.groupPiece]
  with_reducible repeat' (first
    | assumption | apply keeps_ite | apply refuse_keeps | apply setGroup_keeps | (simp only [keeps_mk]; apply keeps_fold)
    | split | dsimp only)

theorem shadowPiece_keeps {Q : List Instr} (s : State) (p : Piece) (k : Nat) (hk : Keeps Q s) : Keeps Q (State.shadowPiece s p
  k) := by
  simp only [State.shadowPiece]
  with_reducible repeat' (first | assumption | intro _ | (simp only [keeps_mk]; apply keeps_fold) | dsimp only)

theorem areaPiece_keeps {Q : List Instr} (s : State) (p : Piece) (off : Nat) (hk : Keeps Q s) : Keeps Q (State.areaPiece s p
  off) := by
  simp only [State.areaPiece]
  with_reducible repeat' (first | assumption | intro _ | (simp only [keeps_mk]; apply keeps_fold) | dsimp only)

theorem flaskPiece_keeps {Q : List Instr} (s : State) (p : Piece) (k off : Nat) (hk : Keeps Q s) : Keeps Q (State.flaskPiece s p
  k off) := by
  simp only [State.flaskPiece]
  with_reducible repeat' (first
    | assumption | apply keeps_ite | apply refuse_keeps | apply storeWord_keeps | split | dsimp only)

theorem ladlePiece_keeps {Q : List Instr} (s : State) (p : Piece) (off : Nat) (hk : Keeps Q s) : Keeps Q (State.ladlePiece s p
  off) := by
  simp only [State.ladlePiece]
  with_reducible repeat' (first
    | assumption | apply keeps_ite | apply refuse_keeps | apply queuePiece_keeps | apply groupPiece_keeps
    | apply shadowPiece_keeps | split | dsimp only)

theorem bar2Piece_keeps {Q : List Instr} (s : State) (m : Master) (p : Piece) (hk : Keeps Q s) : Keeps Q (State.bar2Piece s m p)
  := by
  simp only [State.bar2Piece]
  with_reducible repeat' (first
    | assumption | apply keeps_ite | apply refuse_keeps | apply putWord_keeps | apply areaPiece_keeps
    | apply bankPiece_keeps | apply flaskPiece_keeps | apply ladlePiece_keeps | split | dsimp only)

theorem bar2Write_keeps {Q : List Instr} (s : State) (m : Master) (w : BusWrite) (hk : Keeps Q s) : Keeps Q (State.bar2Write s m
  w) := by
  simp only [State.bar2Write]
  with_reducible repeat' (first
    | assumption | intro _ | apply keeps_ite | apply hostWaits_keeps | apply refuse_keeps | apply inHand_keeps
    | apply bar2Piece_keeps | (apply keeps_foldl; intro _ _ _) | split | dsimp only)

theorem execBar2Write_keeps {Q : List Instr} (m : Master) (w : BusWrite) (s : State) (hk : Keeps Q s) : ∀ ans, execBar2Write m w
  s = .next ans → Keeps Q ans := by
  intro ans e
  injection e with e
  subst e
  with_reducible repeat' (first | assumption | apply bar2Write_keeps | dsimp only)

end Sys2Proof.Machine
end

