-- ==== Sys2Proof/Laws/KeepsCloby.lean ====
section
/-!
SUPPORT. The queue and the register file kept by the Cloby instruction set: one lemma for each operation,
proved over those of the operations it is made of.
-/
namespace Sys2Proof.Machine

set_option linter.all false

/-! ## Machine/Operands.lean -/

theorem handlerAbandons_keeps {Q : List Instr} (s : State) (id : CoreId) (cause : Nat) (hk : Keeps Q s) : Keeps Q
  (State.handlerAbandons s id cause) := by
  simp only [State.handlerAbandons]
  with_reducible repeat' (first | assumption | apply keeps_ite | apply abandonDecomposition_keeps | split | dsimp only)

theorem trap_keeps {Q : List Instr} (s : State) (id : CoreId) (cause code : Nat) (tval : Word) (hk : Keeps Q s) : Keeps Q
  (State.trap s id cause code tval) := by
  simp only [State.trap]
  with_reducible repeat' (first
    | assumption | apply keeps_ite | apply setCore_keeps | apply raise_keeps | apply handlerAbandons_keeps
    | (simp only [keeps_mk]; apply keeps_fold) | split | dsimp only)

theorem onCore_keeps {Q : List Instr} (s : State) (id : CoreId) (legal : Bool) (enc : Word) (effect : Core → State → State)
  (hkeffect : ∀ x0 x1, Keeps Q x1 → Keeps Q (effect x0 x1)) (hk : Keeps Q s) : Keeps Q (State.onCore s id legal enc effect) :=
  by
  simp only [State.onCore]
  with_reducible repeat' (first
    | assumption | intro _ | apply keeps_ite | apply trap_keeps | apply hkeffect | split | dsimp only)

theorem pure_keeps {Q : List Instr} (s : State) (id : CoreId) (legal : Bool) (enc : Word) (cycles : Nat) (f : Core → Core) (hk :
  Keeps Q s) : Keeps Q (State.pure s id legal enc cycles f) := by
  simp only [State.pure]
  with_reducible repeat' (first
    | assumption | intro _ | apply onCore_keeps | apply setCore_keeps | apply retire_keeps
    | refine keepsOpt_get (by assumption) ?_ | dsimp only)

theorem formD_keeps {Q : List Instr} (s : State) (id : CoreId) (legal : Bool) (f : FormD) (major sub cycles : Nat) (effect :
  Core → State → State) (hkeffect : ∀ x0 x1, Keeps Q x1 → Keeps Q (effect x0 x1)) (hk : Keeps Q s) : Keeps Q (State.formD s id
  legal f major sub cycles effect) := by
  simp only [State.formD]
  with_reducible repeat' (first
    | assumption | intro _ | apply keeps_ite | apply onCore_keeps | apply setCore_keeps | apply retire_keeps
    | apply hkeffect | refine keepsOpt_get (by assumption) ?_ | split | dsimp only)

/-! ## Machine/ClobyInt.lean -/

theorem alu_keeps {Q : List Instr} (s : State) (id : CoreId) (f : FormA) (func : Nat) (g : Word → Word → Word) (hk : Keeps Q s)
  : Keeps Q (State.alu s id f func g) := by
  simp only [State.alu]
  with_reducible repeat' (first | assumption | intro _ | apply pure_keeps | dsimp only)

theorem aluSat_keeps {Q : List Instr} (s : State) (id : CoreId) (f : FormA) (major func : Nat) (g : Core → Int) (hk : Keeps Q s)
  : Keeps Q (State.aluSat s id f major func g) := by
  simp only [State.aluSat]
  with_reducible repeat' (first | assumption | intro _ | apply pure_keeps | dsimp only)

theorem aluImm_keeps {Q : List Instr} (s : State) (id : CoreId) (f : FormB) (major : Nat) (legal : Bool) (g : Word → BitVec 16 →
  Word) (hk : Keeps Q s) : Keeps Q (State.aluImm s id f major legal g) := by
  simp only [State.aluImm]
  with_reducible repeat' (first | assumption | intro _ | apply pure_keeps | dsimp only)

theorem sel_keeps {Q : List Instr} (s : State) (id : CoreId) (f : FormA) (func : Nat) (p : Core → Bool) (hk : Keeps Q s) : Keeps
  Q (State.sel s id f func p) := by
  simp only [State.sel]
  with_reducible repeat' (first | assumption | intro _ | apply keeps_ite | apply pure_keeps | split | dsimp only)

theorem fieldOp_keeps {Q : List Instr} (s : State) (id : CoreId) (f : FormB) (major : Nat) (g : Core → Word) (hk : Keeps Q s) :
  Keeps Q (State.fieldOp s id f major g) := by
  simp only [State.fieldOp]
  with_reducible repeat' (first
    | assumption | intro _ | apply keeps_ite | apply onCore_keeps | apply setCore_keeps | apply retire_keeps
    | apply freeWord_keeps | refine keepsOpt_get (by assumption) ?_ | refine keeps_snd (by assumption) ?_ | split
    | dsimp only)

theorem execAdd_keeps {Q : List Instr} (c : CoreId) (f : FormA) (s : State) (hk : Keeps Q s) : ∀ ans, execAdd c f s = .next ans
  → Keeps Q ans := by
  intro ans e
  injection e with e
  subst e
  with_reducible repeat' (first | assumption | intro _ | apply alu_keeps | dsimp only)

theorem execSub_keeps {Q : List Instr} (c : CoreId) (f : FormA) (s : State) (hk : Keeps Q s) : ∀ ans, execSub c f s = .next ans
  → Keeps Q ans := by
  intro ans e
  injection e with e
  subst e
  with_reducible repeat' (first | assumption | intro _ | apply alu_keeps | dsimp only)

theorem execAnd_keeps {Q : List Instr} (c : CoreId) (f : FormA) (s : State) (hk : Keeps Q s) : ∀ ans, execAnd c f s = .next ans
  → Keeps Q ans := by
  intro ans e
  injection e with e
  subst e
  with_reducible repeat' (first | assumption | intro _ | apply alu_keeps | dsimp only)

theorem execOr_keeps {Q : List Instr} (c : CoreId) (f : FormA) (s : State) (hk : Keeps Q s) : ∀ ans, execOr c f s = .next ans →
  Keeps Q ans := by
  intro ans e
  injection e with e
  subst e
  with_reducible repeat' (first | assumption | intro _ | apply alu_keeps | dsimp only)

theorem execXor_keeps {Q : List Instr} (c : CoreId) (f : FormA) (s : State) (hk : Keeps Q s) : ∀ ans, execXor c f s = .next ans
  → Keeps Q ans := by
  intro ans e
  injection e with e
  subst e
  with_reducible repeat' (first | assumption | intro _ | apply alu_keeps | dsimp only)

theorem execAndn_keeps {Q : List Instr} (c : CoreId) (f : FormA) (s : State) (hk : Keeps Q s) : ∀ ans, execAndn c f s = .next
  ans → Keeps Q ans := by
  intro ans e
  injection e with e
  subst e
  with_reducible repeat' (first | assumption | intro _ | apply alu_keeps | dsimp only)

theorem execAdds_keeps {Q : List Instr} (c : CoreId) (f : FormA) (s : State) (hk : Keeps Q s) : ∀ ans, execAdds c f s = .next
  ans → Keeps Q ans := by
  intro ans e
  injection e with e
  subst e
  with_reducible repeat' (first | assumption | intro _ | apply aluSat_keeps | dsimp only)

theorem execSubs_keeps {Q : List Instr} (c : CoreId) (f : FormA) (s : State) (hk : Keeps Q s) : ∀ ans, execSubs c f s = .next
  ans → Keeps Q ans := by
  intro ans e
  injection e with e
  subst e
  with_reducible repeat' (first | assumption | intro _ | apply aluSat_keeps | dsimp only)

theorem execSll_keeps {Q : List Instr} (c : CoreId) (f : FormA) (s : State) (hk : Keeps Q s) : ∀ ans, execSll c f s = .next ans
  → Keeps Q ans := by
  intro ans e
  injection e with e
  subst e
  with_reducible repeat' (first | assumption | intro _ | apply alu_keeps | dsimp only)

theorem execSrl_keeps {Q : List Instr} (c : CoreId) (f : FormA) (s : State) (hk : Keeps Q s) : ∀ ans, execSrl c f s = .next ans
  → Keeps Q ans := by
  intro ans e
  injection e with e
  subst e
  with_reducible repeat' (first | assumption | intro _ | apply alu_keeps | dsimp only)

theorem execSra_keeps {Q : List Instr} (c : CoreId) (f : FormA) (s : State) (hk : Keeps Q s) : ∀ ans, execSra c f s = .next ans
  → Keeps Q ans := by
  intro ans e
  injection e with e
  subst e
  with_reducible repeat' (first | assumption | intro _ | apply alu_keeps | dsimp only)

theorem execSrar_keeps {Q : List Instr} (c : CoreId) (f : FormA) (s : State) (hk : Keeps Q s) : ∀ ans, execSrar c f s = .next
  ans → Keeps Q ans := by
  intro ans e
  injection e with e
  subst e
  with_reducible repeat' (first | assumption | intro _ | apply alu_keeps | dsimp only)

theorem execSllv_keeps {Q : List Instr} (c : CoreId) (f : FormA) (s : State) (hk : Keeps Q s) : ∀ ans, execSllv c f s = .next
  ans → Keeps Q ans := by
  intro ans e
  injection e with e
  subst e
  with_reducible repeat' (first | assumption | intro _ | apply alu_keeps | dsimp only)

theorem execSrlv_keeps {Q : List Instr} (c : CoreId) (f : FormA) (s : State) (hk : Keeps Q s) : ∀ ans, execSrlv c f s = .next
  ans → Keeps Q ans := by
  intro ans e
  injection e with e
  subst e
  with_reducible repeat' (first | assumption | intro _ | apply alu_keeps | dsimp only)

theorem execSrav_keeps {Q : List Instr} (c : CoreId) (f : FormA) (s : State) (hk : Keeps Q s) : ∀ ans, execSrav c f s = .next
  ans → Keeps Q ans := by
  intro ans e
  injection e with e
  subst e
  with_reducible repeat' (first | assumption | intro _ | apply alu_keeps | dsimp only)

theorem execMin_keeps {Q : List Instr} (c : CoreId) (f : FormA) (s : State) (hk : Keeps Q s) : ∀ ans, execMin c f s = .next ans
  → Keeps Q ans := by
  intro ans e
  injection e with e
  subst e
  with_reducible repeat' (first | assumption | intro _ | apply keeps_ite | apply alu_keeps | split | dsimp only)

theorem execMax_keeps {Q : List Instr} (c : CoreId) (f : FormA) (s : State) (hk : Keeps Q s) : ∀ ans, execMax c f s = .next ans
  → Keeps Q ans := by
  intro ans e
  injection e with e
  subst e
  with_reducible repeat' (first | assumption | intro _ | apply keeps_ite | apply alu_keeps | split | dsimp only)

theorem execAbs_keeps {Q : List Instr} (c : CoreId) (f : FormA) (s : State) (hk : Keeps Q s) : ∀ ans, execAbs c f s = .next ans
  → Keeps Q ans := by
  intro ans e
  injection e with e
  subst e
  with_reducible repeat' (first | assumption | intro _ | apply aluSat_keeps | dsimp only)

theorem execSelz_keeps {Q : List Instr} (c : CoreId) (f : FormA) (s : State) (hk : Keeps Q s) : ∀ ans, execSelz c f s = .next
  ans → Keeps Q ans := by
  intro ans e
  injection e with e
  subst e
  with_reducible repeat' (first | assumption | intro _ | apply sel_keeps | dsimp only)

theorem execSelc_keeps {Q : List Instr} (c : CoreId) (f : FormA) (s : State) (hk : Keeps Q s) : ∀ ans, execSelc c f s = .next
  ans → Keeps Q ans := by
  intro ans e
  injection e with e
  subst e
  with_reducible repeat' (first | assumption | intro _ | apply sel_keeps | dsimp only)

theorem execSeln_keeps {Q : List Instr} (c : CoreId) (f : FormA) (s : State) (hk : Keeps Q s) : ∀ ans, execSeln c f s = .next
  ans → Keeps Q ans := by
  intro ans e
  injection e with e
  subst e
  with_reducible repeat' (first | assumption | intro _ | apply sel_keeps | dsimp only)

theorem execSels_keeps {Q : List Instr} (c : CoreId) (f : FormA) (s : State) (hk : Keeps Q s) : ∀ ans, execSels c f s = .next
  ans → Keeps Q ans := by
  intro ans e
  injection e with e
  subst e
  with_reducible repeat' (first | assumption | intro _ | apply sel_keeps | dsimp only)

theorem execCmp_keeps {Q : List Instr} (c : CoreId) (f : FormA) (s : State) (hk : Keeps Q s) : ∀ ans, execCmp c f s = .next ans
  → Keeps Q ans := by
  intro ans e
  injection e with e
  subst e
  with_reducible repeat' (first | assumption | intro _ | apply pure_keeps | dsimp only)

theorem execTst_keeps {Q : List Instr} (c : CoreId) (f : FormA) (s : State) (hk : Keeps Q s) : ∀ ans, execTst c f s = .next ans
  → Keeps Q ans := by
  intro ans e
  injection e with e
  subst e
  with_reducible repeat' (first
    | assumption | intro _ | apply pure_keeps | (simp only [keeps_mk]; apply keeps_fold) | dsimp only)

theorem execExh_keeps {Q : List Instr} (c : CoreId) (f : FormA) (s : State) (hk : Keeps Q s) : ∀ ans, execExh c f s = .next ans
  → Keeps Q ans := by
  intro ans e
  injection e with e
  subst e
  with_reducible repeat' (first | assumption | intro _ | apply keeps_ite | apply alu_keeps | split | dsimp only)

theorem execInsh_keeps {Q : List Instr} (c : CoreId) (f : FormA) (s : State) (hk : Keeps Q s) : ∀ ans, execInsh c f s = .next
  ans → Keeps Q ans := by
  intro ans e
  injection e with e
  subst e
  with_reducible repeat' (first
    | assumption | intro _ | apply keeps_ite | apply pure_keeps | (simp only [keeps_mk]; apply keeps_fold) | split
    | dsimp only)

theorem execAddi_keeps {Q : List Instr} (c : CoreId) (f : FormB) (s : State) (hk : Keeps Q s) : ∀ ans, execAddi c f s = .next
  ans → Keeps Q ans := by
  intro ans e
  injection e with e
  subst e
  with_reducible repeat' (first | assumption | intro _ | apply aluImm_keeps | dsimp only)

theorem execAndi_keeps {Q : List Instr} (c : CoreId) (f : FormB) (s : State) (hk : Keeps Q s) : ∀ ans, execAndi c f s = .next
  ans → Keeps Q ans := by
  intro ans e
  injection e with e
  subst e
  with_reducible repeat' (first | assumption | intro _ | apply aluImm_keeps | dsimp only)

theorem execOri_keeps {Q : List Instr} (c : CoreId) (f : FormB) (s : State) (hk : Keeps Q s) : ∀ ans, execOri c f s = .next ans
  → Keeps Q ans := by
  intro ans e
  injection e with e
  subst e
  with_reducible repeat' (first | assumption | intro _ | apply aluImm_keeps | dsimp only)

theorem execXori_keeps {Q : List Instr} (c : CoreId) (f : FormB) (s : State) (hk : Keeps Q s) : ∀ ans, execXori c f s = .next
  ans → Keeps Q ans := by
  intro ans e
  injection e with e
  subst e
  with_reducible repeat' (first | assumption | intro _ | apply aluImm_keeps | dsimp only)

theorem execLui_keeps {Q : List Instr} (c : CoreId) (f : FormB) (s : State) (hk : Keeps Q s) : ∀ ans, execLui c f s = .next ans
  → Keeps Q ans := by
  intro ans e
  injection e with e
  subst e
  with_reducible repeat' (first | assumption | intro _ | apply aluImm_keeps | dsimp only)

theorem execCmpi_keeps {Q : List Instr} (c : CoreId) (f : FormB) (s : State) (hk : Keeps Q s) : ∀ ans, execCmpi c f s = .next
  ans → Keeps Q ans := by
  intro ans e
  injection e with e
  subst e
  with_reducible repeat' (first | assumption | intro _ | apply pure_keeps | dsimp only)

theorem execExtu_keeps {Q : List Instr} (c : CoreId) (f : FormB) (s : State) (hk : Keeps Q s) : ∀ ans, execExtu c f s = .next
  ans → Keeps Q ans := by
  intro ans e
  injection e with e
  subst e
  with_reducible repeat' (first | assumption | intro _ | apply fieldOp_keeps | dsimp only)

theorem execExts_keeps {Q : List Instr} (c : CoreId) (f : FormB) (s : State) (hk : Keeps Q s) : ∀ ans, execExts c f s = .next
  ans → Keeps Q ans := by
  intro ans e
  injection e with e
  subst e
  with_reducible repeat' (first | assumption | intro _ | apply fieldOp_keeps | dsimp only)

theorem execIns_keeps {Q : List Instr} (c : CoreId) (f : FormB) (s : State) (hk : Keeps Q s) : ∀ ans, execIns c f s = .next ans
  → Keeps Q ans := by
  intro ans e
  injection e with e
  subst e
  with_reducible repeat' (first
    | assumption | intro _ | apply fieldOp_keeps | (simp only [keeps_mk]; apply keeps_fold) | dsimp only)

theorem execMula_keeps {Q : List Instr} (c : CoreId) (f : FormA) (s : State) (hk : Keeps Q s) : ∀ ans, execMula c f s = .next
  ans → Keeps Q ans := by
  intro ans e
  injection e with e
  subst e
  with_reducible repeat' (first | assumption | intro _ | apply pure_keeps | dsimp only)

theorem accumulate_keeps {Q : List Instr} (s : State) (id : CoreId) (f : FormA) (func : Nat) (g : Core → Int) (hk : Keeps Q s) :
  Keeps Q (State.accumulate s id f func g) := by
  simp only [State.accumulate]
  with_reducible repeat' (first | assumption | intro _ | apply pure_keeps | dsimp only)

theorem execMaca_keeps {Q : List Instr} (c : CoreId) (f : FormA) (s : State) (hk : Keeps Q s) : ∀ ans, execMaca c f s = .next
  ans → Keeps Q ans := by
  intro ans e
  injection e with e
  subst e
  with_reducible repeat' (first | assumption | intro _ | apply accumulate_keeps | dsimp only)

theorem execMsua_keeps {Q : List Instr} (c : CoreId) (f : FormA) (s : State) (hk : Keeps Q s) : ∀ ans, execMsua c f s = .next
  ans → Keeps Q ans := by
  intro ans e
  injection e with e
  subst e
  with_reducible repeat' (first | assumption | intro _ | apply accumulate_keeps | dsimp only)

theorem execAccr_keeps {Q : List Instr} (c : CoreId) (f : FormA) (s : State) (hk : Keeps Q s) : ∀ ans, execAccr c f s = .next
  ans → Keeps Q ans := by
  intro ans e
  injection e with e
  subst e
  with_reducible repeat' (first | assumption | intro _ | apply aluSat_keeps | dsimp only)

theorem execAccw_keeps {Q : List Instr} (c : CoreId) (f : FormA) (s : State) (hk : Keeps Q s) : ∀ ans, execAccw c f s = .next
  ans → Keeps Q ans := by
  intro ans e
  injection e with e
  subst e
  with_reducible repeat' (first | assumption | intro _ | apply pure_keeps | dsimp only)

theorem execAccz_keeps {Q : List Instr} (c : CoreId) (f : FormA) (s : State) (hk : Keeps Q s) : ∀ ans, execAccz c f s = .next
  ans → Keeps Q ans := by
  intro ans e
  injection e with e
  subst e
  with_reducible repeat' (first | assumption | intro _ | apply pure_keeps | dsimp only)

theorem execMulsLu_keeps {Q : List Instr} (c : CoreId) (f : FormA) (s : State) (hk : Keeps Q s) : ∀ ans, execMulsLu c f s =
  .next ans → Keeps Q ans := by
  intro ans e
  injection e with e
  subst e
  with_reducible repeat' (first | assumption | apply aluSat_keeps | dsimp only)

theorem execMulsHu_keeps {Q : List Instr} (c : CoreId) (f : FormA) (s : State) (hk : Keeps Q s) : ∀ ans, execMulsHu c f s =
  .next ans → Keeps Q ans := by
  intro ans e
  injection e with e
  subst e
  with_reducible repeat' (first | assumption | apply aluSat_keeps | dsimp only)

theorem execMulsLs_keeps {Q : List Instr} (c : CoreId) (f : FormA) (s : State) (hk : Keeps Q s) : ∀ ans, execMulsLs c f s =
  .next ans → Keeps Q ans := by
  intro ans e
  injection e with e
  subst e
  with_reducible repeat' (first | assumption | apply aluSat_keeps | dsimp only)

theorem execMulsHs_keeps {Q : List Instr} (c : CoreId) (f : FormA) (s : State) (hk : Keeps Q s) : ∀ ans, execMulsHs c f s =
  .next ans → Keeps Q ans := by
  intro ans e
  injection e with e
  subst e
  with_reducible repeat' (first | assumption | apply aluSat_keeps | dsimp only)

theorem execMadLu_keeps {Q : List Instr} (c : CoreId) (f : FormA) (s : State) (hk : Keeps Q s) : ∀ ans, execMadLu c f s = .next
  ans → Keeps Q ans := by
  intro ans e
  injection e with e
  subst e
  with_reducible repeat' (first | assumption | intro _ | apply aluSat_keeps | dsimp only)

theorem execMadHu_keeps {Q : List Instr} (c : CoreId) (f : FormA) (s : State) (hk : Keeps Q s) : ∀ ans, execMadHu c f s = .next
  ans → Keeps Q ans := by
  intro ans e
  injection e with e
  subst e
  with_reducible repeat' (first | assumption | intro _ | apply aluSat_keeps | dsimp only)

theorem execMadLs_keeps {Q : List Instr} (c : CoreId) (f : FormA) (s : State) (hk : Keeps Q s) : ∀ ans, execMadLs c f s = .next
  ans → Keeps Q ans := by
  intro ans e
  injection e with e
  subst e
  with_reducible repeat' (first | assumption | intro _ | apply aluSat_keeps | dsimp only)

theorem execMadHs_keeps {Q : List Instr} (c : CoreId) (f : FormA) (s : State) (hk : Keeps Q s) : ∀ ans, execMadHs c f s = .next
  ans → Keeps Q ans := by
  intro ans e
  injection e with e
  subst e
  with_reducible repeat' (first | assumption | intro _ | apply aluSat_keeps | dsimp only)

theorem execMulw_keeps {Q : List Instr} (c : CoreId) (f : FormA) (s : State) (hk : Keeps Q s) : ∀ ans, execMulw c f s = .next
  ans → Keeps Q ans := by
  intro ans e
  injection e with e
  subst e
  with_reducible repeat' (first | assumption | intro _ | apply aluSat_keeps | dsimp only)

theorem execLim_keeps {Q : List Instr} (c : CoreId) (f : FormA) (s : State) (hk : Keeps Q s) : ∀ ans, execLim c f s = .next ans
  → Keeps Q ans := by
  intro ans e
  injection e with e
  subst e
  with_reducible repeat' (first
    | assumption | intro _ | apply pure_keeps | (simp only [keeps_mk]; apply keeps_fold) | dsimp only)

theorem execLimu_keeps {Q : List Instr} (c : CoreId) (f : FormA) (s : State) (hk : Keeps Q s) : ∀ ans, execLimu c f s = .next
  ans → Keeps Q ans := by
  intro ans e
  injection e with e
  subst e
  with_reducible repeat' (first | assumption | intro _ | apply pure_keeps | dsimp only)

/-! ## Machine/ClobyLoop.lean -/

theorem loopOp_keeps {Q : List Instr} (s : State) (id : CoreId) (f : FormA) (func : Nat) (legal : Bool) (g : Core → Core) (hk :
  Keeps Q s) : Keeps Q (State.loopOp s id f func legal g) := by
  simp only [State.loopOp]
  with_reducible repeat' (first | assumption | intro _ | apply pure_keeps | dsimp only)

theorem execErrs_keeps {Q : List Instr} (c : CoreId) (f : FormA) (s : State) (hk : Keeps Q s) : ∀ ans, execErrs c f s = .next
  ans → Keeps Q ans := by
  intro ans e
  injection e with e
  subst e
  with_reducible repeat' (first | assumption | intro _ | apply loopOp_keeps | dsimp only)

theorem execPia_keeps {Q : List Instr} (c : CoreId) (f : FormA) (s : State) (hk : Keeps Q s) : ∀ ans, execPia c f s = .next ans
  → Keeps Q ans := by
  intro ans e
  injection e with e
  subst e
  with_reducible repeat' (first | assumption | intro _ | apply loopOp_keeps | dsimp only)

theorem execPip_keeps {Q : List Instr} (c : CoreId) (f : FormA) (s : State) (hk : Keeps Q s) : ∀ ans, execPip c f s = .next ans
  → Keeps Q ans := by
  intro ans e
  injection e with e
  subst e
  with_reducible repeat' (first | assumption | intro _ | apply loopOp_keeps | dsimp only)

theorem execLimt_keeps {Q : List Instr} (c : CoreId) (f : FormA) (s : State) (hk : Keeps Q s) : ∀ ans, execLimt c f s = .next
  ans → Keeps Q ans := by
  intro ans e
  injection e with e
  subst e
  with_reducible repeat' (first
    | assumption | intro _ | apply loopOp_keeps | (simp only [keeps_mk]; apply keeps_fold) | dsimp only)

theorem execAwr_keeps {Q : List Instr} (c : CoreId) (f : FormA) (s : State) (hk : Keeps Q s) : ∀ ans, execAwr c f s = .next ans
  → Keeps Q ans := by
  intro ans e
  injection e with e
  subst e
  with_reducible repeat' (first | assumption | intro _ | apply loopOp_keeps | dsimp only)

theorem execIput_keeps {Q : List Instr} (c : CoreId) (f : FormA) (s : State) (hk : Keeps Q s) : ∀ ans, execIput c f s = .next
  ans → Keeps Q ans := by
  intro ans e
  injection e with e
  subst e
  with_reducible repeat' (first | assumption | intro _ | apply loopOp_keeps | dsimp only)

theorem execBld_keeps {Q : List Instr} (c : CoreId) (f : FormA) (s : State) (hk : Keeps Q s) : ∀ ans, execBld c f s = .next ans
  → Keeps Q ans := by
  intro ans e
  injection e with e
  subst e
  with_reducible repeat' (first | assumption | intro _ | apply loopOp_keeps | dsimp only)

theorem execBapp_keeps {Q : List Instr} (c : CoreId) (f : FormA) (s : State) (hk : Keeps Q s) : ∀ ans, execBapp c f s = .next
  ans → Keeps Q ans := by
  intro ans e
  injection e with e
  subst e
  with_reducible repeat' (first | assumption | intro _ | apply loopOp_keeps | dsimp only)

theorem execRail_keeps {Q : List Instr} (c : CoreId) (f : FormA) (s : State) (hk : Keeps Q s) : ∀ ans, execRail c f s = .next
  ans → Keeps Q ans := by
  intro ans e
  injection e with e
  subst e
  with_reducible repeat' (first | assumption | intro _ | apply loopOp_keeps | dsimp only)

theorem execLock_keeps {Q : List Instr} (c : CoreId) (f : FormA) (s : State) (hk : Keeps Q s) : ∀ ans, execLock c f s = .next
  ans → Keeps Q ans := by
  intro ans e
  injection e with e
  subst e
  with_reducible repeat' (first | assumption | intro _ | apply loopOp_keeps | dsimp only)

theorem execLive_keeps {Q : List Instr} (c : CoreId) (f : FormB) (s : State) (hk : Keeps Q s) : ∀ ans, execLive c f s = .next
  ans → Keeps Q ans := by
  intro ans e
  injection e with e
  subst e
  with_reducible repeat' (first
    | assumption | intro _ | apply pure_keeps | (simp only [keeps_mk]; apply keeps_fold) | dsimp only)

/-! ## Machine/ClobyTile.lean -/

theorem tileIo_keeps {Q : List Instr} (s : State) (id : CoreId) (f : FormD) (sub limit : Nat) (bounded : Bool) (effect : Core →
  Nat → Nat → State → State) (hkeffect : ∀ x0 x1 x2 x3, Keeps Q x3 → Keeps Q (effect x0 x1 x2 x3)) (hk : Keeps Q s) : Keeps Q
  (State.tileIo s id f sub limit bounded effect) := by
  simp only [State.tileIo]
  with_reducible repeat' (first
    | assumption | intro _ | apply keeps_ite | apply formD_keeps | apply trap_keeps | apply hkeffect
    | (simp only [keeps_mk]; apply keeps_fold) | split | dsimp only)

theorem sampleOp_keeps {Q : List Instr} (s : State) (id : CoreId) (f : FormD) (sub : Nat) (w : Core → Nat → Word) (hk : Keeps Q
  s) : Keeps Q (State.sampleOp s id f sub w) := by
  simp only [State.sampleOp]
  with_reducible repeat' (first
    | assumption | intro _ | apply tileIo_keeps | apply setCore_keeps | apply retire_keeps
    | refine keepsOpt_get (by assumption) ?_ | (simp only [keeps_mk]; apply keeps_fold) | dsimp only)

theorem execSmpe_keeps {Q : List Instr} (c : CoreId) (f : FormD) (s : State) (hk : Keeps Q s) : ∀ ans, execSmpe c f s = .next
  ans → Keeps Q ans := by
  intro ans e
  injection e with e
  subst e
  with_reducible repeat' (first | assumption | intro _ | apply sampleOp_keeps | dsimp only)

theorem execSmpd_keeps {Q : List Instr} (c : CoreId) (f : FormD) (s : State) (hk : Keeps Q s) : ∀ ans, execSmpd c f s = .next
  ans → Keeps Q ans := by
  intro ans e
  injection e with e
  subst e
  with_reducible repeat' (first | assumption | intro _ | apply sampleOp_keeps | dsimp only)

theorem sampleWordOp_keeps {Q : List Instr} (s : State) (id : CoreId) (f : FormD) (sub : Nat) (w : Core → Nat → Word) (hk :
  Keeps Q s) : Keeps Q (State.sampleWordOp s id f sub w) := by
  simp only [State.sampleWordOp]
  with_reducible repeat' (first
    | assumption | intro _ | apply tileIo_keeps | apply setCore_keeps | apply retire_keeps
    | refine keepsOpt_get (by assumption) ?_ | dsimp only)

theorem execSmpwe_keeps {Q : List Instr} (c : CoreId) (f : FormD) (s : State) (hk : Keeps Q s) : ∀ ans, execSmpwe c f s = .next
  ans → Keeps Q ans := by
  intro ans e
  injection e with e
  subst e
  with_reducible repeat' (first | assumption | intro _ | apply sampleWordOp_keeps | dsimp only)

theorem execSmpwd_keeps {Q : List Instr} (c : CoreId) (f : FormD) (s : State) (hk : Keeps Q s) : ∀ ans, execSmpwd c f s = .next
  ans → Keeps Q ans := by
  intro ans e
  injection e with e
  subst e
  with_reducible repeat' (first | assumption | intro _ | apply sampleWordOp_keeps | dsimp only)

theorem smpu_keeps {Q : List Instr} (s : State) (id : CoreId) (f : FormD) (hk : Keeps Q s) : Keeps Q (State.smpu s id f) := by
  simp only [State.smpu]
  with_reducible repeat' (first
    | assumption | intro _ | apply keeps_ite | apply setCore_keeps | apply retire_keeps | apply formD_keeps
    | apply tileIo_keeps | apply urgent_keeps | refine keepsOpt_get (by assumption) ?_ | refine keeps_fst (by assumption) ?_
    | (simp only [keeps_mk]; apply keeps_fold) | split | dsimp only)

theorem execSmpu_keeps {Q : List Instr} (c : CoreId) (f : FormD) (s : State) (hk : Keeps Q s) : ∀ ans, execSmpu c f s = .next
  ans → Keeps Q ans := by
  intro ans e
  injection e with e
  subst e
  with_reducible repeat' (first | assumption | apply smpu_keeps | dsimp only)

theorem actOp_keeps {Q : List Instr} (s : State) (id : CoreId) (f : FormD) (sub limit base : Nat) (hk : Keeps Q s) : Keeps Q
  (State.actOp s id f sub limit base) := by
  simp only [State.actOp]
  with_reducible repeat' (first
    | assumption | intro _ | apply keeps_ite | apply tileIo_keeps | apply setCore_keeps | apply retire_keeps
    | apply actuatorWrite_keeps | refine keepsOpt_get (by assumption) ?_ | split | dsimp only)

theorem execActe_keeps {Q : List Instr} (c : CoreId) (f : FormD) (s : State) (hk : Keeps Q s) : ∀ ans, execActe c f s = .next
  ans → Keeps Q ans := by
  intro ans e
  injection e with e
  subst e
  with_reducible repeat' (first | assumption | apply actOp_keeps | dsimp only)

theorem execActh_keeps {Q : List Instr} (c : CoreId) (f : FormD) (s : State) (hk : Keeps Q s) : ∀ ans, execActh c f s = .next
  ans → Keeps Q ans := by
  intro ans e
  injection e with e
  subst e
  with_reducible repeat' (first | assumption | apply actOp_keeps | dsimp only)

theorem execCellx_keeps {Q : List Instr} (c : CoreId) (f : FormD) (s : State) (hk : Keeps Q s) : ∀ ans, execCellx c f s = .next
  ans → Keeps Q ans := by
  intro ans e
  injection e with e
  subst e
  with_reducible repeat' (first
    | assumption | intro _ | apply tileIo_keeps | apply setCore_keeps | apply retire_keeps
    | refine keepsOpt_get (by assumption) ?_ | dsimp only)

/-! ## Machine/ClobySys.lean -/

theorem waitf_keeps {Q : List Instr} (s0 : State) (id : CoreId) (c0 : Core) (hk : Keeps Q s0) : Keeps Q (State.waitf s0 id c0)
  := by
  simp only [State.waitf]
  with_reducible repeat' (first
    | assumption | apply keeps_ite | apply retire_keeps | apply setCore_keeps | apply passEnds_keeps
    | refine keepsOpt_get (by assumption) ?_ | (simp only [keeps_mk]; apply keeps_fold) | split | dsimp only)

theorem waits_keeps {Q : List Instr} (s : State) (id : CoreId) (c0 : Core) (hk : Keeps Q s) : Keeps Q (State.waits s id c0) :=
  by
  simp only [State.waits]
  with_reducible repeat' (first
    | assumption | apply keeps_ite | apply retire_keeps | apply setCore_keeps | refine keepsOpt_get (by assumption) ?_
    | (simp only [keeps_mk]; apply keeps_fold) | split | dsimp only)

theorem execWait_keeps {Q : List Instr} (c : CoreId) (f : FormD) (s : State) (hk : Keeps Q s) : ∀ ans, execWait c f s = .next
  ans → Keeps Q ans := by
  intro ans e
  injection e with e
  subst e
  with_reducible repeat' (first
    | assumption | intro _ | apply keeps_ite | apply formD_keeps | apply waitf_keeps | apply waits_keeps | split
    | dsimp only)

theorem execWaitsWake_keeps {Q : List Instr} (c : CoreId) (s : State) (hk : Keeps Q s) : ∀ ans, execWaitsWake c s = .next ans →
  Keeps Q ans := by
  intro ans e
  injection e with e
  subst e
  with_reducible repeat' (first | assumption | apply keeps_ite | apply setCore_keeps | split | dsimp only)

theorem execCoreTimerExpire_keeps {Q : List Instr} (c : CoreId) (s : State) (hk : Keeps Q s) : ∀ ans, execCoreTimerExpire c s =
  .next ans → Keeps Q ans := by
  intro ans e
  injection e with e
  subst e
  with_reducible repeat' (first
    | assumption | apply keeps_ite | apply untilNow_keeps | apply setCore_keeps | apply pend_keeps
    | (simp only [keeps_mk]; apply keeps_fold) | split | dsimp only)

theorem evtPost_keeps {Q : List Instr} (s : State) (id : CoreId) (f : FormD) (c : Core) (hk : Keeps Q s) : Keeps Q
  (State.evtPost s id f c) := by
  simp only [State.evtPost]
  with_reducible repeat' (first
    | assumption | apply keeps_ite | apply sel_keeps | apply trap_keeps | apply setCore_keeps | apply retire_keeps
    | apply raise_keeps | refine keepsOpt_get (by assumption) ?_ | (simp only [keeps_mk]; apply keeps_fold) | split
    | dsimp only)

theorem execEvt_keeps {Q : List Instr} (c : CoreId) (f : FormD) (s : State) (hk : Keeps Q s) : ∀ ans, execEvt c f s = .next ans
  → Keeps Q ans := by
  intro ans e
  injection e with e
  subst e
  with_reducible repeat' (first | assumption | intro _ | apply formD_keeps | apply evtPost_keeps | dsimp only)

theorem execTrap_keeps {Q : List Instr} (c : CoreId) (f : FormD) (s : State) (hk : Keeps Q s) : ∀ ans, execTrap c f s = .next
  ans → Keeps Q ans := by
  intro ans e
  injection e with e
  subst e
  with_reducible repeat' (first
    | assumption | intro _ | apply formD_keeps | apply setCore_keeps | apply count_keeps | apply trap_keeps | dsimp only)

theorem execMfs_keeps {Q : List Instr} (c : CoreId) (f : FormD) (s : State) (hk : Keeps Q s) : ∀ ans, execMfs c f s = .next ans
  → Keeps Q ans := by
  intro ans e
  injection e with e
  subst e
  with_reducible repeat' (first
    | assumption | intro _ | apply keeps_ite | apply formD_keeps | apply trap_keeps | apply setCore_keeps
    | apply retire_keeps | refine keepsOpt_get (by assumption) ?_ | split | dsimp only)

theorem execMts_keeps {Q : List Instr} (c : CoreId) (f : FormD) (s : State) (hk : Keeps Q s) : ∀ ans, execMts c f s = .next ans
  → Keeps Q ans := by
  intro ans e
  injection e with e
  subst e
  with_reducible repeat' (first
    | assumption | intro _ | apply keeps_ite | apply formD_keeps | apply trap_keeps | apply setCore_keeps
    | apply retire_keeps | refine keepsOpt_get (by assumption) ?_ | split | dsimp only)

theorem execEret_keeps {Q : List Instr} (c : CoreId) (f : FormD) (s : State) (hk : Keeps Q s) : ∀ ans, execEret c f s = .next
  ans → Keeps Q ans := by
  intro ans e
  injection e with e
  subst e
  with_reducible repeat' (first
    | assumption | intro _ | apply keeps_ite | apply formD_keeps | apply trap_keeps | apply setCore_keeps
    | apply count_keeps | split | dsimp only)

theorem execFence_keeps {Q : List Instr} (c : CoreId) (f : FormD) (s : State) (hk : Keeps Q s) : ∀ ans, execFence c f s = .next
  ans → Keeps Q ans := by
  intro ans e
  injection e with e
  subst e
  with_reducible repeat' (first
    | assumption | intro _ | apply keeps_ite | apply formD_keeps | apply freeNat_keeps | apply setCore_keeps
    | apply retire_keeps | refine keepsOpt_get (by assumption) ?_ | refine keeps_snd (by assumption) ?_ | split | dsimp only)

/-! ## Machine/ClobyMem.lean -/

theorem loadWord_keeps {Q : List Instr} (s : State) (id : CoreId) (p : Place) (hk : Keeps Q s) : Keeps Q (State.loadWord s id
  p).2 := by
  simp only [State.loadWord]
  with_reducible repeat' (first
    | assumption | apply keeps_ite | apply freeWord_keeps | apply readReg_keeps | apply refuse_keeps
    | refine keeps_snd (by assumption) ?_ | (simp only [keeps_mk]; apply keeps_fold) | split | dsimp only)

theorem loadWords_keeps {Q : List Instr} (id : CoreId) : ∀ (n : Nat) (s : State) (p : Place), Keeps Q s →
    Keeps Q (s.loadWords id p n).2
  | 0, _, _, hk => hk
  | n + 1, s, p, hk => by
    have h1 := loadWord_keeps s id p hk
    simp only [State.loadWords]
    split
    · exact keeps_snd (by assumption) h1
    · have h2 := keeps_snd (by assumption) h1
      have h3 := loadWords_keeps id n _ (p.plus 4) h2
      split
      · exact keeps_snd (by assumption) h3
      · exact keeps_snd (by assumption) h3

theorem storePiece_keeps {Q : List Instr} (s : State) (p : Piece) (off : Nat) (hk : Keeps Q s) : Keeps Q (State.storePiece s p
  off) := by
  simp only [State.storePiece]
  with_reducible repeat' (first
    | assumption | apply keeps_ite | apply areaPiece_keeps | apply refuse_keeps | split | dsimp only)

theorem storeAt_keeps {Q : List Instr} (s : State) (id : CoreId) (p : Piece) (at_ : Place) (hk : Keeps Q s) : Keeps Q
  (State.storeAt s id p at_) := by
  simp only [State.storeAt]
  with_reducible repeat' (first
    | assumption | intro _ | apply keeps_ite | apply storeWord_keeps | apply storePiece_keeps | apply setCore_keeps
    | apply refuse_keeps | apply writeReg_keeps | apply ladlePiece_keeps | (simp only [keeps_mk]; apply keeps_fold) | split
    | dsimp only)

theorem stall_keeps {Q : List Instr} (s : State) (id : CoreId) (p : Place) (hk : Keeps Q s) : Keeps Q (State.stall s id p).2 :=
  by
  simp only [State.stall]
  with_reducible repeat' (first
    | assumption | apply keeps_ite | apply freeNat_keeps | refine keeps_snd (by assumption) ?_ | split | dsimp only)

theorem read_keeps {Q : List Instr} (s : State) (a : Access) (f : State → Option (List Word) × State) (hkf : ∀ x, Keeps Q x →
  Keeps Q (f x).2) (hk : Keeps Q s) : Keeps Q (State.read s a f).2 := by
  simp only [State.read]
  with_reducible repeat' (first
    | assumption | intro _ | apply hkf | refine keeps_snd (by assumption) ?_ | (simp only [keeps_mk]; apply keeps_fold)
    | split | dsimp only)

theorem load_keeps {Q : List Instr} (s : State) (id : CoreId) (f : FormB) (major n group : Nat) (put : Core → List Word → Nat →
  Core) (hk : Keeps Q s) : Keeps Q (State.load s id f major n group put) := by
  simp only [State.load]
  with_reducible repeat' (first
    | assumption | intro _ | apply keeps_ite | apply onCore_keeps | apply trap_keeps | apply stall_keeps | apply read_keeps
    | apply loadWords_keeps | apply setCore_keeps | apply fill_put_keeps | apply retire_keeps
    | refine keepsOpt_get (by assumption) ?_ | refine keepsFill_fst (by assumption) ?_
    | (apply keepsFill_foldl; intro _ _ _) | refine keeps_snd (by assumption) ?_ | (simp only [keeps_mk]; apply keeps_fold)
    | split | dsimp only)

theorem execLdw_keeps {Q : List Instr} (c : CoreId) (f : FormB) (s : State) (hk : Keeps Q s) : ∀ ans, execLdw c f s = .next ans
  → Keeps Q ans := by
  intro ans e
  injection e with e
  subst e
  with_reducible repeat' (first | assumption | intro _ | apply load_keeps | dsimp only)

theorem execLdh_keeps {Q : List Instr} (c : CoreId) (f : FormB) (s : State) (hk : Keeps Q s) : ∀ ans, execLdh c f s = .next ans
  → Keeps Q ans := by
  intro ans e
  injection e with e
  subst e
  with_reducible repeat' (first | assumption | intro _ | apply keeps_ite | apply load_keeps | split | dsimp only)

theorem execLdq_keeps {Q : List Instr} (c : CoreId) (f : FormB) (s : State) (hk : Keeps Q s) : ∀ ans, execLdq c f s = .next ans
  → Keeps Q ans := by
  intro ans e
  injection e with e
  subst e
  with_reducible repeat' (first | assumption | intro _ | apply load_keeps | dsimp only)

theorem execLdr_keeps {Q : List Instr} (c : CoreId) (f : FormB) (s : State) (hk : Keeps Q s) : ∀ ans, execLdr c f s = .next ans
  → Keeps Q ans := by
  intro ans e
  injection e with e
  subst e
  with_reducible repeat' (first | assumption | intro _ | apply load_keeps | dsimp only)

theorem store_keeps {Q : List Instr} (s : State) (id : CoreId) (f : FormB) (major n group : Nat) (hk : Keeps Q s) : Keeps Q
  (State.store s id f major n group) := by
  simp only [State.store]
  with_reducible repeat' (first
    | assumption | intro _ | apply keeps_ite | apply onCore_keeps | apply setCore_keeps | apply retire_keeps
    | apply trap_keeps | apply stall_keeps | apply inHand_keeps | apply storeAt_keeps | (apply keeps_foldl; intro _ _ _)
    | refine keepsOpt_get (by assumption) ?_ | refine keeps_snd (by assumption) ?_
    | (simp only [keeps_mk]; apply keeps_fold) | split | dsimp only)

theorem execStw_keeps {Q : List Instr} (c : CoreId) (f : FormB) (s : State) (hk : Keeps Q s) : ∀ ans, execStw c f s = .next ans
  → Keeps Q ans := by
  intro ans e
  injection e with e
  subst e
  with_reducible repeat' (first | assumption | apply store_keeps | dsimp only)

theorem execSth_keeps {Q : List Instr} (c : CoreId) (f : FormB) (s : State) (hk : Keeps Q s) : ∀ ans, execSth c f s = .next ans
  → Keeps Q ans := by
  intro ans e
  injection e with e
  subst e
  with_reducible repeat' (first | assumption | apply store_keeps | dsimp only)

theorem execStq_keeps {Q : List Instr} (c : CoreId) (f : FormB) (s : State) (hk : Keeps Q s) : ∀ ans, execStq c f s = .next ans
  → Keeps Q ans := by
  intro ans e
  injection e with e
  subst e
  with_reducible repeat' (first | assumption | apply store_keeps | dsimp only)

theorem execStr_keeps {Q : List Instr} (c : CoreId) (f : FormB) (s : State) (hk : Keeps Q s) : ∀ ans, execStr c f s = .next ans
  → Keeps Q ans := by
  intro ans e
  injection e with e
  subst e
  with_reducible repeat' (first | assumption | apply store_keeps | dsimp only)

theorem branch_keeps {Q : List Instr} (s : State) (id : CoreId) (f : FormC) (major : Nat) (link : Bool) (hk : Keeps Q s) : Keeps
  Q (State.branch s id f major link) := by
  simp only [State.branch]
  with_reducible repeat' (first
    | assumption | intro _ | apply keeps_ite | apply onCore_keeps | apply setCore_keeps | apply count_keeps
    | (simp only [keeps_mk]; apply keeps_fold) | split | dsimp only)

theorem execB_keeps {Q : List Instr} (c : CoreId) (f : FormC) (s : State) (hk : Keeps Q s) : ∀ ans, execB c f s = .next ans →
  Keeps Q ans := by
  intro ans e
  injection e with e
  subst e
  with_reducible repeat' (first | assumption | apply branch_keeps | dsimp only)

theorem execBl_keeps {Q : List Instr} (c : CoreId) (f : FormC) (s : State) (hk : Keeps Q s) : ∀ ans, execBl c f s = .next ans →
  Keeps Q ans := by
  intro ans e
  injection e with e
  subst e
  with_reducible repeat' (first | assumption | apply branch_keeps | dsimp only)

theorem execJr_keeps {Q : List Instr} (c : CoreId) (f : FormA) (s : State) (hk : Keeps Q s) : ∀ ans, execJr c f s = .next ans →
  Keeps Q ans := by
  intro ans e
  injection e with e
  subst e
  with_reducible repeat' (first
    | assumption | intro _ | apply onCore_keeps | apply setCore_keeps | apply count_keeps
    | (simp only [keeps_mk]; apply keeps_fold) | dsimp only)

/-! ## Machine/ClobyS.lean -/

theorem division_keeps {Q : List Instr} (s : State) (id : CoreId) (f : FormA) (func : Nat) (g : Word → Word → Word × Bool) (hk :
  Keeps Q s) : Keeps Q (State.division s id f func g) := by
  simp only [State.division]
  with_reducible repeat' (first
    | assumption | intro _ | apply onCore_keeps | apply freeNat_keeps | apply setCore_keeps | apply retire_keeps
    | refine keepsOpt_get (by assumption) ?_ | refine keeps_snd (by assumption) ?_
    | (simp only [keeps_mk]; apply keeps_fold) | split | dsimp only)

theorem execDiv_keeps {Q : List Instr} (c : CoreId) (f : FormA) (s : State) (hk : Keeps Q s) : ∀ ans, execDiv c f s = .next ans
  → Keeps Q ans := by
  intro ans e
  injection e with e
  subst e
  with_reducible repeat' (first | assumption | apply division_keeps | dsimp only)

theorem execDivu_keeps {Q : List Instr} (c : CoreId) (f : FormA) (s : State) (hk : Keeps Q s) : ∀ ans, execDivu c f s = .next
  ans → Keeps Q ans := by
  intro ans e
  injection e with e
  subst e
  with_reducible repeat' (first | assumption | apply division_keeps | dsimp only)

theorem execRem_keeps {Q : List Instr} (c : CoreId) (f : FormA) (s : State) (hk : Keeps Q s) : ∀ ans, execRem c f s = .next ans
  → Keeps Q ans := by
  intro ans e
  injection e with e
  subst e
  with_reducible repeat' (first | assumption | apply division_keeps | dsimp only)

theorem execRemu_keeps {Q : List Instr} (c : CoreId) (f : FormA) (s : State) (hk : Keeps Q s) : ∀ ans, execRemu c f s = .next
  ans → Keeps Q ans := by
  intro ans e
  injection e with e
  subst e
  with_reducible repeat' (first | assumption | apply division_keeps | dsimp only)

theorem pureS_keeps {Q : List Instr} (s : State) (id : CoreId) (legal : Bool) (f : FormA) (func : Nat) (g : Core → Core) (hk :
  Keeps Q s) : Keeps Q (State.pureS s id legal f func g) := by
  simp only [State.pureS]
  with_reducible repeat' (first | assumption | intro _ | apply pure_keeps | dsimp only)

theorem pairOp_keeps {Q : List Instr} (s : State) (id : CoreId) (f : FormA) (func : Nat) (g : BitVec 64 → BitVec 64 → BitVec 64)
  (flags : BitVec 64 → BitVec 64 → Flags) (hk : Keeps Q s) : Keeps Q (State.pairOp s id f func g flags) := by
  simp only [State.pairOp]
  with_reducible repeat' (first | assumption | intro _ | apply pureS_keeps | dsimp only)

theorem execAdd64_keeps {Q : List Instr} (c : CoreId) (f : FormA) (s : State) (hk : Keeps Q s) : ∀ ans, execAdd64 c f s = .next
  ans → Keeps Q ans := by
  intro ans e
  injection e with e
  subst e
  with_reducible repeat' (first | assumption | intro _ | apply pairOp_keeps | dsimp only)

theorem execSub64_keeps {Q : List Instr} (c : CoreId) (f : FormA) (s : State) (hk : Keeps Q s) : ∀ ans, execSub64 c f s = .next
  ans → Keeps Q ans := by
  intro ans e
  injection e with e
  subst e
  with_reducible repeat' (first | assumption | intro _ | apply pairOp_keeps | dsimp only)

theorem longMul_keeps {Q : List Instr} (s : State) (id : CoreId) (f : FormA) (func : Nat) (g : Word → Word → BitVec 64) (hk :
  Keeps Q s) : Keeps Q (State.longMul s id f func g) := by
  simp only [State.longMul]
  with_reducible repeat' (first | assumption | intro _ | apply pureS_keeps | dsimp only)

theorem execMull_keeps {Q : List Instr} (c : CoreId) (f : FormA) (s : State) (hk : Keeps Q s) : ∀ ans, execMull c f s = .next
  ans → Keeps Q ans := by
  intro ans e
  injection e with e
  subst e
  with_reducible repeat' (first | assumption | intro _ | apply longMul_keeps | dsimp only)

theorem execMullu_keeps {Q : List Instr} (c : CoreId) (f : FormA) (s : State) (hk : Keeps Q s) : ∀ ans, execMullu c f s = .next
  ans → Keeps Q ans := by
  intro ans e
  injection e with e
  subst e
  with_reducible repeat' (first | assumption | intro _ | apply longMul_keeps | dsimp only)

theorem pairShift_keeps {Q : List Instr} (s : State) (id : CoreId) (f : FormA) (func : Nat) (g : BitVec 64 → Nat → BitVec 64)
  (hk : Keeps Q s) : Keeps Q (State.pairShift s id f func g) := by
  simp only [State.pairShift]
  with_reducible repeat' (first | assumption | intro _ | apply pureS_keeps | dsimp only)

theorem execSll64_keeps {Q : List Instr} (c : CoreId) (f : FormA) (s : State) (hk : Keeps Q s) : ∀ ans, execSll64 c f s = .next
  ans → Keeps Q ans := by
  intro ans e
  injection e with e
  subst e
  with_reducible repeat' (first | assumption | intro _ | apply pairShift_keeps | dsimp only)

theorem execSrl64_keeps {Q : List Instr} (c : CoreId) (f : FormA) (s : State) (hk : Keeps Q s) : ∀ ans, execSrl64 c f s = .next
  ans → Keeps Q ans := by
  intro ans e
  injection e with e
  subst e
  with_reducible repeat' (first | assumption | intro _ | apply pairShift_keeps | dsimp only)

theorem execSra64_keeps {Q : List Instr} (c : CoreId) (f : FormA) (s : State) (hk : Keeps Q s) : ∀ ans, execSra64 c f s = .next
  ans → Keeps Q ans := by
  intro ans e
  injection e with e
  subst e
  with_reducible repeat' (first | assumption | intro _ | apply pairShift_keeps | dsimp only)

theorem execCmp64_keeps {Q : List Instr} (c : CoreId) (f : FormA) (s : State) (hk : Keeps Q s) : ∀ ans, execCmp64 c f s = .next
  ans → Keeps Q ans := by
  intro ans e
  injection e with e
  subst e
  with_reducible repeat' (first | assumption | intro _ | apply pureS_keeps | dsimp only)

theorem atomic_keeps {Q : List Instr} (s : State) (id : CoreId) (f : FormA) (func : Nat) (g : Word → Word → Word → Option Word ×
  Option Bool) (hk : Keeps Q s) : Keeps Q (State.atomic s id f func g) := by
  simp only [State.atomic]
  with_reducible repeat' (first
    | assumption | intro _ | apply keeps_ite | apply onCore_keeps | apply trap_keeps | apply freeNat_keeps
    | apply storeWord_keeps | apply setCore_keeps | apply retire_keeps | refine keepsOpt_get (by assumption) ?_
    | refine keeps_snd (by assumption) ?_ | (simp only [keeps_mk]; apply keeps_fold) | split | dsimp only)

theorem execAswp_keeps {Q : List Instr} (c : CoreId) (f : FormA) (s : State) (hk : Keeps Q s) : ∀ ans, execAswp c f s = .next
  ans → Keeps Q ans := by
  intro ans e
  injection e with e
  subst e
  with_reducible repeat' (first | assumption | intro _ | apply atomic_keeps | dsimp only)

theorem execAadd_keeps {Q : List Instr} (c : CoreId) (f : FormA) (s : State) (hk : Keeps Q s) : ∀ ans, execAadd c f s = .next
  ans → Keeps Q ans := by
  intro ans e
  injection e with e
  subst e
  with_reducible repeat' (first | assumption | intro _ | apply atomic_keeps | dsimp only)

theorem execAand_keeps {Q : List Instr} (c : CoreId) (f : FormA) (s : State) (hk : Keeps Q s) : ∀ ans, execAand c f s = .next
  ans → Keeps Q ans := by
  intro ans e
  injection e with e
  subst e
  with_reducible repeat' (first | assumption | intro _ | apply atomic_keeps | dsimp only)

theorem execAor_keeps {Q : List Instr} (c : CoreId) (f : FormA) (s : State) (hk : Keeps Q s) : ∀ ans, execAor c f s = .next ans
  → Keeps Q ans := by
  intro ans e
  injection e with e
  subst e
  with_reducible repeat' (first | assumption | intro _ | apply atomic_keeps | dsimp only)

theorem execAcas_keeps {Q : List Instr} (c : CoreId) (f : FormA) (s : State) (hk : Keeps Q s) : ∀ ans, execAcas c f s = .next
  ans → Keeps Q ans := by
  intro ans e
  injection e with e
  subst e
  with_reducible repeat' (first | assumption | intro _ | apply keeps_ite | apply atomic_keeps | split | dsimp only)

theorem accel_keeps {Q : List Instr} (s : State) (id : CoreId) (f : FormD) (sub : Nat) (queue : Nat → State → Option State)
    (hkqueue : ∀ d x, Keeps Q x → KeepsOpt Q (queue d x)) (hk : Keeps Q s) : Keeps Q (s.accel id f sub queue) := by
  unfold State.accel
  apply formD_keeps
  · intro c x hx
    cases sramOffset (c.r f.rs.toNat) 16 with
    | none => exact setCore_keeps _ _ _ hx
    | some desc =>
      have hd := hkqueue desc x hx
      dsimp only
      generalize queue desc x = o at hd ⊢
      apply keeps_ite (setCore_keeps _ _ _ hx)
      apply keeps_ite (setCore_keeps _ _ _ hx)
      cases o with
      | none => exact setCore_keeps _ _ _ hx
      | some s1 => exact setCore_keeps _ _ _ (hd s1 rfl)
  · exact hk

theorem execMq_keeps {Q : List Instr} (c : CoreId) (f : FormD) (s : State) (hk : Keeps Q s) :
    ∀ ans, execMq c f s = .next ans → Keeps Q ans := by
  intro ans e
  injection e with e
  subst e
  exact accel_keeps _ _ _ _ _ (fun _ _ h => keepsOpt_some h) hk

theorem execMrt_keeps {Q : List Instr} (c : CoreId) (f : FormD) (s : State) (hk : Keeps Q s) :
    ∀ ans, execMrt c f s = .next ans → Keeps Q ans := by
  intro ans e
  injection e with e
  subst e
  exact accel_keeps _ _ _ _ _ (fun _ x h => keepsOpt_map (fun r => request_keeps x r h) _) hk

theorem execHwr_keeps {Q : List Instr} (c : CoreId) (f : FormD) (s : State) (hk : Keeps Q s) : ∀ ans, execHwr c f s = .next ans
  → Keeps Q ans := by
  intro ans e
  injection e with e
  subst e
  with_reducible repeat' (first
    | assumption | intro _ | apply keeps_ite | apply formD_keeps | apply setCore_keeps | apply retire_keeps
    | apply bankWrite_keeps | refine keepsOpt_get (by assumption) ?_ | (simp only [keeps_mk]; apply keeps_fold) | split
    | dsimp only)

/-! ## Machine/ClobySvc.lean -/

theorem svcCall_keeps {Q : List Instr} (s : State) (id : CoreId) (f : FormD) (hk : Keeps Q s) : Keeps Q (State.svcCall s id f)
  := by
  simp only [State.svcCall]
  with_reducible repeat' (first
    | assumption | intro _ | apply keeps_ite | apply formD_keeps | apply setCore_keeps | apply count_keeps
    | apply trap_keeps | split | dsimp only)

theorem execSvc_keeps {Q : List Instr} (c : CoreId) (f : FormD) (s : State) (hk : Keeps Q s) : ∀ ans, execSvc c f s = .next ans
  → Keeps Q ans := by
  intro ans e
  injection e with e
  subst e
  with_reducible repeat' (first | assumption | apply svcCall_keeps | dsimp only)

theorem service'_keeps {Q : List Instr} (s : State) (id : CoreId) (n : Nat) (effect : Core → State → State) (hkeffect : ∀ x0 x1,
  Keeps Q x1 → Keeps Q (effect x0 x1)) (hk : Keeps Q s) : Keeps Q (State.service' s id n effect) := by
  simp only [State.service']
  with_reducible repeat' (first | assumption | intro _ | apply keeps_ite | apply hkeffect | split | dsimp only)

theorem serve_keeps {Q : List Instr} (s : State) (id : CoreId) (ok : Bool) (rs : List Word) (hk : Keeps Q s) : Keeps Q
  (State.serve s id ok rs) := by
  simp only [State.serve]
  with_reducible repeat' (first | assumption | apply setCore_keeps | dsimp only)

theorem ifActive_keeps {Q : List Instr} (s : State) (id : CoreId) (effect : State → State) (hkeffect : ∀ x0, Keeps Q x0 → Keeps
  Q (effect x0)) (hk : Keeps Q s) : Keeps Q (State.ifActive s id effect) := by
  simp only [State.ifActive]
  with_reducible repeat' (first | assumption | intro _ | apply keeps_ite | apply hkeffect | split | dsimp only)

theorem execSvcHeatCfg_keeps {Q : List Instr} (c : CoreId) (s : State) (hk : Keeps Q s) : ∀ ans, execSvcHeatCfg c s = .next ans
  → Keeps Q ans := by
  intro ans e
  injection e with e
  subst e
  with_reducible repeat' (first
    | assumption | intro _ | apply service'_keeps | apply ifActive_keeps | apply writeReg_keeps | apply serve_keeps
    | (apply keeps_foldl; intro _ _ _) | dsimp only)

theorem execSvcHeatCommit_keeps {Q : List Instr} (c : CoreId) (s : State) (hk : Keeps Q s) : ∀ ans, execSvcHeatCommit c s =
  .next ans → Keeps Q ans := by
  intro ans e
  injection e with e
  subst e
  with_reducible repeat' (first
    | assumption | intro _ | apply keeps_ite | apply service'_keeps | apply ifActive_keeps | apply commitBy_keeps
    | apply setCore_keeps | apply serve_keeps | (simp only [keeps_mk]; apply keeps_fold) | split | dsimp only)

theorem execSvcHeatCancel_keeps {Q : List Instr} (c : CoreId) (s : State) (hk : Keeps Q s) : ∀ ans, execSvcHeatCancel c s =
  .next ans → Keeps Q ans := by
  intro ans e
  injection e with e
  subst e
  with_reducible repeat' (first
    | assumption | intro _ | apply service'_keeps | apply ifActive_keeps | apply cancelBy_keeps | apply serve_keeps
    | dsimp only)

theorem execSvcDemand_keeps {Q : List Instr} (c : CoreId) (s : State) (hk : Keeps Q s) : ∀ ans, execSvcDemand c s = .next ans →
  Keeps Q ans := by
  intro ans e
  injection e with e
  subst e
  with_reducible repeat' (first | assumption | intro _ | apply service'_keeps | apply serve_keeps | dsimp only)

theorem execSvcEpoch_keeps {Q : List Instr} (c : CoreId) (s : State) (hk : Keeps Q s) : ∀ ans, execSvcEpoch c s = .next ans →
  Keeps Q ans := by
  intro ans e
  injection e with e
  subst e
  with_reducible repeat' (first | assumption | intro _ | apply service'_keeps | apply serve_keeps | dsimp only)

theorem execSvcNote_keeps {Q : List Instr} (c : CoreId) (s : State) (hk : Keeps Q s) : ∀ ans, execSvcNote c s = .next ans →
  Keeps Q ans := by
  intro ans e
  injection e with e
  subst e
  with_reducible repeat' (first
    | assumption | intro _ | apply service'_keeps | apply ifActive_keeps | apply raise_keeps | apply serve_keeps
    | dsimp only)

end Sys2Proof.Machine
end

