-- ==== Sys2Proof/Laws/Ladle.lean ====
section
/-!
SUPPORT. What an allocation of on-chip cells does: cells that exist, that nothing holds and that no retired bank has, each once, and
as many as are asked for wherever the buffer has room.
-/
namespace Sys2Proof.Machine

/-- Each cell taken lies at or after the place the search stands at, exists, is free, and lies in no retired bank; none twice. -/
theorem cellsFrom_free (used gone : List Nat) : ∀ (k c n : Nat),
    (∀ x ∈ cellsFrom used gone k c n, c ≤ x ∧ x < 1048576 ∧ x ∉ used ∧ x / 16384 ∉ gone) ∧ (cellsFrom used gone k c n).Nodup
  | 0, _, _ => by simp [cellsFrom]
  | k + 1, c, n => by
    unfold cellsFrom
    split
    · simp
    · rename_i h
      split
      · obtain ⟨a, b⟩ := cellsFrom_free used gone k ((c / 16384 + 1) * 16384) n
        exact ⟨fun x hx => ⟨by have := (a x hx).1; omega, (a x hx).2⟩, b⟩
      · split
        · obtain ⟨a, b⟩ := cellsFrom_free used gone k (c + 1) n
          exact ⟨fun x hx => ⟨by have := (a x hx).1; omega, (a x hx).2⟩, b⟩
        · rename_i hg hu
          obtain ⟨a, b⟩ := cellsFrom_free used gone k (c + 1) (n - 1)
          refine ⟨?_, ?_⟩
          · intro x hx
            rcases List.mem_cons.1 hx with rfl | hx
            · exact ⟨le_rfl, by omega, by simpa using hu, by simpa using hg⟩
            · exact ⟨by have := (a x hx).1; omega, (a x hx).2⟩
          · refine List.nodup_cons.2 ⟨fun hx => ?_, b⟩
            have := (a c hx).1
            omega

/-- At most n cells are taken. -/
theorem cellsFrom_length_le (used gone : List Nat) : ∀ (k c n : Nat), (cellsFrom used gone k c n).length ≤ n
  | 0, _, _ => by simp [cellsFrom]
  | k + 1, c, n => by
    unfold cellsFrom
    split
    · simp
    · split
      · exact cellsFrom_length_le used gone k _ n
      · split
        · exact cellsFrom_length_le used gone k _ n
        · have := cellsFrom_length_le used gone k (c + 1) (n - 1)
          simp only [List.length_cons]
          omega

/-- What stands at or after c in a list, and at or after c + 1 where c is in it. -/
theorem after_succ {l : List Nat} {c : Nat} (h : c ∈ l) : l.countP (fun x => decide (c + 1 ≤ x)) + 1 ≤ l.countP (fun x => decide (c ≤ x)) := by
  obtain ⟨a, b, rfl⟩ := List.append_of_mem h
  have m := fun (l : List Nat) => List.countP_mono_left (l := l) (p := fun x => decide (c + 1 ≤ x)) (q := fun x => decide (c ≤ x))
    (fun x _ hx => decide_eq_true (by have := of_decide_eq_true hx; omega))
  have ma := m a
  have mb := m b
  rw [List.countP_append, List.countP_append, List.countP_cons_of_neg (by simp), List.countP_cons_of_pos (by simp)]
  omega

theorem after_mono (l : List Nat) {c d : Nat} (h : c ≤ d) : l.countP (fun x => decide (d ≤ x)) ≤ l.countP (fun x => decide (c ≤ x)) :=
  List.countP_mono_left (fun x _ hx => by simp at hx ⊢; omega)

/-- With room from the place the search stands at, all n are found. -/
theorem cellsFrom_length (used gone : List Nat) : ∀ (k c n : Nat),
    n + used.countP (fun x => decide (c ≤ x)) + 16384 * gone.countP (fun x => decide (c / 16384 ≤ x)) + c ≤ 1048576 →
    n + used.countP (fun x => decide (c ≤ x)) + gone.countP (fun x => decide (c / 16384 ≤ x)) < k →
    (cellsFrom used gone k c n).length = n
  | 0, _, _ => by intro _ h; omega
  | k + 1, c, n => by
    intro h1 h2
    unfold cellsFrom
    split
    · rename_i h
      rcases h with rfl | h
      · rfl
      · have : n = 0 := by omega
        simp [this]
    · rename_i h
      split
      · rename_i hg
        have hg' : c / 16384 ∈ gone := by simpa using hg
        have a := after_succ hg'
        have b := after_mono used (show c ≤ (c / 16384 + 1) * 16384 by omega)
        have e : (c / 16384 + 1) * 16384 / 16384 = c / 16384 + 1 := Nat.mul_div_cancel _ (by omega)
        refine cellsFrom_length used gone k _ n ?_ ?_ <;> rw [e] <;> omega
      · split
        · rename_i hu
          have hu' : c ∈ used := by simpa using hu
          have a := after_succ hu'
          have b := after_mono gone (show c / 16384 ≤ (c + 1) / 16384 by omega)
          exact cellsFrom_length used gone k _ n (by omega) (by omega)
        · have a := after_mono used (show c ≤ c + 1 by omega)
          have b := after_mono gone (show c / 16384 ≤ (c + 1) / 16384 by omega)
          have := cellsFrom_length used gone k (c + 1) (n - 1) (by omega) (by omega)
          simp only [List.length_cons, this]
          omega

/-- The cells in use are as many as the frames and the waiting marks count. -/
theorem usedCells_length (s : State) : s.usedCells.length = s.onchipCells := by
  simp [State.usedCells, State.onchipCells, List.length_flatMap, Frame.onchip]

/-- Everything an allocation answers: cells that exist, free, outside retired banks, none twice. -/
theorem allocate_free (s : State) (n : Nat) :
    (∀ c ∈ s.allocate n, c < 1048576 ∧ c ∉ s.usedCells ∧ c / 16384 ∉ s.goneBanks) ∧ (s.allocate n).Nodup :=
  ⟨fun c h => ((cellsFrom_free _ _ _ _ _).1 c h).2, (cellsFrom_free _ _ _ _ _).2⟩

/-- An allocation that the buffer has room for finds all its cells. -/
theorem allocate_length (s : State) (n : Nat) (h : s.onchipCells + n ≤ s.onchipSize) : (s.allocate n).length = n := by
  have u := usedCells_length s
  have a := List.countP_le_length (p := fun x => decide (0 ≤ x)) (l := s.usedCells)
  have b := List.countP_le_length (p := fun x => decide (0 / 16384 ≤ x)) (l := s.goneBanks)
  simp only [State.onchipSize] at h
  by_cases e : n = 0
  · subst e
    exact Nat.le_zero.1 (cellsFrom_length_le _ _ _ _ _)
  · refine cellsFrom_length _ _ _ _ _ ?_ ?_ <;> omega

end Sys2Proof.Machine
end

