-- ==== Sys2Proof/Laws/Memory.lean ====
section
/-!
SUPPORT. The laws of the block's byte memories: what a read answers after a write, and that every operation over a memory keeps
its canonical form.
-/
namespace Sys2Proof.Machine

theorem wf_reset : State.reset.MemoriesWf :=
  ⟨rfl, fun _ => ⟨rfl, rfl⟩⟩

/-- A byte read after bytes were written: the byte written there, or what stood before. -/
theorem get_putBytes (x : Nat) : ∀ (bs : List Byte) (m : SMap Byte) (a : Nat),
    (putBytes m a bs).get (fun _ => 0) x = if a ≤ x ∧ x < a + bs.length then bs.getD (x - a) 0 else m.get (fun _ => 0) x
  | [], m, a => by simp only [putBytes, List.length_nil]; rw [if_neg (by omega)]
  | b :: bs, m, a => by
    rw [putBytes, get_putBytes x bs]
    by_cases h : x = a
    · subst h
      rw [if_neg (by omega), SMap.get_set_same, if_pos (by simp)]
      simp
    · rw [SMap.get_set_other _ _ _ h]
      by_cases g : a + 1 ≤ x ∧ x < a + 1 + bs.length
      · have e : x - a = (x - (a + 1)) + 1 := by omega
        rw [if_pos g, if_pos (by simp only [List.length_cons]; omega), e, List.getD_cons_succ]
      · rw [if_neg g, if_neg (by simp only [List.length_cons]; omega)]

theorem wf_putBytes : ∀ (bs : List Byte) (m : SMap Byte) (a : Nat), Memory.wf m = true → Memory.wf (putBytes m a bs) = true
  | [], _, _, h => h
  | b :: bs, m, a, h => by rw [putBytes]; exact wf_putBytes bs _ _ (SMap.wf_set _ m a b h)

theorem wf_putWords (m : SMap Byte) (a : Nat) (ws : List Word) (h : Memory.wf m = true) : Memory.wf (putWords m a ws) = true :=
  wf_putBytes _ m a h

theorem rising_filter {α : Type} (p : Nat × α → Bool) : ∀ (b : Nat) (m : SMap α), m.risingFrom b = true →
    SMap.risingFrom b (List.filter p m) = true
  | _, [], _ => rfl
  | b, (j, v) :: m, h => by
    simp only [SMap.risingFrom, Bool.and_eq_true, decide_eq_true_eq] at h
    have t := rising_filter p (j + 1) m h.2
    by_cases g : p (j, v)
    · rw [List.filter_cons_of_pos g]
      simp only [SMap.risingFrom, Bool.and_eq_true, decide_eq_true_eq]
      exact ⟨h.1, t⟩
    · rw [List.filter_cons_of_neg g]
      exact SMap.rising_weaken _ (by omega) t

theorem wf_filter (p : Nat × Byte → Bool) (m : SMap Byte) (h : Memory.wf m = true) : Memory.wf (List.filter p m) = true := by
  unfold Memory.wf SMap.wf at *
  rw [Bool.and_eq_true, List.all_eq_true] at *
  exact ⟨rising_filter p 0 m h.1, fun q hq => h.2 q (List.mem_filter.1 hq).1⟩

theorem rising_mem {α : Type} : ∀ (b : Nat) (m : SMap α) (q : Nat × α), m.risingFrom b = true → q ∈ m → b ≤ q.1
  | _, (j, _) :: m, q, h, hq => by
    simp only [SMap.risingFrom, Bool.and_eq_true, decide_eq_true_eq] at h
    rcases List.mem_cons.1 hq with rfl | hq
    · exact h.1
    · have := rising_mem (j + 1) m q h.2 hq
      omega

theorem rising_of_le {α : Type} : ∀ (b c : Nat) (m : SMap α), m.risingFrom b = true → (∀ q ∈ m, c ≤ q.1) → m.risingFrom c = true
  | _, _, [], _, _ => rfl
  | b, c, (j, v) :: m, h, g => by
    simp only [SMap.risingFrom, Bool.and_eq_true, decide_eq_true_eq] at *
    exact ⟨g (j, v) (by simp), h.2⟩

theorem rising_append {α : Type} : ∀ (b k : Nat) (m n : SMap α), m.risingFrom b = true → (∀ q ∈ m, q.1 < k) → b ≤ k →
    n.risingFrom k = true → SMap.risingFrom b (m ++ n) = true
  | b, k, [], n, _, _, hb, hn => SMap.rising_weaken _ hb hn
  | b, k, (j, v) :: m, n, h, g, hb, hn => by
    simp only [SMap.risingFrom, Bool.and_eq_true, decide_eq_true_eq, List.cons_append] at *
    exact ⟨h.1, rising_append (j + 1) k m n h.2 (fun q hq => g q (List.mem_cons_of_mem _ hq)) (g (j, v) (by simp)) hn⟩

/-- The copy of a handover: the low part of one memory and the high part of another (R91). -/
theorem wf_split (k : Nat) (m n : SMap Byte) (hm : Memory.wf m = true) (hn : Memory.wf n = true) :
    Memory.wf (List.filter (fun p => p.1 < k) m ++ List.filter (fun p => k ≤ p.1) n) = true := by
  have a := wf_filter (fun p => decide (p.1 < k)) m hm
  have b := wf_filter (fun p => decide (k ≤ p.1)) n hn
  unfold Memory.wf SMap.wf at *
  rw [Bool.and_eq_true, List.all_eq_true] at *
  refine ⟨rising_append 0 k _ _ a.1 (fun q hq => by simpa using (List.mem_filter.1 hq).2) (Nat.zero_le k)
    (rising_of_le 0 k _ b.1 fun q hq => by simpa using (List.mem_filter.1 hq).2), fun q hq => ?_⟩
  rcases List.mem_append.1 hq with h | h
  · exact a.2 q h
  · exact b.2 q h

/-- The initial copy of shared SRAM: bytes set one by one (Table 15.1). -/
theorem wf_setAll (f : Nat × Byte → Nat) : ∀ (l : List (Nat × Byte)) (m : SMap Byte), Memory.wf m = true →
    Memory.wf (l.foldl (fun (m : SMap Byte) p => m.set (fun _ => 0) (f p) p.2) m) = true
  | [], _, h => h
  | _ :: l, m, h => wf_setAll f l _ (SMap.wf_set _ m _ _ h)

/-- The core of an ID after a core was given a state. -/
theorem core_setCore (s : State) (id i : Nat) (c : Core) : (s.setCore id c).core i = if i = id then c else s.core i :=
  SMap.get_set (fun _ => Core.zero) s.cores id i c

theorem wf_setCore (s : State) (id : Nat) (c : Core) (h : s.MemoriesWf) (hm : Memory.wf c.mem = true) (hc : Memory.wf c.code = true) :
    (s.setCore id c).MemoriesWf := by
  refine ⟨h.1, fun i => ?_⟩
  rw [core_setCore]
  split
  · exact ⟨hm, hc⟩
  · exact h.2 i

theorem wf_putWord (s : State) (unit : Nat) (d : Die) (a : Nat) (w : Word) (h : s.MemoriesWf) : (s.putWord unit d a w).MemoriesWf := by
  unfold State.putWord
  split
  · exact ⟨wf_putWords _ _ _ h.1, h.2⟩
  · exact wf_setCore s _ _ h (wf_putWords _ _ _ (h.2 _).1) (h.2 _).2

theorem wf_storeWord (s : State) (unit : Nat) (d : Die) (a : Nat) (w : Word) (h : s.MemoriesWf) : (s.storeWord unit d a w).MemoriesWf := by
  have := wf_putWord s unit d a w h
  unfold State.storeWord
  dsimp only
  split
  · exact this
  · exact this

end Sys2Proof.Machine
end

