-- ==== Sys2Proof/Laws/State.lean ====
section
/-!
SUPPORT. What each update of the state leaves in each field, and what a register, a field, a core or a tile reads as after a
write of it or of another.
-/
namespace Sys2Proof.Machine

@[simp] theorem setReg_pending (s : State) (off : Nat) (v : Word) : (s.setReg off v).pending = s.pending := rfl
@[simp] theorem setReg_free (s : State) (off : Nat) (v : Word) : (s.setReg off v).free = s.free := rfl
@[simp] theorem setReg_time (s : State) (off : Nat) (v : Word) : (s.setReg off v).time = s.time := rfl
@[simp] theorem setReg_power (s : State) (off : Nat) (v : Word) : (s.setReg off v).power = s.power := rfl
@[simp] theorem setReg_events (s : State) (off : Nat) (v : Word) : (s.setReg off v).events = s.events := rfl
@[simp] theorem setReg_faults (s : State) (off : Nat) (v : Word) : (s.setReg off v).faults = s.faults := rfl
@[simp] theorem setReg_moulds (s : State) (off : Nat) (v : Word) : (s.setReg off v).moulds = s.moulds := rfl
@[simp] theorem setReg_tiles (s : State) (off : Nat) (v : Word) : (s.setReg off v).tiles = s.tiles := rfl
@[simp] theorem setReg_loops (s : State) (off : Nat) (v : Word) : (s.setReg off v).loops = s.loops := rfl
@[simp] theorem setReg_cores (s : State) (off : Nat) (v : Word) : (s.setReg off v).cores = s.cores := rfl
@[simp] theorem setReg_cal (s : State) (off : Nat) (v : Word) : (s.setReg off v).cal = s.cal := rfl
@[simp] theorem setReg_heats (s : State) (off : Nat) (v : Word) : (s.setReg off v).heats = s.heats := rfl
@[simp] theorem setReg_ladle (s : State) (off : Nat) (v : Word) : (s.setReg off v).ladle = s.ladle := rfl
@[simp] theorem setReg_service (s : State) (off : Nat) (v : Word) : (s.setReg off v).service = s.service := rfl
@[simp] theorem setReg_jobs (s : State) (off : Nat) (v : Word) : (s.setReg off v).jobs = s.jobs := rfl
@[simp] theorem setReg_cd (s : State) (off : Nat) (v : Word) : (s.setReg off v).cd = s.cd := rfl
@[simp] theorem setReg_lock (s : State) (off : Nat) (v : Word) : (s.setReg off v).lock = s.lock := rfl
@[simp] theorem setReg_bus (s : State) (off : Nat) (v : Word) : (s.setReg off v).bus = s.bus := rfl
@[simp] theorem setFld_pending (s : State) (f : Fld) (v : Nat) : (s.setFld f v).pending = s.pending := rfl
@[simp] theorem setFld_free (s : State) (f : Fld) (v : Nat) : (s.setFld f v).free = s.free := rfl
@[simp] theorem setFld_time (s : State) (f : Fld) (v : Nat) : (s.setFld f v).time = s.time := rfl
@[simp] theorem setFld_power (s : State) (f : Fld) (v : Nat) : (s.setFld f v).power = s.power := rfl
@[simp] theorem setFld_events (s : State) (f : Fld) (v : Nat) : (s.setFld f v).events = s.events := rfl
@[simp] theorem setFld_faults (s : State) (f : Fld) (v : Nat) : (s.setFld f v).faults = s.faults := rfl
@[simp] theorem setFld_moulds (s : State) (f : Fld) (v : Nat) : (s.setFld f v).moulds = s.moulds := rfl
@[simp] theorem setFld_tiles (s : State) (f : Fld) (v : Nat) : (s.setFld f v).tiles = s.tiles := rfl
@[simp] theorem setFld_loops (s : State) (f : Fld) (v : Nat) : (s.setFld f v).loops = s.loops := rfl
@[simp] theorem setFld_cores (s : State) (f : Fld) (v : Nat) : (s.setFld f v).cores = s.cores := rfl
@[simp] theorem setFld_cal (s : State) (f : Fld) (v : Nat) : (s.setFld f v).cal = s.cal := rfl
@[simp] theorem setFld_heats (s : State) (f : Fld) (v : Nat) : (s.setFld f v).heats = s.heats := rfl
@[simp] theorem setFld_ladle (s : State) (f : Fld) (v : Nat) : (s.setFld f v).ladle = s.ladle := rfl
@[simp] theorem setFld_service (s : State) (f : Fld) (v : Nat) : (s.setFld f v).service = s.service := rfl
@[simp] theorem setFld_jobs (s : State) (f : Fld) (v : Nat) : (s.setFld f v).jobs = s.jobs := rfl
@[simp] theorem setFld_cd (s : State) (f : Fld) (v : Nat) : (s.setFld f v).cd = s.cd := rfl
@[simp] theorem setFld_lock (s : State) (f : Fld) (v : Nat) : (s.setFld f v).lock = s.lock := rfl
@[simp] theorem setFld_bus (s : State) (f : Fld) (v : Nat) : (s.setFld f v).bus = s.bus := rfl
@[simp] theorem count_pending (s : State) (f : Fld) (n : Nat) : (s.count f n).pending = s.pending := rfl
@[simp] theorem count_free (s : State) (f : Fld) (n : Nat) : (s.count f n).free = s.free := rfl
@[simp] theorem count_time (s : State) (f : Fld) (n : Nat) : (s.count f n).time = s.time := rfl
@[simp] theorem count_power (s : State) (f : Fld) (n : Nat) : (s.count f n).power = s.power := rfl
@[simp] theorem count_events (s : State) (f : Fld) (n : Nat) : (s.count f n).events = s.events := rfl
@[simp] theorem count_faults (s : State) (f : Fld) (n : Nat) : (s.count f n).faults = s.faults := rfl
@[simp] theorem count_moulds (s : State) (f : Fld) (n : Nat) : (s.count f n).moulds = s.moulds := rfl
@[simp] theorem count_tiles (s : State) (f : Fld) (n : Nat) : (s.count f n).tiles = s.tiles := rfl
@[simp] theorem count_loops (s : State) (f : Fld) (n : Nat) : (s.count f n).loops = s.loops := rfl
@[simp] theorem count_cores (s : State) (f : Fld) (n : Nat) : (s.count f n).cores = s.cores := rfl
@[simp] theorem count_cal (s : State) (f : Fld) (n : Nat) : (s.count f n).cal = s.cal := rfl
@[simp] theorem count_heats (s : State) (f : Fld) (n : Nat) : (s.count f n).heats = s.heats := rfl
@[simp] theorem count_ladle (s : State) (f : Fld) (n : Nat) : (s.count f n).ladle = s.ladle := rfl
@[simp] theorem count_service (s : State) (f : Fld) (n : Nat) : (s.count f n).service = s.service := rfl
@[simp] theorem count_jobs (s : State) (f : Fld) (n : Nat) : (s.count f n).jobs = s.jobs := rfl
@[simp] theorem count_cd (s : State) (f : Fld) (n : Nat) : (s.count f n).cd = s.cd := rfl
@[simp] theorem count_lock (s : State) (f : Fld) (n : Nat) : (s.count f n).lock = s.lock := rfl
@[simp] theorem count_bus (s : State) (f : Fld) (n : Nat) : (s.count f n).bus = s.bus := rfl
@[simp] theorem setCore_pending (s : State) (id : Nat) (c : Core) : (s.setCore id c).pending = s.pending := rfl
@[simp] theorem setCore_free (s : State) (id : Nat) (c : Core) : (s.setCore id c).free = s.free := rfl
@[simp] theorem setCore_regs (s : State) (id : Nat) (c : Core) : (s.setCore id c).regs = s.regs := rfl
@[simp] theorem setCore_time (s : State) (id : Nat) (c : Core) : (s.setCore id c).time = s.time := rfl
@[simp] theorem setCore_power (s : State) (id : Nat) (c : Core) : (s.setCore id c).power = s.power := rfl
@[simp] theorem setCore_events (s : State) (id : Nat) (c : Core) : (s.setCore id c).events = s.events := rfl
@[simp] theorem setCore_faults (s : State) (id : Nat) (c : Core) : (s.setCore id c).faults = s.faults := rfl
@[simp] theorem setCore_moulds (s : State) (id : Nat) (c : Core) : (s.setCore id c).moulds = s.moulds := rfl
@[simp] theorem setCore_tiles (s : State) (id : Nat) (c : Core) : (s.setCore id c).tiles = s.tiles := rfl
@[simp] theorem setCore_loops (s : State) (id : Nat) (c : Core) : (s.setCore id c).loops = s.loops := rfl
@[simp] theorem setCore_cal (s : State) (id : Nat) (c : Core) : (s.setCore id c).cal = s.cal := rfl
@[simp] theorem setCore_heats (s : State) (id : Nat) (c : Core) : (s.setCore id c).heats = s.heats := rfl
@[simp] theorem setCore_ladle (s : State) (id : Nat) (c : Core) : (s.setCore id c).ladle = s.ladle := rfl
@[simp] theorem setCore_service (s : State) (id : Nat) (c : Core) : (s.setCore id c).service = s.service := rfl
@[simp] theorem setCore_jobs (s : State) (id : Nat) (c : Core) : (s.setCore id c).jobs = s.jobs := rfl
@[simp] theorem setCore_cd (s : State) (id : Nat) (c : Core) : (s.setCore id c).cd = s.cd := rfl
@[simp] theorem setCore_lock (s : State) (id : Nat) (c : Core) : (s.setCore id c).lock = s.lock := rfl
@[simp] theorem setCore_bus (s : State) (id : Nat) (c : Core) : (s.setCore id c).bus = s.bus := rfl
@[simp] theorem setTile_pending (s : State) (t : Nat) (x : Tile) : (s.setTile t x).pending = s.pending := rfl
@[simp] theorem setTile_free (s : State) (t : Nat) (x : Tile) : (s.setTile t x).free = s.free := rfl
@[simp] theorem setTile_regs (s : State) (t : Nat) (x : Tile) : (s.setTile t x).regs = s.regs := rfl
@[simp] theorem setTile_time (s : State) (t : Nat) (x : Tile) : (s.setTile t x).time = s.time := rfl
@[simp] theorem setTile_power (s : State) (t : Nat) (x : Tile) : (s.setTile t x).power = s.power := rfl
@[simp] theorem setTile_events (s : State) (t : Nat) (x : Tile) : (s.setTile t x).events = s.events := rfl
@[simp] theorem setTile_faults (s : State) (t : Nat) (x : Tile) : (s.setTile t x).faults = s.faults := rfl
@[simp] theorem setTile_moulds (s : State) (t : Nat) (x : Tile) : (s.setTile t x).moulds = s.moulds := rfl
@[simp] theorem setTile_loops (s : State) (t : Nat) (x : Tile) : (s.setTile t x).loops = s.loops := rfl
@[simp] theorem setTile_cores (s : State) (t : Nat) (x : Tile) : (s.setTile t x).cores = s.cores := rfl
@[simp] theorem setTile_cal (s : State) (t : Nat) (x : Tile) : (s.setTile t x).cal = s.cal := rfl
@[simp] theorem setTile_heats (s : State) (t : Nat) (x : Tile) : (s.setTile t x).heats = s.heats := rfl
@[simp] theorem setTile_ladle (s : State) (t : Nat) (x : Tile) : (s.setTile t x).ladle = s.ladle := rfl
@[simp] theorem setTile_service (s : State) (t : Nat) (x : Tile) : (s.setTile t x).service = s.service := rfl
@[simp] theorem setTile_jobs (s : State) (t : Nat) (x : Tile) : (s.setTile t x).jobs = s.jobs := rfl
@[simp] theorem setTile_cd (s : State) (t : Nat) (x : Tile) : (s.setTile t x).cd = s.cd := rfl
@[simp] theorem setTile_lock (s : State) (t : Nat) (x : Tile) : (s.setTile t x).lock = s.lock := rfl
@[simp] theorem setTile_bus (s : State) (t : Nat) (x : Tile) : (s.setTile t x).bus = s.bus := rfl
@[simp] theorem elapse_pending (s : State) (d : Nat) : (s.elapse d).pending = s.pending := rfl
@[simp] theorem elapse_free (s : State) (d : Nat) : (s.elapse d).free = s.free := rfl
@[simp] theorem elapse_regs (s : State) (d : Nat) : (s.elapse d).regs = s.regs := rfl
@[simp] theorem elapse_power (s : State) (d : Nat) : (s.elapse d).power = s.power := rfl
@[simp] theorem elapse_events (s : State) (d : Nat) : (s.elapse d).events = s.events := rfl
@[simp] theorem elapse_faults (s : State) (d : Nat) : (s.elapse d).faults = s.faults := rfl
@[simp] theorem elapse_tiles (s : State) (d : Nat) : (s.elapse d).tiles = s.tiles := rfl
@[simp] theorem elapse_loops (s : State) (d : Nat) : (s.elapse d).loops = s.loops := rfl
@[simp] theorem elapse_cores (s : State) (d : Nat) : (s.elapse d).cores = s.cores := rfl
@[simp] theorem elapse_cal (s : State) (d : Nat) : (s.elapse d).cal = s.cal := rfl
@[simp] theorem elapse_heats (s : State) (d : Nat) : (s.elapse d).heats = s.heats := rfl
@[simp] theorem elapse_ladle (s : State) (d : Nat) : (s.elapse d).ladle = s.ladle := rfl
@[simp] theorem elapse_service (s : State) (d : Nat) : (s.elapse d).service = s.service := rfl
@[simp] theorem elapse_jobs (s : State) (d : Nat) : (s.elapse d).jobs = s.jobs := rfl
@[simp] theorem elapse_cd (s : State) (d : Nat) : (s.elapse d).cd = s.cd := rfl
@[simp] theorem elapse_lock (s : State) (d : Nat) : (s.elapse d).lock = s.lock := rfl
@[simp] theorem elapse_bus (s : State) (d : Nat) : (s.elapse d).bus = s.bus := rfl
@[simp] theorem untilNow_pending (s : State) (t : Nat) : (s.untilNow t).pending = s.pending := by unfold State.untilNow; split <;> rfl
@[simp] theorem untilNow_free (s : State) (t : Nat) : (s.untilNow t).free = s.free := by unfold State.untilNow; split <;> rfl
@[simp] theorem untilNow_regs (s : State) (t : Nat) : (s.untilNow t).regs = s.regs := by unfold State.untilNow; split <;> rfl
@[simp] theorem untilNow_power (s : State) (t : Nat) : (s.untilNow t).power = s.power := by unfold State.untilNow; split <;> rfl
@[simp] theorem untilNow_events (s : State) (t : Nat) : (s.untilNow t).events = s.events := by unfold State.untilNow; split <;> rfl
@[simp] theorem untilNow_faults (s : State) (t : Nat) : (s.untilNow t).faults = s.faults := by unfold State.untilNow; split <;> rfl
@[simp] theorem untilNow_tiles (s : State) (t : Nat) : (s.untilNow t).tiles = s.tiles := by unfold State.untilNow; split <;> rfl
@[simp] theorem untilNow_loops (s : State) (t : Nat) : (s.untilNow t).loops = s.loops := by unfold State.untilNow; split <;> rfl
@[simp] theorem untilNow_cores (s : State) (t : Nat) : (s.untilNow t).cores = s.cores := by unfold State.untilNow; split <;> rfl
@[simp] theorem untilNow_cal (s : State) (t : Nat) : (s.untilNow t).cal = s.cal := by unfold State.untilNow; split <;> rfl
@[simp] theorem untilNow_heats (s : State) (t : Nat) : (s.untilNow t).heats = s.heats := by unfold State.untilNow; split <;> rfl
@[simp] theorem untilNow_ladle (s : State) (t : Nat) : (s.untilNow t).ladle = s.ladle := by unfold State.untilNow; split <;> rfl
@[simp] theorem untilNow_service (s : State) (t : Nat) : (s.untilNow t).service = s.service := by unfold State.untilNow; split <;> rfl
@[simp] theorem untilNow_jobs (s : State) (t : Nat) : (s.untilNow t).jobs = s.jobs := by unfold State.untilNow; split <;> rfl
@[simp] theorem untilNow_cd (s : State) (t : Nat) : (s.untilNow t).cd = s.cd := by unfold State.untilNow; split <;> rfl
@[simp] theorem untilNow_lock (s : State) (t : Nat) : (s.untilNow t).lock = s.lock := by unfold State.untilNow; split <;> rfl
@[simp] theorem untilNow_bus (s : State) (t : Nat) : (s.untilNow t).bus = s.bus := by unfold State.untilNow; split <;> rfl
@[simp] theorem untilNow_reg (s : State) (t off : Nat) : (s.untilNow t).reg off = s.reg off := by unfold State.untilNow; split <;> rfl
@[simp] theorem untilNow_fld (s : State) (t : Nat) (f : Fld) : (s.untilNow t).fld f = s.fld f := by unfold State.untilNow; split <;> rfl
@[simp] theorem untilNow_core (s : State) (t id : Nat) : (s.untilNow t).core id = s.core id := by unfold State.untilNow; split <;> rfl
@[simp] theorem untilNow_tile (s : State) (t n : Nat) : (s.untilNow t).tile n = s.tile n := by unfold State.untilNow; split <;> rfl
@[simp] theorem untilNet_pending (s : State) (t : Nat) : (s.untilNet t).pending = s.pending := by unfold State.untilNet; split <;> rfl
@[simp] theorem untilNet_free (s : State) (t : Nat) : (s.untilNet t).free = s.free := by unfold State.untilNet; split <;> rfl
@[simp] theorem untilNet_regs (s : State) (t : Nat) : (s.untilNet t).regs = s.regs := by unfold State.untilNet; split <;> rfl
@[simp] theorem untilNet_power (s : State) (t : Nat) : (s.untilNet t).power = s.power := by unfold State.untilNet; split <;> rfl
@[simp] theorem untilNet_events (s : State) (t : Nat) : (s.untilNet t).events = s.events := by unfold State.untilNet; split <;> rfl
@[simp] theorem untilNet_faults (s : State) (t : Nat) : (s.untilNet t).faults = s.faults := by unfold State.untilNet; split <;> rfl
@[simp] theorem untilNet_tiles (s : State) (t : Nat) : (s.untilNet t).tiles = s.tiles := by unfold State.untilNet; split <;> rfl
@[simp] theorem untilNet_loops (s : State) (t : Nat) : (s.untilNet t).loops = s.loops := by unfold State.untilNet; split <;> rfl
@[simp] theorem untilNet_cores (s : State) (t : Nat) : (s.untilNet t).cores = s.cores := by unfold State.untilNet; split <;> rfl
@[simp] theorem untilNet_cal (s : State) (t : Nat) : (s.untilNet t).cal = s.cal := by unfold State.untilNet; split <;> rfl
@[simp] theorem untilNet_heats (s : State) (t : Nat) : (s.untilNet t).heats = s.heats := by unfold State.untilNet; split <;> rfl
@[simp] theorem untilNet_ladle (s : State) (t : Nat) : (s.untilNet t).ladle = s.ladle := by unfold State.untilNet; split <;> rfl
@[simp] theorem untilNet_service (s : State) (t : Nat) : (s.untilNet t).service = s.service := by unfold State.untilNet; split <;> rfl
@[simp] theorem untilNet_jobs (s : State) (t : Nat) : (s.untilNet t).jobs = s.jobs := by unfold State.untilNet; split <;> rfl
@[simp] theorem untilNet_cd (s : State) (t : Nat) : (s.untilNet t).cd = s.cd := by unfold State.untilNet; split <;> rfl
@[simp] theorem untilNet_lock (s : State) (t : Nat) : (s.untilNet t).lock = s.lock := by unfold State.untilNet; split <;> rfl
@[simp] theorem untilNet_bus (s : State) (t : Nat) : (s.untilNet t).bus = s.bus := by unfold State.untilNet; split <;> rfl
@[simp] theorem untilNet_reg (s : State) (t off : Nat) : (s.untilNet t).reg off = s.reg off := by unfold State.untilNet; split <;> rfl
@[simp] theorem untilNet_fld (s : State) (t : Nat) (f : Fld) : (s.untilNet t).fld f = s.fld f := by unfold State.untilNet; split <;> rfl
@[simp] theorem untilNet_core (s : State) (t id : Nat) : (s.untilNet t).core id = s.core id := by unfold State.untilNet; split <;> rfl
@[simp] theorem untilNet_tile (s : State) (t n : Nat) : (s.untilNet t).tile n = s.tile n := by unfold State.untilNet; split <;> rfl
theorem untilNet_of_le (s : State) {t : Nat} (h : t ≤ s.time.net) : s.untilNet t = s := by unfold State.untilNet; rw [if_neg (by omega)]
theorem untilNow_of_le (s : State) {t : Nat} (h : t ≤ s.time.now) : s.untilNow t = s := by unfold State.untilNow; rw [if_neg (by omega)]
theorem untilNet_net (s : State) (t : Nat) : (s.untilNet t).time.net = max s.time.net t := by
  unfold State.untilNet
  split
  · rw [Nat.max_eq_right (by omega)]
  · exact (Nat.max_eq_left (by omega)).symm
theorem untilNow_now (s : State) (t : Nat) : (s.untilNow t).time.now = max s.time.now t := by
  unfold State.untilNow
  split
  · rw [Nat.max_eq_right (by omega)]
    show s.time.now + (t - s.time.now) = t
    omega
  · exact (Nat.max_eq_left (by omega)).symm
/-- Outside a switch-over gap no request waits. -/
theorem hostWaits_of_gap (s : State) (m : Master) (h : s.cd.gap = none) : s.hostWaits m = s := by unfold State.hostWaits; rw [h]
/-- A master that is no PCIe function never waits. -/
theorem hostWaits_of_unit (s : State) (m : Master) (h : ¬(unitOf m = mPF0 ∨ unitOf m = mPF1)) : s.hostWaits m = s := by
  unfold State.hostWaits
  split
  · exact if_neg h
  · rfl
@[simp] theorem elapse_now (s : State) (d : Nat) : (s.elapse d).time.now = s.time.now + d := rfl
theorem elapse_net (s : State) (d : Nat) : (s.elapse d).time.net = ((s.time.net + d : Nat) + s.time.slewed d).toNat := rfl
@[simp] theorem elapse_reg (s : State) (d off : Nat) : (s.elapse d).reg off = s.reg off := rfl
@[simp] theorem elapse_fld (s : State) (d : Nat) (f : Fld) : (s.elapse d).fld f = s.fld f := rfl
@[simp] theorem setCore_reg (s : State) (id : Nat) (c : Core) (off : Nat) : (s.setCore id c).reg off = s.reg off := rfl
@[simp] theorem setCore_fld (s : State) (id : Nat) (c : Core) (f : Fld) : (s.setCore id c).fld f = s.fld f := rfl
@[simp] theorem setTile_reg (s : State) (t : Nat) (x : Tile) (off : Nat) : (s.setTile t x).reg off = s.reg off := rfl
@[simp] theorem setTile_fld (s : State) (t : Nat) (x : Tile) (f : Fld) : (s.setTile t x).fld f = s.fld f := rfl

/-! ## Bits -/

theorem bitsOf_lt (w : Word) (hi lo : Nat) : bitsOf w hi lo < 2 ^ (hi + 1 - lo) := (w.extractLsb' lo (hi + 1 - lo)).isLt

/-- A field written reads back, taken modulo its width. -/
theorem bitsOf_withBits_same (w : Word) (hi lo v : Nat) (h1 : lo ≤ hi) (h2 : hi < 32) :
    bitsOf (withBits w hi lo v) hi lo = v % 2 ^ (hi + 1 - lo) := by
  have e : (withBits w hi lo v).extractLsb' lo (hi + 1 - lo) = BitVec.ofNat (hi + 1 - lo) v := by
    apply BitVec.eq_of_getLsbD_eq
    intro i hi'
    simp only [withBits, BitVec.getLsbD_extractLsb', BitVec.getLsbD_or, BitVec.getLsbD_and, BitVec.getLsbD_not,
      BitVec.getLsbD_shiftLeft, BitVec.getLsbD_setWidth, BitVec.getLsbD_allOnes]
    have a1 : lo + i < 32 := by omega
    have a3 : ¬(lo + i < lo) := by omega
    have a4 : lo + i - lo = i := by omega
    have a5 : i < 32 := by omega
    simp [a1, a4, a5, hi']
  simp [bitsOf, e, BitVec.toNat_ofNat]

/-- A field written leaves the fields beside it. -/
theorem bitsOf_withBits_other (w : Word) (hi lo v a b : Nat) (h : a < lo ∨ hi < b) :
    bitsOf (withBits w hi lo v) a b = bitsOf w a b := by
  have e : (withBits w hi lo v).extractLsb' b (a + 1 - b) = w.extractLsb' b (a + 1 - b) := by
    apply BitVec.eq_of_getLsbD_eq
    intro i hi'
    simp only [withBits, BitVec.getLsbD_extractLsb', BitVec.getLsbD_or, BitVec.getLsbD_and, BitVec.getLsbD_not,
      BitVec.getLsbD_shiftLeft, BitVec.getLsbD_setWidth, BitVec.getLsbD_allOnes]
    by_cases c : b + i < 32
    · by_cases d : b + i < lo
      · simp [c, d]
      · have d2 : ¬(b + i - lo < hi + 1 - lo) := by omega
        have d3 : (BitVec.ofNat (hi + 1 - lo) v).getLsbD (b + i - lo) = false := BitVec.getLsbD_of_ge _ _ (by omega)
        simp [c, d2, d3]
    · have : w.getLsbD (b + i) = false := BitVec.getLsbD_of_ge _ _ (by omega)
      simp [c, this]
  simp [bitsOf, e]

/-! ## Registers -/

theorem reg_setReg (s : State) (a b : Nat) (v : Word) : (s.setReg a v).reg b = if b = a then v else s.reg b :=
  SMap.get_set _ _ _ _ _

@[simp] theorem reg_setReg_same (s : State) (a : Nat) (v : Word) : (s.setReg a v).reg a = v := by simp [reg_setReg]

theorem reg_setReg_other (s : State) {a b : Nat} (v : Word) (h : b ≠ a) : (s.setReg a v).reg b = s.reg b := by
  simp [reg_setReg, h]

theorem reg_setFld_other (s : State) (f : Fld) {b : Nat} (v : Nat) (h : b ≠ f.off) : (s.setFld f v).reg b = s.reg b :=
  reg_setReg_other s _ h

/-- A field written reads back, taken modulo its width. -/
theorem fld_setFld_same (s : State) (f : Fld) (v : Nat) (h1 : f.lo ≤ f.hi) (h2 : f.hi < 32) :
    (s.setFld f v).fld f = v % 2 ^ (f.hi + 1 - f.lo) := by
  simp only [State.fld, State.setFld, reg_setReg_same]
  exact bitsOf_withBits_same _ _ _ _ h1 h2

/-- A field written leaves a field of another register, and one beside it in its own. -/
theorem fld_setFld_other (s : State) (f g : Fld) (v : Nat) (h : g.off ≠ f.off ∨ g.hi < f.lo ∨ f.hi < g.lo) :
    (s.setFld f v).fld g = s.fld g := by
  simp only [State.fld, State.setFld, reg_setReg]
  by_cases e : g.off = f.off
  · rw [if_pos e, e]
    exact bitsOf_withBits_other _ _ _ _ _ _ (by omega)
  · rw [if_neg e]

theorem fld_setReg_other (s : State) (f : Fld) (off : Nat) (v : Word) (h : f.off ≠ off) : (s.setReg off v).fld f = s.fld f := by
  simp only [State.fld, reg_setReg, if_neg h]

theorem fld_setReg_same (s : State) (f : Fld) (v : Word) : (s.setReg f.off v).fld f = bitsOf v f.hi f.lo := by
  simp only [State.fld, reg_setReg_same]

/-! ## Cores and tiles -/

@[simp] theorem core_setCore_same (s : State) (id : Nat) (c : Core) : (s.setCore id c).core id = c := SMap.get_set_same _ _ _ _

theorem core_setCore_other (s : State) {a b : Nat} (c : Core) (h : b ≠ a) : (s.setCore a c).core b = s.core b :=
  SMap.get_set_other _ _ _ h

@[simp] theorem tile_setTile_same (s : State) (t : Nat) (x : Tile) : (s.setTile t x).tile t = x := SMap.get_set_same _ _ _ _

theorem tile_setTile_other (s : State) {a b : Nat} (x : Tile) (h : b ≠ a) : (s.setTile a x).tile b = s.tile b :=
  SMap.get_set_other _ _ _ h

@[simp] theorem core_setReg (s : State) (off : Nat) (v : Word) (id : Nat) : (s.setReg off v).core id = s.core id := rfl
@[simp] theorem core_setFld (s : State) (f : Fld) (v : Nat) (id : Nat) : (s.setFld f v).core id = s.core id := rfl
@[simp] theorem tile_setReg (s : State) (off : Nat) (v : Word) (t : Nat) : (s.setReg off v).tile t = s.tile t := rfl
@[simp] theorem tile_setFld (s : State) (f : Fld) (v : Nat) (t : Nat) : (s.setFld f v).tile t = s.tile t := rfl

end Sys2Proof.Machine
end

