-- ==== Sys2Proof/Tests/Slice0.lean ====
section
/-!
SUPPORT. The author's own tests: the well-formedness checks refuse an ill-formed command each; `witness_*` shows for each
statement a concrete state and operands that meet its hypotheses, clause by clause; `test_*` checks a value the spec states.
-/
namespace Sys2Proof.Tests
open Sys2Proof Sys2Proof.Machine

set_option maxRecDepth 100000

/-! ## Small states -/

/-- After power good and boot: BAR0 answers. -/
def up : State := { State.reset with power := { Power.reset with
  pwrGood := true, rstN := true, perstN := true, smbus := true, bar0 := true, fastClocks := true } }

/-- A state with fields given values. -/
def flds (s : State) (l : List (Fld × Nat)) : State := l.foldl (fun s p => s.setFld p.1 p.2) s

/-- A state whose core with a master ID is `k`. -/
def onCore (id : Nat) (k : Core) : State := up.setCore id k

/-- A command answers a next state of which p holds. -/
def ran (i : Instr) (s : State) (p : State → Bool) : Bool :=
  match exec i s with
  | .next t => p t
  | _ => false

/-- The host's master ID, and a descriptor of PF0. -/
def host : Master := 0x58#8
def desc : Desc := { pf := 0, evt := false, recovery := false, tag := 7#32, zeroOk := true }

/-! ## Well-formedness: one ill-formed command for each check -/

theorem smoke_write_of_no_bytes : (Instr.registerWrite host ⟨0, 0, 0, true⟩).wellFormed = false := by decide
theorem smoke_write_of_513_bytes : (Instr.bar2Write host ⟨0, 513, 0, true⟩).wellFormed = false := by decide
theorem smoke_write_value_too_wide : (Instr.registerWrite host ⟨0, 1, 256, true⟩).wellFormed = false := by decide
theorem smoke_eo_dac_644 : (Instr.outputMismatch 0 false 644).wellFormed = false := by decide
theorem smoke_actuator_dac_644 : (Instr.actuatorWrite .cope 0 false 644 0).wellFormed = false := by decide
theorem smoke_result_of_no_object : (Instr.calApply 1 16).wellFormed = false := by decide
theorem smoke_result_of_no_quantity : (Instr.calApply 0 0).wellFormed = false := by decide
theorem smoke_short_time_message : (Instr.todMessage [] true).wellFormed = false := by decide
theorem smoke_short_frame : (Instr.dataFrameIngress 0 ⟨0, 1, 0, 0, 0#16, false, List.replicate 63 0#8, 0#32, true⟩).wellFormed = false := by decide
theorem smoke_long_frame : (Instr.dataFrameIngress 0 ⟨0, 1, 0, 0, 0#16, false, List.replicate 16321 0#8, 0#32, true⟩).wellFormed = false := by decide
theorem smoke_burst_of_three_lanes : (Instr.ladleBurstReceive 0 0 0 (List.replicate 3 ⟨0#128, []⟩)).wellFormed = false := by decide
theorem smoke_codeword_of_545_errors : (Instr.ladleBurstReceive 0 0 0 (List.replicate 4 ⟨0#128, [⟨545, 0#5140⟩]⟩)).wellFormed = false := by decide
theorem smoke_sweep_of_no_codes : (Instr.calResult ⟨5, 0, 0, 0, 0, [], []⟩).wellFormed = false := by decide
theorem smoke_library_count : (Instr.startMouldLib desc 1#16 []).wellFormed = false := by decide
theorem smoke_library_assignment : (Instr.startMouldLib desc 1#16 [⟨9#13, none, []⟩]).wellFormed = false := by decide
theorem smoke_heat_image_assignment : (Instr.startHeatLoad desc ⟨0#96, 0#32, [], [⟨9#13, none, []⟩]⟩).wellFormed = false := by decide
theorem smoke_failure_without_cause : (Instr.jobComplete 1#16 (.failed 0)).wellFormed = false := by decide
theorem smoke_failure_cause_10 : (Instr.jobComplete 1#16 (.failed 10)).wellFormed = false := by decide
theorem smoke_fifteen_readings : (Instr.thermalConversion (List.replicate 15 none)).wellFormed = false := by decide

/-! ## The block as a whole, registers and windows -/

theorem witness_StepIdlesOnAnEmptyQueue : State.reset.pending = [] := by decide

theorem witness_StepKeepsRegisterFileCanonical : State.reset.canonical = true ∧ ∃ t, step State.reset = .next t := ⟨by decide, _, rfl⟩

/-- A register without a rule of its own may be written, one of the configuration check and one not. -/
theorem witness_RegisterWritesByAccessCode :
    ((findReg regTable R.loopCtrl).any fun x => !registersWithRules.contains x.1.base) = true ∧
    ((findReg regTable R.fltFecStat).any fun x => !registersWithRules.contains x.1.base && !x.1.cfg) = true ∧
    R.loopCtrl % 4 = 0 ∧ Admitted up host R.loopCtrl ∧ Admitted up host R.fltFecStat := by decide

/-- A closed block, a bad size, a narrow write, a hole and an unprivileged master. -/
theorem witness_RefusedRegisterAccesses :
    State.reset.answers host = false ∧ up.answers host = true ∧ up.bus.hand = none ∧ up.blockOpen host 0x318000 = false ∧
    up.blockOpen host 0 = true ∧ findReg regTable 0xFFFC = none ∧ up.blockOpen host 0xFFFC = true ∧
    (findReg regTable R.glbStateReq).isSome = true ∧ privReg R.glbStateReq = true ∧ up.privileged 0x59#8 = false ∧
    up.answers 0x59#8 = true ∧
    ran (.registerWrite host ⟨2, 4, 0, true⟩) up (fun t => t.fld F.busErrCountsShape == 1) = true ∧
    ran (.registerWrite host ⟨0, 2, 0, true⟩) up (fun t => t.fld F.busErrCountsShape == 1) = true ∧
    ran (.registerWrite host ⟨0, 512, 0, false⟩) up (fun t => t.fld F.busErrCountsShape == 1) = true := by decide

theorem witness_AccessLogging : up.flag F.fltFecStatValid = false ∧
    (up.capture (regAccess host 0) 1).flag F.fltFecStatValid = true := by decide

/-- The ends of the windows of BAR2 that PF0 may write, and the first offsets beyond. -/
theorem witness_WindowWrites :
    let s := flds up [(F.heatSchedHost, 1)]
    s.power.bar0 = true ∧ s.flag F.glbBootRcv = false ∧ s.bus.hand = none ∧ host.toNat % 128 = 0x58 ∧
    s.flag F.heatSchedHost = true ∧ s.fld F.heatNextStatusState = 0 ∧
    ran (.bar2Write host ⟨0x104FFFC, 4, 7, true⟩) s (fun t => t.areaWord 0x104FFFC == 7) = true ∧
    ran (.bar2Write host ⟨0x210FFFC, 4, 7, true⟩) s (fun t => t.heats.next.get (fun _ => 0) 4095 == 0x700000000#64) = true ∧
    ran (.bar2Write host ⟨0x44715FC, 4, 7, true⟩) s (fun t => (t.core 71).mem.get (fun _ => 0) 0x15FC == 7) = true ∧
    ran (.bar2Write host ⟨0xC043FF0, 4, 0x3000000, true⟩) s (fun t => (t.queue 17407).profile == 3) = true ∧
    ran (.bar2Write host ⟨0xC30004C, 4, 7, true⟩) s (fun t => t.ladle.shadow.get (fun _ => 0) 19 == 7) = true ∧
    ran (.bar2Write host ⟨0x1050000, 4, 7, true⟩) s (fun t => t.fld F.busErrCountsShape == 1) = true ∧
    ran (.bar2Write host ⟨0x1800000, 4, 7, true⟩) s (fun t => t.fld F.busErrCountsDecode == 1) = true ∧
    ran (.bar2Write 0x59#8 ⟨0x17FFFFC, 4, 7, true⟩) s (fun t => t.fld F.busErrCountsPriv == 1) = true := by decide

theorem witness_StatusWindow :
    let s := { up with bus := { up.bus with window := List.replicate 8 0#32 } }
    s.power.smbus = true ∧ s.bus.window = [0, 0, 0, 0, 0, 0, 0, 0] ∧ ran (.smbusReadByte 31#8) s (fun t => t.bus.answer == some [0]) = true ∧
    ran (.smbusReadWord 30#8) s (fun t => t.bus.answer == some [0, 0]) = true := by decide

/-- Each precondition of the clauses: a lock in progress or not, BOOTED or not, a burst of the debug port or none, and the passes of
the configuration check. -/
theorem witness_BusControl :
    let open_ := flds up [(F.lockStatusDebug, 1)]
    let locked := { up with bus := { up.bus with locked := some (255, 0) } }
    let burst := { up with bus := { up.bus with bursts := [(0x5E, 16)] } }
    let armed := flds up [(F.cfgStatusArmed, 1)]
    open_.flag F.lockStatusDebug = true ∧ open_.bus.locked = none ∧ locked.bus.locked = some (255, 0) ∧ locked.bus.hand = none ∧
    Admitted up 0x50#8 R.busRemap ∧ unitOf 0x50#8 = 0x50 ∧ (up.core 0x50).user = false ∧ Admitted up host R.busRemap ∧
    unitOf host ≠ 0x50 ∧ Admitted up host R.busSlice ∧ up.flag F.busStatusBooted = false ∧
    (flds up [(F.busStatusBooted, 1)]).flag F.busStatusBooted = true ∧ up.bus.bursts = [] ∧
    (burst.bus.bursts.find? fun p => p.1 = 0x5E) = some (0x5E, 16) ∧ up.flag F.cfgStatusArmed = false ∧
    armed.flag F.cfgStatusArmed = true ∧ armed.bus.passDirty = false ∧ armed.flag F.cfgStatusDirty = false := by decide

/-! ## Events -/

/-- A record of level 3 for target 2 waits, and its ring has 16 places. -/
def record3 : EvRec := { source := 0x700, code := 0, level := 3, data := 0, ns := 0, sec := 0, replay := false }
def eventState : State :=
  let s := flds up [(F.evtDeliverEnEn, 1), (F.evtRingCtrlEn 2 3, 1), (F.evtRingCtrlSize 2 3, 4)]
  { s with events := { s.events with buffer := [{ seq := 0, record := record3, targets := [2] }] } }

theorem witness_EventRingWrites :
    let s := eventState
    let last := flds s [(F.evtRingTailTail 2 3, 15), (F.evtRingHeadHead 2 3, 5)]
    (flds s [(F.evtDeliverEnEn, 0)]).flag F.evtDeliverEnEn = false ∧ s.available 0 = false ∧ s.events.buffer = [{ seq := 0, record := record3, targets := [2] }] ∧
    s.events.overflow.find? 2 = none ∧ s.flag F.evtDeliverEnEn = true ∧ s.available 2 = true ∧ record3.level < 8 ∧
    s.flag (F.evtRingCtrlEn 2 3) = true ∧ (s.fld (F.evtRingTailTail 2 3) + 1) % 16 ≠ s.fld (F.evtRingHeadHead 2 3) % 16 ∧
    s.fld (F.evtRingBaseLoAddr 2 3) % 64 = 0 ∧
    ran (.eventRingWrite 2) last (fun t => t.fld (F.evtRingTailTail 2 3) == 0 && !t.flag (F.evtRingTailPhase 2 3) &&
      t.getWord sramUnit t.activeDie 240 == 0xB0000700) = true := by decide

/-- A ring's base while it is in use and while it is not (Table 14.13). -/
theorem test_event_ring_base :
    ran (.registerWrite host ⟨0x22260, 4, 0x12345678, true⟩) eventState
      (fun t => t.fld (F.evtRingBaseLoAddr 2 3) == 0 && t.events.buffer.length == 2) = true ∧
    ran (.registerWrite host ⟨0x22240, 4, 0x1234567F, true⟩) eventState (fun t => t.fld (F.evtRingBaseLoAddr 2 2) == 0x12345640) = true ∧
    ran (.registerWrite host ⟨0x22244, 4, 7, true⟩) eventState (fun t => t.fld (F.evtRingBaseHiAddr 2 2) == 0) = true := by decide

/-- A function level reset discards what waits for its function and counts it; a link reset leaves it waiting (R312, R350). -/
theorem test_function_and_link_reset :
    let s := { up with events := { up.events with buffer := [{ seq := 0, record := record3, targets := [0, 2] }, { seq := 1, record := record3, targets := [0] }] } }
    ran (.functionLevelReset 0) s (fun t => t.fld F.evtLostCount == 2 && t.events.buffer.map (·.targets) == [[2]]) = true ∧
    ran .linkReset s (fun t => t.fld F.evtLostCount == 0 && t.events.buffer.length == 2) = true := by decide

/-- Each case of ACCEPT and EOI: a higher level waits, none does, another master asks, the stack is empty or not, a signal is due. -/
theorem witness_AcceptAndEndOfInterrupt :
    let s := flds up [(F.evtRingTailTail 0 7, 1), (F.evtRingTailTail 0 0, 1)]
    let stacked := fun (l : List Nat) => { s with events := { s.events with stackOf := s.events.stackOf.put 0 l } }
    let due := { s with events := { s.events with due := s.events.due.put 3 (some 500) } }
    s.answers host = true ∧ s.targetMaster 0 host = true ∧ s.targetMaster 1 host = false ∧
    s.fld (F.evtRingHeadHead 0 7) ≠ s.fld (F.evtRingTailTail 0 7) ∧ (stacked [7]).events.stackOf.get (fun _ => []) 0 = [7] ∧
    Admitted s host (R.evtTgtEoi 0) ∧ Admitted s host (R.evtTgtEoi 1) ∧ s.events.stackOf.get (fun _ => []) 0 = [] ∧
    due.events.due.get (fun _ => none) 3 = some 500 ∧
    ran (.evtAccept host 0) s (fun t => (t.reg (R.evtTgtAccept 0)).toNat == 0x80000107) = true ∧
    ran (.evtAccept host 0) (stacked [7]) (fun t => (t.reg (R.evtTgtAccept 0)).toNat == 0) = true := by decide

/-- A target set up, a redirection allowed and one forbidden, and a PF that is away, with and without fallback. -/
theorem witness_EventTargetSetup :
    let s := flds up [(F.evtTgtCtrlRedir 0, 0), (F.evtTgtCtrlRedir 1, 1), (F.evtTgtCtrlRedir 2, 2), (F.evtTgtCtrlRedir 3, 3)]
    let there := { up with events := { up.events with available := up.events.available.put 1 true } }
    Admitted s host (R.evtRingHead 3 7) ∧ Admitted s host (R.evtRingCtrl 0 0) ∧ Admitted s host (R.evtTgtCtrl 2) ∧
    s.fld (F.evtTgtCtrlRedir 3) = 3 ∧ (∀ w, w < 4 → w ≠ 2 → s.fld (F.evtTgtCtrlRedir w) ≠ 2) ∧
    (flds s [(F.evtTgtCtrlRedir 1, 2)]).fld (F.evtTgtCtrlRedir 1) = 2 ∧ s.bus.hand = none ∧
    s.available 0 = false ∧ s.fallback 0 = false ∧ s.fallbackOf 0 ≠ 0 ∧ there.available 1 = true := by decide

/-! ## Start-up, reset and the states of the engine -/

theorem witness_Resets : Admitted up host R.glbReset ∧ (0xC0DE#16 : BitVec 16) ≠ 0#16 ∧ up.bus.hand = none ∧
    State.reset.power.pwrGood = false := by decide

/-- Waiting for the boot, with an image that verifies and with none; recovery mode; no burst of the host's. -/
theorem witness_BootRecoveryAndLinkReset :
    let s := { State.reset with power := { Power.reset with pwrGood := true, rstN := true } }
    let r := flds up [(F.glbBootRcv, 1)]
    s.power.bar0 = false ∧ s.power.shake = none ∧ s.svc = 1 ∧ (∀ k, k < 4 → s.fld (slotFld k false) = 0 ∧ s.fld (slotFld k true) = 0) ∧
    Admitted r host R.glbReset ∧ r.flag F.glbBootRcv = true ∧ up.bus.bursts = [] ∧
    ran (.rcvLoad host 0xC0DE#16 3 true 3 true true) r (fun t => t.fld (slotFld 3 true) == 2) = true ∧
    ran (.rcvLoad host 0xC0DE#16 0 true 0 true true) r (fun t => t.fld F.glbBootRcvErr == 3) = true := by decide

/-- The states the clauses name: in a transition, KEEP, HOLD, RUN, each service state, an over-temperature fault standing. -/
theorem witness_StateRequests :
    let at_ := fun (dev svc : Nat) => flds up [(F.glbStateDev, dev), (F.glbStateSvc, svc)]
    Admitted up host R.glbStateReq ∧ (flds up [(F.glbStateTrans, 1)]).trans = true ∧ up.trans = false ∧
    (at_ 0 0).dev = 0 ∧ (flds up [(F.fltStat 4 4, 1)]).flag (F.fltStat 4 4) = true ∧ up.flag (F.fltStat 4 4) = false ∧
    up.fld F.glbBootOk / 2 % 2 = 0 ∧ (at_ 1 0).dev = 1 ∧ (at_ 1 0).fld F.glbHoldMouldMould = 0 ∧ (at_ 1 0).svc = 0 ∧
    (at_ 1 0).fld F.timStatusState ≠ 2 ∧ (flds (at_ 1 0) [(F.timStatusState, 2)]).fld F.timStatusState = 2 ∧
    (at_ 1 0).flag F.heatRunBase2Set = false ∧ (at_ 2 0).dev = 2 ∧ (at_ 1 1).svc = 1 ∧ (at_ 1 2).svc = 2 ∧ (at_ 1 3).svc = 3 ∧
    (at_ 1 3).power.recover = [] ∧ Quiet (at_ 1 3) := by decide

/-- A fault that started recovery still stands: what a request for TEST then finds. -/
theorem witness_StateRequests_recovering :
    let s := flds { up with power := { up.power with recover := [(7, 3)] } } [(F.glbStateSvc, 3), (F.fltStat 7 3, 1)]
    s.svc = 3 ∧ s.dev ≠ 2 ∧ (∃ p ∈ s.power.recover, s.flag (F.fltStat p.1 p.2) = true) ∧
    ran (.requestTest host) s (fun t => t.fld F.glbStateErrReason == 6) = true := by decide

theorem witness_RunAndDrainRequests :
    let s := flds up [(F.glbStateDev, 1), (F.glbStateSvc, 0), (F.timStatusState, 2), (F.heatRunBase2Set, 1)]
    let r := flds up [(F.glbStateDev, 2)]
    Admitted s host R.glbStateReq ∧ s.trans = false ∧ Quiet s ∧ s.dev = 1 ∧ s.svc = 0 ∧ s.fld F.timStatusState = 2 ∧
    s.flag F.heatRunBase2Set = true ∧ (s.reg (R.heatRunBase 0)).toNat = 0 ∧ Quiet r ∧ r.dev = 2 ∧ r.heats.armed = none ∧
    r.fld F.glbDrainTimeoutUnits ≠ 0 ∧
    ran (.requestRun host) s (fun t => (t.heats.waitingRun.map fun h => h.a) == some 10035200) = true := by decide

/-- Outside a shakeout, and in one that has settled, by each cause the clauses name. -/
theorem witness_ShakeoutStarts :
    let s := flds up [(F.glbStateSvc, 0)]
    let sh : Shake := { start := 0, settled := true, zeroed := false, fault := false, warm := false }
    let during := fun (cause : Nat) => flds { s with power := { s.power with shake := some sh } } [(F.glbStateKeepCause, cause)]
    s.jobs.table = [] ∧ s.fld F.heatNextStatusState ≠ 2 ∧ s.power.shake = none ∧ Admitted s host R.glbStateReq ∧
    Admitted s host R.glbReset ∧ s.svc ≠ 1 ∧ (during 1).power.shake = some sh ∧ (during 1).fld F.glbStateKeepCause = 1 ∧
    (during 3).fld F.glbStateKeepCause = 3 := by decide

theorem witness_ShakeoutEnds :
    let sh := fun (z : Bool) => ({ start := 0, settled := true, zeroed := z, fault := true, warm := false } : Shake)
    let s := fun (z : Bool) => { up with power := { up.power with shake := some (sh z) } }
    (s true).power.shake = some (sh true) ∧ (s false).power.shake = some (sh false) ∧ up.jobs.table = [] ∧
    up.events.buffer.length + 16 ≤ 4096 ∧ (s true).cal.undo = [] ∧ (s true).cal.fettleBusy = false := by decide

theorem find_map_mul {α : Type} (c : Nat) (hc : 0 < c) (v : α) (q : Nat) : ∀ n a, a ≤ q → q < a + n →
    SMap.find? ((List.range' a n).map fun p => (c * p, v)) (c * q) = some v
  | 0, a, h, g => absurd g (by omega)
  | n + 1, a, h, g => by
    simp only [List.range'_succ, List.map_cons, SMap.find?]
    by_cases e : a = q
    · simp [e]
    · have : c * a ≠ c * q := fun h => e (Nat.eq_of_mul_eq_mul_left hc h)
      rw [if_neg this]; exact find_map_mul c hc v q n (a + 1) (by omega) (by omega)

theorem find_map_off {α : Type} (c : Nat) (v : α) (k : Nat) (hk : k % c ≠ 0) : ∀ n a,
    SMap.find? ((List.range' a n).map fun p => (c * p, v)) k = none
  | 0, _ => rfl
  | n + 1, a => by
    simp only [List.range'_succ, List.map_cons, SMap.find?]
    have : c * a ≠ k := fun h => hk (by simp [← h])
    rw [if_neg this]; exact find_map_off c v k hk n (a + 1)

/-- Every inner loop LOCKED: each record shows the state 2 (Table 05.3). -/
def lockedMem : SMap Byte := (List.range' 0 171).map fun p => (32 * p, 2#8)
def lockedCore : Core := { Core.zero with mem := lockedMem }
def locked (s : State) : State :=
  { s with cores := (List.range' 0 128).map fun k => (1 * k, lockedCore), bus := { s.bus with sram := lockedMem } }

theorem lockedMem_word (p : Nat) (hp : p < 171) : memWord lockedMem (32 * p) = 2#32 := by
  unfold memWord SMap.get lockedMem
  rw [find_map_mul 32 (by decide) _ p 171 0 (by omega) (by omega), find_map_off 32 _ (32 * p + 1) (by omega),
    find_map_off 32 _ (32 * p + 2) (by omega), find_map_off 32 _ (32 * p + 3) (by omega)]
  exact (by decide : wordOf 2#8 0 0 0 = 2#32)

theorem loop_place (l : Nat) (hl : l < 10896) : loopPos l < 171 := by
  have hx : loopTile l < 16 ∧ loopLocal l < 681 := by
    unfold loopTile loopLocal; split <;> constructor <;> omega
  unfold loopPos loopFlask flaskFirst
  dsimp only
  split
  · simp; omega
  · split
    · have e : (4 * loopTile l + 1) % 4 = 1 := by omega
      rw [e]; simp; omega
    · split
      · have e : (4 * loopTile l + 2) % 4 = 2 := by omega
        rw [e]; simp; omega
      · have e : (4 * loopTile l + 3) % 4 = 3 := by omega
        rw [e]; simp; omega

theorem locked_allLocked (s : State) (hh : s.loops.holds = []) (hd : s.activeDie = .cope) : (locked s).allLocked = true := by
  refine List.all_eq_true.2 fun l hl => ?_
  have hp := loop_place l (List.mem_range.1 hl)
  have hd' : (locked s).activeDie = .cope := hd
  have w : ∀ u, u < 128 → (locked s).getWord u .cope (32 * loopPos l + 4 * 0) = 2#32 := by
    intro u hu
    unfold State.getWord
    split
    · exact lockedMem_word _ hp
    · show memWord ((locked s).core (u + 0)).mem (32 * loopPos l) = _
      have c : (locked s).core (u + 0) = lockedCore := by
        have := find_map_mul 1 (by decide) lockedCore u 128 0 (by omega) (by omega)
        unfold State.core SMap.get locked
        simp only [Nat.one_mul] at this ⊢
        simp only [Nat.add_zero, this]
      rw [c]; exact lockedMem_word _ hp
  have hc : (locked s).flaskCore (loopFlask l) < 128 := by
    unfold State.flaskCore State.fld bitsOf
    exact BitVec.isLt _
  have w0 : ((locked s).loopImage (locked s).activeDie l).getD 0 0 = 2#32 := by rw [hd']; exact w _ hc
  have st : ((locked s).loopImage (locked s).activeDie l).state = 2 := by unfold Image.state Image.get; rw [w0]; decide
  have dk : ((locked s).loopImage (locked s).activeDie l).dark = false := by unfold Image.dark Image.get; rw [w0]; decide
  have hs : (locked s).loops.holds = [] := hh
  have held : (locked s).loopHeld (locked s).activeDie l = false := by
    unfold State.loopHeld State.engineHold State.hostHold
    rw [hs, dk]; simp [SMap.get, SMap.find?]
  have ls : (locked s).loopState l = 2 := by unfold State.loopState; rw [held]; simp [st]
  unfold State.settled
  simp [ls, lLocked]

def toHold : State := flds up [(F.glbStateTrans, 1), (F.glbStateTarget, 1), (F.glbStateSvc, 0), (F.mldInForceZero, 0)]

/-- A POWER_UP pass that has accepted REF_IN, or not, and HOLD with it in progress. -/
def upPass (ok : Bool) : CalPass :=
  { job := 0, num := 1, powerUp := true, tiles := List.range 16, pos := 0, refOk := some ok, refused := !ok, replaced := [], spares := [],
    own := none, swept := [], partner := none }
def inPowerUp : State := flds { up with cal := { up.cal with passes := [upPass true], passNum := 1 } } [(F.glbStateDev, 1), (F.calStatusRefOk, 1)]

/-- Going to HOLD with the fabric made up, and HOLD in a power-up calibration, every loop locked. -/
theorem witness_TransitionsEnd_locked :
    let s := locked toHold
    let cal := locked inPowerUp
    (Quiet s ∧ s.trans = true ∧ s.fld F.glbStateTarget = 1 ∧ s.dev = 0 ∧ s.svc = 0 ∧
      s.power.holdDue = false ∧ s.allLocked = true) ∧
    Quiet cal ∧ cal.svc = 1 ∧ cal.dev = 1 ∧ cal.cal.passes = [upPass true] ∧ (upPass true).bare = upPass true ∧ cal.allLocked = true ∧
    cal.power.holdDue = false := by
  have a : (locked toHold).allLocked = true := locked_allLocked _ (by decide) (by decide)
  have b : (locked inPowerUp).allLocked = true := locked_allLocked _ (by decide) (by decide)
  refine ⟨⟨?_, ?_, ?_, ?_, ?_, ?_, a⟩, ?_, ?_, ?_, ?_, ?_, b, ?_⟩ <;> decide

/-- A power-up calibration that fails or is begun again, a base heat that waits, and each end of a drain. -/
theorem witness_TransitionsEnd :
    let h : Heat := { a := 5, cycle := 20480, guard := 100, dclass := 0, ctrl := 0, serial := 0, direct := [], n := 1, base := true,
                      swaps := [] }
    let waits := { up with heats := { up.heats with waitingRun := some h } }
    let drain := fun (d : Bool) => { up with power := { up.power with drain := some 0, drained := d } }
    let bad := { inPowerUp with cal := { inPowerUp.cal with passes := [upPass false] } }
    Quiet bad ∧ bad.svc = 1 ∧ (upPass false).refused = true ∧ (upPass false).bare = upPass false ∧ bad.cal.deltaWaiting = [] ∧ NoRecovery bad 8 ∧
    NoRecovery bad 12 ∧ Quiet inPowerUp ∧ inPowerUp.svc = 1 ∧ (upPass true).refused = false ∧ (inPowerUp.loopState 0 ≠ lLocked) ∧
    (flds up [(F.glbStateDev, 1)]).dev = 1 ∧ up.svc = 1 ∧ up.cal.passes = [] ∧ up.trans = false ∧
    Quiet waits ∧ waits.heats.waitingRun = some h ∧
    (∀ sp, sp < 4 → waits.fld (F.ladSwapState sp) ≠ 1) ∧ (drain false).power.drain = some 0 ∧ (drain false).ladleEmpty = true ∧
    NoRecovery (drain true) 8 ∧
    (drain true).power.drained = true ∧ (drain true).cal.fettleBusy = false := by decide

/-! ## Moulds, pours and pilot verification -/

/-- A compile request of the host's. -/
def asks (target : Nat) (base : Option Nat) (assign : List Nat) : CompileReq :=
  { who := .host, target := target, base := base, assign := assign, tag := 0, desc := 0 }

/-- The router free or at work, the host's slot free or busy, and a mould owed since a swap. -/
theorem witness_MouldRequests :
    let r := asks 9 none (List.replicate 592 1023)
    let waits := { up with moulds := { up.moulds with waiting := [r, { r with who := .engine }] } }
    let owed := { up with moulds := { up.moulds with owed := [8] } }
    Admitted up host R.mldCmpReq ∧ (0x80000009#32 : Word).getLsbD 31 = true ∧ up.flag F.mldCmpStatBusy = false ∧
    (flds up [(F.mldCmpStatBusy, 1)]).flag F.mldCmpStatBusy = true ∧ up.moulds.waiting = [] ∧ waits.moulds.running = none ∧
    waits.moulds.waiting = [r] ++ { r with who := .engine } :: [] ∧ (Requester.engine).code < r.who.code ∧
    8 ∈ owed.moulds.owed ∧ 8 ∉ up.moulds.owed ∧ owed.inUse 8 = false ∧
    up.power.fastClocks = true ∧ up.retirementWaits = false ∧ up.inUse 9 = false := by decide

/-- A request for each reason of Table 03.4 that the statement names, and one that passes. -/
theorem witness_CompileOutcome :
    let s := fun r => { flds up [(F.mldInForceMould, 9), (F.mldInForceZero, 0)] with moulds := { up.moulds with running := some r } }
    let blank := List.replicate 592 1023
    let ok := s (asks 8191 none blank)
    (Quiet ok ∧ ok.power.fastClocks = true ∧ ok.moulds.running = some (asks 8191 none blank) ∧ blank.length = 592 ∧
      ok.moulds.store.wf (fun _ => Mould.blank) = true ∧ (∀ v ∈ blank, v < 592 ∨ v = 1023) ∧
      ok.inUse 8191 = false ∧ ok.moulds.retired = [] ∧ ∀ sp, sp < 4 → ok.exchanging sp = false) ∧
    (∃ v ∈ 592 :: blank.tail, 592 ≤ v ∧ v ≠ 1023) ∧ (∀ v ∈ 591 :: 591 :: blank.tail.tail, v < 592 ∨ v = 1023) ∧
    ((591 :: 591 :: blank.tail.tail).getD 0 0 = (591 :: 591 :: blank.tail.tail).getD 1 0) ∧
    (s (asks 9 none blank)).inUse 9 = true ∧ ((s (asks 8191 (some 10) blank)).mould 10).valid = false := by decide

/-- An assignment that names no input names none twice. -/
theorem witness_CompileOutcome_once :
    ¬∃ a b : Nat, a < b ∧ b < 592 ∧ (List.replicate 592 1023).getD a 0 = (List.replicate 592 1023).getD b 0 ∧
      (List.replicate 592 1023).getD a 0 < 592 := by
  rintro ⟨a, b, h, g, -, l⟩
  have : (List.replicate 592 1023).getD a 0 = 1023 := by
    simp only [List.getD_eq_getElem?_getD, List.getElem?_replicate]
    rw [if_pos (by omega)]; rfl
  omega

def staged (n : Nat) : Staged :=
  { mould := 0, pourAt := 1000, inputs := [], invalid := false, gap := false, sealedTiles := (List.range 16).take n,
    startedAt := 0, toHold := false, sample := none }
def withStaged (st : Staged) : State :=
  { flds up [(F.glbStateDev, 1)] with moulds := { up.moulds with staged := some st } }

/-- Nothing to stage, a HOLD pour to stage, and a staged mould with the fifteenth and the sixteenth tile to seal, or one that
cannot seal. -/
theorem witness_Staging :
    let s := { up with moulds := { up.moulds with holdPour := some 0 } }
    up.nextPour = none ∧ up.leavesRun = false ∧ up.power.holdDue = false ∧ s.power.shake = none ∧ s.moulds.staged = none ∧
    s.moulds.holdPour.isSome = true ∧ s.nextPour = some (0, 200) ∧ s.beingMade 0 = false ∧
    (withStaged (staged 14)).moulds.staged = some (staged 14) ∧ 15 ∉ (staged 14).sealedTiles ∧ 15 ∉ (staged 15).sealedTiles ∧
    (staged 15).sealedTiles.length = 15 ∧ 15 ∈ (staged 16).sealedTiles ∧ (staged 15).invalid = false ∧ (staged 15).gap = false ∧
    (staged 15).sample = none ∧ (staged 15).startedAt + 80 ≤ (staged 15).pourAt ∧ up.moulds.ditherOff = false ∧
    (let d := { up with moulds := { up.moulds with ditherOff := true, gates := [1000] } }; d.moulds.ditherOff = true ∧ d.moulds.gates = 1000 :: []) ∧
    up.cd.gap = none := by decide

theorem faultHold_false (s : State) (h : ∀ n, n < 96 → (s.reg (R.fltSrc n)).toNat / 2 ^ 24 % 16 = 0) : s.faultHold = false := by
  unfold State.faultHold
  rw [List.any_eq_false]
  intro n hn
  have hn := h n (List.mem_range.1 hn)
  rw [Bool.not_eq_true, List.any_eq_false]
  intro k hk
  have : s.flag (F.fltStat n k) = false := by
    have hk : k = 1 ∨ k = 2 ∨ k = 3 ∨ k = 4 := by simpa using hk
    unfold State.flag State.fld bitsOf F.fltStat
    rcases hk with rfl | rfl | rfl | rfl <;> simp [Nat.shiftRight_eq_div_pow] <;> omega
  simp [this]

theorem withStaged_faultHold : (withStaged (staged 16)).faultHold = false := faultHold_false _ (by decide)

/-- A pour with every tile sealed and no fault that holds pours; one with a tile unsealed; one that a fault action holds. -/
theorem witness_Pours :
    let s := withStaged (staged 16)
    let f := flds (withStaged (staged 15)) [(F.fltStat 0 1, 1), (F.fltAct 0 1, 2)]
    (up.moulds.staged = none ∧ up.heats.now = none) ∧
    (Quiet s ∧ s.moulds.staged = some (staged 16) ∧ s.dev = 1 ∧ s.trans = false ∧ s.heats.now = none ∧ s.heats.waitingRun = none ∧
      s.heats.armed = none ∧ (staged 16).mould < 8192 ∧ s.moulds.earlyPour = none ∧ (staged 16).toHold = false ∧
      s.power.holdDue = false ∧ s.time.net < (staged 16).pourAt ∧ (staged 16).sample = none ∧ (staged 16).sealedTiles.length = 16 ∧
      ∀ i, i < 16 → SMap.risingFrom 0 (s.tile i).staging = true) ∧
    f.faultHold = true ∧ NoRecovery f 8 ∧ (staged 15).sealedTiles.length ≠ 16 := by decide

/-- An output whose window counts; and windows of 64 contributions at the limits of PASS, WEAK and FAIL. -/
theorem witness_PilotVerification :
    let s := flds { locked up with moulds := { up.moulds with perm := [591] } } [(F.glbStateDev, 1), (F.mldInForceZero, 0)]
    let w := fun (sum : Int) => { up with moulds := { up.moulds with pilot := [(591, (64, sum, 20000))] } }
    s.flag F.mldPilotCtrlEn = true ∧ s.dev = 1 ∧ s.flag F.mldPilotCtrlHoldChk = true ∧ s.loopState (10304 + 591) = 2 ∧ s.fabric ≠ 3 ∧
    s.moulds.perm.getD 0 0 = 591 ∧ (0 : Nat) < s.moulds.perm.length ∧ s.flag F.mldInForceZero = false ∧
    (w 85).window 591 = (64, 85, 20000) ∧ up.flag F.mldPilotCtrlEn = true ∧ ¬(up.dev = 1) ∧ ¬(up.dev = 2) ∧ (w 85).window 591 = (64, 85, 20000) ∧
    (w 85).window 590 = (0, 0, 0) ∧ Quiet (w 85) ∧ NoRecovery (w 85) 8 ∧ (w 85).moulds.lastVerdict ≠ some (w 85).time.now ∧
    85 * 20000 ≤ 20000 * (85 : Int).natAbs ∧ 20000 * (-84 : Int).natAbs < 85 * 20000 ∧ 50 * 20000 ≤ 20000 * (50 : Int).natAbs ∧
    20000 * (49 : Int).natAbs < 50 * 20000 ∧ Admitted up host R.mldPilotCtrl := by decide

/-! ## Drive tiles -/

def withTile (t : Nat) (x : Tile) (s : State) : State := s.setTile t x

theorem witness_SpanChanges :
    let s := flds up [(F.tileStatusZero 15, 0)]
    let q : SpanSeq := { to12 := true, ends := 2000, again := false }
    let p := withTile 15 { Tile.zero with span := [(643, q)] } up
    32 * 20 + 3 < 644 ∧ Admitted s host (R.tileEoSpan 15 20) ∧ (s.tile 15).span = [] ∧ s.flag (F.tileStatusZero 15) = false ∧
    NoDuty p ∧ (s.tile 15).span12.get (fun _ => false) 643 = (s.reg (R.tileEoSpan 15 20)).getLsbD 3 ∧
    8#32 = s.reg (R.tileEoSpan 15 20) ^^^ (1#32 <<< 3) ∧ (s.tile 15).span.find? 643 = none ∧ (p.tile 15).span.find? 643 = some q := by decide

/-- Outputs that lag, and the same in a switch-over gap. -/
theorem witness_SlewSteps :
    let s := withTile 0 { Tile.zero with lag := [(0, 5), (1000, 7)] } up
    SMap.risingFrom 0 (s.tile 0).lag = true ∧ s.cd.gap = none ∧
    ({ s with cd := { s.cd with gap := some (0, 6400) } } : State).cd.gap.isSome = true := by decide

/-- Clocks stopped; a round over; a slot that an urgent request takes, and one it comes too late for; and a channel of its own with a
slot to go, for each sign of the range. -/
theorem witness_AdcConversions :
    let c : Channel := { Channel.idle with src := some 44, pos := 13 }
    let s := withTile 0 { Tile.zero with chans := [(44, c)] } up
    let asked := fun (at_ : Nat) => { c with urgent := [({ mon := 717, dc := false, who := 2, core := 0, arrived := at_ } : Urgent)] }
    NoDuty up ∧ (up.tile 0).span = [] ∧ (up.tile 0).pend = [] ∧ (up.tile 0).spareAt = [] ∧
    (∃ u us, (asked 0).urgent = u :: us ∧ u.arrived ≤ (s.tile 0).round + 200 * (asked 0).slots) ∧
    (∀ u us, (asked 5).urgent = u :: us → (s.tile 0).round + 200 * (asked 5).slots < u.arrived) ∧
    (∀ u us, c.urgent = u :: us → (s.tile 0).round + 200 * c.slots < u.arrived) ∧
    State.reset.power.fastClocks = false ∧ s.power.fastClocks = true ∧ 16 ≤ ({ c with slots := 16 } : Channel).slots ∧
    (s.tile 0).chan 44 = c ∧ c.slots < 16 ∧ c.pos < 16 ∧ c.src = some 44 ∧ 16 * 44 + c.pos < 718 ∧ s.framed 0 44 44 = true ∧
    (∀ p, p < 3 → s.fld (F.tileSpareState 0 p) = 0) ∧
    ran (.adcConversion 0 44 100#14 1) s (fun t => ((t.tile 0).samples.get (fun _ => 0) 1434).toNat % 65536 == 32767) = true := by
  refine ⟨by decide, by decide, by decide, by decide, ⟨_, _, rfl, by decide⟩, ?_, ?_, by decide⟩
  · rintro u us h; cases h; decide
  · rintro u us h; cases h

/-- GO refused while one is pending, in KEEP, under zero-hold, for monitor 718 and on a full queue; accepted for monitor 717; and a
request waiting at a channel. -/
theorem witness_UrgentSamples :
    let s := flds up [(F.glbStateDev, 1), (F.tileStatusZero 0, 0)]
    let u : Urgent := { mon := 717, dc := false, who := 2, core := 0, arrived := 0 }
    let late : Urgent := { u with arrived := 5 }
    let w := withTile 0 { Tile.zero with chans := [(44, { Channel.idle with urgent := [u, u, u, u] })] } s
    Admitted s host (R.tileUrgReq 0) ∧ (0x80000000#32 : Word).getLsbD 31 = true ∧ s.flag (F.tileUrgStatPending 0) = false ∧
    (flds s [(F.tileUrgStatPending 0, 1)]).flag (F.tileUrgStatPending 0) = true ∧ up.dev = 0 ∧ s.dev = 1 ∧
    up.flag (F.tileStatusZero 0) = true ∧ s.flag (F.tileStatusZero 0) = false ∧ s.channelFor 0 717 = 44 ∧
    ((w.tile 0).chan 44).urgent.length = 4 ∧ ((s.tile 0).chan 44).urgent = [] ∧ w.power.fastClocks = true ∧
    ((w.tile 0).chan 44).slots < 16 ∧ w.partner 0 44 = none ∧ u.arrived ≤ (w.tile 0).round + 200 * ((w.tile 0).chan 44).slots ∧
    (w.tile 0).round + 200 * ((w.tile 0).chan 44).slots < late.arrived := by decide

/-- An idle spare, one that serves, one in a hand-over, a channel that another spare has or awaits, and switches that are due. -/
theorem witness_Spares :
    let s := flds up [(F.tileSpareState 0 1, 2), (F.tileSpareSrc 0 1, 44), (F.tileSpareEn 0 1, 1)]
    let h := flds up [(F.tileSpareState 0 1, 3), (F.tileSpareSrc 0 1, 44)]
    let due := fun (l : List (Fld × Nat)) => withTile 0 { Tile.zero with spareAt := [(1, 7)] } (flds up l)
    Admitted s host (R.tileSpare 0 1) ∧ s.flag (F.tileSpareEn 0 1) = true ∧ s.fld (F.tileSpareSrc 0 1) = 44 ∧ s.fld (F.tileSpareState 0 1) = 2 ∧
    s.flag (F.tileSpareEn 0 2) = false ∧ s.fld (F.tileSpareState 0 2) = 0 ∧ s.fld (F.tileSpareSrc 0 2) = 0 ∧ s.bus.hand = none ∧
    (∃ p, p < 3 ∧ p ≠ 2 ∧ (s.fld (F.tileSpareState 0 p) ≠ 0 ∨ s.flag (F.tileSpareEn 0 p) = true) ∧ s.fld (F.tileSpareSrc 0 p) = 44) ∧
    ¬(∃ p, p < 3 ∧ p ≠ 2 ∧ (s.fld (F.tileSpareState 0 p) ≠ 0 ∨ s.flag (F.tileSpareEn 0 p) = true) ∧ s.fld (F.tileSpareSrc 0 p) = 43) ∧
    h.fld (F.tileSpareState 0 1) = 3 ∧ h.flag (F.tileSpareEn 0 1) = false ∧ (up.tile 0).spareAt.find? 1 = none ∧
    State.reset.power.fastClocks = false ∧ up.power.fastClocks = true ∧ ((due []).tile 0).spareAt.find? 1 = some 7 ∧
    (due [(F.tileSpareEn 0 1, 1)]).flag (F.tileSpareEn 0 1) = true ∧ (due [(F.tileSpareEn 0 1, 1)]).fld (F.tileSpareState 0 1) = 0 ∧
    (due [(F.tileSpareState 0 1, 1)]).fld (F.tileSpareState 0 1) = 1 ∧ (due [(F.tileSpareState 0 1, 2)]).fld (F.tileSpareState 0 1) = 2 ∧
    (due [(F.tileSpareState 0 1, 2)]).flag (F.tileSpareEn 0 1) = false := by decide

/-- The standby's write, one in a gap, one under zero-hold, one to a retired element, and the first and the second in a frame. -/
theorem witness_ActuatorWrites :
    let s := flds up [(F.tileStatusZero 0, 0)]
    let r := withTile 0 { Tile.zero with shown := [(643, 3)], written := [(1680, 0)], pend := [(1680, 5)] } s
    let g := { s with cd := { s.cd with gap := some (0, 6400) } }
    Die.drag ≠ s.activeDie ∧ Die.cope = s.activeDie ∧ g.cd.gap.isSome = true ∧ s.cd.gap.isSome = false ∧
    up.flag (F.tileStatusZero 0) = true ∧ s.flag (F.tileStatusZero 0) = false ∧ (r.tile 0).shown.get (fun _ => 0) 643 = 3 ∧
    (r.tile 0).written.find? 1680 = some 0 ∧ r.time.net / 6400 * 6400 ≤ 0 ∧ (r.tile 0).written.find? 1000 = none ∧
    (∀ p ∈ (r.tile 0).pend, p = (1680, 5)) ∧ ((r.tile 0).pend.find? 1680).isSome = true ∧ (r.tile 0).pend = (1680, 5) :: [] ∧
    SMap.risingFrom 0 (r.tile 0).pend = true ∧ NoDuty r ∧ (r.tile 0).span = [] ∧ r.cd.gap = none ∧
    0 < ((r.tile 0).written.get (fun _ => 0) 1680 / 6400 + 1) * 6400 := by decide

theorem witness_OutputMismatches : (Tile.zero.differ.get (fun _ => 0) 1680) < 3 ∧
    3 ≤ ((withTile 0 { Tile.zero with differ := [(1680, 3)] } up).tile 0).differ.get (fun _ => 0) 1680 := by decide

theorem witness_Frames : State.reset.power.fastClocks = false ∧ up.power.fastClocks = true ∧ NoDuty up ∧ (up.tile 0).span = [] ∧
    (up.tile 0).pend = [] := by decide

theorem witness_VhtrWindows :
    let s := { up with faults := { up.faults with vhtrBad := [(0, 8)] } }
    up.faults.vhtrBad.get (fun _ => 0) 0 < 8 ∧ 8 ≤ s.faults.vhtrBad.get (fun _ => 0) 0 ∧
    ¬(∃ x ∈ s.faults.standing, x.source = 0x1000) ∧ (∃ x ∈ ({ s with faults := { s.faults with standing := [{ source := 0x1000, cls := 2, kind := 0, data := 0 }] } } : State).faults.standing, x.source = 0x1000) ∧ Quiet s ∧ NoRecovery s 16 ∧
    ran (.vhtrWindow 0 11400#16) up (fun t => !t.flag (F.tileVhtrOut 0)) = true ∧
    ran (.vhtrWindow 0 12601#16) up (fun t => t.flag (F.tileVhtrOut 0)) = true := by decide

/-! ## Control loops -/

/-- A core that serves no flask, and core 71 with flask 63, a frame delivered, awake and running. -/
theorem witness_LoopPasses :
    let s := withTile 15 { Tile.zero with frameAt := 6400, seq := 1 } (flds up [(F.loopFlaskMapCore 63, 71), (F.loopCtrlPathEn, 0)])
    up.servedFlask 71 = none ∧ State.reset.power.fastClocks = false ∧ s.servedFlask 71 = some 63 ∧ s.power.fastClocks = true ∧
    (s.tile 15).frameAt ≠ 0 ∧ (s.core 71).halted = false ∧ (s.core 71).asleep = false ∧ s.flag F.loopCtrlPathEn = false ∧ Quiet s ∧
    s.discards 71 63 = false := by decide

/-- A record of loop 0 in the state and with the first word given, and the eighth. -/
def recordOf (w0 w7 : Nat) : State :=
  onCore 0 { Core.zero with mem := ((List.range 4).map fun i => (i, BitVec.ofNat 8 (w0 / 256 ^ i))) ++
    ((List.range 4).map fun i => (28 + i, BitVec.ofNat 8 (w7 / 256 ^ i))) }

/-- Records in each condition of the events: LOCKING with 32 good passes, LOCKED with 4 bad ones, timed out, pinned, starved. -/
theorem witness_LockEvents :
    let im := fun (w0 w7 : Nat) => (recordOf w0 w7).loopImage (recordOf w0 w7).activeDie 0
    let s := flds (recordOf (1 + 32 * 8) 0x3000) [(F.loopCtrlLockTo, 3), (F.loopCtrlStarve, 255)]
    Quiet s ∧ NoRecovery s 10 ∧ s.standbyReady = false ∧ (im (1 + 32 * 8) 0).state = 1 ∧ (im (1 + 32 * 8) 0).lockCnt = 32 ∧
    (im (2 + 4 * 8) 0).state = 2 ∧ (im (2 + 4 * 8) 0).lockCnt = 4 ∧ (im 1 0x3000).lt = 3 ∧ s.fld F.loopCtrlLockTo = 3 ∧
    (im (1 + 15 * 2 ^ 17) 0).pin = 15 ∧ s.fld F.loopCtrlStarve ≠ 0 ∧ (im (2 + 255 * 2 ^ 24) 0).bad = 255 ∧ 0 ∉ s.loops.starved ∧
    (im 0 0).state = 0 ∧ s.fld (F.loopFlaskMapState (loopFlask 0)) ≠ 2 := by decide

/-- A flask at rest, in COPY and in SHADOW; a core that is free, and cores that are taken. -/
theorem witness_Handovers :
    let s := flds { up with loops := { up.loops with handing := [(1, 70), (2, 69)] } } [(F.loopFlaskMapState 1, 1), (F.loopFlaskMapState 2, 2)]
    Admitted s host (R.loopFlaskMap 63) ∧ s.bus.hand = none ∧ s.fld (F.loopFlaskMapState 63) = 0 ∧ s.fld (F.loopFlaskMapCore 63) = 63 ∧
    s.fld (F.loopFlaskMapState 1) = 1 ∧ s.fld (F.loopFlaskMapState 2) = 2 ∧ s.fld (F.loopFlaskMapCore 0) = 0 ∧
    s.loops.handing.find? 1 = some 70 ∧ s.loops.handing.find? 2 = some 69 := by decide

theorem witness_Handovers_free :
    ∀ g, g < 64 → up.fld (F.loopFlaskMapCore g) ≠ 71 ∧ up.loops.handing.find? g ≠ some 71 := by decide

/-- A loop that exists and one that does not, a flask in COPY, a retired loop, and a command that waits. -/
theorem witness_LoopCommands :
    let s := flds up [(F.loopFlaskMapState (loopFlask 10895), 1)]
    let w := { up with loops := { up.loops with cmds := [(1, 10895, 0)] } }
    Admitted up host R.loopCmd ∧ up.bus.hand = none ∧ 10896 ≤ (10896 : Fin 16384).val ∧ s.fld (F.loopFlaskMapState (loopFlask 10895)) = 1 ∧
    up.fld (F.loopFlaskMapState (loopFlask 10895)) = 0 ∧ ((recordOf 4 0).loopImage (recordOf 4 0).activeDie 0).state = 4 ∧
    (up.loopImage up.activeDie 10895).state = 0 ∧ up.loops.cmds = [] ∧ w.loops.cmds = [(1, 10895, 0)] ∧ 0 ≤ w.time.net := by decide

/-! ## Calibration -/

def measured (q : Fin 16) (o : Nat) (a : Int) : Measured := { quantity := q, object := o, a := a, b := 1, c := 0, sweeps := [], readings := [] }

/-- A pass at power-up over every tile, which measures an ADC channel; one beyond its fixed limit is discarded. Outside a pass, and a
crosstalk coefficient. -/
theorem witness_CalResults :
    let s := flds { up with
      cal := { up.cal with values := [(200767, 500)], passes := [upPass true] }
      power := { up.power with holdDue := true } } [(F.calApplyModeStep, 0), (F.calStatusVrefOk, 1)]
    let r := measured 2 767 (512 * 256)
    up.cal.passes = [] ∧ up.dev ≠ 2 ∧
    r.quantity.val ∈ [2, 3, 8] ∧ r.object < 768 ∧ Quiet s ∧ NoRecovery s 12 ∧ s.flag F.calApplyModeStep = false ∧
    s.cal.passes = [upPass true] ∧ (upPass true).job = 0 ∧ (upPass true).powerUp = true ∧ (upPass true).tiles = List.range 16 ∧
    (upPass true).refOk = some true ∧ s.powerUpMeasures = true ∧ s.flag F.calStatusVrefOk = true ∧ (measured 8 0 0).b ≠ 0 ∧
    256 * s.latest qOfs 767 ≠ (measured 3 767 0).a ∧ s.cal.fails.get (fun _ => (0, 0, 0)) (30000 + 767) = (0, 0, 0) ∧
    s.cal.fails.get (fun _ => (0, 0, 0)) 10303 = (0, 0, 0) ∧ 10303 / 2 ∉ s.moulds.retired ∧
    ran (.calResult (measured 2 767 (513 * 256))) s (fun t => t.cal.waiting.length == 0) = true := by decide

/-- Nothing waits; an ADC result waits while a spare serves its channel; an integrator adjustment is owed; a loop has been LOCKED for its
last 256 frames, all of them in CROSS, on either span. -/
theorem witness_CalApplied :
    let r : Result := { quantity := 3, object := 44, value := 16384, codes := ⟨0, 0, 0, 0⟩, ext := 0, pherr := 0, gain := 0, amp := 0 }
    let k := withTile 15 { Tile.zero with span12 := [(643, true)] } { up with loops := { up.loops with locked := [(10303, (256, 0, 256))] } }
    let s := flds { up with cal := { up.cal with waiting := [(300044, { result := r, step := false })] } }
      [(F.tileSpareState 0 0, 2), (F.tileSpareSrc 0 0, 44)]
    let c : Codes := { cross6 := 7, bar6 := 1000, cross12 := 3, bar12 := 500 }
    let e := withTile 15 { Tile.zero with shown := [(643, 1)], live := [(643, 7)] }
      { up with cal := { up.cal with adjust := [(10303, (2, 0))], codes := [(10303, c)] } }
    256 ≤ (k.loops.locked.get (fun _ => (0, 256, 256)) 10303).1 ∧ (k.loops.locked.get (fun _ => (0, 256, 256)) 10303).2.1 < 256 ∧
    (k.tile 15).span12.get (fun _ => false) 643 = true ∧ (up.tile 15).span12.get (fun _ => false) 643 = false ∧
    up.cal.waiting.find? 300044 = none ∧ s.cal.waiting.find? 300044 = some { result := r, step := false } ∧ r.quantity = 3 ∧
    r.object = 44 ∧ 44 % 48 < 45 ∧ 44 < 768 ∧ s.spareStateOf 0 44 = 2 ∧ (up.tile 0).shown.get (fun _ => 0) 0 = 0 ∧
    e.cal.adjust.get (fun _ => (0, 0)) 10303 = (2, 0) ∧ e.standbyReady = false ∧ (e.loopImage e.activeDie 10303).trimLim ≤ 2047 ∧
    e.fld (F.loopFlaskMapState (loopFlask 10303)) ≠ 2 ∧ (e.tile 15).shown.get (fun _ => 0) 643 = 1 ∧ (e.tile 15).live.get (fun _ => 0) 643 = (e.codes 10303).cross6 := by decide

/-- Fettling off, and at each place of a tile's objects, in tile 15 and in another, with and without a spare, going on and stopping. -/
theorem witness_Fettling :
    let s := fun (n tile : Nat) (busy : Bool) (en : Nat) (claims : SMap Claim) =>
      flds { up with cal := { up.cal with fettled := n, fettleBusy := busy }, jobs := { up.jobs with claims := claims } }
        [(F.glbStateDev, 2), (F.glbStateSvc, 0), (F.calFettleEn, en), (F.calFettleTile, tile)]
    let mine : SMap Claim := [(53, { holder := some .engine, standing := false, fifo := [] })]
    up.dev ≠ 2 ∧ (s 0 15 false 1 []).dev = 2 ∧ (s 0 15 false 1 []).svc = 0 ∧ (s 0 15 false 0 []).flag F.calFettleEn = false ∧
    (s 0 15 false 1 []).flag F.calFettleEn = true ∧ (s 0 15 false 1 []).cal.fettleSpares = [] ∧ Quiet (s 0 15 false 1 []) ∧
    NoRecovery (s 0 15 false 1 []) 12 ∧ (s 763 15 true 1 []).cal.fettled = 763 ∧ (s 763 15 true 1 []).cal.fettleBusy = true ∧
    (s 763 15 true 1 []).fld F.calFettleTile = 15 ∧ (s 763 14 true 0 []).fld F.calFettleTile = 14 ∧ (s 45 15 true 1 mine).cal.fettled = 45 ∧
    (∃ k, k < 3 ∧ ((s 45 15 true 1 mine).jobs.claim (8 + 3 * 15 + k)).holder = some .engine) ∧
    ¬(∃ k, k < 3 ∧ ((s 45 15 true 1 []).jobs.claim (8 + 3 * 15 + k)).holder = some .engine) := by decide

/-- The last element and the first offset beyond, a retired cell, and codes and a conversion that keep their limits. -/
theorem witness_CoefficientWindow :
    let c : Codes := { cross6 := 0, bar6 := 1000, cross12 := 0, bar12 := 500 }
    let s := flds { up with cal := { up.cal with codes := [(10303, c)], values := [(610303, 6000)] } }
      [(F.calLegIndexElem, 10303), (F.calApplyModeStep, 0), (F.tileVhtrMv 15, 12000)]
    Admitted s host R.calLegData0 ∧ Admitted s host R.calLegData1 ∧ s.bus.hand = none ∧
    (flds up [(F.calLegIndexElem, 10304)]).fld F.calLegIndexElem = 10304 ∧ s.fld F.calLegIndexElem = 10303 ∧
    10303 / 2 ∉ s.moulds.retired ∧ 10303 / 2 ∈ [5151] ∧ s.flag F.calApplyModeStep = false ∧ s.calValue 6 10303 = 6000 ∧
    10000 * ((6100 : Int) - s.calValue 6 10303).natAbs ≤ 500 * (s.calValue 6 10303).natAbs ∧
    (s.latestCodes 10303).bar6 - (s.latestCodes 10303).cross6 = 1000 ∧ s.fld (F.tileVhtrMv 15) = 12000 ∧
    (s.tile 15).span12.get (fun _ => false) 643 = false ∧ (24 : Int).natAbs ≤ 410 ∧ 956 ≤ (1000 : Int) - 24 ∧ (1000 : Int) - 24 ≤ 1707 ∧
    (2 * (s.codes 10303).cross12).natAbs ≤ 410 ∧ 956 ≤ 2 * (s.codes 10303).bar12 - 2 * (s.codes 10303).cross12 ∧
    2 * (s.codes 10303).bar12 - 2 * (s.codes 10303).cross12 ≤ 1707 ∧
    ((24 : Int) - (s.codes 10303).cross6).natAbs ≤ 24 ∧ ((1000 : Int) - (s.codes 10303).bar6).natAbs ≤ 24 ∧
    (s.qualityAt 10303).getLsbD 31 = false := by decide

/-- The power of the witness above lies within 15 to 32 mW whatever the element's heater; at a fifth of its conversion it does not. -/
theorem witness_CoefficientWindow_power (hconv : Int) :
    let power := hconv * 1000 * 12000 * 12000
    let milliwatt : Int := 1000 * 65536 * 256 * (heaterOhm 10303 : Int)
    (hconv = 6100 → 15 * milliwatt ≤ power ∧ power ≤ 32 * milliwatt) ∧ (hconv = 1220 → ¬(15 * milliwatt ≤ power)) := by
  have h : 2046 ≤ heaterOhm 10303 ∧ heaterOhm 10303 ≤ 2500 := by unfold heaterOhm; omega
  refine ⟨?_, ?_⟩ <;> rintro rfl <;> omega

/-! ## Timebase -/

/-- A valid message of 2 s, and one whose CRC is wrong. -/
theorem witness_TimeMessages :
    let head := [0x5A#8, 0x3C#8, 1#8, 1#8, 2#8, 0#8, 0#8, 0#8, 0#8, 0#8, 37#8, 0#8, 9#8, 0#8]
    let bs := head ++ [BitVec.ofNat 8 (crc16 head).toNat, BitVec.ofNat 8 ((crc16 head).toNat / 256)]
    (bs.length = 16 ∧ bs.getD 0 0 = 0x5A#8 ∧ bs.getD 1 0 = 0x3C#8 ∧ bs.getD 2 0 = 1#8 ∧ (bs.getD 3 0).getLsbD 0 = true ∧
      (crc16 (bs.take 14)).toNat = (bs.getD 14 0).toNat + 256 * (bs.getD 15 0).toNat) ∧
    ran (.todMessage bs true) up (fun t => t.time.msg == some (2, up.time.now)) = true ∧
    ran (.todMessage (List.replicate 16 0#8) true) up (fun t => t.fld F.timErrsTodBad == 1) = true := by decide

/-- An edge in each state of the timebase, a message of its second, one too old and none, and the limits of 5 ns, 10 us and the slew. -/
theorem witness_PpsEdges :
    let s := fun (st dev : Nat) (msg : Option (Nat × Nat)) =>
      flds { up with time := { up.time with now := 1000000000, net := 1000000000, msg := msg, lastEdge := some 0, count := 1 } }
        [(F.timStatusState, st), (F.glbStateDev, dev)]
    let at_ := fun (err : Int) (s : State) => ((s.untilNet (edgeAt s.time.net err)).edge err : Pulse)
    let told := fun (err : Int) (s : State) (sec : Nat) => s.time.msg = some (sec, 10000) ∧ (at_ err s).now ≤ 10000 + 1000000000
    let inTime := fun (err : Int) (s : State) => s.time.lastEdge = some 0 ∧ (((at_ err s).now : Int) - (0 : Nat) - 1000000000).natAbs ≤ 10000
    let m : Option (Nat × Nat) := some (1, 10000)
    (s 0 0 m).fld F.timStatusState = 0 ∧ told 0 (s 0 0 m) 1 ∧ (s 0 0 none).time.msg = none ∧
    ((s 0 0 (some (1, 0))).time.msg = some (1, 0) ∧ 0 + 1000000000 < (at_ 5 (s 0 0 (some (1, 0)))).now) ∧
    (s 1 0 m).fld F.timStatusState = 1 ∧ 0 < (s 1 0 m).time.count ∧ inTime 10000 (s 1 0 m) ∧ told 10000 (s 1 0 m) (at_ 10000 (s 1 0 m)).sec ∧
    (s 2 0 m).fld F.timStatusState = 2 ∧ ¬inTime 10001 (s 2 0 m) ∧ inTime 5 (s 2 0 m) ∧ told 5 (s 2 0 m) (at_ 5 (s 2 0 m)).sec ∧
    inTime (-6) (s 2 0 m) ∧ told (-6) (s 2 0 m) (at_ (-6) (s 2 0 m)).sec ∧ (s 4 1 m).fld F.timStatusState = 4 ∧ (s 4 1 m).dev ≠ 2 ∧
    told 0 (s 4 1 m) 1 ∧ (s 3 2 m).fld F.timStatusState = 3 ∧ (s 3 2 m).dev = 2 ∧ told 1000 (s 3 2 m) (at_ 1000 (s 3 2 m)).sec ∧
    (1000 : Int).natAbs ≤ 1000 * max 1 (min 1000 ((s 3 2 m).fld F.timCtrlSlewMax)) ∧ (s 3 1 m).dev ≠ 2 := by decide

theorem witness_TimebaseStates :
    let t := fun (st : Nat) => flds { up with time := { up.time with lastEdge := some 0, count := 3, phase := 20, heldSince := some 0 } }
      [(F.timStatusState, st)]
    let on := { up with power := { up.power with refclk := true } }
    Quiet (t 1) ∧ NoRecovery (t 1) 6 ∧ NoRecovery (t 1) 3 ∧ (t 1).fld F.timStatusState = 1 ∧ (t 2).fld F.timStatusState = 2 ∧
    (t 3).fld F.timStatusState = 3 ∧ (t 1).time.phase.natAbs ≤ 20 ∧ up.time.count = 0 ∧ up.time.lastEdge = none ∧
    up.time.heldSince = none ∧ up.power.refclk = false ∧ on.power.refclk = true ∧ Quiet on := by decide

theorem witness_LatchedReads : NoWait up host ∧ up.answers host = true ∧ up.blockOpen host (R.timNow 0) = true ∧ up.blockOpen host (R.heatAct 0) = true ∧
    State.reset.answers host = false := by decide

/-! ## Heats -/

/-- Each writer, a bank open and a bank taken. -/
theorem witness_HeatBank :
    let s := fun (st : Nat) => flds up [(F.heatSchedHost, 1), (F.heatNextStatusState, st)]
    (s 0).flag F.heatSchedHost = true ∧ host.toNat % 128 = 0x58 ∧ (s 0).fld F.heatNextStatusState = 0 ∧ (s 3).fld F.heatNextStatusState = 3 ∧
    (s 1).fld F.heatNextStatusState = 1 ∧ (s 2).fld F.heatNextStatusState = 2 ∧ (s 0).answers host = true ∧ (s 0).bus.hand = none ∧
    up.flag F.heatSchedHost = false ∧ 72 ≤ (0x4F#8 : Master).toNat % 128 ∧ (0x4F#8 : Master).toNat % 128 ≤ 79 ∧
    up.answers 0x4F#8 = true ∧ up.answers 0x59#8 = true ∧ Admitted (s 0) host R.heatCommit ∧ Quiet (s 2) ∧ (s 0).heats.armed = none ∧
    (s 2).heats.waitingRun = none ∧ (s 2).heats.decomposing = false := by decide

/-- A committed heat that fails each check, and none before it: no RUN, no END, the guard, a slot, the cycle, a mould, S, LEAD. -/
def liveHeat : Heat :=
  { a := 0, cycle := 20480, guard := 100, dclass := 0, ctrl := 0, serial := 0, direct := [], n := 1, base := true, swaps := [] }
def slotOf (mould dur : Nat) (last : Bool) : BitVec 64 := BitVec.ofNat 64 (mould + dur * 2 ^ 16 + if last then 2 ^ 42 else 0)
def mould9 : Mould := { Mould.blank with perm := List.range 592, valid := true }
def committed (rs : SMap (BitVec 64)) (l : List (Fld × Nat)) : State :=
  flds { up with
    heats := { up.heats with next := rs, now := some liveHeat, commit := some { edge := 0, host := true, swaps := [], ctrl := 100 } }
    moulds := { up.moulds with store := [(9, mould9)] } } ([(F.glbStateDev, 2), (F.heatNextCfgAsap, 1)] ++ l)

theorem witness_HeatRejections :
    let rejects := fun (s : State) (reason index : Nat) =>
      ran .heatValidated s fun t => t.fld F.heatNextStatusReason == reason && t.fld F.heatNextStatusIndex == index
    let one := fun (m d : Nat) => [(0, slotOf m d true)]
    Quiet (committed [] []) ∧ (committed [] []).heats.commit = some { edge := 0, host := true, swaps := [], ctrl := 100 } ∧
    (committed [] []).heats.now = some liveHeat ∧ (committed [] []).dev = 2 ∧
    rejects (committed (one 9 400) [(F.glbStateDev, 1)]) 1 0 = true ∧ rejects (committed (one 9 400) [(F.heatNextCfgGuard, 39)]) 4 0 = true ∧
    rejects (committed [] []) 3 0 = true ∧ rejects (committed (one 9 319) []) 5 0 = true ∧
    rejects (committed ((List.range 12).map fun i => (i, slotOf 9 16777215 (i == 11))) []) 6 0 = true ∧ rejects (committed (one 10 400) []) 7 0 = true ∧
    rejects (committed [(0, slotOf 9 400 false), (1, slotOf 9 319 true)] []) 5 1 = true ∧
    rejects (committed (one 9 400) [(F.heatNextCfgAsap, 0), (⟨R.heatNextBase 0, 31, 0⟩, 1)]) 8 0 = true ∧
    rejects (committed (one 9 400) [(F.heatTimingLead, 199)]) 9 0 = true := by decide

/-! A heat that passes every check: eight slots of 2 us, of which slot t connects line cards 64 t to 64 t + 63 with the ladle. -/

def crossed (t o : Nat) : Nat :=
  if o / 64 = t ∧ o < 512 then 512 + o % 64 else if 512 ≤ o ∧ o < 576 then 64 * t + (o - 512) else o
def crossing (t : Nat) : Mould := { Mould.blank with perm := (List.range 592).map (crossed t), valid := true }
def ladleSlot (t : Nat) : BitVec 64 := slotOf (9 + t) 400 (t == 7) ||| (1#64 <<< 40)
def ladleHeat : State :=
  let s := committed ((List.range 8).map fun t => (t, ladleSlot t)) []
  { s with moulds := { s.moulds with store := (List.range 8).map fun t => (9 + t, crossing t) } }

theorem crossing_getD (t o : Nat) (h : o < 592) (d : Nat) : (crossing t).perm.getD o d = crossed t o := by
  unfold crossing
  simp only [List.getD_eq_getElem?_getD, List.getElem?_map, List.getElem?_range h, Option.map_some, Option.getD_some]

theorem ladleHeat_mould : ∀ t, t < 8 → slotMould (ladleSlot t) = 9 + t ∧ slotLadle (ladleSlot t) = true ∧ slotDur (ladleSlot t) = 400 := by
  decide

theorem ladleHeat_store (t : Nat) (h : t < 8) : ladleHeat.mould (9 + t) = crossing t := by
  have : t = 0 ∨ t = 1 ∨ t = 2 ∨ t = 3 ∨ t = 4 ∨ t = 5 ∨ t = 6 ∨ t = 7 := by omega
  rcases this with rfl | rfl | rfl | rfl | rfl | rfl | rfl | rfl <;> rfl

theorem ladleHeat_ports : ∀ p, p < 64 → ladleHeat.servesFor [] p = true := by decide

theorem ladleHeat_reaches : ∀ j, j < 8 → ∀ c, c = ladleHeat.ctrlUs →
    reaches ((List.range 8).map fun t => (t == j, 400)) c = true := by
  intro j h c hc
  have : c = 100 := hc.trans (by decide)
  subst this
  revert j
  decide

theorem ladleHeat_slots (i : Nat) (hi : i < 512) (out : Bool) :
    ladleHeat.reachSlots ((List.range 68).filter (ladleHeat.servesFor [])) ((List.range 8).map ladleSlot) i out =
      (List.range 8).map fun t => (t == i / 64, 400) := by
  unfold State.reachSlots
  rw [List.map_map]
  refine List.map_congr_left fun t ht => ?_
  have ht : t < 8 := List.mem_range.1 ht
  obtain ⟨m, l, d⟩ := ladleHeat_mould t ht
  simp only [Function.comp, m, l, d, ladleHeat_store t ht, Bool.true_and, Prod.mk.injEq, and_true]
  have mem : ∀ p, p ∈ (List.range 68).filter (ladleHeat.servesFor []) → p < 68 := fun p hp => List.mem_range.1 (List.mem_filter.1 hp).1
  have own : i % 64 ∈ (List.range 68).filter (ladleHeat.servesFor []) :=
    List.mem_filter.2 ⟨List.mem_range.2 (by omega), ladleHeat_ports _ (by omega)⟩
  cases out
  · rw [if_neg (by decide)]
    by_cases e : t = i / 64
    · rw [List.any_eq_true.2 ⟨_, own, by rw [crossing_getD _ _ (by omega)]; unfold crossed; rw [if_neg (by omega), if_pos (by omega)]; simp; omega⟩]
      simp [e]
    · rw [List.any_eq_false.2 fun p hp => by
        have := mem p hp
        rw [crossing_getD _ _ (by omega)]; unfold crossed; simp; split <;> (try split) <;> omega]
      simp [e]
  · rw [if_pos rfl]
    by_cases e : t = i / 64
    · rw [List.any_eq_true.2 ⟨_, own, by rw [crossing_getD _ _ (by omega)]; unfold crossed; simp; omega⟩]
      simp [e]
    · rw [List.any_eq_false.2 fun p hp => by
        have := mem p hp
        rw [crossing_getD _ _ (by omega)]; unfold crossed; simp; split <;> (try split) <;> omega]
      simp [e]

theorem ladleHeat_reachFails : ladleHeat.reachFails [] ((List.range 8).map ladleSlot) ladleHeat.ctrlUs = none := by
  unfold State.reachFails
  rw [List.findSome?_eq_none_iff]
  intro i hi
  have hi : i < 512 := List.mem_range.1 hi
  rw [ladleHeat_slots i hi false, ladleHeat_slots i hi true, ladleHeat_reaches (i / 64) (by omega) _ rfl]
  rfl

theorem validate_passes (s : State) (c : Commit) (rs : List (BitVec 64)) (live : Heat) (a n : Nat)
    (h1 : s.dev = 2) (h2 : s.power.drain = none) (hr : heatRecords s.heats.next = some rs) (hn : s.heats.now = some live)
    (h3 : ¬(s.fld F.heatNextCfgGuard < 40 ∨ 400 < s.fld F.heatNextCfgGuard))
    (h4 : (rs.any fun r => decide (slotDur r < leastDur (s.fld F.heatNextCfgGuard))) = false)
    (h5 : ¬200000000 < (rs.map slotDur).sum) (h6 : (rs.any fun r => !(s.mould (slotMould r)).valid) = false)
    (h7 : s.flag F.heatNextCfgAsap = true) (h8 : ¬s.leadUs < c.ctrl + 100) (h9 : s.reachFails c.swaps rs c.ctrl = none)
    (hm : s.meet c.edge (5 * (rs.map slotDur).sum) live.a (5 * live.cycle) = some (a, n)) :
    s.validate c = Sum.inr (rs, a, n) := by
  unfold State.validate
  simp only [hr, hn, h1, h2, h3, h4, h5, h6, h7, h8, h9, hm, if_false]
  simp

theorem witness_HeatArmed :
    ladleHeat.heats.commit = some { edge := 0, host := true, swaps := [], ctrl := 100 } ∧ ladleHeat.heats.now = some liveHeat ∧ 0 < liveHeat.cycle ∧
    Quiet ladleHeat ∧ liveHeat.a ≤ 0 ∧
    ladleHeat.validate { edge := 0, host := true, swaps := [], ctrl := 100 } = Sum.inr ((List.range 8).map ladleSlot, 204800, 0) :=
  ⟨by decide, by decide, by decide, by decide, by decide, validate_passes ladleHeat _ _ liveHeat _ _ (by decide) (by decide) (by decide)
    (by decide) (by decide) (by decide) (by decide) (by decide) (by decide) (by decide) ladleHeat_reachFails (by decide)⟩

/-- An ARMED heat 10 us and more from its activation, and none. -/
theorem witness_HeatChange :
    let s := flds { up with heats := { up.heats with armed := some { liveHeat with a := 10001 } } } [(F.heatSchedHost, 1)]
    let late := { s with heats := { s.heats with armed := some { liveHeat with a := 10000 } } }
    Admitted s host R.heatCommit ∧ s.flag F.heatSchedHost = true ∧ host.toNat % 128 = 0x58 ∧ Quiet s ∧ s.bus.hand = none ∧
    s.heats.armed = some { liveHeat with a := 10001 } ∧ s.time.net + 10000 < 10001 ∧ late.heats.armed = some { liveHeat with a := 10000 } ∧
    10000 ≤ late.time.net + 10000 ∧ up.heats.armed = none ∧ liveHeat.swaps = [] := by decide

theorem witness_Epochs : 0 < up.heats.epochLen ∧ Quiet up ∧ NoRecovery up 6 ∧ up.ladle.queues = [] ∧ up.heats.heavy = [] := by decide

/-! ## The Cloby instruction set -/

/-- A loop core with a flask, a spare loop core, a schedule core, and a schedule core of the standby die. -/
def lc : CoreId := ⟨.cope, 0⟩
def spareLc : CoreId := ⟨.cope, 71⟩
def sc : CoreId := ⟨.cope, 72⟩
def dragSc : CoreId := ⟨.drag, 72⟩
/-- A core with general registers. -/
def regs (l : List (Nat × Word)) : Core := { Core.zero with g := l }
def fa (rd rs rt sh : BitVec 5) : FormA := ⟨rd, rs, rt, sh⟩
def fd (rd rs : BitVec 5) (index : BitVec 10) : FormD := ⟨rd, rs, 0, index⟩

/-- A core of each kind runs: what every statement of an instruction's result asks. -/
theorem witness_running_cores : lc.kind = .loop ∧ spareLc.kind = .loop ∧ sc.kind = .schedule ∧ lc.kind ≠ .schedule ∧
    Running up lc ∧ Running up spareLc ∧ Running up sc ∧
    (up.core sc.master).inTrap = false ∧ sc.die = up.activeDie ∧ dragSc.die ≠ up.activeDie ∧ (up.core lc.master).cond3 0 = true ∧
    (up.core sc.master).cond3 0 = true ∧ (up.core lc.master).user = false := by decide

theorem witness_IntegerGroupResults : Running up lc ∧
    ran (.add lc (fa 1 2 3 0)) (onCore 0 (regs [(2, 0xFFFFFFFF), (3, 2)])) (fun t => (t.core 0).r 1 == 1) = true := by decide

/-- Fields inside the register, up to its top bit, and one that reaches beyond it. -/
theorem witness_ImmediateResults : (0#5 : BitVec 5) = 0#5 ∧ (0x3E0#16).toNat < 1024 ∧
    (0x3E0#16).toNat / 32 % 32 + ((0x3E0#16).toNat % 32 + 1) ≤ 32 ∧ 32 < (0x3E1#16).toNat / 32 % 32 + ((0x3E1#16).toNat % 32 + 1) ∧
    Running up lc := by decide

theorem witness_SaturatingResults : Running up lc ∧
    ran (.adds lc (fa 1 2 3 0)) (onCore 0 (regs [(2, 0x7FFFFFFF), (3, 1)])) (fun t => (t.core 0).r 1 == 0x7FFFFFFF && (t.core 0).sat) = true := by
  decide

theorem witness_AccumulatorResults : Running up lc ∧ (fa 3 1 2 0).rd.toNat < 4 ∧
    ran (.mula lc (fa 3 1 2 0)) (onCore 0 (regs [(1, 0xFFFFFFFF), (2, 5)])) (fun t => ((t.core 0).a 3).toInt == -5) = true := by decide

theorem witness_CompareFlags : Running up sc ∧ (fa 0 2 4 0).rd = 0#5 ∧ sc.kind ≠ .loop ∧
    (fa 0 2 4 0).rs.toNat % 2 = 0 ∧ (fa 0 2 4 0).rt.toNat % 2 = 0 := by decide

theorem witness_GZeroReadsZero : Running up lc ∧ (fa 0 1 2 0).rd = 0#5 := by decide

theorem witness_ControlFlow : Running up lc ∧ (up.core lc.master).cond5 0 = some true ∧
    (up.core lc.master).cond5 0x10 ≠ none ∧ (up.core lc.master).cond5 1 = some false := by decide

/-- A condition that is false, for each form. -/
theorem witness_SuppressedInstructionsDoNothing : Running up lc ∧ (up.core lc.master).cond3 2 = false ∧
    (fd 1 0 0).rd.toNat < 2 ∧ (fd 2 0 0).rd.toNat % 2 = 0 ∧
    (up.core lc.master).cond3 ((0x4000#16 : BitVec 16).toNat / 8192) = false ∧ (8#5 : BitVec 5).toNat % 8 = 0 := by decide

/-- The first and the last own addresses of a loop core, and of a schedule core. -/
theorem witness_LoadsFromOwnMemory : (0x1FFF#16 : BitVec 16).toNat < 8192 ∧ OwnData lc 0 4 0 ∧ OwnData lc 0xFFE0 32 0xFFE0 ∧
    OwnData lc 0x1630 16 0x1630 ∧ OwnData sc 0x100000 4 0 ∧ OwnData sc 0x13FFFE 2 0x3FFFE ∧ 0xFFE0 % 32 = 0 := by decide

theorem witness_StoresToOwnMemory : (Instr.str lc ⟨8, 1, 0⟩, 32) ∈
      [(Instr.sth lc ⟨8, 1, 0⟩, 2), (.stw lc ⟨8, 1, 0⟩, 4), (.stq lc ⟨8, 1, 0⟩, 16), (.str lc ⟨8, 1, 0⟩, 32)] ∧
    (up.core lc.master).cond3 0 = true ∧ (8#5 : BitVec 5).toNat % 8 = 0 ∧ OwnData lc 0 32 0 ∧ (up.core lc.master).user = false ∧
    ¬(sc.die = up.activeDie ∧ up.standbyReady = true) := by decide

theorem witness_SharedSramWords : sc.kind ≠ .loop ∧ (up.core sc.master).user = false ∧ 0x10FFFFFC % 4 = 0 ∧
    ran (.stw sc ⟨2, 1, 0⟩) (onCore 72 (regs [(1, 0x10FFFFFC), (2, 0x01020304)])) (fun t => leNat t.bus.sram 0xFFFFFC 4 == 0x01020304) = true := by
  decide

/-- An address in each class of the windows, and a misaligned one, trap. -/
theorem witness_AddressTraps :
    let at_ := fun (c : CoreId) (a : Nat) (i : Instr) =>
      ran i (onCore c.master (regs [(1, BitVec.ofNat 32 a)])) fun t => (t.core c.master).cause.toNat % 8 == 4 && (t.core c.master).inTrap
    ran (.ldw lc ⟨2, 1, 0⟩) (onCore 0 (regs [(1, 2)])) (fun t => (t.core 0).cause.toNat == 3) = true ∧
    at_ lc 0x14060 (.ldw lc ⟨2, 1, 0⟩) = true ∧ at_ lc 0x3800000 (.ldw lc ⟨2, 1, 0⟩) = true ∧ at_ lc 0x147FFFC (.ldw lc ⟨2, 1, 0⟩) = true ∧
    at_ lc 0x10000 (.stw lc ⟨2, 1, 0⟩) = true ∧ at_ lc 0x37FFFFC (.stw lc ⟨2, 1, 0⟩) = true ∧ at_ sc 0x68000000 (.ldw sc ⟨2, 1, 0⟩) = true ∧
    (up.core lc.master).inTrap = false ∧ ({ regs [] with user := true } : Core).user = true := by decide

theorem witness_LoopGroupResults : Running up lc ∧ lc.kind = .loop ∧ (fa 0 1 2 0).rd = 0#5 ∧
    ((regs [(11, 0x7FF00)]).r 11).toNat / 2 ^ 8 % 2 ^ 12 ≤ 2047 := by decide

theorem witness_LockBookkeeping : Running up lc ∧ lc.kind = .loop ∧ (up.core lc.master).z = false ∧
    ({ regs [] with z := true } : Core).z = true := by decide

theorem witness_LiveFlag : Running up lc ∧ lc.kind = .loop ∧ (31#16 : BitVec 16).toNat < 32 ∧
    32 ≤ (32#16 : BitVec 16).toNat ∧ (up.core lc.master).inTrap = false := by decide

/-- A core that serves a flask, monitors 717 and 718, and element 643. -/
theorem witness_TileReads : up.servedFlask lc.n.val = some 0 ∧ (up.core lc.master).cond3 0 = true ∧
    ran (.smpwe lc (fd 1 0 718)) up (fun t => (t.core 0).cause.toNat == 5) = true ∧
    ran (.smpwe lc (fd 1 0 717)) up (fun t => (t.core 0).cause.toNat == 0) = true ∧
    ran (.cellx lc (fd 0 0 643)) up (fun t => (t.core 0).cause.toNat == 0) = true := by decide

/-- The last heater, the last DAC, and in user mode a channel outside the flask. -/
theorem witness_ActuatorInstructions : up.servedFlask lc.n.val = some 0 ∧ up.fld (F.loopFlaskMapCore 0) = lc.n.val ∧
    ((680 : Fin 681).val = (((up.core lc.master).r 0).toNat + (680#10 : BitVec 10).toNat) % 2 ^ 32) ∧
    ran (.acte lc (fd 1 0 171)) (onCore 0 { regs [] with user := true }) (fun t => (t.core 0).cause.toNat == 5) = true := by decide

theorem witness_UrgentRequestByCore :
    let s := flds up [(F.glbStateDev, 1), (F.tileStatusZero 0, 0)]
    let busy := onCore 0 { regs [] with ures := 0x80000000 }
    s.servedFlask lc.n.val = some 0 ∧ (busy.core 0).ures.getLsbD 31 = true ∧ (s.core 0).ures.getLsbD 31 = false ∧ up.dev = 0 ∧
    s.dev ≠ 0 ∧ s.flag (F.tileStatusZero 0) = false ∧ ((s.tile 0).chan (s.channelFor 0 717)).urgent.length < 4 ∧
    (∀ w ∈ ((s.tile 0).chan (s.channelFor 0 717)).urgent, w.who ≠ 0 → w.arrived ≠ (s.time.net + 4) / 5 * 5) ∧
    (fd 1 0 717).rd.toNat < 2 := by decide

/-- A core without a flask, one that has seen its frame, one that is late for one, and a schedule core with a source and without. -/
theorem witness_Waiting :
    let s := withTile 0 { Tile.zero with frameAt := 6400, seq := 1 } { up with time := { up.time with net := 6600 } }
    let woken := onCore 72 { regs [] with pendWake := 4, wakeEn := 4 }
    up.servedFlask spareLc.n.val = none ∧ s.servedFlask lc.n.val = some 0 ∧
    (up.core 0).netNs.toNat = (up.tile 0).frameAt % 1000000000 ∧ (s.core 0).netNs.toNat ≠ (s.tile 0).frameAt % 1000000000 ∧
    (s.tile 0).frameAt + 200 ≤ s.time.net ∧ ({ s with time := { s.time with net := 6399 } } : State).time.net < (s.tile 0).frameAt ∧ (up.core 72).pendWake &&& ((up.core 72).wakeEn.toNat % 64) = 0 ∧
    (woken.core 72).pendWake &&& ((woken.core 72).wakeEn.toNat % 64) = 4 := by decide

theorem witness_Waking :
    let s := onCore 72 { regs [] with pendWake := 4, wakeEn := 4, asleep := true, timer := 100 }
    sc.kind ≠ .loop ∧ s.clocked sc = true ∧ (s.core 72).asleep = true ∧ (s.core 72).halted = false ∧ (s.core 72).timer ≠ 0 ∧ s.time.now ≤ (s.core 72).timer ∧
    (s.core 72).pendWake &&& ((s.core 72).wakeEn.toNat % 64) ≠ 0 := by decide

/-- A selector of the table, one outside it, and a user-mode core that may and that may not post. -/
theorem witness_PostedEvents : (up.core sc.master).cond3 0 = true ∧
    (((up.core sc.master).r 0).toNat + (0x99#10 : BitVec 10).toNat) % 1024 = 8 * 0x13 + 1 ∧ 5 ∉ [1, 2, 3, 4, 0x10, 0x11, 0x12, 0x13] ∧
    ran (.evt sc (fd 1 0 40)) up (fun t => (t.core 72).cause.toNat == 2) = true ∧
    ran (.evt sc (fd 1 0 11)) (onCore 72 { regs [] with user := true }) (fun t => (t.core 72).cause.toNat == 2) = true := by decide

/-- A trap of a schedule core abandons the running decomposition, with its C1 note (R253). -/
theorem test_trap_abandons_decomposition :
    ran (.trap sc (fd 0 0 5)) { up with heats := { up.heats with decomposing := true } }
      (fun t => (t.core 72).cause.toNat == 0x50006 && (t.core 72).cycle == 1 && !t.heats.decomposing && t.events.raised == 1) = true := by decide

theorem witness_TrapEntryAndReturn : (up.core sc.master).inTrap = false ∧ sc.kind ≠ .loop ∧ (fd 0 0 6).index.toNat = 6 ∧
    ({ regs [] with inTrap := true } : Core).inTrap = true ∧ ({ regs [] with user := true } : Core).user = true ∧
    ran (.svc sc (fd 0 0 7)) up (fun t => (t.core 72).r 1 == 0xFFFFFFFF) = true ∧
    ran (.svc sc (fd 0 0 6)) up (fun t => (t.core 72).pc == 0x30) = true := by decide

theorem witness_FenceRetires : Running up lc ∧ (up.core lc.master).cond3 (fd 0 0 0).cond.toNat = true := by decide

theorem witness_SystemRegisterReads : up.servedFlask spareLc.n.val = none ∧ (fd 1 0 63).index.toNat = 63 ∧
    ran (.mfs sc (fd 1 0 0)) up (fun t => ((t.core 72).r 1).toNat == sc.index + 128 + 1024) = true := by decide

theorem witness_SystemRegisterWrites : (fd 0 1 31).index.toNat = 31 ∧ (up.core sc.master).user = false ∧
    ran (.mts sc (fd 0 1 15)) (onCore 72 (regs [(1, 1)])) (fun t => (t.core 72).timer == 10) = true ∧
    ran (.mts ⟨.cope, 80⟩ (fd 0 1 1)) (onCore 80 (regs [(1, 3)])) (fun t => !(t.core 80).user) = true ∧
    ran (.mts sc (fd 0 1 1)) (onCore 72 { regs [] with user := true }) (fun t => (t.core 72).cause.toNat == 2) = true := by decide

/-- Each case of the divisor: zero, a plain one, and the overflow. -/
theorem witness_DivisionResults : (0#32 : Word) = 0 ∧ (3#32 : Word) ≠ 0 ∧ ¬((7#32 : Word) = 0x80000000 ∧ (3#32 : Word) = 0xFFFFFFFF) ∧
    ran (.div sc (fa 1 2 3 0)) (onCore 72 (regs [(2, 0x80000000), (3, 0xFFFFFFFF)])) (fun t => (t.core 72).r 1 == 0x80000000 && (t.core 72).v) = true ∧
    ran (.rem sc (fa 1 2 3 0)) (onCore 72 (regs [(2, 0xFFFFFFF9), (3, 3)])) (fun t => ((t.core 72).r 1).toInt == -1) = true := by decide

theorem witness_PairResults : (fa 2 4 6 0).rd.toNat % 2 = 0 ∧ (fa 2 4 6 0).rd ≠ 0#5 ∧ (fa 2 4 6 0).rs.toNat % 2 = 0 ∧
    (fa 0 4 6 0).rd = 0#5 ∧
    ran (.add64 sc (fa 2 4 6 0)) (onCore 72 (regs [(4, 0xFFFFFFFF), (6, 1)])) (fun t => (t.core 72).r 3 == 1 && (t.core 72).r 2 == 0) = true := by
  decide

theorem witness_AtomicResults : (up.core sc.master).user = false ∧ 0x10000000 ≤ (0x10FFFFFC#32 : Word).toNat ∧
    (0x10FFFFFC#32 : Word).toNat < 0x11000000 ∧ (0x10FFFFFC#32 : Word).toNat % 4 = 0 ∧ 0x11000000 ≤ (0x11000000#32 : Word).toNat := by decide

/-- A descriptor at the end of shared SRAM, room for a command and none, a compile request, and a record of an open bank. -/
theorem witness_AcceleratorCommands :
    let s := { onCore 72 { regs [(1, 0x10FFFFF0), (2, 7)] with outstanding := 3 } with bus := { up.bus with sram := [(0xFFFFF3, 0x10#8)] } }
    let full := onCore 72 { regs [(1, 0x10FFFFF0)] with outstanding := 4 }
    sc.die = s.activeDie ∧ (s.core 72).cond3 0 = true ∧ ((s.core 72).r 1).toNat + 16 ≤ 0x11000000 ∧ (s.core 72).outstanding < 4 ∧
    4 ≤ (full.core 72).outstanding ∧ (s.mrtRequest sc 0xFFFFF0).isSome = true ∧ sc.kind = .schedule ∧ s.flag F.heatSchedHost = false ∧ s.fld F.heatNextStatusState = 0 ∧
    ((up.core 72).r 0).toNat + (4095 - 3072) < 4096 ∧ (fd 2 0 0).rd.toNat % 2 = 0 := by decide

theorem witness_MatchingCompletes :
    let s := { up with heats := { up.heats with matching := [.core 72 0x1000] } }
    let r := { s with bus := { s.bus with sram := [(0x1003, 0x10#8), (0x1007, 0x10#8), (0x100A, 0x20#8), (0x100B, 0x10#8)] } }
    up.heats.matching = [] ∧ s.heats.matching = .core 72 0x1000 :: [] ∧ 0x1000 + 16 ≤ 0x1000000 ∧ s.getWord 127 .cope 0x1000 = 0 ∧
    (r.getWord 127 .cope 0x1000).toNat = 0x10000000 ∧ (r.getWord 127 .cope 0x1004).toNat = 0x10000000 ∧
    (r.getWord 127 .cope 0x1008).toNat = 0x10200000 ∧ 0x1000 + 16 ≤ 0x10200000 - 0x10000000 := by decide

/-- A handler entered for each service, with the bank open and its writer. -/
theorem witness_ServiceResults :
    let s := fun (n : Nat) => onCore 72 { regs [] with cause := BitVec.ofNat 32 (7 + 65536 * n), inTrap := true }
    sc.kind = .schedule ∧ sc.die = (s 1).activeDie ∧ Running (s 1) sc ∧ (s 1).heats.armed = none ∧ ((s 1).core 72).inTrap = true ∧
    ((s 1).core 72).commits = false ∧ (s 1).flag F.heatSchedHost = false ∧ (s 1).fld F.heatNextStatusState = 0 ∧
    ((s 1).core 72).user = false ∧ (s 1).flag F.glbBootRcv = false ∧ (s 3).heats.armed = none ∧
    ((s 6).core 72).cause = BitVec.ofNat 32 (7 + 65536 * 6) := by decide

theorem witness_ProfileMismatchIsIllegal : (up.core lc.master).inTrap = false ∧ lc.kind = .loop ∧ sc.kind ≠ .loop ∧
    ran (.div lc (fa 1 2 3 0)) up (fun t => (t.core 0).cause.toNat == 1) = true ∧
    ran (.errs sc (fa 1 2 3 0)) up (fun t => (t.core 72).cause.toNat == 1) = true := by decide

/-- The TVAL of a CMP with rd = 1: major opcode 0, function 0x18 (Tables 11.2, 11.3). -/
theorem witness_ReservedFieldsAreIllegal : (fa 1 2 3 0).rd ≠ 0#5 ∧ 4 ≤ (fa 4 0 0 0).rd.toNat ∧ 0x10 < (0x11#5 : BitVec 5).toNat ∧
    ran (.cmp lc (fa 1 2 3 0)) up (fun t => (t.core 0).tval.toNat == 0x221B00) = true := by decide

/-! ## Ladle plane -/

/-- RUN with one slot in progress, which connects line cards 0 to 63 with the ladle ports. -/
def running : State :=
  { flds { up with power := { up.power with ladleClock := true } } [(F.glbStateDev, 2), (F.portParked 0, 0), (F.portParked 63, 0)] with
    heats := { up.heats with now := some { liveHeat with direct := [(0, 1)], dclass := 1 }, live := [(0, slotOf 9 400 true ||| (1#64 <<< 40))],
                             cur := some 0, boundary := 1000000 }
    moulds := { up.moulds with store := [(9, crossing 0)] } }

/-- RUN with no cell free for a new frame: every bank is retired. -/
def full : State := { running with ladle := { running.ladle with retiredBanks := List.range 64 } }

def dataFrame (dst : Fin 1024) (len : Nat) (mcast : Bool) (flow : Fin 2097152) : DataFrame :=
  { src := 2, dst := dst, cls := 0, flow := flow, seq := 0, mcast := mcast, payload := List.replicate len 0#8, trailer := 0#32, whole := true }

/-- A port that carries nothing, an unknown destination, an absent group, and frames of the least and the greatest length. -/
theorem witness_FramesIn :
    let s := running
    up.dev ≠ 2 ∧ s.dev = 2 ∧ s.fld (F.portState 0) = 0 ∧ s.flag (F.portParked 0) = false ∧ s.ladle.frames = [] ∧
    512 ≤ (dataFrame 512 64 false 0).dst.val ∧ (s.group 0).valid = false ∧ (dataFrame 511 64 false 0).dst.val < 512 ∧
    s.holdsLane 2 511 0 = false ∧ s.onchipCells + 64 ≤ 16384 * (64 - s.goneBanks.length) ∧
    s.riserCells + 63 ≤ 4194304 * (128 - s.goneRegions.length) ∧
    ran (.dataFrameIngress 0 (dataFrame 511 64 false 0)) s (fun t => t.ladle.nextFrame == 1) = true ∧
    ran (.dataFrameIngress 0 (dataFrame 512 64 false 0)) s (fun t => t.fld (F.ladCntCount 2) == 1) = true ∧
    full.allocate 1 = [] ∧ full.holdsLane 2 511 0 = false ∧ full.ladle.frames = [] ∧ Quiet full ∧ NoRecovery full 32 ∧ full.toRiser 0 = false ∧
    ran (.dataFrameIngress 0 (dataFrame 511 64 false 0)) full (fun t => t.ladle.nextFrame == 0 && t.fld (F.ladCntCount 5) == 1) = true := by decide

/-- A DATA header of the slot's sender, 0, to line card 1, with its CRC. -/
def header (tag : Nat) : BitVec 128 :=
  let body : BitVec 128 := BitVec.ofNat 128 (2 ^ 126 + 2 ^ 112 + tag * 2 ^ 24 + 64 * 2 ^ 40)
  body ||| ((crc16 ((List.range 14).map (headerByte body))).setWidth 128)
def rx (h : Option (BitVec 128)) (cut : Bool) (trailer : Word) : RxFrame :=
  { header := h, overlaps := false, cut := cut, payload := List.replicate 64 0#8, trailer := trailer }
def silent (words : List RxWord) : List RxLane := [3, 1, 0, 2].map fun l => { delimiter := delimiterOf l, words := words }

/-- A port that hears nothing, lanes in disorder and one without its delimiter; frames that are damaged, misdelivered, stomped, errored
and good. -/
theorem witness_BurstsIn :
    let s := running
    let tag := s.fld F.heatLiveTag
    let h := header tag
    let crc := crc32 (List.replicate 64 0#8)
    let after := fun (x : RxFrame) (i : Nat) => (s.rxFrames 0 tag 0 true [x]).fld (F.ladCntCount i)
    up.portOpen 0 = false ∧ s.portOpen 0 = true ∧ s.slotRec.isSome = true ∧ s.slotPerm.getD 512 unassigned = 0 ∧
    (burstCodes (silent [⟨16, 0⟩])).isSome = true ∧ burstCodes (silent []).tail = none ∧ ((silent []).map RxLane.delimiter).Nodup ∧
    crc16 ((List.range 14).map (headerByte h)) = h.extractLsb' 0 16 ∧ (h.extractLsb' 126 2).toNat = 1 ∧
    (h.extractLsb' 24 16).toNat = tag ∧ (h.extractLsb' 102 10).toNat = 0 ∧ h.getLsbD 57 = false ∧ (h.extractLsb' 112 10).toNat = 1 ∧
    h.getLsbD 58 = false ∧ (h.extractLsb' 40 14).toNat = 64 ∧ (h.extractLsb' 122 4).toNat = 0 ∧ h.getLsbD 61 = false ∧ h.getLsbD 59 = false ∧
    s.ladleSlot = true ∧ after (rx (some (header (tag + 1))) false crc) 3 = 1 ∧ after (rx (some 0) false crc) 2 = 1 ∧
    after (rx none true crc) 1 = 1 ∧ after (rx none false crc) 2 = 1 ∧ after (rx (some h) true crc) 1 = 1 ∧
    after (rx (some h) false (~~~crc)) 1 = 1 ∧ after (rx (some h) false (crc + 1)) 2 = 1 ∧ after (rx (some h) false crc) 2 = 0 := by decide

/-- Four codewords with 16 symbols in error are uncorrectable (R177). -/
theorem test_uncorrectable_codewords :
    ran (.ladleBurstReceive 0 0 0 (silent [⟨16, 0⟩])) running (fun t => t.fld (F.ladCntCount 4) == 4 && t.fld (F.portUncorr 0) == 4) = true := by
  decide

/-- A stored frame of flow 0 from line card 2 to line card 0. -/
def stored : Frame :=
  { src := 2, dst := 0, cls := 0, flow := 0, seq := 0, mcast := false, tag := 0, payload := List.replicate 64 0#8, trailer := 0, cells := [0],
    riser := 0, refs := 1, started := 0, coming := none, port := 0, against := false, queue := 0, setsExp := false }

/-- A port that does not meet its destination; and one whole frame alone in its queue. -/
theorem witness_BurstsOut :
    let r := flds running [(F.lsvCtrlShapeEn, 0)]
    let s := { r with ladle := { r.ladle with frames := [(7, stored)], queues := [(0, { entries := [.frame 7], profile := (r.queue 0).profile, inForce := 0 })] }
                      service := { r.service with active := [(0, [0])] } }
    let swapped := (List.range 592).map fun o => if o = 512 then 513 else if o = 513 then 512 else o
    let meets := { running with moulds := { running.moulds with store := [(9, { mould9 with perm := swapped })] } }
    s.outOpen 0 64 = false ∧ s.outOpen 0 0 = true ∧ s.burstNow 0 = none ∧ s.ladle.frames = [(7, stored)] ∧
    s.ladle.queues = [(0, { entries := [.frame 7], profile := (s.queue 0).profile, inForce := 0 })] ∧ s.service.active = [(0, [0])] ∧
    s.strict 0 = false ∧ s.flag F.lsvCtrlShapeEn = false ∧ s.service.deficit = [] ∧ stored.len + 20 ≤ s.slotBytes ∧
    stored.len + 20 ≤ s.fld (F.lsvQcfgQuantum 0) ∧ (s.flow 0).reseq = false ∧ s.service.released = [] ∧ s.service.marks = [] ∧
    s.ctlOf 0 = [] ∧ s.stoppedMask 0 = 0 ∧ s.globalXoff = false ∧ stored.against = false ∧ s.laneBlocked 2 0 0 = false ∧ (∀ p ∈ s.ladle.frames, p.2.coming = none) ∧
    meets.outOpen 0 513 = true ∧ meets.burstNow 0 = none ∧ stored.src < 1024 ∧ stored.payload.length < 2 ^ 14 := by decide

/-- KEEP; a HELLO that agrees and one that does not; marks refused and accepted; a mean offset to report; a lane held. -/
theorem witness_LineCards :
    let s := running
    let t := { s with service := { s.service with timing := [(0, (2, 40000, 0, 0, 0))], laneHeld := [9] } }
    up.dev ≠ 2 ∧ s.dev = 2 ∧ s.heats.now.isSome = true ∧ (511#16 : BitVec 16).toNat = 511 ∧ Quiet s ∧ NoRecovery s 40 ∧
    ([((0 : Fin 512), (5 : BitVec 22)), (511, 6)].map Prod.fst).Nodup ∧ s.markFits 0 1 0 0 = true ∧ s.markFits 0 2 0 0 = false ∧
    s.acceptedOf 8 = [] ∧ s.allocate 1 = [0] ∧ full.dev = 2 ∧ full.markFits 0 1 0 0 = true ∧ full.acceptedOf 8 = [] ∧ full.allocate 1 = [] ∧ Quiet full ∧
    NoRecovery full 32 ∧ ran (.laneMark 0 1 0 0 true) full (fun t => t.fld (F.ladCntCount 5) == 1) = true ∧ 0 < (2 : Nat) ∧ t.service.timing.get (fun _ => (0, 0, 0, 0, 0)) 0 = (2, 40000, 0, 0, 0) ∧
    (40000 : Int).natAbs ≤ 20000 * 2 ∧ (512 * 0 + 1) * 8 + 0 ∉ s.service.laneHeld ∧ (512 * 0 + 1) * 8 + 1 ∈ t.service.laneHeld ∧
    ran (.hello 511 510#16 false 0#16) s (fun t => t.ctlOf 511 == [.error 3 1 (s.reg R.heatLiveSerial) 0 511 s.time.net]) = true := by decide

/-- Spare 0 for port 63, a swap that serves, engines failed and recovered with a frame that comes in, and ports that park and unpark, a
spare that is to take over among them. -/
theorem witness_LadlePorts :
    let s := running
    let b := flds s [(F.ladSwapState 0, 2), (F.ladSwapFrom 0, 63), (F.portState 63, 3)]
    let f := flds s [(F.portState 63, 2), (F.ladCtrlAutoSwap, 0)]
    let p := flds s [(F.portParked 0, 1)]
    let spare := flds { up with heats := { up.heats with armed := some { liveHeat with swaps := [0] } } }
      [(F.ladSwapState 0, 1), (F.ladSwapEn 0, 1), (F.portParked 64, 1)]
    let coming := { s with ladle := { s.ladle with frames := [(7, { stored with coming := some 9, port := 63 })] } }
    Admitted s host (R.ladSwap 0) ∧ s.bus.hand = none ∧ s.fld (F.portState 64) = 1 ∧ 16 ∉ s.ladle.dark ∧ s.fld (F.portState 63) = 0 ∧
    s.fld (F.portSubst 63) = 63 ∧ (∀ o, o < 4 → s.fld (F.ladSwapState o) = 0) ∧ b.fld (F.ladSwapState 0) = 2 ∧
    b.fld (F.ladSwapFrom 0) = 63 ∧ b.fld (F.portState 63) = 3 ∧ Quiet f ∧ NoRecovery f 32 ∧ f.flag F.ladCtrlAutoSwap = false ∧
    f.fld (F.portState 63) = 2 ∧ 63 / 4 ∉ f.ladle.dark ∧ (∀ k, k < 4 → f.fld (F.ladSwapState k) = 0) ∧
    s.portOpen 67 = false ∧ s.portOpen 63 = true ∧ s.flag F.lsvCtrlParkEn = true ∧ p.fld (F.portState 0) = 0 ∧
    p.flag (F.portParked 0) = true ∧ p.dev = 2 ∧ p.flag F.lsvCtrlParkEn = true ∧ p.nextSlot 0 = some 1000000 ∧ Quiet p ∧ NoRecovery p 3 ∧
    s.dev = 2 ∧ (∀ k, k < 4 → s.fld (F.ladSwapState k) ≠ 1) ∧ s.burstNow 63 = none ∧
    coming.ladle.frames.find? 7 = some { stored with coming := some 9, port := 63 } ∧ coming.time.net < 9 ∧
    spare.fld (F.portState 64) = 1 ∧ spare.fld (F.ladSwapState 0) = 1 ∧ spare.flag (F.ladSwapEn 0) = true ∧
    (∃ h, spare.heats.armed = some h ∧ 64 - 64 ∈ h.swaps) ∧ spare.flag (F.portParked 64) = true := by
  decide

/-- A port that no slot of the heat uses parks. -/
theorem witness_LadlePorts_park :
    let s := { running with moulds := { running.moulds with store := [(9, { mould9 with perm := List.range 592 })] } }
    s.portOpen 63 = true ∧ s.flag F.lsvCtrlParkEn = true ∧ usesPort s.slotPerm 63 = false ∧ s.nextSlot 63 = none := by decide

/-- Segments in the riser and their reads; copies to make, held and to drop; a gap to skip; a frame still coming in; a group. -/
theorem witness_LadleBuffer :
    let with_ := fun (l : Ladle) => { running with ladle := l }
    let f := { stored with riser := 1, cells := [] }
    let seg := with_ { running.ladle with frames := [(7, f)] }
    let read := fun (n : Nat) => with_ { running.ladle with frames := [(7, f)], reading := [(0, n)] }
    let m := { stored with flow := 0x1FC000, queue := 16384, mcast := true }
    let c : HeldCopy := { group := 0, dst := 1, frame := 7, since := 0 }
    let mc := with_ { running.ladle with frames := [(7, m)], queues := [(16384, { entries := [.frame 7], profile := 0, inForce := 0 })],
                                         groups := [(0, { dests := 2, valid := true, self := false, drops := 0 })] }
    let hold := with_ { running.ladle with frames := [(7, m)], hold := [c] }
    let gap := with_ { running.ladle with flows := [(0, { Flow.zero with held := [(65535, 7, 0)], holdNs := 1000000, reseq := true })] }
    let cut := with_ { running.ladle with frames := [(7, { stored with coming := some 9, started := 1 })] }
    seg.ladle.frames.find? 7 = some f ∧ Quiet seg ∧ NoRecovery seg 32 ∧ seg.queueSeg 0 = true ∧
    seg.riserUp = true ∧ seg.queueOnchip 0 < 64 * seg.fld (F.ladProfPf (seg.queue 0).inForce) ∧ seg.ladle.reading.find? 0 = none ∧ running.queueSeg 0 = false ∧
    (read 3).ladle.reading.find? 0 = some 3 ∧ (read 1).ladle.reading.find? 0 = some 1 ∧ (read 1).segHead 0 = some (7, f) ∧
    f.riser ≤ ((read 1).allocate f.riser).length ∧ (full.allocate f.riser).length < f.riser ∧ (hold.ladle.frames.find? 7 = some m ∧ 0 ∈ m.cells) ∧
    (∀ p ∈ mc.ladle.frames, p.2.coming = none) ∧ 1 ≠ m.src ∧
    (mc.queue 16384).entries = [.frame 7] ∧ mc.ladle.frames.find? 7 = some m ∧ m.coming = none ∧ (mc.group 0).valid = true ∧
    (mc.group 0).dests = 2 ^ 1 ∧ mc.queueDepth (mc.classQueue 1 0 0x1FC000) < 64 * mc.fld F.ladMcCtrlAdmit ∧ mc.ladle.hold = [] ∧
    mc.holdHead 0 1 = none ∧ hold.holdHead 0 1 = some c ∧ hold.ladle.frames.find? 7 = some m ∧ m.refs = 1 ∧
    hold.queueDepth (hold.classQueue 1 0 0x1FC000) < 64 * hold.fld F.ladMcCtrlAdmit ∧ (running.flow 0).held = [] ∧
    (gap.flow 0).held = [(65535, 7, 0)] ∧ gap.reseqTimeout ≤ (gap.flow 0).holdNs - 0 ∧ running.ladle.frames.find? 7 = none ∧
    cut.ladle.frames.find? 7 = some { stored with coming := some 9, started := 1 } ∧ Admitted running host R.ladGrpCommit ∧
    (0x80003FFF#32 : Word).getLsbD 31 = true ∧ running.service.meter = none := by decide

/-- A queue of the hold that is full: 64 cells in each of its frames. -/
theorem witness_LadleBuffer_full :
    let s := { flds running [(F.ladMcCtrlAdmit, 1)] with ladle := { running.ladle with
      frames := [(7, { stored with cells := List.range 64 })], queues := [(32, { entries := [.frame 7], profile := 0, inForce := 0 })] } }
    64 * s.fld F.ladMcCtrlAdmit ≤ s.queueDepth 32 := by decide

/-! ## Jobs and claims -/

/-- A descriptor posted by PF0 outside START, and a job. -/
def posted : State := flds up [(ringEn 0, 1), (ringTail 0, 1), (F.glbStateSvc, 0), (F.glbStateDev, 2)]
def jobOf (kind : JobKind) (state : JobState) : Job :=
  { id := 1, kind := kind, state := state, evt := true, recovery := false, progress := 0, total := 1, cause := 0, hostSusp := false,
    preempted := false, past := false, stateLeft := false, endedAt := 0, lost := [] }
def withJobs (l : List Job) (c : SMap Claim) : State := { posted with jobs := { posted.jobs with table := l, claims := c } }

/-- A doorbell that posts the last place, one that shortens, one of another master, and a ring's control. -/
theorem witness_Doorbells :
    let s := flds posted [(ringTail 0, 14)]
    host.toNat % 128 = 0x58 ∧ NoWait s host ∧ s.answers host = true ∧ State.reset.answers host = false ∧ s.flag (ringEn 0) = true ∧
    (15#32 : Word).toNat < 2 ^ max 4 (min 12 (s.fld (ringSize 0))) ∧ s.fld (ringTail 0) = 14 ∧ s.fld (ringHead 0) = 0 ∧
    ¬((0x50#8 : Master).toNat % 128 = 0x58 ∨ (0x50#8 : Master).toNat % 128 = 0x59) ∧ Admitted s host R.jobRing0Ctrl ∧ s.bus.hand = none ∧
    ran (.jobDoorbell host 0 15#32) s (fun t => t.fld (ringTail 0) == 15) = true ∧
    ran (.jobDoorbell host 0 13#32) s (fun t => t.fld (ringTail 0) == 14) = true ∧
    ran (.jobDoorbell host 0x1000 15#32) s (fun t => t.fld F.busErrCountsPriv == 1) = true := by decide

/-- An idle ring; PF1, START and a bad field; and a descriptor that is taken. -/
theorem witness_Descriptors :
    let one := flds up [(ringEn 1, 1), (ringTail 1, 1)]
    descOf (.nop desc) = some (desc, true) ∧ (descOf (.startSurvey desc true)).map Prod.snd = some false ∧ up.flag (ringEn 0) = false ∧
    posted.flag (ringEn 0) = true ∧ posted.fld (ringHead 0) ≠ posted.fld (ringTail 0) ∧ one.flag (ringEn 1) = true ∧
    one.fld (ringHead 1) ≠ one.fld (ringTail 1) ∧ up.svc = 1 ∧ posted.svc ≠ 1 ∧ desc.zeroOk = true := by decide

/-- An accepted START of a type that runs; and one refused for its class, a full table, its argument, the state and an object. -/
theorem witness_Starts :
    let recovery : Desc := { desc with recovery := true }
    let busy := withJobs [jobOf (.bankRetire 63) .running] []
    let full := withJobs (List.replicate 32 (jobOf (.bankRetire 63) .done)) []
    let answers := fun (i : Instr) (s : State) (result : Nat) => ran i s fun t => (t.jobs.back.find? 0).any fun w => w.result == result
    Accepted posted desc ∧ posted.dev = 2 ∧ (withJobs [] []).jobs.table.length < 32 ∧ 32 ≤ full.jobs.table.length ∧
    answers (.startBankRetire desc 63) posted 0 = true ∧ answers (.startSurvey recovery true) posted 9 = true ∧
    answers (.startBankRetire desc 62) full 6 = true ∧ answers (.startElemRetire desc 5152 false false) posted 4 = true ∧
    answers (.startElemRetire desc 5151 false false) posted 0 = true ∧ answers (.startSurvey desc true) posted 5 = true ∧
    answers (.startBankRetire desc 63) busy 8 = true ∧ answers (.loadImage desc 4 1#32 false) posted 3 = true := by decide

/-- No job, and a job in each state that the opcodes tell apart. -/
theorem witness_JobOpcodes :
    let s := fun (st : JobState) => withJobs [jobOf (.bankRetire 63) st] []
    Accepted (s .running) desc ∧ Posted (s .running) desc ∧ posted.job 1 = none ∧
    (∀ st ∈ [JobState.queued, .running, .suspending, .suspended, .cancelling, .done],
      (s st).job 1 = some (jobOf (.bankRetire 63) st) ∧ (jobOf (.bankRetire 63) st).past = false) ∧
    (jobOf (.bankRetire 63) .suspended).preempted = false ∧ (s .queued).passOf 1 = none ∧ Room (s .queued) ∧ (s .queued).jobs.table = [jobOf (.bankRetire 63) .queued] := by
  decide

/-- A suspended calibration, whose pass holds nothing, and an activation that has changed no flask. -/
theorem witness_JobOpcodes_still :
    let p := { upPass true with job := 1, powerUp := false }
    let j := jobOf (.calFull 1) .suspended
    let s := withJobs [j] []
    let w := { s with cal := { s.cal with passes := [p] } }
    let f := jobOf (.fwActivate 2 true) .queued
    Accepted w desc ∧ w.job 1 = some j ∧ w.passOf 1 = some p ∧ p.bare = p ∧ (withJobs [f] []).job 1 = some f ∧ f.progress = 0 := by decide

/-- A preempted job whose claim another holds, for RESUME. -/
theorem witness_JobOpcodes_preempted :
    let j := { jobOf (.flaskMove 0 64) .suspended with preempted := true }
    let s := withJobs [j] [(0, { holder := some .host, standing := false, fifo := [] })]
    Accepted s desc ∧ s.job 1 = some j ∧ j.preempted = true ∧ s.met j = false ∧ s.met { j with hostSusp := false } = false := by decide

/-- A claim that is free, the host's, another's with the host waiting and without; and waiters at the head of a FIFO. -/
theorem witness_ClaimsAndConfig :
    let c := fun (h : Option Claimant) (f : List Claimant) => withJobs [jobOf (.bankRetire 63) .queued] [(70, { holder := h, standing := false, fifo := f })]
    Accepted posted desc ∧ (posted.jobs.claim 70).holder = none ∧ (posted.jobs.claim 70).fifo = [] ∧
    ((c (some .host) []).jobs.claim 70).holder = some .host ∧ ((c (some .engine) [.host]).jobs.claim 70).holder ≠ some .host ∧
    .host ∈ ((c (some .engine) [.host]).jobs.claim 70).fifo ∧ ((c none [.host]).jobs.claim 70).fifo = [.host] ∧ Room (c none [.host]) ∧
    ((c none [.job 1 false]).jobs.claim 70).fifo = [.job 1 false] ∧
    (c none [.job 1 false]).job 1 = some (jobOf (.bankRetire 63) .queued) ∧ (jobOf (.bankRetire 63) .queued).state.terminal = false := by
  decide

theorem witness_ClaimsAndConfig_crc : Accepted posted desc ∧ posted.configCrc ≠ ~~~posted.configCrc ∧
    ¬(false = true ∧ (0 : Word) ≠ posted.configCrc) := by
  refine ⟨by decide, ?_, by decide⟩
  intro h
  have := congrArg (fun w : Word => w.getLsbD 0) h
  simp at this

/-- A job in each state at its safe point, with each kind of work the statement names. -/
theorem witness_SafePoints :
    let s := fun (k : JobKind) (st : JobState) => withJobs [jobOf k st] []
    let j := { jobOf (.bankRetire 63) .running with stateLeft := true }
    let l := { jobOf (.calTransfer 1) .suspending with lost := [8] }
    let lost := withJobs [l] [(8, { holder := some (.job 1 false), standing := false, fifo := [] })]
    let lib := JobKind.mouldLib [⟨9#13, none, List.replicate 592 1023#10⟩]
    posted.job 1 = none ∧ (s (.bankRetire 63) .queued).job 1 = some (jobOf (.bankRetire 63) .queued) ∧
    (s (.bankRetire 63) .queued).met (jobOf (.bankRetire 63) .queued) = true ∧ (JobKind.bankRetire 63).runsIn 2 0 = true ∧
    (s (.bankRetire 63) .queued).compiling 1 = false ∧ Room (s lib .queued) ∧ (s lib .queued).met (jobOf lib .queued) = true ∧
    lib.runsIn 2 0 = true ∧ (s lib .queued).compiling 1 = false ∧ (jobOf lib .queued).cause = 0 ∧
    (withJobs [j] []).job 1 = some j ∧ j.past = false ∧ (withJobs [j] []).met j = true ∧ lost.job 1 = some l ∧ l.lost = [8] ∧
    lost.holds 1 8 = true ∧ (JobKind.calTransfer 1).runsIn 2 0 = true ∧ posted.dev = 2 ∧ posted.svc = 0 := by decide

/-- A safe point that transfers one element, one that frees a frame's cells in a bank, and passes that hold nothing. -/
theorem witness_SafePoints_work :
    let j := { jobOf (.calTransfer 3) .running with progress := 644, total := 1288 }
    let s := withJobs [j] []
    let b := jobOf (.bankRetire 0) .running
    let base := withJobs [b] []
    let r := { base with ladle := { base.ladle with retiringBanks := [0], frames := [(7, stored)] } }
    let f := jobOf (.calFull 1) .queued
    let q := withJobs [f] []
    s.job 1 = some j ∧ (maskTiles 3)[j.progress / 644]? = some 1 ∧ s.passOf 1 = none ∧ s.compiling 1 = false ∧ j.stateLeft = false ∧
    ¬(j.kind.counts = true ∨ 645 < j.progress ∨ j.total < 645) ∧ r.job 1 = some b ∧ 0 ∈ r.goneBanks ∧ (r.inBank 0).head? = some 7 ∧
    r.ladle.frames.find? 7 = some stored ∧ r.onchipCells + stored.cells.length + 16384 * r.goneBanks.length ≤ 64 * 16384 ∧
    q.job 1 = some f ∧ q.passOf 1 = none := by decide

theorem witness_JobEnds :
    let s := fun (k : JobKind) (st : JobState) (p : Bool) => withJobs [{ jobOf k st with past := p }] []
    let f := withJobs [{ jobOf (.flaskMove 0 64) .running with past := true }]
      [(0, { holder := some (.job 1 false), standing := false, fifo := [] })]
    let m := (flds f [(F.loopFlaskMapCore 0, 64)])
    let going := s (.bankRetire 63) .running false
    let last := { going with ladle := { going.ladle with retiringBanks := [63], retiringRegions := [127] } }
    let act := { jobOf (.fwActivate 2 true) .running with progress := 64, total := 64 }
    posted.job 1 = none ∧ going.passOf 1 = none ∧ 63 ∉ going.ladle.retiringBanks ∧ 63 ∈ last.ladle.retiringBanks ∧ last.inBank 63 = [] ∧
    127 ∈ last.ladle.retiringRegions ∧ (withJobs [act] []).job 1 = some act ∧ act.progress = 64 ∧
    Room (s (.bankRetire 63) .running false) ∧ (s (.bankRetire 63) .running false).dev ≠ 1 ∧
    (s (.bankRetire 63) .running false).job 1 = some (jobOf (.bankRetire 63) .running) ∧ NoRecovery posted 5 ∧
    (s (.coreRestart 81) .running true).bus.bursts = [] ∧ m.flaskCore 0 = 64 ∧ m.fld (F.loopFlaskMapState 0) = 0 ∧
    m.holds 1 0 = true ∧ m.coreTaken 64 = true ∧ (jobOf (.bankRetire 63) .done).state.terminal = true ∧
    (jobOf (.bankRetire 63) .running).state.terminal = false ∧ (jobOf (.bankRetire 63) .running).cause = 0 := by decide

theorem witness_FlowEdits : Admitted up host R.jobFlowEdit ∧ (0x88000000#32 : Word).getLsbD 31 = true ∧
    ran (.jobFlowEdit host 0xE4000005#32) up (fun t => (t.flow 5).reseq && !(t.flow 5).valid) = true := by decide

/-! ## Cope and drag -/

/-- The standby ready, with what CD holds. -/
def ready (c : CopeDrag) : State := flds { up with cd := c } [(F.cdStatusStby, 2)]
def arbit (trigger : Nat) : Option Arbitration := some { trigger := trigger, start := 0, tile := 15 }

/-- With and without an arbitration and a gap; the standby ready and not; CRC failures at and beyond the limit; a word streamed. -/
theorem witness_Detection :
    let s := ready up.cd
    let fails := fun (n : Nat) (e : Option Nat) => flds { up with cd := { up.cd with crcFails := [(0, List.replicate n 0)], crcEvent := e } }
      [(F.cdCtrlCrclim, 1)]
    let e : Streamed := { unit := 71, offset := 0, word := 5, at_ := 0 }
    let st := ready { up.cd with stream := [e] }
    up.cd.arb = none ∧ up.cd.gap = none ∧ ({ up.cd with gap := some (0, 6400) } : CopeDrag).gap ≠ none ∧
    (ready { up.cd with arb := arbit 1 }).cd.arb = arbit 1 ∧ (6 : Fin 8) ≠ 7 ∧ Die.cope = up.activeDie ∧ up.standbyReady = false ∧
    Die.drag ≠ s.activeDie ∧ s.standbyReady = true ∧ Quiet s ∧ NoRecovery s 14 ∧
    ¬max 1 (min 255 ((fails 0 none).fld F.cdCtrlCrclim)) <
      ((fails 0 none).time.now :: ((fails 0 none).cd.crcFails.get (fun _ => []) 0).filter fun t => (fails 0 none).time.now < t + 1000000).length ∧
    max 1 (min 255 ((fails 1 (some 0)).fld F.cdCtrlCrclim)) < ((fails 1 (some 0)).time.now ::
      ((fails 1 (some 0)).cd.crcFails.get (fun _ => []) 0).filter fun t => (fails 1 (some 0)).time.now < t + 1000000).length ∧
    (fails 1 (some 0)).cd.crcEvent = some 0 ∧ ¬0 + 1000000000 ≤ (fails 1 (some 0)).time.now ∧ (fails 0 none).cd.crcEvent = none ∧
    st.cd.stream = [e] ∧ up.cd.stream = [] ∧ st.getWord 71 st.standbyDie 0 ≠ 5 := by decide

/-- Each outcome of Table 15.3: the active die fails or passes, the standby is fit or not, ready or not, the arbiter agrees or not. -/
theorem witness_ArbitrationOutcomes :
    let s := ready { up.cd with arb := arbit 2 }
    let t := ready { up.cd with arb := arbit 1 }
    let d := ready { up.cd with arb := arbit 2, disagree := true }
    let n := { up with cd := { up.cd with arb := arbit 1 } }
    up.cd.arb = none ∧ s.cd.arb = arbit 2 ∧ t.cd.arb = arbit 1 ∧ n.cd.arb = arbit 1 ∧ s.fld F.cdStatusActive = 0 ∧
    s.fld F.cdHealthCope = 0 ∧ s.fld F.cdHealthDrag = 0 ∧ s.standbyReady = true ∧ n.standbyReady = false ∧ s.cd.disagree = false ∧
    d.cd.disagree = true ∧ Quiet s ∧ NoRecovery s 14 ∧ s.heats.decomposing = false ∧ s.events.replay.length + 64 ≤ 4096 ∧
    (0x80#8 : Byte).toNat % 128 = 0 ∧ (0x7F#8 : Byte).toNat % 128 ≠ 0 := by decide

/-- CD_CMD busy, not ready and accepted; a switch-over planned, with the banks sealed and not; a gap that ends. -/
theorem witness_SwitchOvers :
    let s := ready up.cd
    let p := ready { up.cd with planned := some 3 }
    let out := flds up [(F.cdStatusStby, 3)]
    let g := ready { up.cd with gap := some (0, 6400) }
    Admitted s host R.cdCmd ∧ s.cd.arb = none ∧ s.cd.gap = none ∧ g.cd.gap ≠ none ∧ s.standbyReady = true ∧ up.standbyReady = false ∧
    up.fld F.cdStatusStby ≠ 3 ∧ out.fld F.cdStatusStby = 3 ∧ Quiet s ∧ NoRecovery s 14 ∧ up.cd.planned = none ∧
    p.cd.planned = some 3 ∧ p.cd.disagree = false ∧ p.moulds.staged = none ∧ p.dev = 0 ∧ p.heats.decomposing = false ∧
    p.events.replay.length + 64 ≤ 4096 ∧ (withStaged (staged 15)).dev = 1 ∧ g.cd.gap = some (0, 6400) := by decide

theorem witness_StandbyReadiness :
    let s := { up with cd := { up.cd with compatOk := true } }
    up.cd.compatOk = false ∧ s.standbyReady = false ∧ s.cd.arb = none ∧ s.cd.gap = none ∧ s.cd.waitRejoin = false ∧ s.cd.compatOk = true ∧
    s.fld (healthFld s.standbyDie) = 0 ∧ Quiet s ∧ s.bus.sram.wf (fun _ => 0) = true ∧ NoRecovery s 14 ∧ s.cd.disagree = false := by decide

/-! ## Faults, thermal monitor, access lock -/

theorem witness_FaultStatus :
    let c : Standing := { source := 0x301, cls := 3, kind := 0, data := 0 }
    let s := flds { up with faults := { up.faults with standing := [c], pulseEnd := some 10000 } } [(F.fltStat 3 3, 1)]
    Admitted up host (R.fltSrc 3) ∧ up.faults.standing = [] ∧ Admitted s host (R.fltSrc 3) ∧ s.faults.standing = [c] ∧ c.source / 256 = 3 ∧
    c.source ≠ 0x410 ∧ (4#4 : BitVec 4).getLsbD 2 = true ∧ Quiet s ∧ (s.fld (F.fltAct 3 3)).testBit 2 = false ∧
    up.faults.pulseEnd = none ∧ s.faults.pulseEnd = some 10000 ∧ Quiet up ∧ NoRecovery up 3 := by decide

/-- A reading at the limit of 110 degC shuts the engine down; below it the state runs on. -/
theorem witness_Thermal :
    let s := flds up [(F.glbStateSvc, 0)]
    let r := fun (x : Int) => [some x] ++ List.replicate 15 none
    s.svc = 0 ∧ Quiet s ∧ (0 : Nat) < 12 ∧ (r 1760).getD 0 none = some 1760 ∧ (-640 : Int) ≤ 1760 ∧ (1760 : Int) ≤ 2400 ∧ s.power.shake = none ∧
    NoRecovery s 4 ∧ s.faults.standing = [] ∧ 100 ≤ s.fld F.thmStatusAdmit ∧
    ran (.thermalConversion (r 1760)) s (fun t => t.power.shake.isSome && t.fld F.thmStatusShutCh == 0) = true ∧
    ran (.thermalConversion (r 1759)) s (fun t => !t.power.shake.isSome) = true := by decide

theorem witness_LockLife :
    let s := flds up [(F.lockStatusDebug, 1), (F.lockStatusChal, 1)]
    let l := { up with lock := { up.lock with lockoutUntil := some 5 } }
    Admitted up host R.lockCmd ∧ host.toNat % 128 = 0x58 ∧ ¬((0x59#8 : Master).toNat % 128 = 0x58 ∨ (0x59#8 : Master).toNat % 128 = 0x5E) ∧
    Admitted up 0x50#8 R.lockCmd ∧ up.lockOpen = false ∧ s.lockOpen = true ∧ s.bus.bursts = [] ∧ s.bus.locked = none ∧ Quiet s ∧
    up.flag F.lockStatusChal = false ∧ s.flag F.lockStatusChal = true ∧ up.lock.lockoutUntil = none ∧ l.lock.lockoutUntil = some 5 ∧
    up.bus.hand = none := by decide

/-- Each gate of an attempt: a lockout, no challenge, nothing provisioned, a scope that the method does not open, and all in order. -/
theorem witness_LockAttempts :
    let chal := { up with regs := [(R.glbCaps, 0xE0000844#32), (R.lockStatus, 0x10000000#32)] }
    let none_ := { up with regs := [(R.glbCaps, 0x844#32)] }
    let out := flds up [(F.lockStatusLockout, 1)]
    Admitted up host R.lockCmd ∧ host.toNat % 128 = 0x58 ∧ out.flag F.lockStatusLockout = true ∧ up.flag F.lockStatusLockout = false ∧
    up.flag F.lockStatusChal = false ∧ none_.flag F.glbCapsChalKey = false ∧ none_.flag F.glbCapsPassword = false ∧
    Quiet up ∧ NoRecovery up 49 ∧ (2 : Fin 4) ≠ 1 ∧ (2 : Fin 4) ≠ 3 ∧
    chal.flag F.lockStatusLockout = false ∧ chal.flag F.lockStatusChal = true ∧ chal.flag F.glbCapsChalKey = true ∧
    chal.flag F.glbCapsPassword = true ∧ Quiet chal ∧ NoRecovery chal 49 := by decide

/-! ## Values that the spec's worked examples state -/

/-- The example of the completion rule in "Moulds and pours". -/
theorem test_completion_rule :
    (complete ((List.replicate 592 1023).set 3 7)).take 10 = [0, 1, 2, 7, 3, 4, 5, 6, 8, 9] := by decide

/-- Table 05.7: the trims that the default and the tuned gains answer to the errors of the table. -/
def trims (kp ki : Nat) (es : List Nat) : List Int :=
  let start : Image := [2, BitVec.ofNat 32 (kp + ki * 65536), 0, BitVec.ofNat 32 (8 + 2047 * 256), 0, 0, 1024, 0]
  let go := fun (p : Image × List Int) (e : Nat) =>
    let f : PassFrame := { words := List.replicate 64 0 ++ [BitVec.ofNat 32 (16 * e)], cellStates := [], seq := 0, rf := 65536 }
    let m := p.1.firstPass f 0
    (m, p.2 ++ [m.trimOut])
  (es.foldl go (start, [])).2

theorem test_element_law_default : trims 0x0400 0x4000 [40, 40, 20, 10, 10, 10, 7, 5, 4] = [20, 30, 30, 30, 33, 35, 36, 37, 38] := by decide
theorem test_element_law_tuned : trims 0x0200 0x6000 [40, 40, 20, 5] = [20, 35, 40, 40] := by decide

/-- The header of the example of "Fabric link". -/
theorem test_frame_header :
    let bytes := [0x40, 0x09, 0x02, 0x10, 0x04, 0x8D, 0x00, 0x04, 0x42, 0x23, 0x28, 0x10, 0x08, 0x00, 0, 0]
    let h : BitVec 128 := BitVec.ofNat 128 (bytes.foldl (fun a b => 256 * a + b) 0)
    (h.extractLsb' 126 2).toNat = 1 ∧ (h.extractLsb' 112 10).toNat = 9 ∧ (h.extractLsb' 102 10).toNat = 8 ∧
    (h.extractLsb' 40 14).toNat = 9000 ∧ (h.extractLsb' 24 16).toNat = 0x1008 ∧ h.getLsbD 61 = false := by decide

/-- The queues of the examples of "Ladle plane buffering" and "Ladle plane service and order". -/
theorem test_class_queues : up.classQueue 12 3 0x1FC025 = 397 ∧ up.classQueue 300 3 0x1FC025 = 9613 ∧ up.classQueue 301 3 0x1FC025 = 9645 ∧
    up.classQueue 9 2 0x1234 = 296 ∧ up.classQueue 9 2 0x1235 = 297 := by decide

/-- The masked writes of GLB_SW_FLAGS in the example of "Registers and interconnect": first MC1's, then PF0's. -/
theorem test_masked_write :
    let off := R.glbSwFlags
    let s := up.setReg off 1
    ran (.registerWrite 0x51#8 ⟨off, 4, 0x00020002, true⟩) s (fun t => t.reg off == 3 &&
      ran (.registerWrite host ⟨off, 4, 0x00050004, true⟩) t (fun u => u.reg off == 6)) = true := by decide

/-- The admission rate of the example of "Faults and thermal management": 67 % at 91.5 degC, 30 % at 99.0 degC. -/
theorem test_admission_rate :
    let r := fun (x : Int) => (List.replicate 9 none) ++ [some x] ++ List.replicate 6 none
    ran (.thermalConversion (r 1464)) (flds up [(F.glbStateSvc, 0)]) (fun t => t.fld F.thmStatusAdmit == 67) = true ∧
    ran (.thermalConversion (r 1584)) (flds up [(F.glbStateSvc, 0)]) (fun t => t.fld F.thmStatusAdmit == 30) = true := by decide

/-- SHA-256 of the empty string begins e3b0c442 (FIPS 180-4). -/
theorem test_sha256 : (Sha.sha256 []).take 4 = [0xe3#8, 0xb0#8, 0xc4#8, 0x42#8] := by decide


end Sys2Proof.Tests
end

section
/-!
PROOF. What an instruction of a running core does before its own effect: the checks of its operands (R240), and a condition
that is false (R241); with these, the statements on suppressed instructions and on LIVE (R245).
-/
namespace Sys2Proof.Machine

/-! ## Profiles and fields of the encoding -/

theorem isLoop_of_loop {c : CoreId} (h : c.kind = .loop) : isLoop c = true := by simp [isLoop, h]

theorem isS_iff (c : CoreId) : isS c = true ↔ c.kind ≠ .loop := by simp [isS]

/-- imm[15:13], the condition of a store (R240). -/
theorem immTop_eq_div (f : FormB) : immTop f = f.imm.toNat / 8192 := by
  have := f.imm.isLt
  simp only [immTop, BitVec.extractLsb'_toNat, Nat.shiftRight_eq_div_pow]
  omega

/-- imm[15:5] is zero exactly when the immediate is below 32 (R245). -/
theorem imm_high_eq_zero_iff (imm : BitVec 16) : imm.extractLsb' 5 11 = 0#11 ↔ imm.toNat < 32 := by
  have := imm.isLt
  rw [← BitVec.toNat_inj, BitVec.extractLsb'_toNat, Nat.shiftRight_eq_div_pow, BitVec.toNat_ofNat]
  omega

/-- imm[4:0] is the whole immediate when imm[15:5] is zero. -/
theorem imm_low_of_lt {imm : BitVec 16} (h : imm.toNat < 32) : bitsOf (imm.setWidth 32) 4 0 = imm.toNat := by
  simp only [bitsOf, BitVec.extractLsb'_toNat, BitVec.toNat_setWidth, Nat.shiftRight_zero]
  omega

/-! ## A running core, its checks passed or failed -/

section Running
variable {s : State} {c : CoreId} (h : Running s c)
include h

theorem onCore_legal (enc : Word) (effect : Core → State → State) :
    s.onCore c true enc effect = effect (s.core c.master) s := by
  obtain ⟨hruns, hclock⟩ := h
  simp [State.onCore, hruns, hclock]

theorem onCore_illegal (enc : Word) (effect : Core → State → State) :
    s.onCore c false enc effect = s.trap c tIllegal 0 enc := by
  obtain ⟨hruns, hclock⟩ := h
  simp [State.onCore, hruns, hclock]

theorem pure_legal (enc : Word) (cycles : Nat) (g : Core → Core) :
    .next (s.pure c true enc cycles g) = Retires s c cycles (g (s.core c.master)) := by
  rw [State.pure, onCore_legal h, Retires]

theorem pure_illegal (enc : Word) (cycles : Nat) (g : Core → Core) :
    s.pure c false enc cycles g = s.trap c tIllegal 0 enc := onCore_illegal h enc _

end Running

/-- A trap of a loop core outside a handler is its entry and nothing else: it abandons no decomposition (R253). -/
theorem trap_of_loop {s : State} {c : CoreId} (hloop : c.kind = .loop) (hout : (s.core c.master).inTrap = false)
    (cause code : Nat) (tval : Word) :
    s.trap c cause code tval = s.setCore c.master ((s.core c.master).enter cause code tval) := by
  simp [State.trap, State.handlerAbandons, hout, hloop]

/-! ## Suppressed instructions (R241) -/

section Suppressed
variable {s : State} {c : CoreId} (h : Running s c)
include h

/-- A form D instruction that its core's profile has retires, whatever its effect, when its condition is false. -/
theorem formD_suppressed {f : FormD} (hcond : (s.core c.master).cond3 f.cond.toNat = false) {legal : Bool}
    (hlegal : legal = true) (major sub cycles : Nat) (effect : Core → State → State) :
    .next (s.formD c legal f major sub cycles effect) = Retires s c cycles (s.core c.master) := by
  rw [State.formD, hlegal, onCore_legal h, hcond]
  rfl

theorem tileIo_suppressed {f : FormD} (hcond : (s.core c.master).cond3 f.cond.toNat = false) (hloop : c.kind = .loop)
    (sub limit : Nat) (bounded : Bool) (effect : Core → Nat → Nat → State → State) :
    .next (s.tileIo c f sub limit bounded effect) = Retires s c 1 (s.core c.master) :=
  formD_suppressed h hcond (isLoop_of_loop hloop) _ _ _ _

/-- SMPU of a quantity that exists is a tile I/O instruction (Table 11.9). -/
theorem smpu_suppressed {f : FormD} (hcond : (s.core c.master).cond3 f.cond.toNat = false) (hloop : c.kind = .loop)
    (hrd : f.rd.toNat < 2) : .next (s.smpu c f) = Retires s c 1 (s.core c.master) := by
  rw [State.smpu, if_neg (Nat.not_le.mpr hrd)]
  exact tileIo_suppressed h hcond hloop _ _ _ _

/-- A suppressed store retires, whatever the alignment of its register group and of its address. -/
theorem store_suppressed {f : FormB} (hcond : (s.core c.master).cond3 (f.imm.toNat / 8192) = false)
    (major n group : Nat) :
    .next (s.store c f major n group) = Retires s c (if isS c ∧ n = 32 then 2 else 1) (s.core c.master) := by
  rw [← immTop_eq_div] at hcond
  have hlegal : (f.rd.toNat % group == 0 || s.suppressed c (immTop f)) = true := by simp [State.suppressed, hcond]
  rw [State.store, hlegal, onCore_legal h, hcond]
  rfl

end Suppressed

/-- Settles O33: the shape of form D and of the stores asks the condition before anything that reads an operand. -/
theorem suppressedInstructionsDoNothing : Obligations.SuppressedInstructionsDoNothing := by
  unfold Obligations.SuppressedInstructionsDoNothing
  intro s c h
  simp only [List.forall_mem_cons, List.not_mem_nil, false_imp_iff, implies_true, and_true]
  refine ⟨fun f hcond => ⟨fun hloop => ?tile, ?urgent, fun hS => ?profileS, ?system⟩, fun f hcond => ⟨?stores, ?str⟩⟩
  case tile =>
    have retires := tileIo_suppressed h hcond hloop
    exact ⟨retires .., retires .., retires .., retires .., retires .., retires .., retires ..⟩
  case urgent => exact smpu_suppressed h hcond
  case profileS =>
    have hprofile := (isS_iff c).mpr hS
    have hpair : (isS c && (isPair f.rd || s.suppressed c f.cond.toNat)) = true := by
      simp [hprofile, State.suppressed, hcond]
    have retires := formD_suppressed h hcond hprofile
    exact ⟨retires .., retires .., retires .., formD_suppressed h hcond hpair ..⟩
  case system =>
    have retires := formD_suppressed h hcond rfl
    exact ⟨retires .., retires .., retires .., retires .., retires .., retires .., retires ..⟩
  case stores =>
    have retires : ∀ major n group, n ≠ 32 → .next (s.store c f major n group) = Retires s c 1 (s.core c.master) :=
      fun major n group hn => by simpa [hn] using store_suppressed h hcond major n group
    exact ⟨retires _ 4 _ (by decide), retires _ 2 _ (by decide), retires _ 16 _ (by decide)⟩
  case str =>
    have hcycles : (if isS c ∧ 32 = 32 then 2 else 1) = if c.kind = .loop then 1 else 2 := by
      simp only [isS_iff, and_true, ite_not]
    exact (store_suppressed h hcond 0x17 32 8).trans (by rw [hcycles])

/-! ## LIVE (R245) -/

theorem exec_live (c : CoreId) (f : FormB) (s : State) : exec (.live c f) s = execLive c f s := rfl

theorem image_state (k : Core) : k.image.state = (k.r 8).toNat % 8 := by
  simp [Image.state, Image.get, Core.image, bitsOf, BitVec.extractLsb'_toNat]

/-- A loop is not to be computed when it is neither LOCKING nor LOCKED, or is held. -/
theorem dead_eq_decide (m : Image) (held : Bool) :
    m.dead held = decide ((m.state ≠ lLocking ∧ m.state ≠ lLocked) ∨ held = true) := by
  rw [Bool.eq_iff_iff]
  simp [Image.dead]

/-- Settles O34: the check of imm[15:5] says whether LIVE traps or computes Z from the image's STATE and the bit of rs. -/
theorem liveFlag : Obligations.LiveFlag := by
  unfold Obligations.LiveFlag
  intro s c f h hloop
  have hlegal : (isLoop c && f.imm.extractLsb' 5 11 == 0#11) = decide (f.imm.toNat < 32) := by
    rw [isLoop_of_loop hloop, Bool.true_and, Bool.beq_eq_decide_eq]
    exact decide_eq_decide.mpr (imm_high_eq_zero_iff f.imm)
  refine ⟨fun himm => ?computed, fun himm hout => ?illegal⟩
  case computed =>
    rw [exec_live, execLive, hlegal, decide_eq_true himm, pure_legal h, dead_eq_decide, image_state, imm_low_of_lt himm]
    rfl
  case illegal =>
    rw [exec_live, execLive, hlegal, decide_eq_false (Nat.not_lt.mpr himm), pure_illegal h, trap_of_loop hloop hout]
    rfl

end Sys2Proof.Machine
end
